-- ==== Sys2Proof/Word.lean ====
section
/-! DEFINITION. The word types of the machine (00_scope R7, R9): a byte, a halfword, a word and a doubleword. -/

namespace Sys2Proof

/-- 8 bits. -/
abbrev Byte := BitVec 8
/-- 16 bits. -/
abbrev Half := BitVec 16
/-- 32 bits: a register, an address, an ARM instruction (R7). -/
abbrev Word := BitVec 32
/-- 64 bits: the result of a long multiply (R502). -/
abbrev Dword := BitVec 64

end Sys2Proof
end

