-- ==== Sys2Proof/Config.lean ====
section
/-! DEFINITION. What an implementation fixes (the parameters of 00_scope R8) and the free values (draw(), R8, R13). -/

namespace Sys2Proof

/-- IO_DEVICE_POLICY (10_state R126, D9): what a write to an unmodelled I/O register does. -/
inductive IoPolicy where
  | store
  | refuse
deriving DecidableEq, Repr

/-- RESET_REG_POLICY (10_state R133, 20_memory R231, D23, D25). -/
inductive RegPolicy where
  | zero
  | unspecified
deriving DecidableEq, Repr

/-- The parameters of 00_scope R8 that stay fixed as the machine runs. They stand in State as plain data, so that
a statement about every state holds for every value of them (DESIGN CHOICE, log 3). -/
structure Params where
  /-- IO_DEVICE_POLICY, D9 -/
  ioPolicy : IoPolicy
  /-- MODE_CHANGE_SPSR_COPY, D15 -/
  modeChangeSpsrCopy : Bool
  /-- RESET_REG_POLICY, D23, D25 -/
  resetRegPolicy : RegPolicy
  /-- PC_HISTORY_LEN, D33 -/
  pcHistoryLen : Nat
  /-- TEST_ROM_IMAGE, D55 -/
  testRom : List Byte
deriving DecidableEq, Repr

/-- Which reader of the bus an access belongs to. Only draw registers tell them apart (10_state R120). -/
inductive Access where
  | fetch
  | data
  | host
  | ppu
deriving DecidableEq, Repr

/-- Which of the values the spec leaves to `draw()` a free value stands for. -/
inductive DrawTag where
  /-- C after a multiply with S = 1 (41 R501, 44 R833) -/
  | mulCarry
  /-- V after a long multiply with S = 1 (41 R501) -/
  | mulOverflow
  /-- MRS Rd, SPSR in User or System mode (41 R520) -/
  | mrsSpsr
  /-- a read of DISPSTAT or VCOUNT at an I/O offset (10_state R120) -/
  | ioRead (acc : Access) (offset : Nat)
  /-- a pixel of a frame in background mode 6 or 7 (47 R1101) -/
  | pixel (x y : Nat)
  /-- a general register at power-on under RESET_REG_POLICY = unspecified (10_state R133) -/
  | resetReg (n : Nat)
  /-- an SPSR at power-on under RESET_REG_POLICY = unspecified (10_state R133) -/
  | resetSpsr (n : Nat)
  /-- a byte of RAM at power-on under RESET_REG_POLICY = unspecified (20_memory R231) -/
  | resetMem (key : Nat)
deriving DecidableEq, Repr

/-- The oracle `draw` (00_scope R8, R13): a free value for each epoch (State.draws) and tag. No body: nothing
constrains it. Log 5. -/
opaque Config.draw : Nat → DrawTag → Word

/-- The disassembly of an ARM word: total and deterministic, its text is not given (30 R333, 60 R1252, 93 U4). Log 18. -/
opaque Config.disassembleArm : Word → String

/-- The disassembly of a Thumb halfword, as above. Log 18. -/
opaque Config.disassembleThumb : Half → String

end Sys2Proof
end

