-- ==== Sys2Proof/Syntax.lean ====
section
/-! DEFINITION. The instructions as syntax: one constructor per row of opcode_table.json, in the table's order, each with every
field its encoding gives it (30_encoding R301, R302, R320 to R322), ignored fields included (R313, R331; log 11). -/

namespace Sys2Proof

/-- An ARM register field: R0 to R15. -/
abbrev Reg := BitVec 4

/-- A Thumb register field of three bits: R0 to R7. -/
abbrev LoReg := BitVec 3

/-- The condition field (40 R400). The sixteenth value, NV, is an instruction of its own (`Instr.nv`, R403). -/
inductive Cond where
  | eq | ne | cs | cc | mi | pl | vs | vc | hi | ls | ge | lt | gt | le | al
deriving DecidableEq, Repr

/-- The shift field of formats A1, A2 and A14 (30 R302). -/
inductive ShiftKind where
  | lsl | lsr | asr | ror
deriving DecidableEq, Repr

/-- The instructions. A docstring names the format and the rule of the meaning. -/
inductive Instr where
  /-- NV__any: cond = 1111, never executed (R403); body is bits 27:0 -/
  | nv (body : BitVec 28)
  /-- BX: A10, R702 -/
  | bx (c : Cond) (rm : Reg)
  /-- MUL: A7, R510; rn is the ignored SBZ field 15:12 -/
  | mul (c : Cond) (sf : Bool) (rd rn rs rm : Reg)
  /-- MLA: A7, R511 -/
  | mla (c : Cond) (sf : Bool) (rd rn rs rm : Reg)
  /-- UMULL: A8, R512 -/
  | umull (c : Cond) (sf : Bool) (rdHi rdLo rs rm : Reg)
  /-- UMLAL: A8, R513 -/
  | umlal (c : Cond) (sf : Bool) (rdHi rdLo rs rm : Reg)
  /-- SMULL: A8, R514 -/
  | smull (c : Cond) (sf : Bool) (rdHi rdLo rs rm : Reg)
  /-- SMLAL: A8, R515 -/
  | smlal (c : Cond) (sf : Bool) (rdHi rdLo rs rm : Reg)
  /-- SWP: A9, R660 -/
  | swp (c : Cond) (rn rd rm : Reg)
  /-- SWPB: A9, R661 -/
  | swpb (c : Cond) (rn rd rm : Reg)
  /-- STRH_imm: A12, R621; imm8 is immH : immL -/
  | strhImm (c : Cond) (p u w : Bool) (rn rd : Reg) (imm8 : BitVec 8)
  /-- STRH_reg: A11, R621; sbz is bits 11:8 -/
  | strhReg (c : Cond) (p u w : Bool) (rn rd : Reg) (sbz : BitVec 4) (rm : Reg)
  /-- LDRH_imm: A12, R620; imm8 is immH : immL -/
  | ldrhImm (c : Cond) (p u w : Bool) (rn rd : Reg) (imm8 : BitVec 8)
  /-- LDRH_reg: A11, R620; sbz is bits 11:8 -/
  | ldrhReg (c : Cond) (p u w : Bool) (rn rd : Reg) (sbz : BitVec 4) (rm : Reg)
  /-- LDRSB_imm: A12, R622; imm8 is immH : immL -/
  | ldrsbImm (c : Cond) (p u w : Bool) (rn rd : Reg) (imm8 : BitVec 8)
  /-- LDRSB_reg: A11, R622; sbz is bits 11:8 -/
  | ldrsbReg (c : Cond) (p u w : Bool) (rn rd : Reg) (sbz : BitVec 4) (rm : Reg)
  /-- LDRSH_imm: A12, R623; imm8 is immH : immL -/
  | ldrshImm (c : Cond) (p u w : Bool) (rn rd : Reg) (imm8 : BitVec 8)
  /-- LDRSH_reg: A11, R623; sbz is bits 11:8 -/
  | ldrshReg (c : Cond) (p u w : Bool) (rn rd : Reg) (sbz : BitVec 4) (rm : Reg)
  /-- LDRD_space: A11/A12 with L = 0, S H = 10, R312; i is bit 22 -/
  | ldrdSpace (c : Cond) (p u i w : Bool) (rn rd : Reg) (hi lo : BitVec 4)
  /-- STRD_space: A11/A12 with L = 0, S H = 11, R312; i is bit 22 -/
  | strdSpace (c : Cond) (p u i w : Bool) (rn rd : Reg) (hi lo : BitVec 4)
  /-- UND_mulspace: rule R311 row 6, R720; body is bits 27:0 -/
  | undMulspace (c : Cond) (body : BitVec 28)
  /-- MRS: A4, R520; r selects the SPSR -/
  | mrs (c : Cond) (r : Bool) (rd : Reg)
  /-- MSR_reg: A5, R522; mask is field_mask -/
  | msrReg (c : Cond) (r : Bool) (mask : BitVec 4) (rm : Reg)
  /-- MSR_imm: A6, R523 -/
  | msrImm (c : Cond) (r : Bool) (mask rot : BitVec 4) (imm8 : BitVec 8)
  /-- UND_psrspace: rule R311 row 10, R720; body is bits 27:0 -/
  | undPsrspace (c : Cond) (body : BitVec 28)
  /-- AND_imm: A3, R420 -/
  | andImm (c : Cond) (sf : Bool) (rn rd : Reg) (rot : BitVec 4) (imm8 : BitVec 8)
  /-- AND_ishift: A1, R420 -/
  | andIshift (c : Cond) (sf : Bool) (rn rd : Reg) (amt : BitVec 5) (sh : ShiftKind) (rm : Reg)
  /-- AND_rshift: A2, R420 -/
  | andRshift (c : Cond) (sf : Bool) (rn rd rs : Reg) (sh : ShiftKind) (rm : Reg)
  /-- EOR_imm: A3, R421 -/
  | eorImm (c : Cond) (sf : Bool) (rn rd : Reg) (rot : BitVec 4) (imm8 : BitVec 8)
  /-- EOR_ishift: A1, R421 -/
  | eorIshift (c : Cond) (sf : Bool) (rn rd : Reg) (amt : BitVec 5) (sh : ShiftKind) (rm : Reg)
  /-- EOR_rshift: A2, R421 -/
  | eorRshift (c : Cond) (sf : Bool) (rn rd rs : Reg) (sh : ShiftKind) (rm : Reg)
  /-- SUB_imm: A3, R422 -/
  | subImm (c : Cond) (sf : Bool) (rn rd : Reg) (rot : BitVec 4) (imm8 : BitVec 8)
  /-- SUB_ishift: A1, R422 -/
  | subIshift (c : Cond) (sf : Bool) (rn rd : Reg) (amt : BitVec 5) (sh : ShiftKind) (rm : Reg)
  /-- SUB_rshift: A2, R422 -/
  | subRshift (c : Cond) (sf : Bool) (rn rd rs : Reg) (sh : ShiftKind) (rm : Reg)
  /-- RSB_imm: A3, R423 -/
  | rsbImm (c : Cond) (sf : Bool) (rn rd : Reg) (rot : BitVec 4) (imm8 : BitVec 8)
  /-- RSB_ishift: A1, R423 -/
  | rsbIshift (c : Cond) (sf : Bool) (rn rd : Reg) (amt : BitVec 5) (sh : ShiftKind) (rm : Reg)
  /-- RSB_rshift: A2, R423 -/
  | rsbRshift (c : Cond) (sf : Bool) (rn rd rs : Reg) (sh : ShiftKind) (rm : Reg)
  /-- ADD_imm: A3, R424 -/
  | addImm (c : Cond) (sf : Bool) (rn rd : Reg) (rot : BitVec 4) (imm8 : BitVec 8)
  /-- ADD_ishift: A1, R424 -/
  | addIshift (c : Cond) (sf : Bool) (rn rd : Reg) (amt : BitVec 5) (sh : ShiftKind) (rm : Reg)
  /-- ADD_rshift: A2, R424 -/
  | addRshift (c : Cond) (sf : Bool) (rn rd rs : Reg) (sh : ShiftKind) (rm : Reg)
  /-- ADC_imm: A3, R425 -/
  | adcImm (c : Cond) (sf : Bool) (rn rd : Reg) (rot : BitVec 4) (imm8 : BitVec 8)
  /-- ADC_ishift: A1, R425 -/
  | adcIshift (c : Cond) (sf : Bool) (rn rd : Reg) (amt : BitVec 5) (sh : ShiftKind) (rm : Reg)
  /-- ADC_rshift: A2, R425 -/
  | adcRshift (c : Cond) (sf : Bool) (rn rd rs : Reg) (sh : ShiftKind) (rm : Reg)
  /-- SBC_imm: A3, R426 -/
  | sbcImm (c : Cond) (sf : Bool) (rn rd : Reg) (rot : BitVec 4) (imm8 : BitVec 8)
  /-- SBC_ishift: A1, R426 -/
  | sbcIshift (c : Cond) (sf : Bool) (rn rd : Reg) (amt : BitVec 5) (sh : ShiftKind) (rm : Reg)
  /-- SBC_rshift: A2, R426 -/
  | sbcRshift (c : Cond) (sf : Bool) (rn rd rs : Reg) (sh : ShiftKind) (rm : Reg)
  /-- RSC_imm: A3, R427 -/
  | rscImm (c : Cond) (sf : Bool) (rn rd : Reg) (rot : BitVec 4) (imm8 : BitVec 8)
  /-- RSC_ishift: A1, R427 -/
  | rscIshift (c : Cond) (sf : Bool) (rn rd : Reg) (amt : BitVec 5) (sh : ShiftKind) (rm : Reg)
  /-- RSC_rshift: A2, R427 -/
  | rscRshift (c : Cond) (sf : Bool) (rn rd rs : Reg) (sh : ShiftKind) (rm : Reg)
  /-- TST_imm: A3, R428; rd is the SBZ field 15:12 -/
  | tstImm (c : Cond) (rn rd : Reg) (rot : BitVec 4) (imm8 : BitVec 8)
  /-- TST_ishift: A1, R428; rd is the SBZ field 15:12 -/
  | tstIshift (c : Cond) (rn rd : Reg) (amt : BitVec 5) (sh : ShiftKind) (rm : Reg)
  /-- TST_rshift: A2, R428; rd is the SBZ field 15:12 -/
  | tstRshift (c : Cond) (rn rd rs : Reg) (sh : ShiftKind) (rm : Reg)
  /-- TEQ_imm: A3, R429; rd is the SBZ field 15:12 -/
  | teqImm (c : Cond) (rn rd : Reg) (rot : BitVec 4) (imm8 : BitVec 8)
  /-- TEQ_ishift: A1, R429; rd is the SBZ field 15:12 -/
  | teqIshift (c : Cond) (rn rd : Reg) (amt : BitVec 5) (sh : ShiftKind) (rm : Reg)
  /-- TEQ_rshift: A2, R429; rd is the SBZ field 15:12 -/
  | teqRshift (c : Cond) (rn rd rs : Reg) (sh : ShiftKind) (rm : Reg)
  /-- CMP_imm: A3, R430; rd is the SBZ field 15:12 -/
  | cmpImm (c : Cond) (rn rd : Reg) (rot : BitVec 4) (imm8 : BitVec 8)
  /-- CMP_ishift: A1, R430; rd is the SBZ field 15:12 -/
  | cmpIshift (c : Cond) (rn rd : Reg) (amt : BitVec 5) (sh : ShiftKind) (rm : Reg)
  /-- CMP_rshift: A2, R430; rd is the SBZ field 15:12 -/
  | cmpRshift (c : Cond) (rn rd rs : Reg) (sh : ShiftKind) (rm : Reg)
  /-- CMN_imm: A3, R431; rd is the SBZ field 15:12 -/
  | cmnImm (c : Cond) (rn rd : Reg) (rot : BitVec 4) (imm8 : BitVec 8)
  /-- CMN_ishift: A1, R431; rd is the SBZ field 15:12 -/
  | cmnIshift (c : Cond) (rn rd : Reg) (amt : BitVec 5) (sh : ShiftKind) (rm : Reg)
  /-- CMN_rshift: A2, R431; rd is the SBZ field 15:12 -/
  | cmnRshift (c : Cond) (rn rd rs : Reg) (sh : ShiftKind) (rm : Reg)
  /-- ORR_imm: A3, R432 -/
  | orrImm (c : Cond) (sf : Bool) (rn rd : Reg) (rot : BitVec 4) (imm8 : BitVec 8)
  /-- ORR_ishift: A1, R432 -/
  | orrIshift (c : Cond) (sf : Bool) (rn rd : Reg) (amt : BitVec 5) (sh : ShiftKind) (rm : Reg)
  /-- ORR_rshift: A2, R432 -/
  | orrRshift (c : Cond) (sf : Bool) (rn rd rs : Reg) (sh : ShiftKind) (rm : Reg)
  /-- MOV_imm: A3, R433; rn is the ignored SBZ field 19:16 -/
  | movImm (c : Cond) (sf : Bool) (rn rd : Reg) (rot : BitVec 4) (imm8 : BitVec 8)
  /-- MOV_ishift: A1, R433; rn is the ignored SBZ field 19:16 -/
  | movIshift (c : Cond) (sf : Bool) (rn rd : Reg) (amt : BitVec 5) (sh : ShiftKind) (rm : Reg)
  /-- MOV_rshift: A2, R433; rn is the ignored SBZ field 19:16 -/
  | movRshift (c : Cond) (sf : Bool) (rn rd rs : Reg) (sh : ShiftKind) (rm : Reg)
  /-- BIC_imm: A3, R434 -/
  | bicImm (c : Cond) (sf : Bool) (rn rd : Reg) (rot : BitVec 4) (imm8 : BitVec 8)
  /-- BIC_ishift: A1, R434 -/
  | bicIshift (c : Cond) (sf : Bool) (rn rd : Reg) (amt : BitVec 5) (sh : ShiftKind) (rm : Reg)
  /-- BIC_rshift: A2, R434 -/
  | bicRshift (c : Cond) (sf : Bool) (rn rd rs : Reg) (sh : ShiftKind) (rm : Reg)
  /-- MVN_imm: A3, R435; rn is the ignored SBZ field 19:16 -/
  | mvnImm (c : Cond) (sf : Bool) (rn rd : Reg) (rot : BitVec 4) (imm8 : BitVec 8)
  /-- MVN_ishift: A1, R435; rn is the ignored SBZ field 19:16 -/
  | mvnIshift (c : Cond) (sf : Bool) (rn rd : Reg) (amt : BitVec 5) (sh : ShiftKind) (rm : Reg)
  /-- MVN_rshift: A2, R435; rn is the ignored SBZ field 19:16 -/
  | mvnRshift (c : Cond) (sf : Bool) (rn rd rs : Reg) (sh : ShiftKind) (rm : Reg)
  /-- UND_A15: A15, R720; hi is bits 24:5, lo is bits 3:0 -/
  | undA15 (c : Cond) (hi : BitVec 20) (lo : BitVec 4)
  /-- STR_imm_pre: A13, R611 -/
  | strImmPre (c : Cond) (u w : Bool) (rn rd : Reg) (imm12 : BitVec 12)
  /-- STR_imm_post: A13, R611 -/
  | strImmPost (c : Cond) (u : Bool) (rn rd : Reg) (imm12 : BitVec 12)
  /-- STRT_imm: A13, R615 -/
  | strtImm (c : Cond) (u : Bool) (rn rd : Reg) (imm12 : BitVec 12)
  /-- STR_reg_pre: A14, R611 -/
  | strRegPre (c : Cond) (u w : Bool) (rn rd : Reg) (amt : BitVec 5) (sh : ShiftKind) (rm : Reg)
  /-- STR_reg_post: A14, R611 -/
  | strRegPost (c : Cond) (u : Bool) (rn rd : Reg) (amt : BitVec 5) (sh : ShiftKind) (rm : Reg)
  /-- STRT_reg: A14, R615 -/
  | strtReg (c : Cond) (u : Bool) (rn rd : Reg) (amt : BitVec 5) (sh : ShiftKind) (rm : Reg)
  /-- LDR_imm_pre: A13, R610 -/
  | ldrImmPre (c : Cond) (u w : Bool) (rn rd : Reg) (imm12 : BitVec 12)
  /-- LDR_imm_post: A13, R610 -/
  | ldrImmPost (c : Cond) (u : Bool) (rn rd : Reg) (imm12 : BitVec 12)
  /-- LDRT_imm: A13, R614 -/
  | ldrtImm (c : Cond) (u : Bool) (rn rd : Reg) (imm12 : BitVec 12)
  /-- LDR_reg_pre: A14, R610 -/
  | ldrRegPre (c : Cond) (u w : Bool) (rn rd : Reg) (amt : BitVec 5) (sh : ShiftKind) (rm : Reg)
  /-- LDR_reg_post: A14, R610 -/
  | ldrRegPost (c : Cond) (u : Bool) (rn rd : Reg) (amt : BitVec 5) (sh : ShiftKind) (rm : Reg)
  /-- LDRT_reg: A14, R614 -/
  | ldrtReg (c : Cond) (u : Bool) (rn rd : Reg) (amt : BitVec 5) (sh : ShiftKind) (rm : Reg)
  /-- STRB_imm_pre: A13, R613 -/
  | strbImmPre (c : Cond) (u w : Bool) (rn rd : Reg) (imm12 : BitVec 12)
  /-- STRB_imm_post: A13, R613 -/
  | strbImmPost (c : Cond) (u : Bool) (rn rd : Reg) (imm12 : BitVec 12)
  /-- STRBT_imm: A13, R617 -/
  | strbtImm (c : Cond) (u : Bool) (rn rd : Reg) (imm12 : BitVec 12)
  /-- STRB_reg_pre: A14, R613 -/
  | strbRegPre (c : Cond) (u w : Bool) (rn rd : Reg) (amt : BitVec 5) (sh : ShiftKind) (rm : Reg)
  /-- STRB_reg_post: A14, R613 -/
  | strbRegPost (c : Cond) (u : Bool) (rn rd : Reg) (amt : BitVec 5) (sh : ShiftKind) (rm : Reg)
  /-- STRBT_reg: A14, R617 -/
  | strbtReg (c : Cond) (u : Bool) (rn rd : Reg) (amt : BitVec 5) (sh : ShiftKind) (rm : Reg)
  /-- LDRB_imm_pre: A13, R612 -/
  | ldrbImmPre (c : Cond) (u w : Bool) (rn rd : Reg) (imm12 : BitVec 12)
  /-- LDRB_imm_post: A13, R612 -/
  | ldrbImmPost (c : Cond) (u : Bool) (rn rd : Reg) (imm12 : BitVec 12)
  /-- LDRBT_imm: A13, R616 -/
  | ldrbtImm (c : Cond) (u : Bool) (rn rd : Reg) (imm12 : BitVec 12)
  /-- LDRB_reg_pre: A14, R612 -/
  | ldrbRegPre (c : Cond) (u w : Bool) (rn rd : Reg) (amt : BitVec 5) (sh : ShiftKind) (rm : Reg)
  /-- LDRB_reg_post: A14, R612 -/
  | ldrbRegPost (c : Cond) (u : Bool) (rn rd : Reg) (amt : BitVec 5) (sh : ShiftKind) (rm : Reg)
  /-- LDRBT_reg: A14, R616 -/
  | ldrbtReg (c : Cond) (u : Bool) (rn rd : Reg) (amt : BitVec 5) (sh : ShiftKind) (rm : Reg)
  /-- STM: A16, R643 -/
  | stm (c : Cond) (p u w : Bool) (rn : Reg) (list : BitVec 16)
  /-- STM_user: A16, R644 -/
  | stmUser (c : Cond) (p u w : Bool) (rn : Reg) (list : BitVec 16)
  /-- LDM: A16, R640 -/
  | ldm (c : Cond) (p u w : Bool) (rn : Reg) (list : BitVec 16)
  /-- LDM_user: A16, R641; list is bits 14:0, bit 15 is 0 -/
  | ldmUser (c : Cond) (p u w : Bool) (rn : Reg) (list : BitVec 15)
  /-- LDM_ret: A16, R642; list is bits 14:0, bit 15 is 1 -/
  | ldmRet (c : Cond) (p u w : Bool) (rn : Reg) (list : BitVec 15)
  /-- B: A17, R700 -/
  | b (c : Cond) (imm24 : BitVec 24)
  /-- BL: A17, R701 -/
  | bl (c : Cond) (imm24 : BitVec 24)
  /-- LDC_STC: A18, R720, R721 -/
  | ldcStc (c : Cond) (p u n w l : Bool) (rn : Reg) (crd cpnum : BitVec 4) (offset8 : BitVec 8)
  /-- CDP: A19, R720, R721 -/
  | cdp (c : Cond) (op1 crn crd cpnum : BitVec 4) (op2 : BitVec 3) (crm : BitVec 4)
  /-- MCR_MRC: A20, R720, R721 -/
  | mcrMrc (c : Cond) (op1 : BitVec 3) (l : Bool) (crn : BitVec 4) (rd : Reg) (cpnum : BitVec 4) (op2 : BitVec 3) (crm : BitVec 4)
  /-- SWI: A21, R710 -/
  | swi (c : Cond) (imm24 : BitVec 24)
  /-- T_LSL_imm: T1, R800 -/
  | tLslImm (offset5 : BitVec 5) (rs rd : LoReg)
  /-- T_LSR_imm: T1, R801 -/
  | tLsrImm (offset5 : BitVec 5) (rs rd : LoReg)
  /-- T_ASR_imm: T1, R802 -/
  | tAsrImm (offset5 : BitVec 5) (rs rd : LoReg)
  /-- T_ADD_reg: T2, R803 -/
  | tAddReg (rn rs rd : LoReg)
  /-- T_SUB_reg: T2, R804 -/
  | tSubReg (rn rs rd : LoReg)
  /-- T_ADD_imm3: T2, R805 -/
  | tAddImm3 (imm3 : BitVec 3) (rs rd : LoReg)
  /-- T_SUB_imm3: T2, R806 -/
  | tSubImm3 (imm3 : BitVec 3) (rs rd : LoReg)
  /-- T_MOV_imm: T3, R807 -/
  | tMovImm (rd : LoReg) (imm8 : BitVec 8)
  /-- T_CMP_imm: T3, R808 -/
  | tCmpImm (rd : LoReg) (imm8 : BitVec 8)
  /-- T_ADD_imm8: T3, R809 -/
  | tAddImm8 (rd : LoReg) (imm8 : BitVec 8)
  /-- T_SUB_imm8: T3, R810 -/
  | tSubImm8 (rd : LoReg) (imm8 : BitVec 8)
  /-- T_AND: T4, R820 -/
  | tAnd (rs rd : LoReg)
  /-- T_EOR: T4, R821 -/
  | tEor (rs rd : LoReg)
  /-- T_LSL_reg: T4, R822 -/
  | tLslReg (rs rd : LoReg)
  /-- T_LSR_reg: T4, R823 -/
  | tLsrReg (rs rd : LoReg)
  /-- T_ASR_reg: T4, R824 -/
  | tAsrReg (rs rd : LoReg)
  /-- T_ADC: T4, R825 -/
  | tAdc (rs rd : LoReg)
  /-- T_SBC: T4, R826 -/
  | tSbc (rs rd : LoReg)
  /-- T_ROR: T4, R827 -/
  | tRor (rs rd : LoReg)
  /-- T_TST: T4, R828 -/
  | tTst (rs rd : LoReg)
  /-- T_NEG: T4, R829 -/
  | tNeg (rs rd : LoReg)
  /-- T_CMP_reg: T4, R830 -/
  | tCmpReg (rs rd : LoReg)
  /-- T_CMN: T4, R831 -/
  | tCmn (rs rd : LoReg)
  /-- T_ORR: T4, R832 -/
  | tOrr (rs rd : LoReg)
  /-- T_MUL: T4, R833 -/
  | tMul (rs rd : LoReg)
  /-- T_BIC: T4, R834 -/
  | tBic (rs rd : LoReg)
  /-- T_MVN: T4, R835 -/
  | tMvn (rs rd : LoReg)
  /-- T_ADD_hi: T5, R840; d = H1 : Rd, m = H2 : Rs -/
  | tAddHi (d m : Reg)
  /-- T_CMP_hi: T5, R841; d = H1 : Rd, m = H2 : Rs -/
  | tCmpHi (d m : Reg)
  /-- T_MOV_hi: T5, R842; d = H1 : Rd, m = H2 : Rs -/
  | tMovHi (d m : Reg)
  /-- T_BX: T5, R843; m = H2 : Rs, sbz is the ignored field 2:0 -/
  | tBx (m : Reg) (sbz : BitVec 3)
  /-- T_BLX_reg_space: T5 with op = 11, H1 = 1, R331; low is bits 2:0 -/
  | tBlxRegSpace (m : Reg) (low : BitVec 3)
  /-- T_LDR_pc: T6, R900 -/
  | tLdrPc (rd : LoReg) (word8 : BitVec 8)
  /-- T_STR_reg: T7, R901 -/
  | tStrReg (ro rb rd : LoReg)
  /-- T_STRB_reg: T7, R902 -/
  | tStrbReg (ro rb rd : LoReg)
  /-- T_LDR_reg: T7, R903 -/
  | tLdrReg (ro rb rd : LoReg)
  /-- T_LDRB_reg: T7, R904 -/
  | tLdrbReg (ro rb rd : LoReg)
  /-- T_STRH_reg: T8, R905 -/
  | tStrhReg (ro rb rd : LoReg)
  /-- T_LDSB: T8, R906 -/
  | tLdsb (ro rb rd : LoReg)
  /-- T_LDRH_reg: T8, R907 -/
  | tLdrhReg (ro rb rd : LoReg)
  /-- T_LDSH: T8, R908 -/
  | tLdsh (ro rb rd : LoReg)
  /-- T_STR_imm: T9, R910 -/
  | tStrImm (offset5 : BitVec 5) (rb rd : LoReg)
  /-- T_LDR_imm: T9, R911 -/
  | tLdrImm (offset5 : BitVec 5) (rb rd : LoReg)
  /-- T_STRB_imm: T9, R912 -/
  | tStrbImm (offset5 : BitVec 5) (rb rd : LoReg)
  /-- T_LDRB_imm: T9, R913 -/
  | tLdrbImm (offset5 : BitVec 5) (rb rd : LoReg)
  /-- T_STRH_imm: T10, R914 -/
  | tStrhImm (offset5 : BitVec 5) (rb rd : LoReg)
  /-- T_LDRH_imm: T10, R915 -/
  | tLdrhImm (offset5 : BitVec 5) (rb rd : LoReg)
  /-- T_STR_sp: T11, R916 -/
  | tStrSp (rd : LoReg) (word8 : BitVec 8)
  /-- T_LDR_sp: T11, R917 -/
  | tLdrSp (rd : LoReg) (word8 : BitVec 8)
  /-- T_ADD_pc: T12, R920 -/
  | tAddPc (rd : LoReg) (word8 : BitVec 8)
  /-- T_ADD_sp: T12, R921 -/
  | tAddSp (rd : LoReg) (word8 : BitVec 8)
  /-- T_ADD_spimm: T13, R922 -/
  | tAddSpimm (sword7 : BitVec 7)
  /-- T_SUB_spimm: T13, R923 -/
  | tSubSpimm (sword7 : BitVec 7)
  /-- T_PUSH: T14, R930 -/
  | tPush (r : Bool) (rlist : BitVec 8)
  /-- T_POP: T14, R931 -/
  | tPop (r : Bool) (rlist : BitVec 8)
  /-- T_UND_B: rule R330 row 15, R1050; body is bits 11:0 -/
  | tUndB (body : BitVec 12)
  /-- T_STMIA: T15, R932 -/
  | tStmia (rb : LoReg) (rlist : BitVec 8)
  /-- T_LDMIA: T15, R933 -/
  | tLdmia (rb : LoReg) (rlist : BitVec 8)
  /-- T_SWI: T17, R1010 -/
  | tSwi (value8 : BitVec 8)
  /-- T_UND_DE: rule R330 row 18, R1050; body is bits 7:0 -/
  | tUndDe (body : BitVec 8)
  /-- T_Bcond: T16, R1000 -/
  | tBcond (c : Cond) (soffset8 : BitVec 8)
  /-- T_B: T18, R1020 -/
  | tB (offset11 : BitVec 11)
  /-- T_UND_E8: rule R330 row 21, R1050; body is bits 10:0 -/
  | tUndE8 (body : BitVec 11)
  /-- T_BL_hi: T19 with H = 0, R1040 -/
  | tBlHi (offset11 : BitVec 11)
  /-- T_BL_lo: T19 with H = 1, R1041 -/
  | tBlLo (offset11 : BitVec 11)
deriving DecidableEq, Repr

end Sys2Proof
end

