-- ==== Sys2Proof/WellFormed.lean ====
section
/-! DEFINITION. Which terms of Instr are instructions. Every field's type bounds it; only the bodies of the undefined
spaces (30 R311 rows 6 and 10, R330 row 15) and the condition of the Thumb conditional branch (R320, T16) need a check. -/

namespace Sys2Proof

/-- The 28 bits below the condition that 30_encoding R311 sends to row 6: bits 27:25 = 000, bits 7:4 = 1001, and not
caught by rows 2 (MUL, MLA), 3 (long multiplies) and 4 (SWP, SWPB). -/
def inMulspace (body : BitVec 28) : Bool :=
  body.extractLsb' 25 3 == 0 && body.extractLsb' 4 4 == 9
    && !(body.extractLsb' 22 6 == 0)
    && !(body.extractLsb' 23 5 == 1)
    && !(body.extractLsb' 23 5 == 2 && body.extractLsb' 20 2 == 0 && body.extractLsb' 8 4 == 0)

/-- The 28 bits below the condition that 30_encoding R311 sends to row 10: bits 27:26 = 00, 24:23 = 10, bit 20 = 0, and
not caught by rows 1 (BX), 2 to 6 (bits 27:25 = 000, bits 7 and 4 set), 7 (MRS), 8 and 9 (MSR). -/
def inPsrspace (body : BitVec 28) : Bool :=
  body.extractLsb' 26 2 == 0 && body.extractLsb' 23 2 == 2 && !body.getLsbD 20
    && !(body.extractLsb' 4 24 == 0x12FFF1)
    && !(!body.getLsbD 25 && body.getLsbD 7 && body.getLsbD 4)
    && !(body.extractLsb' 23 5 == 2 && body.extractLsb' 16 6 == 0x0F && body.extractLsb' 0 12 == 0)
    && !(body.extractLsb' 23 5 == 2 && body.extractLsb' 20 2 == 2 && body.extractLsb' 4 12 == 0xF00)
    && !(body.extractLsb' 23 5 == 6 && body.extractLsb' 20 2 == 2 && body.extractLsb' 12 4 == 0xF)

/-- The 12 bits below 1011 that 30_encoding R330 sends to row 15: neither ADD/SUB SP (bits 11:8 = 0000) nor PUSH/POP
(bits 10:9 = 10). -/
def inThumbB (body : BitVec 12) : Bool :=
  !(body.extractLsb' 8 4 == 0) && !(body.extractLsb' 9 2 == 2)

/-- A term of Instr that some encoding stands for. -/
def Instr.wellFormed : Instr → Bool
  | .undMulspace _ body => inMulspace body
  | .undPsrspace _ body => inPsrspace body
  | .tUndB body => inThumbB body
  | .tBcond c _ => c != .al
  | _ => true

end Sys2Proof
end

