-- ==== Sys2Proof/Decode.lean ====
section
/-! DEFINITION. Decoding and encoding (30_encoding). `decodeArm` and `decodeThumb` follow the decode orders of R311 and
R330, row by row, first match wins; both are total. `encode` writes the words of the formats of R301 and R320. -/

namespace Sys2Proof

/-- `hi : lo` (00_scope R9) as k bits, where k is the width of hi and lo together: hi ends at bit k - 1, lo at bit 0. -/
def join {n m : Nat} (k : Nat) (hi : BitVec n) (lo : BitVec m) : BitVec k :=
  (hi.setWidth k <<< m) ||| lo.setWidth k

/-- The four bits of a condition (40 R400). -/
def Cond.bits : Cond → BitVec 4
  | .eq => 0x0 | .ne => 0x1 | .cs => 0x2 | .cc => 0x3 | .mi => 0x4 | .pl => 0x5 | .vs => 0x6 | .vc => 0x7
  | .hi => 0x8 | .ls => 0x9 | .ge => 0xA | .lt => 0xB | .gt => 0xC | .le => 0xD | .al => 0xE

/-- The condition of four bits; 1111 is NV and names none (40 R400, R403). -/
def Cond.ofBits (b : BitVec 4) : Option Cond :=
  match b.toNat with
  | 0 => some .eq | 1 => some .ne | 2 => some .cs | 3 => some .cc | 4 => some .mi | 5 => some .pl | 6 => some .vs
  | 7 => some .vc | 8 => some .hi | 9 => some .ls | 10 => some .ge | 11 => some .lt | 12 => some .gt | 13 => some .le
  | 14 => some .al | _ => none

/-- The two bits of a shift (30 R302). -/
def ShiftKind.bits : ShiftKind → BitVec 2
  | .lsl => 0 | .lsr => 1 | .asr => 2 | .ror => 3

/-- The shift of two bits (30 R302). -/
def ShiftKind.ofBits (b : BitVec 2) : ShiftKind :=
  match b.toNat with
  | 0 => .lsl | 1 => .lsr | 2 => .asr | _ => .ror

/-! ### Decoding an ARM word -/

/-- Rows 2 of R311: MUL and MLA by the A bit (format A7). -/
def decodeMul (c : Cond) (w : Word) : Instr :=
  let sf := w.getLsbD 20
  let rd := w.extractLsb' 16 4
  let rn := w.extractLsb' 12 4
  let rs := w.extractLsb' 8 4
  let rm := w.extractLsb' 0 4
  if w.getLsbD 21 then .mla c sf rd rn rs rm else .mul c sf rd rn rs rm

/-- Row 3 of R311: the long multiplies by the U and A bits (format A8). -/
def decodeMulLong (c : Cond) (w : Word) : Instr :=
  let sf := w.getLsbD 20
  let hi := w.extractLsb' 16 4
  let lo := w.extractLsb' 12 4
  let rs := w.extractLsb' 8 4
  let rm := w.extractLsb' 0 4
  match w.getLsbD 22, w.getLsbD 21 with
  | false, false => .umull c sf hi lo rs rm
  | false, true => .umlal c sf hi lo rs rm
  | true, false => .smull c sf hi lo rs rm
  | true, true => .smlal c sf hi lo rs rm

/-- Row 4 of R311: SWP and SWPB by the B bit (format A9). -/
def decodeSwap (c : Cond) (w : Word) : Instr :=
  let rn := w.extractLsb' 16 4
  let rd := w.extractLsb' 12 4
  let rm := w.extractLsb' 0 4
  if w.getLsbD 22 then .swpb c rn rd rm else .swp c rn rd rm

/-- Row 5 of R311: the halfword and signed transfers of R312 by L, S and H and the offset form (formats A11, A12).
S H is not 00 here. -/
def decodeHalf (c : Cond) (w : Word) : Instr :=
  let p := w.getLsbD 24
  let u := w.getLsbD 23
  let i := w.getLsbD 22
  let wb := w.getLsbD 21
  let rn := w.extractLsb' 16 4
  let rd := w.extractLsb' 12 4
  let hi := w.extractLsb' 8 4
  let lo := w.extractLsb' 0 4
  match w.getLsbD 20, w.getLsbD 6, w.getLsbD 5, i with
  | false, false, _, true => .strhImm c p u wb rn rd (join 8 hi lo)
  | false, false, _, false => .strhReg c p u wb rn rd hi lo
  | false, true, false, _ => .ldrdSpace c p u i wb rn rd hi lo
  | false, true, true, _ => .strdSpace c p u i wb rn rd hi lo
  | true, false, _, true => .ldrhImm c p u wb rn rd (join 8 hi lo)
  | true, false, _, false => .ldrhReg c p u wb rn rd hi lo
  | true, true, false, true => .ldrsbImm c p u wb rn rd (join 8 hi lo)
  | true, true, false, false => .ldrsbReg c p u wb rn rd hi lo
  | true, true, true, true => .ldrshImm c p u wb rn rd (join 8 hi lo)
  | true, true, true, false => .ldrshReg c p u wb rn rd hi lo

/-- Row 12 of R311, format A3: the opcode of bits 24:21 (R302, R314). -/
def decodeDpImm (c : Cond) (w : Word) : Instr :=
  let sf := w.getLsbD 20
  let rn := w.extractLsb' 16 4
  let rd := w.extractLsb' 12 4
  let rot := w.extractLsb' 8 4
  let imm8 := w.extractLsb' 0 8
  match (w.extractLsb' 21 4).toNat with
  | 0 => .andImm c sf rn rd rot imm8
  | 1 => .eorImm c sf rn rd rot imm8
  | 2 => .subImm c sf rn rd rot imm8
  | 3 => .rsbImm c sf rn rd rot imm8
  | 4 => .addImm c sf rn rd rot imm8
  | 5 => .adcImm c sf rn rd rot imm8
  | 6 => .sbcImm c sf rn rd rot imm8
  | 7 => .rscImm c sf rn rd rot imm8
  | 8 => .tstImm c rn rd rot imm8
  | 9 => .teqImm c rn rd rot imm8
  | 10 => .cmpImm c rn rd rot imm8
  | 11 => .cmnImm c rn rd rot imm8
  | 12 => .orrImm c sf rn rd rot imm8
  | 13 => .movImm c sf rn rd rot imm8
  | 14 => .bicImm c sf rn rd rot imm8
  | _ => .mvnImm c sf rn rd rot imm8

/-- Row 12 of R311, format A1: the opcode of bits 24:21 (R302, R314). -/
def decodeDpIshift (c : Cond) (w : Word) : Instr :=
  let sf := w.getLsbD 20
  let rn := w.extractLsb' 16 4
  let rd := w.extractLsb' 12 4
  let amt := w.extractLsb' 7 5
  let sh := ShiftKind.ofBits (w.extractLsb' 5 2)
  let rm := w.extractLsb' 0 4
  match (w.extractLsb' 21 4).toNat with
  | 0 => .andIshift c sf rn rd amt sh rm
  | 1 => .eorIshift c sf rn rd amt sh rm
  | 2 => .subIshift c sf rn rd amt sh rm
  | 3 => .rsbIshift c sf rn rd amt sh rm
  | 4 => .addIshift c sf rn rd amt sh rm
  | 5 => .adcIshift c sf rn rd amt sh rm
  | 6 => .sbcIshift c sf rn rd amt sh rm
  | 7 => .rscIshift c sf rn rd amt sh rm
  | 8 => .tstIshift c rn rd amt sh rm
  | 9 => .teqIshift c rn rd amt sh rm
  | 10 => .cmpIshift c rn rd amt sh rm
  | 11 => .cmnIshift c rn rd amt sh rm
  | 12 => .orrIshift c sf rn rd amt sh rm
  | 13 => .movIshift c sf rn rd amt sh rm
  | 14 => .bicIshift c sf rn rd amt sh rm
  | _ => .mvnIshift c sf rn rd amt sh rm

/-- Row 12 of R311, format A2: the opcode of bits 24:21 (R302, R314). -/
def decodeDpRshift (c : Cond) (w : Word) : Instr :=
  let sf := w.getLsbD 20
  let rn := w.extractLsb' 16 4
  let rd := w.extractLsb' 12 4
  let rs := w.extractLsb' 8 4
  let sh := ShiftKind.ofBits (w.extractLsb' 5 2)
  let rm := w.extractLsb' 0 4
  match (w.extractLsb' 21 4).toNat with
  | 0 => .andRshift c sf rn rd rs sh rm
  | 1 => .eorRshift c sf rn rd rs sh rm
  | 2 => .subRshift c sf rn rd rs sh rm
  | 3 => .rsbRshift c sf rn rd rs sh rm
  | 4 => .addRshift c sf rn rd rs sh rm
  | 5 => .adcRshift c sf rn rd rs sh rm
  | 6 => .sbcRshift c sf rn rd rs sh rm
  | 7 => .rscRshift c sf rn rd rs sh rm
  | 8 => .tstRshift c rn rd rs sh rm
  | 9 => .teqRshift c rn rd rs sh rm
  | 10 => .cmpRshift c rn rd rs sh rm
  | 11 => .cmnRshift c rn rd rs sh rm
  | 12 => .orrRshift c sf rn rd rs sh rm
  | 13 => .movRshift c sf rn rd rs sh rm
  | 14 => .bicRshift c sf rn rd rs sh rm
  | _ => .mvnRshift c sf rn rd rs sh rm

/-- Row 14 of R311, format A13: single data transfers by P, W, B and L (R302). -/
def decodeXferImm (c : Cond) (w : Word) : Instr :=
  let u := w.getLsbD 23
  let wb := w.getLsbD 21
  let rn := w.extractLsb' 16 4
  let rd := w.extractLsb' 12 4
  let imm12 := w.extractLsb' 0 12
  match w.getLsbD 24, wb, w.getLsbD 22, w.getLsbD 20 with
  | true, _, false, false => .strImmPre c u wb rn rd imm12
  | true, _, false, true => .ldrImmPre c u wb rn rd imm12
  | true, _, true, false => .strbImmPre c u wb rn rd imm12
  | true, _, true, true => .ldrbImmPre c u wb rn rd imm12
  | false, false, false, false => .strImmPost c u rn rd imm12
  | false, false, false, true => .ldrImmPost c u rn rd imm12
  | false, false, true, false => .strbImmPost c u rn rd imm12
  | false, false, true, true => .ldrbImmPost c u rn rd imm12
  | false, true, false, false => .strtImm c u rn rd imm12
  | false, true, false, true => .ldrtImm c u rn rd imm12
  | false, true, true, false => .strbtImm c u rn rd imm12
  | false, true, true, true => .ldrbtImm c u rn rd imm12

/-- Row 14 of R311, format A14: single data transfers by P, W, B and L (R302). -/
def decodeXferReg (c : Cond) (w : Word) : Instr :=
  let u := w.getLsbD 23
  let wb := w.getLsbD 21
  let rn := w.extractLsb' 16 4
  let rd := w.extractLsb' 12 4
  let amt := w.extractLsb' 7 5
  let sh := ShiftKind.ofBits (w.extractLsb' 5 2)
  let rm := w.extractLsb' 0 4
  match w.getLsbD 24, wb, w.getLsbD 22, w.getLsbD 20 with
  | true, _, false, false => .strRegPre c u wb rn rd amt sh rm
  | true, _, false, true => .ldrRegPre c u wb rn rd amt sh rm
  | true, _, true, false => .strbRegPre c u wb rn rd amt sh rm
  | true, _, true, true => .ldrbRegPre c u wb rn rd amt sh rm
  | false, false, false, false => .strRegPost c u rn rd amt sh rm
  | false, false, false, true => .ldrRegPost c u rn rd amt sh rm
  | false, false, true, false => .strbRegPost c u rn rd amt sh rm
  | false, false, true, true => .ldrbRegPost c u rn rd amt sh rm
  | false, true, false, false => .strtReg c u rn rd amt sh rm
  | false, true, false, true => .ldrtReg c u rn rd amt sh rm
  | false, true, true, false => .strbtReg c u rn rd amt sh rm
  | false, true, true, true => .ldrbtReg c u rn rd amt sh rm

/-- Row 15 of R311, format A16: block transfers by S, L and bit 15 of the list. -/
def decodeBlock (c : Cond) (w : Word) : Instr :=
  let p := w.getLsbD 24
  let u := w.getLsbD 23
  let wb := w.getLsbD 21
  let rn := w.extractLsb' 16 4
  match w.getLsbD 20, w.getLsbD 22, w.getLsbD 15 with
  | false, false, _ => .stm c p u wb rn (w.extractLsb' 0 16)
  | false, true, _ => .stmUser c p u wb rn (w.extractLsb' 0 16)
  | true, false, _ => .ldm c p u wb rn (w.extractLsb' 0 16)
  | true, true, false => .ldmUser c p u wb rn (w.extractLsb' 0 15)
  | true, true, true => .ldmRet c p u wb rn (w.extractLsb' 0 15)

/-- Row 17 of R311: the coprocessor formats A18, A19 and A20. -/
def decodeCop (c : Cond) (w : Word) : Instr :=
  if w.extractLsb' 25 3 = 0b110#3 then
    .ldcStc c (w.getLsbD 24) (w.getLsbD 23) (w.getLsbD 22) (w.getLsbD 21) (w.getLsbD 20) (w.extractLsb' 16 4)
      (w.extractLsb' 12 4) (w.extractLsb' 8 4) (w.extractLsb' 0 8)
  else if w.getLsbD 4 then
    .mcrMrc c (w.extractLsb' 21 3) (w.getLsbD 20) (w.extractLsb' 16 4) (w.extractLsb' 12 4) (w.extractLsb' 8 4)
      (w.extractLsb' 5 3) (w.extractLsb' 0 4)
  else
    .cdp c (w.extractLsb' 20 4) (w.extractLsb' 16 4) (w.extractLsb' 12 4) (w.extractLsb' 8 4)
      (w.extractLsb' 5 3) (w.extractLsb' 0 4)

/-- The decode order of 30_encoding R311 for a word whose condition is c; the number of each row stands beside it
(row 11 cannot occur). -/
def decodeArmRows (c : Cond) (w : Word) : Instr :=
  if w.extractLsb' 4 24 = 0x12FFF1#24 then .bx c (w.extractLsb' 0 4)  -- 1
  else if w.extractLsb' 22 6 = 0#6 ∧ w.extractLsb' 4 4 = 9#4 then decodeMul c w  -- 2
  else if w.extractLsb' 23 5 = 1#5 ∧ w.extractLsb' 4 4 = 9#4 then decodeMulLong c w  -- 3
  else if w.extractLsb' 23 5 = 2#5 ∧ w.extractLsb' 20 2 = 0#2 ∧ w.extractLsb' 4 8 = 9#8 then decodeSwap c w  -- 4
  else if w.extractLsb' 25 3 = 0#3 ∧ w.getLsbD 7 ∧ w.getLsbD 4 ∧ w.extractLsb' 5 2 ≠ 0#2 then decodeHalf c w  -- 5
  else if w.extractLsb' 25 3 = 0#3 ∧ w.getLsbD 7 ∧ w.getLsbD 4 then .undMulspace c (w.extractLsb' 0 28)  -- 6
  else if w.extractLsb' 23 5 = 2#5 ∧ w.extractLsb' 16 6 = 0x0F#6 ∧ w.extractLsb' 0 12 = 0#12 then
    .mrs c (w.getLsbD 22) (w.extractLsb' 12 4)  -- 7
  else if w.extractLsb' 23 5 = 2#5 ∧ w.extractLsb' 20 2 = 2#2 ∧ w.extractLsb' 4 12 = 0xF00#12 then
    .msrReg c (w.getLsbD 22) (w.extractLsb' 16 4) (w.extractLsb' 0 4)  -- 8
  else if w.extractLsb' 23 5 = 6#5 ∧ w.extractLsb' 20 2 = 2#2 ∧ w.extractLsb' 12 4 = 0xF#4 then
    .msrImm c (w.getLsbD 22) (w.extractLsb' 16 4) (w.extractLsb' 8 4) (w.extractLsb' 0 8)  -- 9
  else if w.extractLsb' 26 2 = 0#2 ∧ w.extractLsb' 23 2 = 2#2 ∧ w.getLsbD 20 = false then
    .undPsrspace c (w.extractLsb' 0 28)  -- 10
  else if w.extractLsb' 25 3 = 0#3 then if w.getLsbD 4 then decodeDpRshift c w else decodeDpIshift c w  -- 12
  else if w.extractLsb' 25 3 = 1#3 then decodeDpImm c w  -- 12
  else if w.extractLsb' 25 3 = 3#3 ∧ w.getLsbD 4 then .undA15 c (w.extractLsb' 5 20) (w.extractLsb' 0 4)  -- 13
  else if w.extractLsb' 25 3 = 2#3 then decodeXferImm c w  -- 14
  else if w.extractLsb' 25 3 = 3#3 then decodeXferReg c w  -- 14
  else if w.extractLsb' 25 3 = 4#3 then decodeBlock c w  -- 15
  else if w.extractLsb' 25 3 = 5#3 then
    if w.getLsbD 24 then .bl c (w.extractLsb' 0 24) else .b c (w.extractLsb' 0 24)  -- 16
  else if w.extractLsb' 25 3 = 6#3 ∨ w.extractLsb' 24 4 = 0xE#4 then decodeCop c w  -- 17
  else .swi c (w.extractLsb' 0 24)  -- 18

/-- The ARM instruction of a 32-bit word: the condition first (30 R310), then the decode order. -/
def decodeArm (w : Word) : Instr :=
  match Cond.ofBits (w.extractLsb' 28 4) with
  | none => .nv (w.extractLsb' 0 28)
  | some c => decodeArmRows c w

/-! ### Decoding a Thumb halfword -/

/-- The T4 opcode of bits 9:6 (30 R321). -/
def decodeT4 (h : Half) : Instr :=
  let rs := h.extractLsb' 3 3
  let rd := h.extractLsb' 0 3
  match (h.extractLsb' 6 4).toNat with
  | 0 => .tAnd rs rd
  | 1 => .tEor rs rd
  | 2 => .tLslReg rs rd
  | 3 => .tLsrReg rs rd
  | 4 => .tAsrReg rs rd
  | 5 => .tAdc rs rd
  | 6 => .tSbc rs rd
  | 7 => .tRor rs rd
  | 8 => .tTst rs rd
  | 9 => .tNeg rs rd
  | 10 => .tCmpReg rs rd
  | 11 => .tCmn rs rd
  | 12 => .tOrr rs rd
  | 13 => .tMul rs rd
  | 14 => .tBic rs rd
  | _ => .tMvn rs rd

/-- T5: hi register operations and BX by bits 9:8 and H1 (30 R320, R331). -/
def decodeT5 (h : Half) : Instr :=
  let d := join 4 (h.extractLsb' 7 1) (h.extractLsb' 0 3)
  let m := h.extractLsb' 3 4
  match (h.extractLsb' 8 2).toNat with
  | 0 => .tAddHi d m
  | 1 => .tCmpHi d m
  | 2 => .tMovHi d m
  | _ => if h.getLsbD 7 then .tBlxRegSpace m (h.extractLsb' 0 3) else .tBx m (h.extractLsb' 0 3)

/-- T7 and T8: register-offset transfers by bits 11:9 (30 R322). -/
def decodeT78 (h : Half) : Instr :=
  let ro := h.extractLsb' 6 3
  let rb := h.extractLsb' 3 3
  let rd := h.extractLsb' 0 3
  match (h.extractLsb' 9 3).toNat with
  | 0 => .tStrReg ro rb rd
  | 1 => .tStrhReg ro rb rd
  | 2 => .tStrbReg ro rb rd
  | 3 => .tLdsb ro rb rd
  | 4 => .tLdrReg ro rb rd
  | 5 => .tLdrhReg ro rb rd
  | 6 => .tLdrbReg ro rb rd
  | _ => .tLdsh ro rb rd

/-- The decode order of 30_encoding R330 by the five bits 15:11, which every row but those of 1011 and 1101 fixes whole;
the numbers of the rows stand beside them. -/
def decodeThumb (h : Half) : Instr :=
  let lo := h.extractLsb' 0 3
  let mid := h.extractLsb' 3 3
  let off5 := h.extractLsb' 6 5
  let rd8 := h.extractLsb' 8 3
  let imm8 := h.extractLsb' 0 8
  let imm11 := h.extractLsb' 0 11
  match (h.extractLsb' 11 5).toNat with
  | 0 => .tLslImm off5 mid lo  -- 2
  | 1 => .tLsrImm off5 mid lo  -- 2
  | 2 => .tAsrImm off5 mid lo  -- 2
  | 3 =>  -- 1
    match h.getLsbD 10, h.getLsbD 9 with
    | false, false => .tAddReg (h.extractLsb' 6 3) mid lo
    | false, true => .tSubReg (h.extractLsb' 6 3) mid lo
    | true, false => .tAddImm3 (h.extractLsb' 6 3) mid lo
    | true, true => .tSubImm3 (h.extractLsb' 6 3) mid lo
  | 4 => .tMovImm rd8 imm8  -- 3
  | 5 => .tCmpImm rd8 imm8  -- 3
  | 6 => .tAddImm8 rd8 imm8  -- 3
  | 7 => .tSubImm8 rd8 imm8  -- 3
  | 8 => if h.getLsbD 10 then decodeT5 h else decodeT4 h  -- 4, 5
  | 9 => .tLdrPc rd8 imm8  -- 6
  | 10 => decodeT78 h  -- 7, 8
  | 11 => decodeT78 h  -- 7, 8
  | 12 => .tStrImm off5 mid lo  -- 9
  | 13 => .tLdrImm off5 mid lo  -- 9
  | 14 => .tStrbImm off5 mid lo  -- 9
  | 15 => .tLdrbImm off5 mid lo  -- 9
  | 16 => .tStrhImm off5 mid lo  -- 10
  | 17 => .tLdrhImm off5 mid lo  -- 10
  | 18 => .tStrSp rd8 imm8  -- 11
  | 19 => .tLdrSp rd8 imm8  -- 11
  | 20 => .tAddPc rd8 imm8  -- 12
  | 21 => .tAddSp rd8 imm8  -- 12
  | 22 =>
    if h.extractLsb' 8 3 = 0#3 then  -- 13
      if h.getLsbD 7 then .tSubSpimm (h.extractLsb' 0 7) else .tAddSpimm (h.extractLsb' 0 7)
    else if h.extractLsb' 9 2 = 2#2 then .tPush (h.getLsbD 8) imm8  -- 14
    else .tUndB (h.extractLsb' 0 12)  -- 15
  | 23 =>
    if h.extractLsb' 9 2 = 2#2 then .tPop (h.getLsbD 8) imm8  -- 14
    else .tUndB (h.extractLsb' 0 12)  -- 15
  | 24 => .tStmia rd8 imm8  -- 16
  | 25 => .tLdmia rd8 imm8  -- 16
  | 26 | 27 =>
    match Cond.ofBits (h.extractLsb' 8 4) with
    | none => .tSwi imm8  -- 17
    | some .al => .tUndDe imm8  -- 18
    | some c => .tBcond c imm8  -- 19
  | 28 => .tB imm11  -- 20
  | 29 => .tUndE8 imm11  -- 21
  | 30 => .tBlHi imm11  -- 22
  | _ => .tBlLo imm11  -- 23

/-! ### The two encodings together, and bytes -/

/-- An encoded instruction: a 32-bit ARM word or a 16-bit Thumb halfword (30 R300). -/
inductive Code where
  | arm (w : Word)
  | thumb (h : Half)
deriving DecidableEq, Repr

/-- The instruction of an encoded instruction. -/
def decode : Code → Instr
  | .arm w => decodeArm w
  | .thumb h => decodeThumb h

/-- The little-endian bytes of an encoded instruction, lowest address first (20 R213, R214). -/
def Code.bytes : Code → List Byte
  | .arm w => [w.extractLsb' 0 8, w.extractLsb' 8 8, w.extractLsb' 16 8, w.extractLsb' 24 8]
  | .thumb h => [h.extractLsb' 0 8, h.extractLsb' 8 8]

/-- Why bytes are no instruction: too few of them. Every word and every halfword decodes (R311 and R330 are total). -/
inductive DecodeError where
  | truncated
deriving DecidableEq, Repr

/-- The instruction at the start of a byte list, in Thumb state (thumb = true) or ARM state, and the bytes after it. -/
def decodeBytes (thumb : Bool) (bytes : List Byte) : Except DecodeError (Instr × List Byte) :=
  match thumb, bytes with
  | true, b0 :: b1 :: rest => .ok (decodeThumb (join 16 b1 b0), rest)
  | false, b0 :: b1 :: b2 :: b3 :: rest => .ok (decodeArm (join 32 b3 (join 24 b2 (join 16 b1 b0))), rest)
  | _, _ => .error .truncated

/-! ### Encoding -/

/-- One bit. -/
abbrev bit (b : Bool) : BitVec 1 := BitVec.ofBool b

/-- Formats A7 and A8 (30 R301): op is bits 27:21. -/
def encMul (c : Cond) (op : BitVec 7) (sf : Bool) (hi lo rs rm : Reg) : Word :=
  join 32 c.bits (join 28 op (join 21 (bit sf) (join 20 hi (join 16 lo (join 12 rs (join 8 9#4 rm))))))

/-- Formats A11 and A12: i is bit 22, sh is S H. -/
def encHalf (c : Cond) (p u i w l : Bool) (rn rd : Reg) (hi : BitVec 4) (sh : BitVec 2) (lo : BitVec 4) : Word :=
  join 32 c.bits (join 28 0#3 (join 25 (bit p) (join 24 (bit u) (join 23 (bit i) (join 22 (bit w) (join 21 (bit l) (join 20 rn (join 16 rd (join 12 hi (join 8 1#1 (join 7 sh (join 5 1#1 lo))))))))))))

/-- Format A3. -/
def encDpImm (c : Cond) (op : BitVec 4) (sf : Bool) (rn rd : Reg) (rot : BitVec 4) (imm8 : BitVec 8) : Word :=
  join 32 c.bits (join 28 1#3 (join 25 op (join 21 (bit sf) (join 20 rn (join 16 rd (join 12 rot imm8))))))

/-- Format A1. -/
def encDpIshift (c : Cond) (op : BitVec 4) (sf : Bool) (rn rd : Reg) (amt : BitVec 5) (sh : ShiftKind) (rm : Reg) : Word :=
  join 32 c.bits (join 28 0#3 (join 25 op (join 21 (bit sf) (join 20 rn (join 16 rd (join 12 amt (join 7 sh.bits (join 5 0#1 rm))))))))

/-- Format A2. -/
def encDpRshift (c : Cond) (op : BitVec 4) (sf : Bool) (rn rd rs : Reg) (sh : ShiftKind) (rm : Reg) : Word :=
  join 32 c.bits (join 28 0#3 (join 25 op (join 21 (bit sf) (join 20 rn (join 16 rd (join 12 rs (join 8 0#1 (join 7 sh.bits (join 5 1#1 rm)))))))))

/-- Format A13. -/
def encXferImm (c : Cond) (p u b w l : Bool) (rn rd : Reg) (imm12 : BitVec 12) : Word :=
  join 32 c.bits (join 28 2#3 (join 25 (bit p) (join 24 (bit u) (join 23 (bit b) (join 22 (bit w) (join 21 (bit l) (join 20 rn (join 16 rd imm12))))))))

/-- Format A14. -/
def encXferReg (c : Cond) (p u b w l : Bool) (rn rd : Reg) (amt : BitVec 5) (sh : ShiftKind) (rm : Reg) : Word :=
  join 32 c.bits (join 28 3#3 (join 25 (bit p) (join 24 (bit u) (join 23 (bit b) (join 22 (bit w) (join 21 (bit l) (join 20 rn (join 16 rd (join 12 amt (join 7 sh.bits (join 5 0#1 rm)))))))))))

/-- Format A16. -/
def encBlock (c : Cond) (p u s w l : Bool) (rn : Reg) (list : BitVec 16) : Word :=
  join 32 c.bits (join 28 4#3 (join 25 (bit p) (join 24 (bit u) (join 23 (bit s) (join 22 (bit w) (join 21 (bit l) (join 20 rn list)))))))

/-- The word or halfword of an instruction, from the formats of 30_encoding R301 and R320. -/
def encode : Instr → Code
  | .nv body => .arm (join 32 0xF#4 body)
  | .bx c rm => .arm (join 32 c.bits (join 28 0x12FFF1#24 rm))
  | .mul c sf rd rn rs rm => .arm (encMul c 0b0000000#7 sf rd rn rs rm)
  | .mla c sf rd rn rs rm => .arm (encMul c 0b0000001#7 sf rd rn rs rm)
  | .umull c sf rdHi rdLo rs rm => .arm (encMul c 0b0000100#7 sf rdHi rdLo rs rm)
  | .umlal c sf rdHi rdLo rs rm => .arm (encMul c 0b0000101#7 sf rdHi rdLo rs rm)
  | .smull c sf rdHi rdLo rs rm => .arm (encMul c 0b0000110#7 sf rdHi rdLo rs rm)
  | .smlal c sf rdHi rdLo rs rm => .arm (encMul c 0b0000111#7 sf rdHi rdLo rs rm)
  | .swp c rn rd rm => .arm (join 32 c.bits (join 28 0x10#8 (join 20 rn (join 16 rd (join 12 0x09#8 rm)))))
  | .swpb c rn rd rm => .arm (join 32 c.bits (join 28 0x14#8 (join 20 rn (join 16 rd (join 12 0x09#8 rm)))))
  | .strhImm c p u w rn rd imm8 => .arm (encHalf c p u true w false rn rd (imm8.extractLsb' 4 4) 0b01#2 (imm8.extractLsb' 0 4))
  | .strhReg c p u w rn rd sbz rm => .arm (encHalf c p u false w false rn rd sbz 0b01#2 rm)
  | .ldrhImm c p u w rn rd imm8 => .arm (encHalf c p u true w true rn rd (imm8.extractLsb' 4 4) 0b01#2 (imm8.extractLsb' 0 4))
  | .ldrhReg c p u w rn rd sbz rm => .arm (encHalf c p u false w true rn rd sbz 0b01#2 rm)
  | .ldrsbImm c p u w rn rd imm8 => .arm (encHalf c p u true w true rn rd (imm8.extractLsb' 4 4) 0b10#2 (imm8.extractLsb' 0 4))
  | .ldrsbReg c p u w rn rd sbz rm => .arm (encHalf c p u false w true rn rd sbz 0b10#2 rm)
  | .ldrshImm c p u w rn rd imm8 => .arm (encHalf c p u true w true rn rd (imm8.extractLsb' 4 4) 0b11#2 (imm8.extractLsb' 0 4))
  | .ldrshReg c p u w rn rd sbz rm => .arm (encHalf c p u false w true rn rd sbz 0b11#2 rm)
  | .ldrdSpace c p u i w rn rd hi lo => .arm (encHalf c p u i w false rn rd hi 0b10#2 lo)
  | .strdSpace c p u i w rn rd hi lo => .arm (encHalf c p u i w false rn rd hi 0b11#2 lo)
  | .undMulspace c body => .arm (join 32 c.bits body)
  | .mrs c r rd => .arm (join 32 c.bits (join 28 0b00010#5 (join 23 (bit r) (join 22 0b00#2 (join 20 0xF#4 (join 16 rd 0x000#12))))))
  | .msrReg c r mask rm => .arm (join 32 c.bits (join 28 0b00010#5 (join 23 (bit r) (join 22 0b10#2 (join 20 mask (join 16 0xF00#12 rm))))))
  | .msrImm c r mask rot imm8 => .arm (join 32 c.bits (join 28 0b00110#5 (join 23 (bit r) (join 22 0b10#2 (join 20 mask (join 16 0xF#4 (join 12 rot imm8)))))))
  | .undPsrspace c body => .arm (join 32 c.bits body)
  | .andImm c sf rn rd rot imm8 => .arm (encDpImm c 0x0#4 sf rn rd rot imm8)
  | .andIshift c sf rn rd amt sh rm => .arm (encDpIshift c 0x0#4 sf rn rd amt sh rm)
  | .andRshift c sf rn rd rs sh rm => .arm (encDpRshift c 0x0#4 sf rn rd rs sh rm)
  | .eorImm c sf rn rd rot imm8 => .arm (encDpImm c 0x1#4 sf rn rd rot imm8)
  | .eorIshift c sf rn rd amt sh rm => .arm (encDpIshift c 0x1#4 sf rn rd amt sh rm)
  | .eorRshift c sf rn rd rs sh rm => .arm (encDpRshift c 0x1#4 sf rn rd rs sh rm)
  | .subImm c sf rn rd rot imm8 => .arm (encDpImm c 0x2#4 sf rn rd rot imm8)
  | .subIshift c sf rn rd amt sh rm => .arm (encDpIshift c 0x2#4 sf rn rd amt sh rm)
  | .subRshift c sf rn rd rs sh rm => .arm (encDpRshift c 0x2#4 sf rn rd rs sh rm)
  | .rsbImm c sf rn rd rot imm8 => .arm (encDpImm c 0x3#4 sf rn rd rot imm8)
  | .rsbIshift c sf rn rd amt sh rm => .arm (encDpIshift c 0x3#4 sf rn rd amt sh rm)
  | .rsbRshift c sf rn rd rs sh rm => .arm (encDpRshift c 0x3#4 sf rn rd rs sh rm)
  | .addImm c sf rn rd rot imm8 => .arm (encDpImm c 0x4#4 sf rn rd rot imm8)
  | .addIshift c sf rn rd amt sh rm => .arm (encDpIshift c 0x4#4 sf rn rd amt sh rm)
  | .addRshift c sf rn rd rs sh rm => .arm (encDpRshift c 0x4#4 sf rn rd rs sh rm)
  | .adcImm c sf rn rd rot imm8 => .arm (encDpImm c 0x5#4 sf rn rd rot imm8)
  | .adcIshift c sf rn rd amt sh rm => .arm (encDpIshift c 0x5#4 sf rn rd amt sh rm)
  | .adcRshift c sf rn rd rs sh rm => .arm (encDpRshift c 0x5#4 sf rn rd rs sh rm)
  | .sbcImm c sf rn rd rot imm8 => .arm (encDpImm c 0x6#4 sf rn rd rot imm8)
  | .sbcIshift c sf rn rd amt sh rm => .arm (encDpIshift c 0x6#4 sf rn rd amt sh rm)
  | .sbcRshift c sf rn rd rs sh rm => .arm (encDpRshift c 0x6#4 sf rn rd rs sh rm)
  | .rscImm c sf rn rd rot imm8 => .arm (encDpImm c 0x7#4 sf rn rd rot imm8)
  | .rscIshift c sf rn rd amt sh rm => .arm (encDpIshift c 0x7#4 sf rn rd amt sh rm)
  | .rscRshift c sf rn rd rs sh rm => .arm (encDpRshift c 0x7#4 sf rn rd rs sh rm)
  | .tstImm c rn rd rot imm8 => .arm (encDpImm c 0x8#4 true rn rd rot imm8)
  | .tstIshift c rn rd amt sh rm => .arm (encDpIshift c 0x8#4 true rn rd amt sh rm)
  | .tstRshift c rn rd rs sh rm => .arm (encDpRshift c 0x8#4 true rn rd rs sh rm)
  | .teqImm c rn rd rot imm8 => .arm (encDpImm c 0x9#4 true rn rd rot imm8)
  | .teqIshift c rn rd amt sh rm => .arm (encDpIshift c 0x9#4 true rn rd amt sh rm)
  | .teqRshift c rn rd rs sh rm => .arm (encDpRshift c 0x9#4 true rn rd rs sh rm)
  | .cmpImm c rn rd rot imm8 => .arm (encDpImm c 0xA#4 true rn rd rot imm8)
  | .cmpIshift c rn rd amt sh rm => .arm (encDpIshift c 0xA#4 true rn rd amt sh rm)
  | .cmpRshift c rn rd rs sh rm => .arm (encDpRshift c 0xA#4 true rn rd rs sh rm)
  | .cmnImm c rn rd rot imm8 => .arm (encDpImm c 0xB#4 true rn rd rot imm8)
  | .cmnIshift c rn rd amt sh rm => .arm (encDpIshift c 0xB#4 true rn rd amt sh rm)
  | .cmnRshift c rn rd rs sh rm => .arm (encDpRshift c 0xB#4 true rn rd rs sh rm)
  | .orrImm c sf rn rd rot imm8 => .arm (encDpImm c 0xC#4 sf rn rd rot imm8)
  | .orrIshift c sf rn rd amt sh rm => .arm (encDpIshift c 0xC#4 sf rn rd amt sh rm)
  | .orrRshift c sf rn rd rs sh rm => .arm (encDpRshift c 0xC#4 sf rn rd rs sh rm)
  | .movImm c sf rn rd rot imm8 => .arm (encDpImm c 0xD#4 sf rn rd rot imm8)
  | .movIshift c sf rn rd amt sh rm => .arm (encDpIshift c 0xD#4 sf rn rd amt sh rm)
  | .movRshift c sf rn rd rs sh rm => .arm (encDpRshift c 0xD#4 sf rn rd rs sh rm)
  | .bicImm c sf rn rd rot imm8 => .arm (encDpImm c 0xE#4 sf rn rd rot imm8)
  | .bicIshift c sf rn rd amt sh rm => .arm (encDpIshift c 0xE#4 sf rn rd amt sh rm)
  | .bicRshift c sf rn rd rs sh rm => .arm (encDpRshift c 0xE#4 sf rn rd rs sh rm)
  | .mvnImm c sf rn rd rot imm8 => .arm (encDpImm c 0xF#4 sf rn rd rot imm8)
  | .mvnIshift c sf rn rd amt sh rm => .arm (encDpIshift c 0xF#4 sf rn rd amt sh rm)
  | .mvnRshift c sf rn rd rs sh rm => .arm (encDpRshift c 0xF#4 sf rn rd rs sh rm)
  | .undA15 c hi lo => .arm (join 32 c.bits (join 28 0b011#3 (join 25 hi (join 5 0b1#1 lo))))
  | .strImmPre c u w rn rd imm12 => .arm (encXferImm c true u false w false rn rd imm12)
  | .strImmPost c u rn rd imm12 => .arm (encXferImm c false u false false false rn rd imm12)
  | .strtImm c u rn rd imm12 => .arm (encXferImm c false u false true false rn rd imm12)
  | .strRegPre c u w rn rd amt sh rm => .arm (encXferReg c true u false w false rn rd amt sh rm)
  | .strRegPost c u rn rd amt sh rm => .arm (encXferReg c false u false false false rn rd amt sh rm)
  | .strtReg c u rn rd amt sh rm => .arm (encXferReg c false u false true false rn rd amt sh rm)
  | .ldrImmPre c u w rn rd imm12 => .arm (encXferImm c true u false w true rn rd imm12)
  | .ldrImmPost c u rn rd imm12 => .arm (encXferImm c false u false false true rn rd imm12)
  | .ldrtImm c u rn rd imm12 => .arm (encXferImm c false u false true true rn rd imm12)
  | .ldrRegPre c u w rn rd amt sh rm => .arm (encXferReg c true u false w true rn rd amt sh rm)
  | .ldrRegPost c u rn rd amt sh rm => .arm (encXferReg c false u false false true rn rd amt sh rm)
  | .ldrtReg c u rn rd amt sh rm => .arm (encXferReg c false u false true true rn rd amt sh rm)
  | .strbImmPre c u w rn rd imm12 => .arm (encXferImm c true u true w false rn rd imm12)
  | .strbImmPost c u rn rd imm12 => .arm (encXferImm c false u true false false rn rd imm12)
  | .strbtImm c u rn rd imm12 => .arm (encXferImm c false u true true false rn rd imm12)
  | .strbRegPre c u w rn rd amt sh rm => .arm (encXferReg c true u true w false rn rd amt sh rm)
  | .strbRegPost c u rn rd amt sh rm => .arm (encXferReg c false u true false false rn rd amt sh rm)
  | .strbtReg c u rn rd amt sh rm => .arm (encXferReg c false u true true false rn rd amt sh rm)
  | .ldrbImmPre c u w rn rd imm12 => .arm (encXferImm c true u true w true rn rd imm12)
  | .ldrbImmPost c u rn rd imm12 => .arm (encXferImm c false u true false true rn rd imm12)
  | .ldrbtImm c u rn rd imm12 => .arm (encXferImm c false u true true true rn rd imm12)
  | .ldrbRegPre c u w rn rd amt sh rm => .arm (encXferReg c true u true w true rn rd amt sh rm)
  | .ldrbRegPost c u rn rd amt sh rm => .arm (encXferReg c false u true false true rn rd amt sh rm)
  | .ldrbtReg c u rn rd amt sh rm => .arm (encXferReg c false u true true true rn rd amt sh rm)
  | .stm c p u w rn list => .arm (encBlock c p u false w false rn list)
  | .stmUser c p u w rn list => .arm (encBlock c p u true w false rn list)
  | .ldm c p u w rn list => .arm (encBlock c p u false w true rn list)
  | .ldmUser c p u w rn list => .arm (encBlock c p u true w true rn (join 16 0#1 list))
  | .ldmRet c p u w rn list => .arm (encBlock c p u true w true rn (join 16 1#1 list))
  | .b c imm24 => .arm (join 32 c.bits (join 28 0xA#4 imm24))
  | .bl c imm24 => .arm (join 32 c.bits (join 28 0xB#4 imm24))
  | .ldcStc c p u n w l rn crd cpnum offset8 => .arm (join 32 c.bits (join 28 0b110#3 (join 25 (bit p) (join 24 (bit u) (join 23 (bit n) (join 22 (bit w) (join 21 (bit l) (join 20 rn (join 16 crd (join 12 cpnum offset8))))))))))
  | .cdp c op1 crn crd cpnum op2 crm => .arm (join 32 c.bits (join 28 0xE#4 (join 24 op1 (join 20 crn (join 16 crd (join 12 cpnum (join 8 op2 (join 5 0b0#1 crm))))))))
  | .mcrMrc c op1 l crn rd cpnum op2 crm => .arm (join 32 c.bits (join 28 0xE#4 (join 24 op1 (join 21 (bit l) (join 20 crn (join 16 rd (join 12 cpnum (join 8 op2 (join 5 0b1#1 crm)))))))))
  | .swi c imm24 => .arm (join 32 c.bits (join 28 0xF#4 imm24))
  | .tLslImm offset5 rs rd => .thumb (join 16 0b00000#5 (join 11 offset5 (join 6 rs rd)))
  | .tLsrImm offset5 rs rd => .thumb (join 16 0b00001#5 (join 11 offset5 (join 6 rs rd)))
  | .tAsrImm offset5 rs rd => .thumb (join 16 0b00010#5 (join 11 offset5 (join 6 rs rd)))
  | .tAddReg rn rs rd => .thumb (join 16 0b0001100#7 (join 9 rn (join 6 rs rd)))
  | .tSubReg rn rs rd => .thumb (join 16 0b0001101#7 (join 9 rn (join 6 rs rd)))
  | .tAddImm3 imm3 rs rd => .thumb (join 16 0b0001110#7 (join 9 imm3 (join 6 rs rd)))
  | .tSubImm3 imm3 rs rd => .thumb (join 16 0b0001111#7 (join 9 imm3 (join 6 rs rd)))
  | .tMovImm rd imm8 => .thumb (join 16 0b00100#5 (join 11 rd imm8))
  | .tCmpImm rd imm8 => .thumb (join 16 0b00101#5 (join 11 rd imm8))
  | .tAddImm8 rd imm8 => .thumb (join 16 0b00110#5 (join 11 rd imm8))
  | .tSubImm8 rd imm8 => .thumb (join 16 0b00111#5 (join 11 rd imm8))
  | .tAnd rs rd => .thumb (join 16 0b010000#6 (join 10 0x0#4 (join 6 rs rd)))
  | .tEor rs rd => .thumb (join 16 0b010000#6 (join 10 0x1#4 (join 6 rs rd)))
  | .tLslReg rs rd => .thumb (join 16 0b010000#6 (join 10 0x2#4 (join 6 rs rd)))
  | .tLsrReg rs rd => .thumb (join 16 0b010000#6 (join 10 0x3#4 (join 6 rs rd)))
  | .tAsrReg rs rd => .thumb (join 16 0b010000#6 (join 10 0x4#4 (join 6 rs rd)))
  | .tAdc rs rd => .thumb (join 16 0b010000#6 (join 10 0x5#4 (join 6 rs rd)))
  | .tSbc rs rd => .thumb (join 16 0b010000#6 (join 10 0x6#4 (join 6 rs rd)))
  | .tRor rs rd => .thumb (join 16 0b010000#6 (join 10 0x7#4 (join 6 rs rd)))
  | .tTst rs rd => .thumb (join 16 0b010000#6 (join 10 0x8#4 (join 6 rs rd)))
  | .tNeg rs rd => .thumb (join 16 0b010000#6 (join 10 0x9#4 (join 6 rs rd)))
  | .tCmpReg rs rd => .thumb (join 16 0b010000#6 (join 10 0xA#4 (join 6 rs rd)))
  | .tCmn rs rd => .thumb (join 16 0b010000#6 (join 10 0xB#4 (join 6 rs rd)))
  | .tOrr rs rd => .thumb (join 16 0b010000#6 (join 10 0xC#4 (join 6 rs rd)))
  | .tMul rs rd => .thumb (join 16 0b010000#6 (join 10 0xD#4 (join 6 rs rd)))
  | .tBic rs rd => .thumb (join 16 0b010000#6 (join 10 0xE#4 (join 6 rs rd)))
  | .tMvn rs rd => .thumb (join 16 0b010000#6 (join 10 0xF#4 (join 6 rs rd)))
  | .tAddHi d m => .thumb (join 16 0b010001#6 (join 10 0b00#2 (join 8 (d.extractLsb' 3 1) (join 7 m (d.extractLsb' 0 3)))))
  | .tCmpHi d m => .thumb (join 16 0b010001#6 (join 10 0b01#2 (join 8 (d.extractLsb' 3 1) (join 7 m (d.extractLsb' 0 3)))))
  | .tMovHi d m => .thumb (join 16 0b010001#6 (join 10 0b10#2 (join 8 (d.extractLsb' 3 1) (join 7 m (d.extractLsb' 0 3)))))
  | .tBx m sbz => .thumb (join 16 0b010001110#9 (join 7 m sbz))
  | .tBlxRegSpace m low => .thumb (join 16 0b010001111#9 (join 7 m low))
  | .tLdrPc rd word8 => .thumb (join 16 0b01001#5 (join 11 rd word8))
  | .tStrReg ro rb rd => .thumb (join 16 0b0101#4 (join 12 0b000#3 (join 9 ro (join 6 rb rd))))
  | .tStrbReg ro rb rd => .thumb (join 16 0b0101#4 (join 12 0b010#3 (join 9 ro (join 6 rb rd))))
  | .tLdrReg ro rb rd => .thumb (join 16 0b0101#4 (join 12 0b100#3 (join 9 ro (join 6 rb rd))))
  | .tLdrbReg ro rb rd => .thumb (join 16 0b0101#4 (join 12 0b110#3 (join 9 ro (join 6 rb rd))))
  | .tStrhReg ro rb rd => .thumb (join 16 0b0101#4 (join 12 0b001#3 (join 9 ro (join 6 rb rd))))
  | .tLdsb ro rb rd => .thumb (join 16 0b0101#4 (join 12 0b011#3 (join 9 ro (join 6 rb rd))))
  | .tLdrhReg ro rb rd => .thumb (join 16 0b0101#4 (join 12 0b101#3 (join 9 ro (join 6 rb rd))))
  | .tLdsh ro rb rd => .thumb (join 16 0b0101#4 (join 12 0b111#3 (join 9 ro (join 6 rb rd))))
  | .tStrImm offset5 rb rd => .thumb (join 16 0b011#3 (join 13 0b00#2 (join 11 offset5 (join 6 rb rd))))
  | .tLdrImm offset5 rb rd => .thumb (join 16 0b011#3 (join 13 0b01#2 (join 11 offset5 (join 6 rb rd))))
  | .tStrbImm offset5 rb rd => .thumb (join 16 0b011#3 (join 13 0b10#2 (join 11 offset5 (join 6 rb rd))))
  | .tLdrbImm offset5 rb rd => .thumb (join 16 0b011#3 (join 13 0b11#2 (join 11 offset5 (join 6 rb rd))))
  | .tStrhImm offset5 rb rd => .thumb (join 16 0b10000#5 (join 11 offset5 (join 6 rb rd)))
  | .tLdrhImm offset5 rb rd => .thumb (join 16 0b10001#5 (join 11 offset5 (join 6 rb rd)))
  | .tStrSp rd word8 => .thumb (join 16 0b10010#5 (join 11 rd word8))
  | .tLdrSp rd word8 => .thumb (join 16 0b10011#5 (join 11 rd word8))
  | .tAddPc rd word8 => .thumb (join 16 0b10100#5 (join 11 rd word8))
  | .tAddSp rd word8 => .thumb (join 16 0b10101#5 (join 11 rd word8))
  | .tAddSpimm sword7 => .thumb (join 16 0b101100000#9 sword7)
  | .tSubSpimm sword7 => .thumb (join 16 0b101100001#9 sword7)
  | .tPush r rlist => .thumb (join 16 0b1011010#7 (join 9 (bit r) rlist))
  | .tPop r rlist => .thumb (join 16 0b1011110#7 (join 9 (bit r) rlist))
  | .tUndB body => .thumb (join 16 0b1011#4 body)
  | .tStmia rb rlist => .thumb (join 16 0b11000#5 (join 11 rb rlist))
  | .tLdmia rb rlist => .thumb (join 16 0b11001#5 (join 11 rb rlist))
  | .tSwi value8 => .thumb (join 16 0xDF#8 value8)
  | .tUndDe body => .thumb (join 16 0xDE#8 body)
  | .tBcond c soffset8 => .thumb (join 16 0b1101#4 (join 12 c.bits soffset8))
  | .tB offset11 => .thumb (join 16 0b11100#5 offset11)
  | .tUndE8 body => .thumb (join 16 0b11101#5 body)
  | .tBlHi offset11 => .thumb (join 16 0b11110#5 offset11)
  | .tBlLo offset11 => .thumb (join 16 0b11111#5 offset11)

/-- The instruction the decoder reads from a row of opcode_table.json with nbits bits of value w: 16 bits are a Thumb
halfword, 32 an ARM word (30 R300). -/
def decodeTableWord (nbits w : Nat) : Option Instr :=
  let code : Code := if nbits ≤ 16 then .thumb (BitVec.ofNat 16 w) else .arm (BitVec.ofNat 32 w)
  match decodeBytes (decide (nbits ≤ 16)) code.bytes with
  | .ok (i, _) => some i
  | .error _ => none

end Sys2Proof
end

