-- ==== Sys2Proof/Machine/State.lean ====
section
/-! DEFINITION. Everything the spec gives the machine (10_state, 20_memory R201, 60_exceptions R1240 to R1265, 70 R1300), as plain
data, and the state right after reset. -/

namespace Sys2Proof.Machine

open Sys2Proof

/-! ### Modes and status registers -/

/-- The seven processor modes (10_state R101). -/
inductive Mode where
  | usr | fiq | irq | svc | abt | und | sys
deriving DecidableEq, Repr

/-- The number of a mode in CPSR.M (R101). -/
def Mode.bits : Mode → BitVec 5
  | .usr => 0x10 | .fiq => 0x11 | .irq => 0x12 | .svc => 0x13 | .abt => 0x17 | .und => 0x1B | .sys => 0x1F

/-- A status register's contents (R107, R108). Bits 27:8 read 0 and are not held (D50). An SPSR holds any value of M. -/
structure Psr where
  n : Bool
  z : Bool
  c : Bool
  v : Bool
  i : Bool
  f : Bool
  t : Bool
  m : BitVec 5
deriving DecidableEq, Repr

/-- The CPSR (R107). Its M names one of the seven modes: a write that would leave another value is refused (R109), so M
is held as the mode it names (log 8). -/
structure Cpsr where
  n : Bool
  z : Bool
  c : Bool
  v : Bool
  i : Bool
  f : Bool
  t : Bool
  mode : Mode
deriving DecidableEq, Repr

/-! ### I/O registers -/

/-- The halt state (R130). -/
inductive Halt where
  | running | halt | stop
deriving DecidableEq, Repr

/-- The control and scroll registers of one background (R121, R122). -/
structure Bg where
  cnt : Half
  hofs : Half
  vofs : Half
deriving DecidableEq, Repr

/-- The affine registers of BG2 or BG3 (R123, R124). -/
structure Affine where
  pa : Half
  pb : Half
  pc : Half
  pd : Half
  x : Word
  y : Word
deriving DecidableEq, Repr

/-- The I/O registers with a rule of their own (R127), the bits that hold a value only (log 8). HALTCNT is the halt state. -/
structure Io where
  dispcnt : Half
  /-- DISPSTAT bits 5:3 -/
  dispstatEnables : BitVec 3
  /-- DISPSTAT bits 15:8 -/
  dispstatVcount : Byte
  bg : Vector Bg 4
  /-- BG2 at 0, BG3 at 1 -/
  aff : Vector Affine 2
  mosaic : Half
  /-- KEYINPUT bits 9:0 -/
  keyinput : BitVec 10
  keycnt : Half
  /-- IE -/
  ieReg : Half
  /-- IF -/
  ifReg : Half
  /-- IME bit 0 -/
  ime : Bool
  postflg : Byte
deriving DecidableEq, Repr

/-! ### Memory -/

/-- Memory: (key, byte) pairs, keys strictly rising, no byte 0; an unlisted key reads 0 (log 9). -/
abbrev Memory := List Host.Cell

/-! ### Debugger and host -/

/-- The debugger's state (R132). The breakpoint sets are lists with no repeats. -/
structure Debugger where
  armBps : List Word
  thumbBps : List Word
  stopped : Bool
  enabled : Bool
  /-- newest last (R1244) -/
  history : List Word
deriving DecidableEq, Repr

/-- The queued commands (60 R1232, R1262, R1263, R1264, R1266). -/
inductive HostCommand where
  | setPause (b : Bool)
  | setKey (k : Nat) (pressed : Bool)
  | loadRom (bytes : List Byte)
  | requestScreenDraw
  | requestCpuDebugInfo
deriving DecidableEq, Repr

/-- The host's state beside the core (R1300, last rows). -/
structure HostSide where
  /-- oldest first (R1260) -/
  queue : List HostCommand
  /-- the staged CPU record (R1264) -/
  staged : Option Word
  /-- the shared framebuffer, if set (R1263) -/
  screen : Option (List Byte)
  /-- R1265 -/
  paused : Bool
deriving DecidableEq, Repr

/-! ### The state -/

/-- The machine. `regs` holds the thirty physical registers beside R15 (R100): R0 to R7 at 0 to 7; R8_usr to R12_usr at 8
to 12; R13_usr, R14_usr at 13, 14; R8_fiq to R14_fiq at 15 to 21; R13 and R14 of irq at 22, 23, svc at 24, 25, abt at 26, 27,
und at 28, 29. `spsr` holds SPSR_fiq, _irq, _svc, _abt, _und at 0 to 4 (R108). -/
structure State where
  regs : Vector Word 30
  /-- the address of the next instruction to execute (R105) -/
  pc : Word
  cpsr : Cpsr
  spsr : Vector Psr 5
  mem : Memory
  /-- len(ROM_IMAGE) (R203, R207) -/
  romLen : Nat
  io : Io
  halt : Halt
  /-- FIQ_LINE (R1212) -/
  fiqLine : Bool
  params : Params
  debugger : Debugger
  host : HostSide
  /-- the epoch of the free values; the model's own field (log 5) -/
  draws : Nat
deriving DecidableEq, Repr

/-! ### Why a step has no next state -/

/-- The hardware has no fault: no access faults and no behaviour is stuck (60 R1202, 93). No constructor, so no step faults:
safe (log 7). -/
inductive Fault where
deriving DecidableEq, Repr

/-- Which UNPREDICTABLE form or state a refusal is for (93 §2.2, D37). All are safe: the model stops where the hardware
does something the spec gives no meaning. -/
inductive Why where
  /-- register-specified shift with Rs = 15 (40 R412); raised by the _rshift data-processing meanings -/
  | shiftByPc
  /-- TST, TEQ, CMP or CMN with Rd = 1111 (40 R428) -/
  | compareRdPc
  /-- an SPSR restore in User or System mode (40 R416, 42 R642, 60 R1220) -/
  | noSpsr
  /-- a multiply with R15 or a forbidden register pair (41 R500, 44 R833) -/
  | multiplyRegs
  /-- MRS with Rd = 15 (41 R520) -/
  | mrsToPc
  /-- MSR with Rm = 15 (41 R522) -/
  | msrFromPc
  /-- MSR that would change CPSR.T (41 R521) -/
  | msrChangesT
  /-- a single or halfword transfer with writeback and Rn = 15 (42 R600, R604) -/
  | writebackToPc
  /-- a register offset with Rm = 15 (42 R600, R604) -/
  | offsetPc
  /-- a register offset with writeback and Rm = Rn (42 R600, R604) -/
  | offsetIsBase
  /-- STRB, STRBT or STRH with Rd = 15 (42 R601) -/
  | narrowStorePc
  /-- LDRB, LDRBT, LDRH, LDRSB or LDRSH with Rd = 15 (42 R603) -/
  | narrowLoadPc
  /-- a halfword register-offset form with bits 11:8 not 0000 (30 R312) -/
  | halfwordSbz
  /-- a halfword form with P = 0 and W = 1 (30 R312) -/
  | halfwordPostW
  /-- the ARMv5TE LDRD space (30 R312) -/
  | ldrdSpace
  /-- the ARMv5TE STRD space (30 R312) -/
  | strdSpace
  /-- LDM or STM with Rn = 15 (42 R630) -/
  | blockBasePc
  /-- a user-bank LDM or STM with W = 1 (42 R641, R644) -/
  | userBankWriteback
  /-- a user-bank LDM or STM in User or System mode (42 R641, R644) -/
  | userBankMode
  /-- a user-bank LDM or STM with an empty list (42 R641, R644) -/
  | userBankEmpty
  /-- SWP or SWPB with R15, Rn = Rd or Rn = Rm (42 R650) -/
  | swapRegs
  /-- the ARMv5 BLX space of Thumb format T5 (30 R331) -/
  | blxSpace
  /-- PUSH, POP, STMIA or LDMIA with an empty list (45 R929) -/
  | thumbEmptyList
deriving DecidableEq, Repr

/-- The spec's refuse(reason) (00_scope R13): the spec gives the encoding or state no meaning, and no claim is made of a
run that reaches it. All are safe (log 6). -/
inductive Refusal where
  /-- refuse(Unpredictable), raised by the meanings `Why` names -/
  | unpredictable (why : Why)
  /-- refuse(InvalidMode): MSR or an SPSR restore that would leave no mode in CPSR.M (10_state R109) -/
  | invalidMode
  /-- refuse(UnmodelledDevice): a store to an unmodelled I/O register under IO_DEVICE_POLICY = refuse (R126) -/
  | unmodelledDevice
  /-- an instruction this model gives no meaning; raised by no arm of exec -/
  | notModelled (mnemonic : String)
deriving DecidableEq, Repr

/-- The outcome of an instruction or a step. -/
abbrev Result := Host.Outcome State Fault Refusal

/-! ### Reset -/

/-- The I/O registers at reset: the reset column of R127. -/
def Io.reset : Io where
  dispcnt := 0
  dispstatEnables := 0
  dispstatVcount := 0
  bg := Vector.replicate 4 ⟨0, 0, 0⟩
  aff := Vector.replicate 2 ⟨0, 0, 0, 0, 0, 0⟩
  mosaic := 0
  keyinput := 0x3FF
  keycnt := 0
  ieReg := 0
  ifReg := 0
  ime := false
  postflg := 0

/-- The CPSR at reset, 0x000000D3: Supervisor, I = F = 1, T = 0, NZCV = 0 (R133, R1300). -/
def Cpsr.reset : Cpsr := ⟨false, false, false, false, true, true, false, .svc⟩

/-- A PSR of zeros: the SPSRs at reset under RESET_REG_POLICY = zero (R133). -/
def Psr.zero : Psr := ⟨false, false, false, false, false, false, false, 0⟩

/-- The debugger at power-on (R1247). -/
def Debugger.reset : Debugger := ⟨[], [], false, false, []⟩

/-- The host at power-on (R1300). -/
def HostSide.reset : HostSide := ⟨[], none, none, false⟩

/-- The parameters' defaults (00_scope R8, D9, D15, D23); PC_HISTORY_LEN and TEST_ROM_IMAGE are OPEN there (log 3). -/
def Params.default : Params := ⟨.store, false, .zero, 16, []⟩

/-- The state right after power-on with the parameters p: `construct` (R133, R1300, R231). The registers and SPSRs are the
values of RESET_REG_POLICY = zero (log 2); BIOS_IMAGE is all zero (D7, log 4) and no cartridge is loaded. -/
def State.powerOn (p : Params) : State where
  regs := Vector.replicate 30 0
  pc := 0
  cpsr := Cpsr.reset
  spsr := Vector.replicate 5 Psr.zero
  mem := []
  romLen := 0
  io := Io.reset
  halt := .running
  fiqLine := false
  params := p
  debugger := Debugger.reset
  host := HostSide.reset
  draws := 0

/-- The machine right after reset, the parameters at their defaults (R1300). -/
def State.reset : State := State.powerOn Params.default

end Sys2Proof.Machine
end

