-- ==== Sys2Proof/Machine/Memory.lean ====
section
/-! DEFINITION. Memory as a list of bytes by key in one canonical form: reading, writing and the form (log 9). -/

namespace Sys2Proof.Machine

open Sys2Proof

/-- The byte at a key; 0 where none is listed (20 R204, R231). -/
def Memory.read : Memory → Nat → Byte
  | [], _ => 0
  | (k, b) :: rest, a => if k = a then b else Memory.read rest a

/-- The list that holds b at key a and nothing else. -/
def Memory.cell (a : Nat) (b : Byte) : Memory :=
  if b = 0 then [] else [(a, b)]

/-- Memory with b at key a. -/
def Memory.write (m : Memory) (a : Nat) (b : Byte) : Memory :=
  m.filter (fun c => decide (c.1 < a)) ++ Memory.cell a b ++ m.filter (fun c => decide (a < c.1))

/-- Consecutive bytes from key a on. -/
def Memory.writeList (m : Memory) : Nat → List Byte → Memory
  | _, [] => m
  | a, b :: rest => Memory.writeList (m.write a b) (a + 1) rest

/-- The canonical form: keys strictly rising, no byte 0. -/
def Memory.wf (m : Memory) : Bool :=
  decide (m.Pairwise fun x y => x.1 < y.1) && m.all fun c => c.2 != 0

end Sys2Proof.Machine
end

