-- ==== Sys2Proof/Machine/Bus.lean ====
section
/-! DEFINITION. The memory bus: address decode (20 R202, R203), the I/O registers byte by byte (10_state R114 to R127, 20 R212),
and MemRead and MemWrite (00_scope R12). -/

namespace Sys2Proof.Machine

open Sys2Proof

/-! ### Address decode -/

/-- The regions of 20_memory R202. -/
inductive Region where
  | bios | ewram | iwram | io | pal | vram | oam | rom | unmapped
deriving DecidableEq, Repr

/-- The key of a region's first byte: its base address, so that mirrors share storage. -/
def Region.base : Region → Nat
  | .bios => 0x00000000 | .ewram => 0x02000000 | .iwram => 0x03000000 | .io => 0x04000000 | .pal => 0x05000000
  | .vram => 0x06000000 | .oam => 0x07000000 | .rom => 0x08000000 | .unmapped => 0x10000000

/-- `decode(a)` of 20_memory R203: the region and the offset within it, given len(ROM_IMAGE). -/
def decodeAddr (romLen : Nat) (a : Word) : Region × Nat :=
  if a.extractLsb' 28 4 ≠ 0#4 then (.unmapped, 0)
  else
    match (a.extractLsb' 24 4).toNat with
    | 0x0 => if a.toNat < 0x4000 then (.bios, (a.extractLsb' 0 14).toNat) else (.unmapped, 0)
    | 0x2 => (.ewram, (a.extractLsb' 0 18).toNat)
    | 0x3 => (.iwram, (a.extractLsb' 0 15).toNat)
    | 0x4 => if a.extractLsb' 10 14 = 0#14 then (.io, (a.extractLsb' 0 10).toNat) else (.unmapped, 0)
    | 0x5 => (.pal, (a.extractLsb' 0 10).toNat)
    | 0x6 =>
      let o := (a.extractLsb' 0 17).toNat
      (.vram, if 0x18000 ≤ o then o - 0x8000 else o)
    | 0x7 => (.oam, (a.extractLsb' 0 10).toNat)
    | 0x8 | 0x9 | 0xA | 0xB | 0xC | 0xD =>
      let o := (a.extractLsb' 0 25).toNat
      if o < romLen then (.rom, o) else (.unmapped, 0)
    | _ => (.unmapped, 0)

/-! ### I/O registers -/

/-- The I/O registers with a rule of their own (R127). BG2's affine registers are those of 0, BG3's of 1. -/
inductive IoReg where
  | dispcnt | dispstat | vcount
  | bgCnt (n : Fin 4) | bgHofs (n : Fin 4) | bgVofs (n : Fin 4)
  | affA (m : Fin 2) | affB (m : Fin 2) | affC (m : Fin 2) | affD (m : Fin 2) | affX (m : Fin 2) | affY (m : Fin 2)
  | mosaic | keyinput | keycnt | ie | ifr | ime | postflg | haltcnt
deriving DecidableEq, Repr

/-- The register at an even I/O offset, and which of its bytes stands there (R127). POSTFLG and HALTCNT share a halfword
and are told apart in `ioReg`. -/
def ioHalf (o : Nat) : Option (IoReg × Nat) :=
  match o with
  | 0x000 => some (.dispcnt, 0)
  | 0x004 => some (.dispstat, 0)
  | 0x006 => some (.vcount, 0)
  | 0x008 => some (.bgCnt 0, 0)
  | 0x00A => some (.bgCnt 1, 0)
  | 0x00C => some (.bgCnt 2, 0)
  | 0x00E => some (.bgCnt 3, 0)
  | 0x010 => some (.bgHofs 0, 0)
  | 0x012 => some (.bgVofs 0, 0)
  | 0x014 => some (.bgHofs 1, 0)
  | 0x016 => some (.bgVofs 1, 0)
  | 0x018 => some (.bgHofs 2, 0)
  | 0x01A => some (.bgVofs 2, 0)
  | 0x01C => some (.bgHofs 3, 0)
  | 0x01E => some (.bgVofs 3, 0)
  | 0x020 => some (.affA 0, 0)
  | 0x022 => some (.affB 0, 0)
  | 0x024 => some (.affC 0, 0)
  | 0x026 => some (.affD 0, 0)
  | 0x028 => some (.affX 0, 0)
  | 0x02A => some (.affX 0, 2)
  | 0x02C => some (.affY 0, 0)
  | 0x02E => some (.affY 0, 2)
  | 0x030 => some (.affA 1, 0)
  | 0x032 => some (.affB 1, 0)
  | 0x034 => some (.affC 1, 0)
  | 0x036 => some (.affD 1, 0)
  | 0x038 => some (.affX 1, 0)
  | 0x03A => some (.affX 1, 2)
  | 0x03C => some (.affY 1, 0)
  | 0x03E => some (.affY 1, 2)
  | 0x04C => some (.mosaic, 0)
  | 0x130 => some (.keyinput, 0)
  | 0x132 => some (.keycnt, 0)
  | 0x200 => some (.ie, 0)
  | 0x202 => some (.ifr, 0)
  | 0x208 => some (.ime, 0)
  | 0x20A => some (.ime, 2)
  | 0x300 => some (.postflg, 0)
  | _ => none

/-- The register whose byte stands at an I/O offset, and which byte of it; none at an unmodelled offset (R126, R127). -/
def ioReg (o : Nat) : Option (IoReg × Nat) :=
  match ioHalf (o - o % 2) with
  | some (.postflg, _) => some (if o % 2 = 0 then .postflg else .haltcnt, 0)
  | some (r, k) => some (r, k + o % 2)
  | none => none

/-- Byte k of a register. -/
def getByte {n : Nat} (v : BitVec n) (k : Nat) : Byte :=
  v.extractLsb' (8 * k) 8

/-- A register with its byte k replaced. -/
def setByte {n : Nat} (v : BitVec n) (k : Nat) (b : Byte) : BitVec n :=
  (v &&& ~~~((0xFF : Byte).setWidth n <<< (8 * k))) ||| (b.setWidth n <<< (8 * k))

/-- Byte k of a register as a load reads it; d is the draw of a draw register (R120). A write-only register reads 0 (R127). -/
def Io.readReg (io : Io) (r : IoReg) (k : Nat) (d : Word) : Byte :=
  match r with
  | .dispcnt => getByte io.dispcnt k
  | .dispstat =>
    if k = 0 then join 8 0#2 (join 6 io.dispstatEnables (d.extractLsb' 0 3)) else io.dispstatVcount
  | .vcount => if k = 0 then d.extractLsb' 0 8 else 0
  | .bgCnt n => getByte io.bg[n].cnt k
  | .bgHofs _ | .bgVofs _ => 0
  | .affA _ | .affB _ | .affC _ | .affD _ | .affX _ | .affY _ => 0
  | .mosaic => 0
  | .keyinput => getByte (io.keyinput.setWidth 16) k
  | .keycnt => getByte io.keycnt k
  | .ie => getByte io.ieReg k
  | .ifr => getByte io.ifReg k
  | .ime => if k = 0 ∧ io.ime then 1 else 0
  | .postflg => io.postflg
  | .haltcnt => 0

/-- The background registers of n changed by g. -/
def Io.onBg (io : Io) (n : Fin 4) (g : Bg → Bg) : Io := { io with bg := io.bg.set n (g io.bg[n]) }

/-- The affine registers of m changed by g. -/
def Io.onAff (io : Io) (m : Fin 2) (g : Affine → Affine) : Io := { io with aff := io.aff.set m (g io.aff[m]) }

/-- The registers after the CPU writes byte b to byte k of r. VCOUNT and KEYINPUT ignore writes (R118, R120); IF clears the
written ones (R115); IME and DISPSTAT keep their writable bits (R116, R120); HALTCNT holds nothing here (R117). -/
def Io.writeReg (io : Io) (r : IoReg) (k : Nat) (b : Byte) : Io :=
  match r with
  | .dispcnt => { io with dispcnt := setByte io.dispcnt k b }
  | .dispstat => if k = 0 then { io with dispstatEnables := b.extractLsb' 3 3 } else { io with dispstatVcount := b }
  | .vcount => io
  | .bgCnt n => io.onBg n fun g => { g with cnt := setByte g.cnt k b }
  | .bgHofs n => io.onBg n fun g => { g with hofs := setByte g.hofs k b }
  | .bgVofs n => io.onBg n fun g => { g with vofs := setByte g.vofs k b }
  | .affA m => io.onAff m fun g => { g with pa := setByte g.pa k b }
  | .affB m => io.onAff m fun g => { g with pb := setByte g.pb k b }
  | .affC m => io.onAff m fun g => { g with pc := setByte g.pc k b }
  | .affD m => io.onAff m fun g => { g with pd := setByte g.pd k b }
  | .affX m => io.onAff m fun g => { g with x := setByte g.x k b }
  | .affY m => io.onAff m fun g => { g with y := setByte g.y k b }
  | .mosaic => { io with mosaic := setByte io.mosaic k b }
  | .keyinput => io
  | .keycnt => { io with keycnt := setByte io.keycnt k b }
  | .ie => { io with ieReg := setByte io.ieReg k b }
  | .ifr => { io with ifReg := io.ifReg &&& ~~~(setByte 0 k b) }
  | .ime => if k = 0 then { io with ime := b.getLsbD 0 } else io
  | .postflg => { io with postflg := b }
  | .haltcnt => io

/-! ### Reading -/

/-- The byte a read finds at an I/O offset (R126, R127); a draw register answers with a fresh draw (R120, R220). -/
def State.readIo (s : State) (acc : Access) (o : Nat) : Byte :=
  match ioReg o with
  | some (r, k) => s.io.readReg r k (Config.draw s.draws (.ioRead acc o))
  | none => s.mem.read (Region.io.base + o)

/-- The byte at an address (R203 to R208). -/
def State.readByte (s : State) (acc : Access) (a : Word) : Byte :=
  match decodeAddr s.romLen a with
  | (.unmapped, _) => 0
  | (.io, o) => s.readIo acc o
  | (r, o) => s.mem.read (r.base + o)

/-- The widths of an access (20 R218). -/
inductive Width where
  | byte | half | word
deriving DecidableEq, Repr

/-- `MemRead(a, n)` (00_scope R12, 20 R213): n bytes from a on, little-endian, zero-extended; addresses wrap. -/
def State.memRead (s : State) (acc : Access) (a : Word) (w : Width) : Word :=
  match w with
  | .byte => (s.readByte acc a).setWidth 32
  | .half => (join 16 (s.readByte acc (a + 1)) (s.readByte acc a) : Half).setWidth 32
  | .word =>
    join 32 (s.readByte acc (a + 3)) (join 24 (s.readByte acc (a + 2)) (join 16 (s.readByte acc (a + 1)) (s.readByte acc a)))

/-! ### Writing -/

/-- One byte written at an I/O offset (R117, R126, R212). -/
def State.writeIo (s : State) (o : Nat) (b : Byte) : State :=
  match ioReg o with
  | some (.haltcnt, _) => { s with halt := if b.msb then .stop else .halt }
  | some (r, k) => { s with io := s.io.writeReg r k b }
  | none => { s with mem := s.mem.write (Region.io.base + o) b }

/-- One byte of a halfword or word write (R206 to R212): plain in EWRAM, IWRAM, palette RAM, VRAM and OAM, ignored by BIOS,
ROM and unmapped addresses. -/
def State.writePlain (s : State) (a : Word) (b : Byte) : State :=
  match decodeAddr s.romLen a with
  | (.bios, _) | (.rom, _) | (.unmapped, _) => s
  | (.io, o) => s.writeIo o b
  | (r, o) => { s with mem := s.mem.write (r.base + o) b }

/-- The first VRAM offset whose byte writes are ignored (R210). -/
def State.vramByteLimit (s : State) : Nat :=
  if (s.io.dispcnt.extractLsb' 0 3).toNat ≤ 2 then 0x10000 else 0x14000

/-- A byte write of b to both bytes of the halfword that holds offset o of a region (R209, R210). -/
def State.writeBoth (s : State) (r : Region) (o : Nat) (b : Byte) : State :=
  { s with mem := (s.mem.write (r.base + (o - o % 2)) b).write (r.base + (o - o % 2) + 1) b }

/-- A byte write (R208 to R212): doubled in palette RAM and in VRAM below the limit, ignored in OAM. -/
def State.writeByte (s : State) (a : Word) (b : Byte) : State :=
  match decodeAddr s.romLen a with
  | (.pal, o) => s.writeBoth .pal o b
  | (.vram, o) => if o < s.vramByteLimit then s.writeBoth .vram o b else s
  | (.oam, _) => s
  | _ => s.writePlain a b

/-- `MemWrite(a, n, v)` (00_scope R12): the low n bytes of v, little-endian, from a on. -/
def State.memWrite (s : State) (a : Word) (w : Width) (v : Word) : State :=
  match w with
  | .byte => s.writeByte a (getByte v 0)
  | .half => (s.writePlain a (getByte v 0)).writePlain (a + 1) (getByte v 1)
  | .word =>
    (((s.writePlain a (getByte v 0)).writePlain (a + 1) (getByte v 1)).writePlain (a + 2) (getByte v 2)).writePlain (a + 3)
      (getByte v 3)

/-- The number of bytes of an access. -/
def Width.bytes : Width → Nat
  | .byte => 1 | .half => 2 | .word => 4

/-- Address a is a byte of an unmodelled I/O register (R126). -/
def unmodelledIo (romLen : Nat) (a : Word) : Bool :=
  match decodeAddr romLen a with
  | (.io, o) => (ioReg o).isNone
  | _ => false

/-- A write that IO_DEVICE_POLICY = refuse turns away: some byte of it lands in an unmodelled I/O register (R126, D9). -/
def State.refusesWrite (s : State) (a : Word) (w : Width) : Bool :=
  s.params.ioPolicy == .refuse && (List.range w.bytes).any fun k => unmodelledIo s.romLen (a + BitVec.ofNat 32 k)

/-- The address a store of this width uses: aligned down (20 R217). -/
def Width.align (w : Width) (a : Word) : Word :=
  match w with
  | .byte => a
  | .half => a &&& 0xFFFFFFFE
  | .word => a &&& 0xFFFFFFFC

end Sys2Proof.Machine
end

