-- ==== Sys2Proof/Machine/Ops.lean ====
section
/-! DEFINITION. The named operations the meanings share: registers and banks (10_state R100 to R111), the status registers
(R107 to R109), stores, taking an exception and returning from one (60 R1200, R1201, R1220). -/

namespace Sys2Proof.Machine

open Sys2Proof

/-! ### Field updates -/

/-- The physical register p. -/
def State.peek (s : State) (p : Fin 30) : Word := s.regs[p]

/-- The physical register p set to v. -/
def State.poke (s : State) (p : Fin 30) (v : Word) : State := { s with regs := s.regs.set p v }

/-- The address of the next instruction set to a. -/
def State.setPc (s : State) (a : Word) : State := { s with pc := a }

/-- The CPSR replaced. -/
def State.setCpsr (s : State) (p : Cpsr) : State := { s with cpsr := p }

/-- The SPSR numbered k replaced. -/
def State.setSpsr (s : State) (k : Fin 5) (p : Psr) : State := { s with spsr := s.spsr.set k p }

/-! ### Registers and banks -/

/-- The number of a mode's R13 among the physical registers; its R14 is the next one (R102). -/
def Mode.spIndex : Mode → Nat
  | .usr | .sys => 13 | .fiq => 20 | .irq => 22 | .svc => 24 | .abt => 26 | .und => 28

/-- The physical register that mode m sees as Rr, for r other than 15 (R102; the numbers are those of State.regs). -/
def physReg (m : Mode) (r : Reg) : Fin 30 :=
  Fin.ofNat 30
    (if r.toNat < 8 then r.toNat
     else if r.toNat < 13 then (if m = .fiq then r.toNat + 7 else r.toNat)
     else m.spIndex + (r.toNat - 13))

/-- `x[r]` (00_scope R11) where R15 reads as pc + off (R110): off is 8 in ARM state, 4 in Thumb state, 12 where a rule says. -/
def State.reg (s : State) (off : Word) (r : Reg) : Word :=
  if r = 15 then s.pc + off else s.peek (physReg s.cpsr.mode r)

/-- `xu[r]` (00_scope R11): the User-mode view, R15 reading as pc + off. -/
def State.userReg (s : State) (off : Word) (r : Reg) : Word :=
  if r = 15 then s.pc + off else s.peek (physReg .usr r)

/-- `x[r] <- v` for r other than 15 (R102). -/
def State.setReg (s : State) (r : Reg) (v : Word) : State := s.poke (physReg s.cpsr.mode r) v

/-- `xu[r] <- v` for r other than 15. -/
def State.setUserReg (s : State) (r : Reg) (v : Word) : State := s.poke (physReg .usr r) v

/-- R0 to R7 as a register number. -/
def lo (r : LoReg) : Reg := r.setWidth 4

/-! ### The program counter -/

/-- A value written to R15 as an address: bits 1:0 cleared in ARM state, bit 0 in Thumb state (R111). -/
def alignPc (thumb : Bool) (v : Word) : Word :=
  if thumb then v &&& 0xFFFFFFFE else v &&& 0xFFFFFFFC

/-- The sequential advance (R106) by an instruction's length. -/
def State.advance (s : State) (len : Word) : State := s.setPc (s.pc + len)

/-- `x[15] <- v` in ARM state (R111). -/
def State.branchArm (s : State) (v : Word) : State := s.setPc (alignPc false v)

/-- `x[15] <- v` in Thumb state (R111). -/
def State.branchThumb (s : State) (v : Word) : State := s.setPc (alignPc true v)

/-- The end of an ARM instruction that writes v to Rd: a branch where Rd is R15 (R111), the advance otherwise (R106). -/
def State.writeRd (s : State) (rd : Reg) (v : Word) : State :=
  if rd = 15 then s.branchArm v else (s.setReg rd v).advance 4

/-- BX (43 R702, 44 R843): the instruction state from bit 0 of the target, then the branch. -/
def State.exchange (s : State) (v : Word) : State :=
  (s.setCpsr { s.cpsr with t := v.getLsbD 0 }).setPc (alignPc (v.getLsbD 0) v)

/-! ### Conditions -/

/-- `ConditionPassed` (40 R400). -/
def Cond.passes (c : Cond) (p : Cpsr) : Bool :=
  match c with
  | .eq => p.z
  | .ne => !p.z
  | .cs => p.c
  | .cc => !p.c
  | .mi => p.n
  | .pl => !p.n
  | .vs => p.v
  | .vc => !p.v
  | .hi => p.c && !p.z
  | .ls => !p.c || p.z
  | .ge => p.n == p.v
  | .lt => p.n != p.v
  | .gt => !p.z && p.n == p.v
  | .le => p.z || p.n != p.v
  | .al => true

/-- An ARM instruction under its condition: where it fails only the pc advances (30 R310, 40 R401, R402). -/
def State.whenPassed (s : State) (c : Cond) (k : Result) : Result :=
  if Cond.passes c s.cpsr then k else .next (s.advance 4)

/-- A form the spec refuses as UNPREDICTABLE (00_scope R13), and what happens otherwise. -/
def refuseIf (b : Bool) (why : Why) (k : Result) : Result :=
  if b then .refused (.unpredictable why) else k

/-! ### Status registers -/

/-- The mode a value of M names, if it names one (R101). -/
def Mode.ofBits (b : BitVec 5) : Option Mode :=
  match b.toNat with
  | 0x10 => some .usr | 0x11 => some .fiq | 0x12 => some .irq | 0x13 => some .svc | 0x17 => some .abt | 0x1B => some .und
  | 0x1F => some .sys | _ => none

/-- The 32-bit value of a status register (R107): bits 27:8 read 0. -/
def Psr.word (p : Psr) : Word :=
  join 32 (bit p.n) (join 31 (bit p.z) (join 30 (bit p.c) (join 29 (bit p.v) (join 28 0#20
    (join 8 (bit p.i) (join 7 (bit p.f) (join 6 (bit p.t) p.m)))))))

/-- A status register from a 32-bit value: bits 27:8 are dropped (D50). -/
def Psr.ofWord (w : Word) : Psr :=
  ⟨w.getLsbD 31, w.getLsbD 30, w.getLsbD 29, w.getLsbD 28, w.getLsbD 7, w.getLsbD 6, w.getLsbD 5, w.extractLsb' 0 5⟩

/-- The CPSR as a status register's contents: what exception entry saves (60 R1200). -/
def Cpsr.toPsr (p : Cpsr) : Psr := ⟨p.n, p.z, p.c, p.v, p.i, p.f, p.t, p.mode.bits⟩

/-- The CPSR a status register's contents make, none where M names no mode (R109). -/
def Psr.toCpsr (p : Psr) : Option Cpsr :=
  (Mode.ofBits p.m).map fun m => ⟨p.n, p.z, p.c, p.v, p.i, p.f, p.t, m⟩

/-- The 32-bit value of the CPSR (R107). -/
def Cpsr.word (p : Cpsr) : Word := p.toPsr.word

/-- The number of a mode's SPSR; User and System have none (R101, R108). -/
def Mode.spsrIndex : Mode → Option (Fin 5)
  | .fiq => some 0 | .irq => some 1 | .svc => some 2 | .abt => some 3 | .und => some 4 | .usr | .sys => none

/-- `spsr`: the SPSR of the current mode (R108). -/
def State.curSpsr (s : State) : Option Psr := s.cpsr.mode.spsrIndex.map fun k => s.spsr[k]

/-! ### Stores -/

/-- A store of the low bytes of v at a, aligned down (20 R217), and what follows it; refused where IO_DEVICE_POLICY says so
(R126). -/
def State.store (s : State) (w : Width) (a v : Word) (k : State → Result) : Result :=
  if s.refusesWrite (w.align a) w then .refused .unmodelledDevice else k (s.memWrite (w.align a) w v)

/-- The kinds of load (20 R215, R216). -/
inductive LoadKind where
  | word | byte | half | signedByte | signedHalf
deriving DecidableEq, Repr

/-- The value a load brings from address a: a misaligned word is rotated (R215), an odd LDRH rotated, an odd LDRSH a signed
byte (R216). -/
def State.loadValue (s : State) (k : LoadKind) (a : Word) : Word :=
  match k with
  | .word => (s.memRead .data (a &&& 0xFFFFFFFC) .word).rotateRight (8 * (a.extractLsb' 0 2).toNat)
  | .byte => s.memRead .data a .byte
  | .half => (s.memRead .data (a &&& 0xFFFFFFFE) .half).rotateRight (8 * (a.extractLsb' 0 1).toNat)
  | .signedByte => ((s.memRead .data a .byte).setWidth 8 : Byte).signExtend 32
  | .signedHalf =>
    if a.getLsbD 0 then ((s.memRead .data a .byte).setWidth 8 : Byte).signExtend 32
    else ((s.memRead .data a .half).setWidth 16 : Half).signExtend 32

/-! ### Exceptions -/

/-- The kinds of exception (60 R1201). -/
inductive ExcKind where
  | reset | dataAbort | fiq | irq | prefetchAbort | undefined | softwareInterrupt
deriving DecidableEq, Repr

/-- R1201, column vector. -/
def ExcKind.vector : ExcKind → Word
  | .reset => 0x00 | .dataAbort => 0x10 | .fiq => 0x1C | .irq => 0x18 | .prefetchAbort => 0x0C | .undefined => 0x04
  | .softwareInterrupt => 0x08

/-- R1201, column mode. -/
def ExcKind.mode : ExcKind → Mode
  | .reset => .svc | .dataAbort => .abt | .fiq => .fiq | .irq => .irq | .prefetchAbort => .abt | .undefined => .und
  | .softwareInterrupt => .svc

/-- The number of the SPSR of an exception's mode (R108, R1201). -/
def ExcKind.spsrIndex : ExcKind → Fin 5
  | .reset => 2 | .dataAbort => 3 | .fiq => 0 | .irq => 1 | .prefetchAbort => 3 | .undefined => 4 | .softwareInterrupt => 2

/-- R1201, column F set. -/
def ExcKind.setsF : ExcKind → Bool
  | .reset | .fiq => true
  | .dataAbort | .irq | .prefetchAbort | .undefined | .softwareInterrupt => false

/-- `TakeException(kind, link)` (60 R1200): the link goes to R14 and the CPSR to the SPSR of the kind's mode, the CPSR
enters that mode with T = 0 and I = 1 (and F = 1 for Reset and FIQ), NZCV unchanged, and the pc goes to the vector. -/
def State.takeException (s : State) (kind : ExcKind) (link : Word) : State :=
  (((s.poke (physReg kind.mode 14) link).setSpsr kind.spsrIndex s.cpsr.toPsr).setCpsr
    { s.cpsr with mode := kind.mode, t := false, i := true, f := s.cpsr.f || kind.setsF }).setPc (alignPc false kind.vector)

/-- The SPSR restore with a branch to v (40 R416, 42 R642, 60 R1220): the CPSR from the SPSR of the current mode, then the pc
aligned by the new T. Refused where the mode has no SPSR or the SPSR's M names no mode (R109). -/
def State.exceptionReturn (s : State) (v : Word) : Result :=
  match s.curSpsr with
  | none => .refused (.unpredictable .noSpsr)
  | some p =>
    match p.toCpsr with
    | none => .refused .invalidMode
    | some c => .next ((s.setCpsr c).setPc (alignPc c.t v))

end Sys2Proof.Machine
end

