-- ==== Sys2Proof/Machine/Operands.lean ====
section
/-! DEFINITION. The operand forms: the barrel shifter (40 R410 to R412, 44 R812) and the offsets of the branches (30 R340,
R341). -/

namespace Sys2Proof.Machine

open Sys2Proof

/-- `shifter_operand` and `shifter_carry_out`. -/
structure ShiftOut where
  value : Word
  carry : Bool
deriving DecidableEq, Repr

/-- `ROR(zext_8(imm8), 2 * rot)` (R410). -/
def rotatedImm (rot : BitVec 4) (imm8 : BitVec 8) : Word :=
  (imm8.setWidth 32).rotateRight (2 * rot.toNat)

/-- The immediate operand (R410); c is cpsr.C. -/
def immOperand (c : Bool) (rot : BitVec 4) (imm8 : BitVec 8) : ShiftOut :=
  ⟨rotatedImm rot imm8, if rot = 0 then c else (rotatedImm rot imm8).msb⟩

/-- The immediate shift of m by the field n (R411): 0 means 32 for LSR and ASR and RRX for ROR. -/
def shiftImm (c : Bool) (sh : ShiftKind) (m : Word) (n : BitVec 5) : ShiftOut :=
  match sh with
  | .lsl => if n = 0 then ⟨m, c⟩ else ⟨m <<< n.toNat, m.getLsbD (32 - n.toNat)⟩
  | .lsr => if n = 0 then ⟨0, m.msb⟩ else ⟨m >>> n.toNat, m.getLsbD (n.toNat - 1)⟩
  | .asr => if n = 0 then ⟨m.sshiftRight 32, m.msb⟩ else ⟨m.sshiftRight n.toNat, m.getLsbD (n.toNat - 1)⟩
  | .ror => if n = 0 then ⟨join 32 (bit c) (m.extractLsb' 1 31), m.getLsbD 0⟩
    else ⟨m.rotateRight n.toNat, m.getLsbD (n.toNat - 1)⟩

/-- The shift of m by an amount s (R412), the low byte of a register. -/
def shiftReg (c : Bool) (sh : ShiftKind) (m : Word) (s : Byte) : ShiftOut :=
  let n := s.toNat
  if n = 0 then ⟨m, c⟩
  else
    match sh with
    | .lsl => if n < 32 then ⟨m <<< n, m.getLsbD (32 - n)⟩ else if n = 32 then ⟨0, m.getLsbD 0⟩ else ⟨0, false⟩
    | .lsr => if n < 32 then ⟨m >>> n, m.getLsbD (n - 1)⟩ else if n = 32 then ⟨0, m.msb⟩ else ⟨0, false⟩
    | .asr => if n < 32 then ⟨m.sshiftRight n, m.getLsbD (n - 1)⟩ else ⟨m.sshiftRight 32, m.msb⟩
    | .ror =>
      if n % 32 = 0 then ⟨m, m.msb⟩ else ⟨m.rotateRight (n % 32), m.getLsbD (n % 32 - 1)⟩

/-- The low byte of a register: a register shift amount (R412). -/
def shiftAmount (v : Word) : Byte := v.extractLsb' 0 8

/-- `sext_24(imm24) * 4` (30 R340). -/
def armBranchOffset (imm24 : BitVec 24) : Word := imm24.signExtend 32 <<< 2

/-- `zext_8(word8) * 4` (30 R341). -/
def word8Offset (word8 : BitVec 8) : Word := word8.setWidth 32 <<< 2

/-- `(pc + 4) AND 0xFFFFFFFC`, the base of Thumb PC-relative addressing (45 R900, R920). -/
def State.thumbPcBase (s : State) : Word := (s.pc + 4) &&& 0xFFFFFFFC

end Sys2Proof.Machine
end

