-- ==== Sys2Proof/Machine/Block.lean ====
section
/-! DEFINITION. ARM block transfers (42_arm_loadstore R630 to R644) and the operations Thumb block transfers share with them (45 R929). -/

namespace Sys2Proof.Machine

open Sys2Proof

/-- The registers of a list, in ascending order (R630). -/
def regsOf (list : BitVec 16) : List Reg :=
  [0, 1, 2, 3, 4, 5, 6, 7, 8, 9, 10, 11, 12, 13, 14, 15].filter fun r : Reg => list.getLsbD r.toNat

/-- The registers an ARM block transfer moves: R15 alone for an empty list (R631). -/
def blockRegs (list : BitVec 16) : List Reg := if list = 0 then [15] else regsOf list

/-- 4n of R630, where an empty list counts as n = 16 (R631). -/
def blockSize (list : BitVec 16) : Word := if list = 0 then 64 else BitVec.ofNat 32 (4 * (regsOf list).length)

/-- The start address of R630, from the base and 4n. -/
def blockStart (p u : Bool) (b size : Word) : Word :=
  match p, u with
  | false, true => b
  | true, true => b + 4
  | false, false => b - size + 4
  | true, false => b - size

/-- The writeback value of R630. -/
def blockEnd (u : Bool) (b size : Word) : Word := if u then b + size else b - size

/-- Each register with the address of its slot, the first at a and each next one 4 bytes higher (R630). -/
def slots : List Reg → Word → List (Reg × Word)
  | [], _ => []
  | r :: rest, a => (r, a) :: slots rest (a + 4)

/-- The word of a slot: bits 1:0 of the address ignored, no rotation (20 R217, 42 R640). -/
def State.slotWord (s : State) (a : Word) : Word := s.memRead .data (a &&& 0xFFFFFFFC) .word

/-- The registers other than R15 loaded from their slots in the view of mode m; memory is read in the state `src` before
the transfer. -/
def State.loadSlots (s src : State) (m : Mode) : List (Reg × Word) → State
  | [] => s
  | (r, a) :: rest =>
    State.loadSlots (if r = 15 then s else s.poke (physReg m r) (src.slotWord a)) src m rest

/-- Words written at addresses in order, aligned down (20 R217). -/
def State.writeWords (s : State) : List (Word × Word) → State
  | [] => s
  | (a, v) :: rest => (s.memWrite (a &&& 0xFFFFFFFC) .word v).writeWords rest

/-- A block store: the words written in order, and what follows; refused whole where IO_DEVICE_POLICY refuses one of them
(10_state R126, log 16). -/
def State.storeWords (s : State) (ws : List (Word × Word)) (k : State → Result) : Result :=
  if ws.any fun x => s.refusesWrite (x.1 &&& 0xFFFFFFFC) .word then .refused .unmodelledDevice
  else k (s.writeWords ws)

/-- The value STM stores for a register (R632, R643): R15 as pc + 12; the base, where it is written back and is not the lowest
register of the list, as its writeback value. -/
def State.stmValue (s : State) (w : Bool) (rn : Reg) (regs : List Reg) (wb : Word) (r : Reg) : Word :=
  if w && r == rn && regs.head? != some rn then wb else s.reg 12 r

/-- The base writeback of LDM (R630, R632): none where the base is in the list. -/
def State.ldmWriteback (s : State) (w : Bool) (rn : Reg) (regs : List Reg) (wb : Word) : State :=
  if w && !regs.contains rn then s.setReg rn wb else s

/-- The base of a block transfer. -/
def State.blockBase (s : State) (rn : Reg) : Word := s.reg 8 rn

/-- The slots of an ARM block transfer. -/
def State.blockSlots (s : State) (p u : Bool) (rn : Reg) (list : BitVec 16) : List (Reg × Word) :=
  slots (blockRegs list) (blockStart p u (s.blockBase rn) (blockSize list))

/-- The writeback value of an ARM block transfer. -/
def State.blockWb (s : State) (u : Bool) (rn : Reg) (list : BitVec 16) : Word := blockEnd u (s.blockBase rn) (blockSize list)

/-- The word an LDM loads for R15, if R15 is among the slots. -/
def State.loadedPc (s : State) : List (Reg × Word) → Option Word
  | [] => none
  | (r, a) :: rest => if r = 15 then some (s.slotWord a) else s.loadedPc rest

/-- LDM up to the pc (R640): the registers and the writeback. -/
def State.ldmRegs (s : State) (p u w : Bool) (rn : Reg) (list : BitVec 16) : State :=
  (s.loadSlots s s.cpsr.mode (s.blockSlots p u rn list)).ldmWriteback w rn (blockRegs list) (s.blockWb u rn list)

/-- LDM (R640; R15 in the list branches). -/
def execLdm (c : Cond) (p u w : Bool) (rn : Reg) (list : BitVec 16) (s : State) : Result :=
  s.whenPassed c (refuseIf (rn == 15) .blockBasePc
    (match s.loadedPc (s.blockSlots p u rn list) with
      | some v => .next ((s.ldmRegs p u w rn list).branchArm v)
      | none => .next ((s.ldmRegs p u w rn list).advance 4)))

/-- The forms the user-bank transfers refuse (R641, R644): W = 1, a mode with no bank of its own, an empty list. -/
def State.refuseUserBank (s : State) (w empty : Bool) (k : Result) : Result :=
  refuseIf w .userBankWriteback (refuseIf (s.cpsr.mode == .usr || s.cpsr.mode == .sys) .userBankMode
    (refuseIf empty .userBankEmpty k))

/-- LDM_user (R641). -/
def execLdmUser (c : Cond) (p u w : Bool) (rn : Reg) (list : BitVec 15) (s : State) : Result :=
  s.whenPassed c (refuseIf (rn == 15) .blockBasePc (s.refuseUserBank w (list == 0)
    (.next ((s.loadSlots s .usr (s.blockSlots p u rn (list.setWidth 16))).advance 4))))

/-- LDM_ret (R642, 60 R1220; R15 is always in the list). -/
def execLdmRet (c : Cond) (p u w : Bool) (rn : Reg) (list : BitVec 15) (s : State) : Result :=
  s.whenPassed c (refuseIf (rn == 15) .blockBasePc
    (match s.loadedPc (s.blockSlots p u rn (join 16 1#1 list)) with
      | some v => (s.ldmRegs p u w rn (join 16 1#1 list)).exceptionReturn v
      | none => (s.ldmRegs p u w rn (join 16 1#1 list)).exceptionReturn s.pc))

/-- STM (R643). -/
def execStm (c : Cond) (p u w : Bool) (rn : Reg) (list : BitVec 16) (s : State) : Result :=
  s.whenPassed c (refuseIf (rn == 15) .blockBasePc
    (s.storeWords ((s.blockSlots p u rn list).map fun x =>
        (x.2, s.stmValue w rn (blockRegs list) (s.blockWb u rn list) x.1)) fun s1 =>
      .next ((if w then s1.setReg rn (s.blockWb u rn list) else s1).advance 4)))

/-- STM_user (R644). -/
def execStmUser (c : Cond) (p u w : Bool) (rn : Reg) (list : BitVec 16) (s : State) : Result :=
  s.whenPassed c (refuseIf (rn == 15) .blockBasePc (s.refuseUserBank w (list == 0)
    (s.storeWords ((s.blockSlots p u rn list).map fun x => (x.2, s.userReg 12 x.1)) fun s1 => .next (s1.advance 4))))

end Sys2Proof.Machine
end

