-- ==== Sys2Proof/Machine/Branch.lean ====
section
/-! DEFINITION. ARM branches, BX, SWI, the undefined and coprocessor space, and the never condition (43_arm_branch_system; 40 R403). -/

namespace Sys2Proof.Machine

open Sys2Proof

/-- NV__any (R403: never executed). -/
def execNv (_body : BitVec 28) (s : State) : Result :=
  .next (s.advance 4)

/-- B (R700). -/
def execB (c : Cond) (imm24 : BitVec 24) (s : State) : Result :=
  s.whenPassed c (.next (s.branchArm (s.pc + 8 + armBranchOffset imm24)))

/-- BL (R701). -/
def execBl (c : Cond) (imm24 : BitVec 24) (s : State) : Result :=
  s.whenPassed c (.next ((s.setReg 14 (s.pc + 4)).branchArm (s.pc + 8 + armBranchOffset imm24)))

/-- BX (R702). -/
def execBx (c : Cond) (rm : Reg) (s : State) : Result :=
  s.whenPassed c (.next (s.exchange (s.reg 8 rm)))

/-- SWI (R710; the comment field is ignored). -/
def execSwi (c : Cond) (_imm24 : BitVec 24) (s : State) : Result :=
  s.whenPassed c (.next (s.takeException .softwareInterrupt (s.pc + 4)))

/-- The Undefined exception of an ARM encoding of the undefined space, where its condition passes (R720). -/
def State.undefinedArm (s : State) (c : Cond) : Result :=
  s.whenPassed c (.next (s.takeException .undefined (s.pc + 4)))

/-- UND_mulspace (rule R311 row 6, R720; body is bits 27:0). -/
def execUndMulspace (c : Cond) (_body : BitVec 28) (s : State) : Result :=
  s.undefinedArm c

/-- UND_psrspace (rule R311 row 10, R720; body is bits 27:0). -/
def execUndPsrspace (c : Cond) (_body : BitVec 28) (s : State) : Result :=
  s.undefinedArm c

/-- UND_A15 (A15, R720; hi is bits 24:5, lo is bits 3:0). -/
def execUndA15 (c : Cond) (_hi : BitVec 20) (_lo : BitVec 4) (s : State) : Result :=
  s.undefinedArm c

/-- LDC_STC (A18, R720, R721). -/
def execLdcStc (c : Cond) (_p _u _n _w _l : Bool) (_rn : Reg) (_crd _cpnum : BitVec 4) (_offset8 : BitVec 8) (s : State) : Result :=
  s.undefinedArm c

/-- CDP (A19, R720, R721). -/
def execCdp (c : Cond) (_op1 _crn _crd _cpnum : BitVec 4) (_op2 : BitVec 3) (_crm : BitVec 4) (s : State) : Result :=
  s.undefinedArm c

/-- MCR_MRC (A20, R720, R721). -/
def execMcrMrc (c : Cond) (_op1 : BitVec 3) (_l : Bool) (_crn : BitVec 4) (_rd : Reg)
    (_cpnum : BitVec 4) (_op2 : BitVec 3) (_crm : BitVec 4) (s : State) : Result :=
  s.undefinedArm c

end Sys2Proof.Machine
end

