-- ==== Sys2Proof/Machine/Flags.lean ====
section
/-! DEFINITION. The flag computations (00_scope R14, 40 R414, 41 R501, 44 R811). -/

namespace Sys2Proof.Machine

open Sys2Proof

/-- A result with the C and V flags that go with it. N and Z are the result's own. -/
structure AluOut where
  value : Word
  carry : Bool
  overflow : Bool
deriving DecidableEq, Repr

/-- `AddWithCarry(a, b, cin)` (00_scope R14): the exact sums, unsigned and signed, decide carry and overflow. -/
def addWithCarry (a b : Word) (cin : Bool) : AluOut :=
  let u := a.toNat + b.toNat + cin.toNat
  let i := a.toInt + b.toInt + cin.toNat
  ⟨BitVec.ofNat 32 u, decide (2 ^ 32 ≤ u), decide (i < -2 ^ 31 ∨ 2 ^ 31 ≤ i)⟩

/-- A logical result (40 R414, 44 R811): C from the shifter, V unchanged. -/
def logical (p : Cpsr) (r : Word) (sc : Bool) : AluOut := ⟨r, sc, p.v⟩

/-- The CPSR with the flags of a result (R414). -/
def Cpsr.withFlags (p : Cpsr) (o : AluOut) : Cpsr :=
  { p with n := o.value.msb, z := o.value == 0, c := o.carry, v := o.overflow }

/-- The flags of a result, set where the S bit says so (R414). -/
def Cpsr.withFlagsIf (p : Cpsr) (sf : Bool) (o : AluOut) : Cpsr := if sf then p.withFlags o else p

/-- The flags after MUL and MLA with S = 1 (41 R501) and Thumb MUL (44 R833): N and Z from the result, C a free value, V
unchanged. -/
def State.mulFlags (s : State) (r : Word) : Cpsr :=
  { s.cpsr with n := r.msb, z := r == 0, c := (Config.draw s.draws .mulCarry).getLsbD 0 }

/-- The flags after a long multiply with S = 1 (41 R501): N and Z from the 64-bit result, C and V free values. -/
def State.mulLongFlags (s : State) (r : Dword) : Cpsr :=
  { s.cpsr with
    n := r.msb
    z := r == 0
    c := (Config.draw s.draws .mulCarry).getLsbD 0
    v := (Config.draw s.draws .mulOverflow).getLsbD 0 }

end Sys2Proof.Machine
end

