-- ==== Sys2Proof/Machine/DataProc.lean ====
section
/-! DEFINITION. The 16 ARM data-processing instructions in their three operand forms (40_arm_dataproc). -/

namespace Sys2Proof.Machine

open Sys2Proof

/-- What an opcode computes from the CPSR, Rn, the operand and the shifter carry. -/
abbrev AluFn := Cpsr → Word → Word → Bool → AluOut

/-- AND and TST (R420, R428). -/
def aluAnd : AluFn := fun p a b sc => logical p (a &&& b) sc

/-- EOR and TEQ (R421, R429). -/
def aluEor : AluFn := fun p a b sc => logical p (a ^^^ b) sc

/-- SUB and CMP (R422, R430). -/
def aluSub : AluFn := fun _ a b _ => addWithCarry a (~~~b) true

/-- RSB (R423). -/
def aluRsb : AluFn := fun _ a b _ => addWithCarry b (~~~a) true

/-- ADD and CMN (R424, R431). -/
def aluAdd : AluFn := fun _ a b _ => addWithCarry a b false

/-- ADC (R425). -/
def aluAdc : AluFn := fun p a b _ => addWithCarry a b p.c

/-- SBC (R426). -/
def aluSbc : AluFn := fun p a b _ => addWithCarry a (~~~b) p.c

/-- RSC (R427). -/
def aluRsc : AluFn := fun p a b _ => addWithCarry b (~~~a) p.c

/-- ORR (R432). -/
def aluOrr : AluFn := fun p a b sc => logical p (a ||| b) sc

/-- MOV (R433). -/
def aluMov : AluFn := fun p _ b sc => logical p b sc

/-- BIC (R434). -/
def aluBic : AluFn := fun p a b sc => logical p (a &&& ~~~b) sc

/-- MVN (R435). -/
def aluMvn : AluFn := fun p _ b sc => logical p (~~~b) sc

/-- The end of an instruction that writes Rd: the register and the flags (R414), a branch for R15 (R415), an SPSR restore
for R15 with S = 1 (R416). -/
def State.dpWrite (s : State) (sf : Bool) (rd : Reg) (o : AluOut) : Result :=
  if rd = 15 then if sf then s.exceptionReturn o.value else .next (s.branchArm o.value)
  else .next (((s.setReg rd o.value).setCpsr (s.cpsr.withFlagsIf sf o)).advance 4)

/-- The end of TST, TEQ, CMP and CMN: the flags only; an Rd field of 15 is refused (R428, 30 R313). -/
def State.dpCompare (s : State) (rd : Reg) (o : AluOut) : Result :=
  refuseIf (rd == 15) .compareRdPc (.next ((s.setCpsr (s.cpsr.withFlags o)).advance 4))

/-- The result of f with the immediate operand (format A3, R410, R413). -/
def State.aluImm (s : State) (f : AluFn) (rn : Reg) (rot : BitVec 4) (imm8 : BitVec 8) : AluOut :=
  let op2 := immOperand s.cpsr.c rot imm8
  f s.cpsr (s.reg 8 rn) op2.value op2.carry

/-- The result of f with a register shifted by an immediate (format A1, R411, R413). -/
def State.aluIshift (s : State) (f : AluFn) (rn : Reg) (amt : BitVec 5) (sh : ShiftKind) (rm : Reg) : AluOut :=
  let op2 := shiftImm s.cpsr.c sh (s.reg 8 rm) amt
  f s.cpsr (s.reg 8 rn) op2.value op2.carry

/-- The result of f with a register shifted by a register; R15 reads as pc + 12 (format A2, R412, R413). -/
def State.aluRshift (s : State) (f : AluFn) (rn rs : Reg) (sh : ShiftKind) (rm : Reg) : AluOut :=
  let op2 := shiftReg s.cpsr.c sh (s.reg 12 rm) (shiftAmount (s.reg 12 rs))
  f s.cpsr (s.reg 12 rn) op2.value op2.carry

/-- A register-writing instruction of format A3. -/
def State.dpImm (s : State) (c : Cond) (f : AluFn) (sf : Bool) (rn rd : Reg) (rot : BitVec 4) (imm8 : BitVec 8) : Result :=
  s.whenPassed c (s.dpWrite sf rd (s.aluImm f rn rot imm8))

/-- A register-writing instruction of format A1. -/
def State.dpIshift (s : State) (c : Cond) (f : AluFn) (sf : Bool) (rn rd : Reg) (amt : BitVec 5) (sh : ShiftKind) (rm : Reg) :
    Result :=
  s.whenPassed c (s.dpWrite sf rd (s.aluIshift f rn amt sh rm))

/-- A register-writing instruction of format A2; Rs = 15 is refused (R412). -/
def State.dpRshift (s : State) (c : Cond) (f : AluFn) (sf : Bool) (rn rd rs : Reg) (sh : ShiftKind) (rm : Reg) : Result :=
  s.whenPassed c (refuseIf (rs == 15) .shiftByPc (s.dpWrite sf rd (s.aluRshift f rn rs sh rm)))

/-- A compare of format A3. -/
def State.cmpImm (s : State) (c : Cond) (f : AluFn) (rn rd : Reg) (rot : BitVec 4) (imm8 : BitVec 8) : Result :=
  s.whenPassed c (s.dpCompare rd (s.aluImm f rn rot imm8))

/-- A compare of format A1. -/
def State.cmpIshift (s : State) (c : Cond) (f : AluFn) (rn rd : Reg) (amt : BitVec 5) (sh : ShiftKind) (rm : Reg) : Result :=
  s.whenPassed c (s.dpCompare rd (s.aluIshift f rn amt sh rm))

/-- A compare of format A2; Rs = 15 is refused (R412). -/
def State.cmpRshift (s : State) (c : Cond) (f : AluFn) (rn rd rs : Reg) (sh : ShiftKind) (rm : Reg) : Result :=
  s.whenPassed c (refuseIf (rs == 15) .shiftByPc (s.dpCompare rd (s.aluRshift f rn rs sh rm)))

/-- AND_imm (A3, R420). -/
def execAndImm (c : Cond) (sf : Bool) (rn rd : Reg) (rot : BitVec 4) (imm8 : BitVec 8) (s : State) : Result :=
  s.dpImm c aluAnd sf rn rd rot imm8

/-- AND_ishift (A1, R420). -/
def execAndIshift (c : Cond) (sf : Bool) (rn rd : Reg) (amt : BitVec 5) (sh : ShiftKind) (rm : Reg) (s : State) : Result :=
  s.dpIshift c aluAnd sf rn rd amt sh rm

/-- AND_rshift (A2, R420). -/
def execAndRshift (c : Cond) (sf : Bool) (rn rd rs : Reg) (sh : ShiftKind) (rm : Reg) (s : State) : Result :=
  s.dpRshift c aluAnd sf rn rd rs sh rm

/-- EOR_imm (A3, R421). -/
def execEorImm (c : Cond) (sf : Bool) (rn rd : Reg) (rot : BitVec 4) (imm8 : BitVec 8) (s : State) : Result :=
  s.dpImm c aluEor sf rn rd rot imm8

/-- EOR_ishift (A1, R421). -/
def execEorIshift (c : Cond) (sf : Bool) (rn rd : Reg) (amt : BitVec 5) (sh : ShiftKind) (rm : Reg) (s : State) : Result :=
  s.dpIshift c aluEor sf rn rd amt sh rm

/-- EOR_rshift (A2, R421). -/
def execEorRshift (c : Cond) (sf : Bool) (rn rd rs : Reg) (sh : ShiftKind) (rm : Reg) (s : State) : Result :=
  s.dpRshift c aluEor sf rn rd rs sh rm

/-- SUB_imm (A3, R422). -/
def execSubImm (c : Cond) (sf : Bool) (rn rd : Reg) (rot : BitVec 4) (imm8 : BitVec 8) (s : State) : Result :=
  s.dpImm c aluSub sf rn rd rot imm8

/-- SUB_ishift (A1, R422). -/
def execSubIshift (c : Cond) (sf : Bool) (rn rd : Reg) (amt : BitVec 5) (sh : ShiftKind) (rm : Reg) (s : State) : Result :=
  s.dpIshift c aluSub sf rn rd amt sh rm

/-- SUB_rshift (A2, R422). -/
def execSubRshift (c : Cond) (sf : Bool) (rn rd rs : Reg) (sh : ShiftKind) (rm : Reg) (s : State) : Result :=
  s.dpRshift c aluSub sf rn rd rs sh rm

/-- RSB_imm (A3, R423). -/
def execRsbImm (c : Cond) (sf : Bool) (rn rd : Reg) (rot : BitVec 4) (imm8 : BitVec 8) (s : State) : Result :=
  s.dpImm c aluRsb sf rn rd rot imm8

/-- RSB_ishift (A1, R423). -/
def execRsbIshift (c : Cond) (sf : Bool) (rn rd : Reg) (amt : BitVec 5) (sh : ShiftKind) (rm : Reg) (s : State) : Result :=
  s.dpIshift c aluRsb sf rn rd amt sh rm

/-- RSB_rshift (A2, R423). -/
def execRsbRshift (c : Cond) (sf : Bool) (rn rd rs : Reg) (sh : ShiftKind) (rm : Reg) (s : State) : Result :=
  s.dpRshift c aluRsb sf rn rd rs sh rm

/-- ADD_imm (A3, R424). -/
def execAddImm (c : Cond) (sf : Bool) (rn rd : Reg) (rot : BitVec 4) (imm8 : BitVec 8) (s : State) : Result :=
  s.dpImm c aluAdd sf rn rd rot imm8

/-- ADD_ishift (A1, R424). -/
def execAddIshift (c : Cond) (sf : Bool) (rn rd : Reg) (amt : BitVec 5) (sh : ShiftKind) (rm : Reg) (s : State) : Result :=
  s.dpIshift c aluAdd sf rn rd amt sh rm

/-- ADD_rshift (A2, R424). -/
def execAddRshift (c : Cond) (sf : Bool) (rn rd rs : Reg) (sh : ShiftKind) (rm : Reg) (s : State) : Result :=
  s.dpRshift c aluAdd sf rn rd rs sh rm

/-- ADC_imm (A3, R425). -/
def execAdcImm (c : Cond) (sf : Bool) (rn rd : Reg) (rot : BitVec 4) (imm8 : BitVec 8) (s : State) : Result :=
  s.dpImm c aluAdc sf rn rd rot imm8

/-- ADC_ishift (A1, R425). -/
def execAdcIshift (c : Cond) (sf : Bool) (rn rd : Reg) (amt : BitVec 5) (sh : ShiftKind) (rm : Reg) (s : State) : Result :=
  s.dpIshift c aluAdc sf rn rd amt sh rm

/-- ADC_rshift (A2, R425). -/
def execAdcRshift (c : Cond) (sf : Bool) (rn rd rs : Reg) (sh : ShiftKind) (rm : Reg) (s : State) : Result :=
  s.dpRshift c aluAdc sf rn rd rs sh rm

/-- SBC_imm (A3, R426). -/
def execSbcImm (c : Cond) (sf : Bool) (rn rd : Reg) (rot : BitVec 4) (imm8 : BitVec 8) (s : State) : Result :=
  s.dpImm c aluSbc sf rn rd rot imm8

/-- SBC_ishift (A1, R426). -/
def execSbcIshift (c : Cond) (sf : Bool) (rn rd : Reg) (amt : BitVec 5) (sh : ShiftKind) (rm : Reg) (s : State) : Result :=
  s.dpIshift c aluSbc sf rn rd amt sh rm

/-- SBC_rshift (A2, R426). -/
def execSbcRshift (c : Cond) (sf : Bool) (rn rd rs : Reg) (sh : ShiftKind) (rm : Reg) (s : State) : Result :=
  s.dpRshift c aluSbc sf rn rd rs sh rm

/-- RSC_imm (A3, R427). -/
def execRscImm (c : Cond) (sf : Bool) (rn rd : Reg) (rot : BitVec 4) (imm8 : BitVec 8) (s : State) : Result :=
  s.dpImm c aluRsc sf rn rd rot imm8

/-- RSC_ishift (A1, R427). -/
def execRscIshift (c : Cond) (sf : Bool) (rn rd : Reg) (amt : BitVec 5) (sh : ShiftKind) (rm : Reg) (s : State) : Result :=
  s.dpIshift c aluRsc sf rn rd amt sh rm

/-- RSC_rshift (A2, R427). -/
def execRscRshift (c : Cond) (sf : Bool) (rn rd rs : Reg) (sh : ShiftKind) (rm : Reg) (s : State) : Result :=
  s.dpRshift c aluRsc sf rn rd rs sh rm

/-- TST_imm (A3, R428; rd is the SBZ field 15:12). -/
def execTstImm (c : Cond) (rn rd : Reg) (rot : BitVec 4) (imm8 : BitVec 8) (s : State) : Result :=
  s.cmpImm c aluAnd rn rd rot imm8

/-- TST_ishift (A1, R428; rd is the SBZ field 15:12). -/
def execTstIshift (c : Cond) (rn rd : Reg) (amt : BitVec 5) (sh : ShiftKind) (rm : Reg) (s : State) : Result :=
  s.cmpIshift c aluAnd rn rd amt sh rm

/-- TST_rshift (A2, R428; rd is the SBZ field 15:12). -/
def execTstRshift (c : Cond) (rn rd rs : Reg) (sh : ShiftKind) (rm : Reg) (s : State) : Result :=
  s.cmpRshift c aluAnd rn rd rs sh rm

/-- TEQ_imm (A3, R429; rd is the SBZ field 15:12). -/
def execTeqImm (c : Cond) (rn rd : Reg) (rot : BitVec 4) (imm8 : BitVec 8) (s : State) : Result :=
  s.cmpImm c aluEor rn rd rot imm8

/-- TEQ_ishift (A1, R429; rd is the SBZ field 15:12). -/
def execTeqIshift (c : Cond) (rn rd : Reg) (amt : BitVec 5) (sh : ShiftKind) (rm : Reg) (s : State) : Result :=
  s.cmpIshift c aluEor rn rd amt sh rm

/-- TEQ_rshift (A2, R429; rd is the SBZ field 15:12). -/
def execTeqRshift (c : Cond) (rn rd rs : Reg) (sh : ShiftKind) (rm : Reg) (s : State) : Result :=
  s.cmpRshift c aluEor rn rd rs sh rm

/-- CMP_imm (A3, R430; rd is the SBZ field 15:12). -/
def execCmpImm (c : Cond) (rn rd : Reg) (rot : BitVec 4) (imm8 : BitVec 8) (s : State) : Result :=
  s.cmpImm c aluSub rn rd rot imm8

/-- CMP_ishift (A1, R430; rd is the SBZ field 15:12). -/
def execCmpIshift (c : Cond) (rn rd : Reg) (amt : BitVec 5) (sh : ShiftKind) (rm : Reg) (s : State) : Result :=
  s.cmpIshift c aluSub rn rd amt sh rm

/-- CMP_rshift (A2, R430; rd is the SBZ field 15:12). -/
def execCmpRshift (c : Cond) (rn rd rs : Reg) (sh : ShiftKind) (rm : Reg) (s : State) : Result :=
  s.cmpRshift c aluSub rn rd rs sh rm

/-- CMN_imm (A3, R431; rd is the SBZ field 15:12). -/
def execCmnImm (c : Cond) (rn rd : Reg) (rot : BitVec 4) (imm8 : BitVec 8) (s : State) : Result :=
  s.cmpImm c aluAdd rn rd rot imm8

/-- CMN_ishift (A1, R431; rd is the SBZ field 15:12). -/
def execCmnIshift (c : Cond) (rn rd : Reg) (amt : BitVec 5) (sh : ShiftKind) (rm : Reg) (s : State) : Result :=
  s.cmpIshift c aluAdd rn rd amt sh rm

/-- CMN_rshift (A2, R431; rd is the SBZ field 15:12). -/
def execCmnRshift (c : Cond) (rn rd rs : Reg) (sh : ShiftKind) (rm : Reg) (s : State) : Result :=
  s.cmpRshift c aluAdd rn rd rs sh rm

/-- ORR_imm (A3, R432). -/
def execOrrImm (c : Cond) (sf : Bool) (rn rd : Reg) (rot : BitVec 4) (imm8 : BitVec 8) (s : State) : Result :=
  s.dpImm c aluOrr sf rn rd rot imm8

/-- ORR_ishift (A1, R432). -/
def execOrrIshift (c : Cond) (sf : Bool) (rn rd : Reg) (amt : BitVec 5) (sh : ShiftKind) (rm : Reg) (s : State) : Result :=
  s.dpIshift c aluOrr sf rn rd amt sh rm

/-- ORR_rshift (A2, R432). -/
def execOrrRshift (c : Cond) (sf : Bool) (rn rd rs : Reg) (sh : ShiftKind) (rm : Reg) (s : State) : Result :=
  s.dpRshift c aluOrr sf rn rd rs sh rm

/-- MOV_imm (A3, R433; rn is the ignored SBZ field 19:16). -/
def execMovImm (c : Cond) (sf : Bool) (rn rd : Reg) (rot : BitVec 4) (imm8 : BitVec 8) (s : State) : Result :=
  s.dpImm c aluMov sf rn rd rot imm8

/-- MOV_ishift (A1, R433; rn is the ignored SBZ field 19:16). -/
def execMovIshift (c : Cond) (sf : Bool) (rn rd : Reg) (amt : BitVec 5) (sh : ShiftKind) (rm : Reg) (s : State) : Result :=
  s.dpIshift c aluMov sf rn rd amt sh rm

/-- MOV_rshift (A2, R433; rn is the ignored SBZ field 19:16). -/
def execMovRshift (c : Cond) (sf : Bool) (rn rd rs : Reg) (sh : ShiftKind) (rm : Reg) (s : State) : Result :=
  s.dpRshift c aluMov sf rn rd rs sh rm

/-- BIC_imm (A3, R434). -/
def execBicImm (c : Cond) (sf : Bool) (rn rd : Reg) (rot : BitVec 4) (imm8 : BitVec 8) (s : State) : Result :=
  s.dpImm c aluBic sf rn rd rot imm8

/-- BIC_ishift (A1, R434). -/
def execBicIshift (c : Cond) (sf : Bool) (rn rd : Reg) (amt : BitVec 5) (sh : ShiftKind) (rm : Reg) (s : State) : Result :=
  s.dpIshift c aluBic sf rn rd amt sh rm

/-- BIC_rshift (A2, R434). -/
def execBicRshift (c : Cond) (sf : Bool) (rn rd rs : Reg) (sh : ShiftKind) (rm : Reg) (s : State) : Result :=
  s.dpRshift c aluBic sf rn rd rs sh rm

/-- MVN_imm (A3, R435; rn is the ignored SBZ field 19:16). -/
def execMvnImm (c : Cond) (sf : Bool) (rn rd : Reg) (rot : BitVec 4) (imm8 : BitVec 8) (s : State) : Result :=
  s.dpImm c aluMvn sf rn rd rot imm8

/-- MVN_ishift (A1, R435; rn is the ignored SBZ field 19:16). -/
def execMvnIshift (c : Cond) (sf : Bool) (rn rd : Reg) (amt : BitVec 5) (sh : ShiftKind) (rm : Reg) (s : State) : Result :=
  s.dpIshift c aluMvn sf rn rd amt sh rm

/-- MVN_rshift (A2, R435; rn is the ignored SBZ field 19:16). -/
def execMvnRshift (c : Cond) (sf : Bool) (rn rd rs : Reg) (sh : ShiftKind) (rm : Reg) (s : State) : Result :=
  s.dpRshift c aluMvn sf rn rd rs sh rm

end Sys2Proof.Machine
end

