-- ==== Sys2Proof/Machine/LoadStore.lean ====
section
/-! DEFINITION. ARM single, halfword and signed transfers and swap (42_arm_loadstore R600 to R623, R650 to R661; 30 R312). -/

namespace Sys2Proof.Machine

open Sys2Proof

/-- The addressing forms of a single transfer (R600): offset, pre-indexed with writeback, post-indexed. -/
inductive Index where
  | offset | pre | post
deriving DecidableEq, Repr

/-- P = 1 with the W bit. -/
def preIndex (w : Bool) : Index := if w then .pre else .offset

/-- `t` of R600: the base plus or minus the offset. -/
def State.indexed (s : State) (u : Bool) (rn : Reg) (offset : Word) : Word :=
  if u then s.reg 8 rn + offset else s.reg 8 rn - offset

/-- The address of a transfer (R600, R604). -/
def State.xferAddr (s : State) (ix : Index) (u : Bool) (rn : Reg) (offset : Word) : Word :=
  match ix with
  | .offset | .pre => s.indexed u rn offset
  | .post => s.reg 8 rn

/-- The base writeback of a transfer (R600, R604): t, the indexed address. -/
def State.writeback (s : State) (ix : Index) (rn : Reg) (t : Word) : State :=
  match ix with
  | .offset => s
  | .pre | .post => s.setReg rn t

/-- A load (R600, R602, R603): the access, the writeback, then Rd, so that the loaded value stays where Rd is the base. -/
def State.load (s : State) (k : LoadKind) (ix : Index) (u : Bool) (rn rd : Reg) (offset : Word) : State :=
  (s.writeback ix rn (s.indexed u rn offset)).writeRd rd (s.loadValue k (s.xferAddr ix u rn offset))

/-- A store (R600 to R602): Rd is read first, R15 as pc + 12; the access, then the writeback. -/
def State.storeReg (s : State) (w : Width) (ix : Index) (u : Bool) (rn rd : Reg) (offset : Word) : Result :=
  s.store w (s.xferAddr ix u rn offset) (s.reg 12 rd) fun s1 =>
    .next ((s1.writeback ix rn (s.indexed u rn offset)).advance 4)

/-- Writeback with Rn = 15 is refused (R600, R604). -/
def baseRefused (ix : Index) (rn : Reg) : Bool := ix != .offset && rn == 15

/-- Writeback with the offset register equal to the base is refused (R600, R604). -/
def offsetRefused (ix : Index) (rn rm : Reg) : Bool := ix != .offset && rm == rn

/-- The offset of format A14 (R600, R411); the shifter carry is not used. -/
def State.regOffset (s : State) (amt : BitVec 5) (sh : ShiftKind) (rm : Reg) : Word :=
  (shiftImm s.cpsr.c sh (s.reg 8 rm) amt).value

/-- A word or byte load of format A13. -/
def State.loadImm (s : State) (c : Cond) (k : LoadKind) (ix : Index) (u : Bool) (rn rd : Reg) (imm12 : BitVec 12) : Result :=
  s.whenPassed c (refuseIf (baseRefused ix rn) .writebackToPc (refuseIf (k != .word && rd == 15) .narrowLoadPc
    (.next (s.load k ix u rn rd (imm12.setWidth 32)))))

/-- A word or byte load of format A14. -/
def State.loadShift (s : State) (c : Cond) (k : LoadKind) (ix : Index) (u : Bool) (rn rd : Reg) (amt : BitVec 5)
    (sh : ShiftKind) (rm : Reg) : Result :=
  s.whenPassed c (refuseIf (baseRefused ix rn) .writebackToPc (refuseIf (k != .word && rd == 15) .narrowLoadPc
    (refuseIf (rm == 15) .offsetPc (refuseIf (offsetRefused ix rn rm) .offsetIsBase
      (.next (s.load k ix u rn rd (s.regOffset amt sh rm)))))))

/-- A word or byte store of format A13. -/
def State.storeImm (s : State) (c : Cond) (w : Width) (ix : Index) (u : Bool) (rn rd : Reg) (imm12 : BitVec 12) : Result :=
  s.whenPassed c (refuseIf (baseRefused ix rn) .writebackToPc (refuseIf (w != .word && rd == 15) .narrowStorePc
    (s.storeReg w ix u rn rd (imm12.setWidth 32))))

/-- A word or byte store of format A14. -/
def State.storeShift (s : State) (c : Cond) (w : Width) (ix : Index) (u : Bool) (rn rd : Reg) (amt : BitVec 5)
    (sh : ShiftKind) (rm : Reg) : Result :=
  s.whenPassed c (refuseIf (baseRefused ix rn) .writebackToPc (refuseIf (w != .word && rd == 15) .narrowStorePc
    (refuseIf (rm == 15) .offsetPc (refuseIf (offsetRefused ix rn rm) .offsetIsBase
      (s.storeReg w ix u rn rd (s.regOffset amt sh rm))))))

/-- The addressing form of formats A11 and A12 by P and W (R604); P = 0 with W = 1 is refused before it is used. -/
def halfIndex (p w : Bool) : Index := if p then preIndex w else .post

/-- A halfword or signed load of format A12 (R604, R603, 30 R312). -/
def State.loadHalfImm (s : State) (c : Cond) (k : LoadKind) (p u w : Bool) (rn rd : Reg) (imm8 : BitVec 8) : Result :=
  s.whenPassed c (refuseIf (!p && w) .halfwordPostW (refuseIf (baseRefused (halfIndex p w) rn) .writebackToPc
    (refuseIf (rd == 15) .narrowLoadPc (.next (s.load k (halfIndex p w) u rn rd (imm8.setWidth 32))))))

/-- A halfword or signed load of format A11 (R604, R603, 30 R312). -/
def State.loadHalfReg (s : State) (c : Cond) (k : LoadKind) (p u w : Bool) (rn rd : Reg) (sbz : BitVec 4) (rm : Reg) :
    Result :=
  s.whenPassed c (refuseIf (sbz != 0) .halfwordSbz (refuseIf (!p && w) .halfwordPostW
    (refuseIf (baseRefused (halfIndex p w) rn) .writebackToPc (refuseIf (rd == 15) .narrowLoadPc
      (refuseIf (rm == 15) .offsetPc (refuseIf (offsetRefused (halfIndex p w) rn rm) .offsetIsBase
        (.next (s.load k (halfIndex p w) u rn rd (s.reg 8 rm)))))))))

/-- STRH of format A12 (R604, R601, 30 R312). -/
def State.storeHalfImm (s : State) (c : Cond) (p u w : Bool) (rn rd : Reg) (imm8 : BitVec 8) : Result :=
  s.whenPassed c (refuseIf (!p && w) .halfwordPostW (refuseIf (baseRefused (halfIndex p w) rn) .writebackToPc
    (refuseIf (rd == 15) .narrowStorePc (s.storeReg .half (halfIndex p w) u rn rd (imm8.setWidth 32)))))

/-- STRH of format A11 (R604, R601, 30 R312). -/
def State.storeHalfReg (s : State) (c : Cond) (p u w : Bool) (rn rd : Reg) (sbz : BitVec 4) (rm : Reg) : Result :=
  s.whenPassed c (refuseIf (sbz != 0) .halfwordSbz (refuseIf (!p && w) .halfwordPostW
    (refuseIf (baseRefused (halfIndex p w) rn) .writebackToPc (refuseIf (rd == 15) .narrowStorePc
      (refuseIf (rm == 15) .offsetPc (refuseIf (offsetRefused (halfIndex p w) rn rm) .offsetIsBase
        (s.storeReg .half (halfIndex p w) u rn rd (s.reg 8 rm))))))))

/-- STR_imm_pre (A13, R611). -/
def execStrImmPre (c : Cond) (u w : Bool) (rn rd : Reg) (imm12 : BitVec 12) (s : State) : Result :=
  s.storeImm c .word (preIndex w) u rn rd imm12

/-- STR_imm_post (A13, R611). -/
def execStrImmPost (c : Cond) (u : Bool) (rn rd : Reg) (imm12 : BitVec 12) (s : State) : Result :=
  s.storeImm c .word .post u rn rd imm12

/-- STRT_imm (A13, R615; the user-mode access has the same effect, R605). -/
def execStrtImm (c : Cond) (u : Bool) (rn rd : Reg) (imm12 : BitVec 12) (s : State) : Result :=
  s.storeImm c .word .post u rn rd imm12

/-- STR_reg_pre (A14, R611). -/
def execStrRegPre (c : Cond) (u w : Bool) (rn rd : Reg) (amt : BitVec 5) (sh : ShiftKind) (rm : Reg) (s : State) : Result :=
  s.storeShift c .word (preIndex w) u rn rd amt sh rm

/-- STR_reg_post (A14, R611). -/
def execStrRegPost (c : Cond) (u : Bool) (rn rd : Reg) (amt : BitVec 5) (sh : ShiftKind) (rm : Reg) (s : State) : Result :=
  s.storeShift c .word .post u rn rd amt sh rm

/-- STRT_reg (A14, R615; the user-mode access has the same effect, R605). -/
def execStrtReg (c : Cond) (u : Bool) (rn rd : Reg) (amt : BitVec 5) (sh : ShiftKind) (rm : Reg) (s : State) : Result :=
  s.storeShift c .word .post u rn rd amt sh rm

/-- LDR_imm_pre (A13, R610). -/
def execLdrImmPre (c : Cond) (u w : Bool) (rn rd : Reg) (imm12 : BitVec 12) (s : State) : Result :=
  s.loadImm c .word (preIndex w) u rn rd imm12

/-- LDR_imm_post (A13, R610). -/
def execLdrImmPost (c : Cond) (u : Bool) (rn rd : Reg) (imm12 : BitVec 12) (s : State) : Result :=
  s.loadImm c .word .post u rn rd imm12

/-- LDRT_imm (A13, R614; the user-mode access has the same effect, R605). -/
def execLdrtImm (c : Cond) (u : Bool) (rn rd : Reg) (imm12 : BitVec 12) (s : State) : Result :=
  s.loadImm c .word .post u rn rd imm12

/-- LDR_reg_pre (A14, R610). -/
def execLdrRegPre (c : Cond) (u w : Bool) (rn rd : Reg) (amt : BitVec 5) (sh : ShiftKind) (rm : Reg) (s : State) : Result :=
  s.loadShift c .word (preIndex w) u rn rd amt sh rm

/-- LDR_reg_post (A14, R610). -/
def execLdrRegPost (c : Cond) (u : Bool) (rn rd : Reg) (amt : BitVec 5) (sh : ShiftKind) (rm : Reg) (s : State) : Result :=
  s.loadShift c .word .post u rn rd amt sh rm

/-- LDRT_reg (A14, R614; the user-mode access has the same effect, R605). -/
def execLdrtReg (c : Cond) (u : Bool) (rn rd : Reg) (amt : BitVec 5) (sh : ShiftKind) (rm : Reg) (s : State) : Result :=
  s.loadShift c .word .post u rn rd amt sh rm

/-- STRB_imm_pre (A13, R613). -/
def execStrbImmPre (c : Cond) (u w : Bool) (rn rd : Reg) (imm12 : BitVec 12) (s : State) : Result :=
  s.storeImm c .byte (preIndex w) u rn rd imm12

/-- STRB_imm_post (A13, R613). -/
def execStrbImmPost (c : Cond) (u : Bool) (rn rd : Reg) (imm12 : BitVec 12) (s : State) : Result :=
  s.storeImm c .byte .post u rn rd imm12

/-- STRBT_imm (A13, R617; the user-mode access has the same effect, R605). -/
def execStrbtImm (c : Cond) (u : Bool) (rn rd : Reg) (imm12 : BitVec 12) (s : State) : Result :=
  s.storeImm c .byte .post u rn rd imm12

/-- STRB_reg_pre (A14, R613). -/
def execStrbRegPre (c : Cond) (u w : Bool) (rn rd : Reg) (amt : BitVec 5) (sh : ShiftKind) (rm : Reg) (s : State) : Result :=
  s.storeShift c .byte (preIndex w) u rn rd amt sh rm

/-- STRB_reg_post (A14, R613). -/
def execStrbRegPost (c : Cond) (u : Bool) (rn rd : Reg) (amt : BitVec 5) (sh : ShiftKind) (rm : Reg) (s : State) : Result :=
  s.storeShift c .byte .post u rn rd amt sh rm

/-- STRBT_reg (A14, R617; the user-mode access has the same effect, R605). -/
def execStrbtReg (c : Cond) (u : Bool) (rn rd : Reg) (amt : BitVec 5) (sh : ShiftKind) (rm : Reg) (s : State) : Result :=
  s.storeShift c .byte .post u rn rd amt sh rm

/-- LDRB_imm_pre (A13, R612). -/
def execLdrbImmPre (c : Cond) (u w : Bool) (rn rd : Reg) (imm12 : BitVec 12) (s : State) : Result :=
  s.loadImm c .byte (preIndex w) u rn rd imm12

/-- LDRB_imm_post (A13, R612). -/
def execLdrbImmPost (c : Cond) (u : Bool) (rn rd : Reg) (imm12 : BitVec 12) (s : State) : Result :=
  s.loadImm c .byte .post u rn rd imm12

/-- LDRBT_imm (A13, R616; the user-mode access has the same effect, R605). -/
def execLdrbtImm (c : Cond) (u : Bool) (rn rd : Reg) (imm12 : BitVec 12) (s : State) : Result :=
  s.loadImm c .byte .post u rn rd imm12

/-- LDRB_reg_pre (A14, R612). -/
def execLdrbRegPre (c : Cond) (u w : Bool) (rn rd : Reg) (amt : BitVec 5) (sh : ShiftKind) (rm : Reg) (s : State) : Result :=
  s.loadShift c .byte (preIndex w) u rn rd amt sh rm

/-- LDRB_reg_post (A14, R612). -/
def execLdrbRegPost (c : Cond) (u : Bool) (rn rd : Reg) (amt : BitVec 5) (sh : ShiftKind) (rm : Reg) (s : State) : Result :=
  s.loadShift c .byte .post u rn rd amt sh rm

/-- LDRBT_reg (A14, R616; the user-mode access has the same effect, R605). -/
def execLdrbtReg (c : Cond) (u : Bool) (rn rd : Reg) (amt : BitVec 5) (sh : ShiftKind) (rm : Reg) (s : State) : Result :=
  s.loadShift c .byte .post u rn rd amt sh rm

/-- LDRH_imm (A12, R620; imm8 is immH : immL). -/
def execLdrhImm (c : Cond) (p u w : Bool) (rn rd : Reg) (imm8 : BitVec 8) (s : State) : Result :=
  s.loadHalfImm c .half p u w rn rd imm8

/-- LDRH_reg (A11, R620; sbz is bits 11:8). -/
def execLdrhReg (c : Cond) (p u w : Bool) (rn rd : Reg) (sbz : BitVec 4) (rm : Reg) (s : State) : Result :=
  s.loadHalfReg c .half p u w rn rd sbz rm

/-- LDRSB_imm (A12, R622; imm8 is immH : immL). -/
def execLdrsbImm (c : Cond) (p u w : Bool) (rn rd : Reg) (imm8 : BitVec 8) (s : State) : Result :=
  s.loadHalfImm c .signedByte p u w rn rd imm8

/-- LDRSB_reg (A11, R622; sbz is bits 11:8). -/
def execLdrsbReg (c : Cond) (p u w : Bool) (rn rd : Reg) (sbz : BitVec 4) (rm : Reg) (s : State) : Result :=
  s.loadHalfReg c .signedByte p u w rn rd sbz rm

/-- LDRSH_imm (A12, R623; imm8 is immH : immL). -/
def execLdrshImm (c : Cond) (p u w : Bool) (rn rd : Reg) (imm8 : BitVec 8) (s : State) : Result :=
  s.loadHalfImm c .signedHalf p u w rn rd imm8

/-- LDRSH_reg (A11, R623; sbz is bits 11:8). -/
def execLdrshReg (c : Cond) (p u w : Bool) (rn rd : Reg) (sbz : BitVec 4) (rm : Reg) (s : State) : Result :=
  s.loadHalfReg c .signedHalf p u w rn rd sbz rm

/-- STRH_imm (A12, R621; imm8 is immH : immL). -/
def execStrhImm (c : Cond) (p u w : Bool) (rn rd : Reg) (imm8 : BitVec 8) (s : State) : Result :=
  s.storeHalfImm c p u w rn rd imm8

/-- STRH_reg (A11, R621; sbz is bits 11:8). -/
def execStrhReg (c : Cond) (p u w : Bool) (rn rd : Reg) (sbz : BitVec 4) (rm : Reg) (s : State) : Result :=
  s.storeHalfReg c p u w rn rd sbz rm

/-- LDRD_space (R312, R310: refused where the condition passes). -/
def execLdrdSpace (c : Cond) (_p _u _i _w : Bool) (_rn _rd : Reg) (_hi _lo : BitVec 4) (s : State) : Result :=
  s.whenPassed c (.refused (.unpredictable .ldrdSpace))

/-- STRD_space (R312, R310: refused where the condition passes). -/
def execStrdSpace (c : Cond) (_p _u _i _w : Bool) (_rn _rd : Reg) (_hi _lo : BitVec 4) (s : State) : Result :=
  s.whenPassed c (.refused (.unpredictable .strdSpace))

/-- The registers SWP and SWPB refuse (R650). -/
def swapRefused (rn rd rm : Reg) : Bool := rn == 15 || rd == 15 || rm == 15 || rn == rd || rn == rm

/-- SWP and SWPB: the read, the write of Rm, then Rd (R660, R661). -/
def State.swap (s : State) (c : Cond) (k : LoadKind) (w : Width) (rn rd rm : Reg) : Result :=
  s.whenPassed c (refuseIf (swapRefused rn rd rm) .swapRegs
    (s.store w (s.reg 8 rn) (s.reg 8 rm) fun s1 => .next ((s1.setReg rd (s.loadValue k (s.reg 8 rn))).advance 4)))

/-- SWP (R660). -/
def execSwp (c : Cond) (rn rd rm : Reg) (s : State) : Result :=
  s.swap c .word .word rn rd rm

/-- SWPB (R661). -/
def execSwpb (c : Cond) (rn rd rm : Reg) (s : State) : Result :=
  s.swap c .byte .byte rn rd rm

end Sys2Proof.Machine
end

