-- ==== Sys2Proof/Machine/Multiply.lean ====
section
/-! DEFINITION. The ARM multiplies (41_arm_multiply_psr R500 to R515). -/

namespace Sys2Proof.Machine

open Sys2Proof

/-- The registers MUL and MLA refuse (R500): any of them R15, or Rd = Rm. -/
def mulRefused (rd rs rm : Reg) : Bool := rd == 15 || rs == 15 || rm == 15 || rd == rm

/-- The registers the long multiplies refuse (R500): any of them R15, RdHi = RdLo, RdHi = Rm or RdLo = Rm. -/
def mulLongRefused (hi lo rs rm : Reg) : Bool :=
  hi == 15 || lo == 15 || rs == 15 || rm == 15 || hi == lo || hi == rm || lo == rm

/-- The end of MUL and MLA: Rd and, with S = 1, the flags (R501). -/
def State.mulWrite (s : State) (sf : Bool) (rd : Reg) (r : Word) : State :=
  ((s.setReg rd r).setCpsr (if sf then s.mulFlags r else s.cpsr)).advance 4

/-- The end of a long multiply: RdLo, RdHi and, with S = 1, the flags (R501). -/
def State.mulLongWrite (s : State) (sf : Bool) (hi lo : Reg) (r : Dword) : State :=
  (((s.setReg lo (r.extractLsb' 0 32)).setReg hi (r.extractLsb' 32 32)).setCpsr
    (if sf then s.mulLongFlags r else s.cpsr)).advance 4

/-- The exact unsigned product modulo 2^64 (R502). -/
def umul (a b : Word) : Dword := BitVec.ofNat 64 (a.toNat * b.toNat)

/-- The exact signed product modulo 2^64 (R502). -/
def smul (a b : Word) : Dword := BitVec.ofInt 64 (a.toInt * b.toInt)

/-- `x[RdHi] : x[RdLo]` (R513, R515). -/
def State.accumulator (s : State) (hi lo : Reg) : Dword := join 64 (s.reg 8 hi) (s.reg 8 lo)

/-- MUL (R510; the Rn field is ignored). -/
def execMul (c : Cond) (sf : Bool) (rd _rn rs rm : Reg) (s : State) : Result :=
  s.whenPassed c (refuseIf (mulRefused rd rs rm) .multiplyRegs
    (.next (s.mulWrite sf rd (BitVec.ofNat 32 ((s.reg 8 rm).toNat * (s.reg 8 rs).toNat)))))

/-- MLA (R511). -/
def execMla (c : Cond) (sf : Bool) (rd rn rs rm : Reg) (s : State) : Result :=
  s.whenPassed c (refuseIf (mulRefused rd rs rm || rn == 15) .multiplyRegs
    (.next (s.mulWrite sf rd (BitVec.ofNat 32 ((s.reg 8 rm).toNat * (s.reg 8 rs).toNat + (s.reg 8 rn).toNat)))))

/-- UMULL (R512). -/
def execUmull (c : Cond) (sf : Bool) (rdHi rdLo rs rm : Reg) (s : State) : Result :=
  s.whenPassed c (refuseIf (mulLongRefused rdHi rdLo rs rm) .multiplyRegs
    (.next (s.mulLongWrite sf rdHi rdLo (umul (s.reg 8 rm) (s.reg 8 rs)))))

/-- UMLAL (R513). -/
def execUmlal (c : Cond) (sf : Bool) (rdHi rdLo rs rm : Reg) (s : State) : Result :=
  s.whenPassed c (refuseIf (mulLongRefused rdHi rdLo rs rm) .multiplyRegs
    (.next (s.mulLongWrite sf rdHi rdLo (umul (s.reg 8 rm) (s.reg 8 rs) + s.accumulator rdHi rdLo))))

/-- SMULL (R514). -/
def execSmull (c : Cond) (sf : Bool) (rdHi rdLo rs rm : Reg) (s : State) : Result :=
  s.whenPassed c (refuseIf (mulLongRefused rdHi rdLo rs rm) .multiplyRegs
    (.next (s.mulLongWrite sf rdHi rdLo (smul (s.reg 8 rm) (s.reg 8 rs)))))

/-- SMLAL (R515). -/
def execSmlal (c : Cond) (sf : Bool) (rdHi rdLo rs rm : Reg) (s : State) : Result :=
  s.whenPassed c (refuseIf (mulLongRefused rdHi rdLo rs rm) .multiplyRegs
    (.next (s.mulLongWrite sf rdHi rdLo (smul (s.reg 8 rm) (s.reg 8 rs) + s.accumulator rdHi rdLo))))

end Sys2Proof.Machine
end

