-- ==== Sys2Proof/Machine/Psr.lean ====
section
/-! DEFINITION. PSR transfer: MRS and MSR (41_arm_multiply_psr R520 to R523). -/

namespace Sys2Proof.Machine

open Sys2Proof

/-- The value MRS reads: the CPSR, or the SPSR of the current mode, a free value where the mode has none (R520, D16). -/
def State.mrsValue (s : State) (r : Bool) : Word :=
  if r then
    match s.curSpsr with
    | some p => p.word
    | none => Config.draw s.draws .mrsSpsr
  else s.cpsr.word

/-- MRS (R520). -/
def execMrs (c : Cond) (r : Bool) (rd : Reg) (s : State) : Result :=
  s.whenPassed c (refuseIf (rd == 15) .mrsToPc (.next ((s.setReg rd (s.mrsValue r)).advance 4)))

/-- The bits a field mask names (R521), bits 27:8 left out (D50). -/
def fieldBits (mask : BitVec 4) : Word :=
  ((if mask.getLsbD 3 then 0xFF000000 else 0) ||| (if mask.getLsbD 2 then 0x00FF0000 else 0)
    ||| (if mask.getLsbD 1 then 0x0000FF00 else 0) ||| (if mask.getLsbD 0 then 0x000000FF else 0)) &&& 0xF00000FF

/-- The bits of the CPSR a field mask names: in User mode the flags only (R521, D51). -/
def State.cpsrFieldBits (s : State) (mask : BitVec 4) : Word :=
  if s.cpsr.mode = .usr then fieldBits mask &&& 0xF0000000 else fieldBits mask

/-- `(old AND NOT m) OR (v AND m)`. -/
def mergeBits (old v m : Word) : Word := (old &&& ~~~m) ||| (v &&& m)

/-- MODE_CHANGE_SPSR_COPY: where it is set and MSR changed the mode, the old CPSR goes to the SPSR of the new mode (R521, D15). -/
def State.copyOnModeChange (s : State) (old new : Cpsr) : State :=
  match new.mode.spsrIndex with
  | some k => if s.params.modeChangeSpsrCopy && new.mode != old.mode then s.setSpsr k old.toPsr else s
  | none => s

/-- MSR to the CPSR (R521): refused where it would leave no mode in M or change T. -/
def State.msrCpsr (s : State) (mask : BitVec 4) (v : Word) : Result :=
  match (Psr.ofWord (mergeBits s.cpsr.word v (s.cpsrFieldBits mask))).toCpsr with
  | none => .refused .invalidMode
  | some new =>
    refuseIf (new.t != s.cpsr.t) .msrChangesT (.next (((s.setCpsr new).copyOnModeChange s.cpsr new).advance 4))

/-- MSR to the SPSR of the current mode (R521): nothing changes where the mode has none (D16). -/
def State.msrSpsr (s : State) (mask : BitVec 4) (v : Word) : State :=
  match s.cpsr.mode.spsrIndex with
  | none => s.advance 4
  | some k => (s.setSpsr k (Psr.ofWord (mergeBits (s.spsr[k]).word v (fieldBits mask)))).advance 4

/-- MSR of the value v (R521). -/
def State.msr (s : State) (r : Bool) (mask : BitVec 4) (v : Word) : Result :=
  if r then .next (s.msrSpsr mask v) else s.msrCpsr mask v

/-- MSR_reg (R522). -/
def execMsrReg (c : Cond) (r : Bool) (mask : BitVec 4) (rm : Reg) (s : State) : Result :=
  s.whenPassed c (refuseIf (rm == 15) .msrFromPc (s.msr r mask (s.reg 8 rm)))

/-- MSR_imm (R523). -/
def execMsrImm (c : Cond) (r : Bool) (mask rot : BitVec 4) (imm8 : BitVec 8) (s : State) : Result :=
  s.whenPassed c (s.msr r mask (rotatedImm rot imm8))

end Sys2Proof.Machine
end

