-- ==== Sys2Proof/Machine/ThumbBranch.lean ====
section
/-! DEFINITION. Thumb branches, SWI and the undefined space (46_thumb_branch_system). -/

namespace Sys2Proof.Machine

open Sys2Proof

/-- T_Bcond (T16, R1000). -/
def execTBcond (c : Cond) (soffset8 : BitVec 8) (s : State) : Result :=
  if Cond.passes c s.cpsr then .next (s.branchThumb (s.pc + 4 + (soffset8.signExtend 32 <<< 1)))
  else .next (s.advance 2)

/-- T_SWI (T17, R1010; the comment field is ignored). -/
def execTSwi (_value8 : BitVec 8) (s : State) : Result :=
  .next (s.takeException .softwareInterrupt (s.pc + 2))

/-- T_B (T18, R1020). -/
def execTB (offset11 : BitVec 11) (s : State) : Result :=
  .next (s.branchThumb (s.pc + 4 + (offset11.signExtend 32 <<< 1)))

/-- T_BL_hi (T19 with H = 0, R1040). -/
def execTBlHi (offset11 : BitVec 11) (s : State) : Result :=
  .next ((s.setReg 14 (s.pc + 4 + (offset11.signExtend 32 <<< 12))).advance 2)

/-- T_BL_lo (T19 with H = 1, R1041). -/
def execTBlLo (offset11 : BitVec 11) (s : State) : Result :=
  .next ((s.setReg 14 ((s.pc + 2) ||| 1)).branchThumb (s.reg 4 14 + (offset11.setWidth 32 <<< 1)))

/-- The Undefined exception of a Thumb halfword of the undefined space (R1050). -/
def State.undefinedThumb (s : State) : Result := .next (s.takeException .undefined (s.pc + 2))

/-- T_UND_B (rule R330 row 15, R1050; body is bits 11:0). -/
def execTUndB (_body : BitVec 12) (s : State) : Result :=
  s.undefinedThumb

/-- T_UND_DE (rule R330 row 18, R1050; body is bits 7:0). -/
def execTUndDe (_body : BitVec 8) (s : State) : Result :=
  s.undefinedThumb

/-- T_UND_E8 (rule R330 row 21, R1050; body is bits 10:0). -/
def execTUndE8 (_body : BitVec 11) (s : State) : Result :=
  s.undefinedThumb

end Sys2Proof.Machine
end

