-- ==== Sys2Proof/Machine/ThumbAlu.lean ====
section
/-! DEFINITION. Thumb formats T1 to T5 (44_thumb_alu). -/

namespace Sys2Proof.Machine

open Sys2Proof

/-- A low register as an operand. -/
def State.loReg (s : State) (r : LoReg) : Word := s.reg 4 (lo r)

/-- The end of a T1 to T4 instruction that writes Rd: the result and its flags (R811). -/
def State.thumbWrite (s : State) (rd : LoReg) (o : AluOut) : Result :=
  .next (((s.setReg (lo rd) o.value).setCpsr (s.cpsr.withFlags o)).advance 2)

/-- The end of a T3 to T5 instruction that sets the flags only (R811, R841). -/
def State.thumbFlags (s : State) (o : AluOut) : Result :=
  .next ((s.setCpsr (s.cpsr.withFlags o)).advance 2)

/-- A logical result that keeps C (R811). -/
def State.thumbLogic (s : State) (r : Word) : AluOut := logical s.cpsr r s.cpsr.c

/-- A T1 shift (R812). -/
def State.thumbShiftImm (s : State) (sh : ShiftKind) (offset5 : BitVec 5) (rs rd : LoReg) : Result :=
  let x := shiftImm s.cpsr.c sh (s.loReg rs) offset5
  s.thumbWrite rd (logical s.cpsr x.value x.carry)

/-- A T4 shift of Rd by the low byte of Rs (R812). -/
def State.thumbShiftReg (s : State) (sh : ShiftKind) (rs rd : LoReg) : Result :=
  let x := shiftReg s.cpsr.c sh (s.loReg rd) (shiftAmount (s.loReg rs))
  s.thumbWrite rd (logical s.cpsr x.value x.carry)

/-- T_LSL_imm (T1, R800). -/
def execTLslImm (offset5 : BitVec 5) (rs rd : LoReg) (s : State) : Result :=
  s.thumbShiftImm .lsl offset5 rs rd

/-- T_LSR_imm (T1, R801). -/
def execTLsrImm (offset5 : BitVec 5) (rs rd : LoReg) (s : State) : Result :=
  s.thumbShiftImm .lsr offset5 rs rd

/-- T_ASR_imm (T1, R802). -/
def execTAsrImm (offset5 : BitVec 5) (rs rd : LoReg) (s : State) : Result :=
  s.thumbShiftImm .asr offset5 rs rd

/-- T_ADD_reg (T2, R803). -/
def execTAddReg (rn rs rd : LoReg) (s : State) : Result :=
  s.thumbWrite rd (addWithCarry (s.loReg rs) (s.loReg rn) false)

/-- T_SUB_reg (T2, R804). -/
def execTSubReg (rn rs rd : LoReg) (s : State) : Result :=
  s.thumbWrite rd (addWithCarry (s.loReg rs) (~~~(s.loReg rn)) true)

/-- T_ADD_imm3 (T2, R805). -/
def execTAddImm3 (imm3 : BitVec 3) (rs rd : LoReg) (s : State) : Result :=
  s.thumbWrite rd (addWithCarry (s.loReg rs) (imm3.setWidth 32) false)

/-- T_SUB_imm3 (T2, R806). -/
def execTSubImm3 (imm3 : BitVec 3) (rs rd : LoReg) (s : State) : Result :=
  s.thumbWrite rd (addWithCarry (s.loReg rs) (~~~(imm3.setWidth 32)) true)

/-- T_MOV_imm (T3, R807). -/
def execTMovImm (rd : LoReg) (imm8 : BitVec 8) (s : State) : Result :=
  s.thumbWrite rd (s.thumbLogic (imm8.setWidth 32))

/-- T_CMP_imm (T3, R808). -/
def execTCmpImm (rd : LoReg) (imm8 : BitVec 8) (s : State) : Result :=
  s.thumbFlags (addWithCarry (s.loReg rd) (~~~(imm8.setWidth 32)) true)

/-- T_ADD_imm8 (T3, R809). -/
def execTAddImm8 (rd : LoReg) (imm8 : BitVec 8) (s : State) : Result :=
  s.thumbWrite rd (addWithCarry (s.loReg rd) (imm8.setWidth 32) false)

/-- T_SUB_imm8 (T3, R810). -/
def execTSubImm8 (rd : LoReg) (imm8 : BitVec 8) (s : State) : Result :=
  s.thumbWrite rd (addWithCarry (s.loReg rd) (~~~(imm8.setWidth 32)) true)

/-- T_AND (T4, R820). -/
def execTAnd (rs rd : LoReg) (s : State) : Result :=
  s.thumbWrite rd (s.thumbLogic (s.loReg rd &&& s.loReg rs))

/-- T_EOR (T4, R821). -/
def execTEor (rs rd : LoReg) (s : State) : Result :=
  s.thumbWrite rd (s.thumbLogic (s.loReg rd ^^^ s.loReg rs))

/-- T_LSL_reg (T4, R822). -/
def execTLslReg (rs rd : LoReg) (s : State) : Result :=
  s.thumbShiftReg .lsl rs rd

/-- T_LSR_reg (T4, R823). -/
def execTLsrReg (rs rd : LoReg) (s : State) : Result :=
  s.thumbShiftReg .lsr rs rd

/-- T_ASR_reg (T4, R824). -/
def execTAsrReg (rs rd : LoReg) (s : State) : Result :=
  s.thumbShiftReg .asr rs rd

/-- T_ADC (T4, R825). -/
def execTAdc (rs rd : LoReg) (s : State) : Result :=
  s.thumbWrite rd (addWithCarry (s.loReg rd) (s.loReg rs) s.cpsr.c)

/-- T_SBC (T4, R826). -/
def execTSbc (rs rd : LoReg) (s : State) : Result :=
  s.thumbWrite rd (addWithCarry (s.loReg rd) (~~~(s.loReg rs)) s.cpsr.c)

/-- T_ROR (T4, R827). -/
def execTRor (rs rd : LoReg) (s : State) : Result :=
  s.thumbShiftReg .ror rs rd

/-- T_TST (T4, R828). -/
def execTTst (rs rd : LoReg) (s : State) : Result :=
  s.thumbFlags (s.thumbLogic (s.loReg rd &&& s.loReg rs))

/-- T_NEG (T4, R829). -/
def execTNeg (rs rd : LoReg) (s : State) : Result :=
  s.thumbWrite rd (addWithCarry 0 (~~~(s.loReg rs)) true)

/-- T_CMP_reg (T4, R830). -/
def execTCmpReg (rs rd : LoReg) (s : State) : Result :=
  s.thumbFlags (addWithCarry (s.loReg rd) (~~~(s.loReg rs)) true)

/-- T_CMN (T4, R831). -/
def execTCmn (rs rd : LoReg) (s : State) : Result :=
  s.thumbFlags (addWithCarry (s.loReg rd) (s.loReg rs) false)

/-- T_ORR (T4, R832). -/
def execTOrr (rs rd : LoReg) (s : State) : Result :=
  s.thumbWrite rd (s.thumbLogic (s.loReg rd ||| s.loReg rs))

/-- T_MUL (T4, R833). -/
def execTMul (rs rd : LoReg) (s : State) : Result :=
  refuseIf (rd == rs) .multiplyRegs
    (let r := BitVec.ofNat 32 ((s.loReg rs).toNat * (s.loReg rd).toNat)
     .next (((s.setReg (lo rd) r).setCpsr (s.mulFlags r)).advance 2))

/-- T_BIC (T4, R834). -/
def execTBic (rs rd : LoReg) (s : State) : Result :=
  s.thumbWrite rd (s.thumbLogic (s.loReg rd &&& ~~~(s.loReg rs)))

/-- T_MVN (T4, R835). -/
def execTMvn (rs rd : LoReg) (s : State) : Result :=
  s.thumbWrite rd (s.thumbLogic (~~~(s.loReg rs)))

/-- The end of T5 ADD and MOV: a branch that stays in Thumb state for R15 (R840, R842, 10_state R111). -/
def State.hiWrite (s : State) (d : Reg) (v : Word) : Result :=
  if d = 15 then .next (s.branchThumb v) else .next ((s.setReg d v).advance 2)

/-- T_ADD_hi (T5, R840). -/
def execTAddHi (d m : Reg) (s : State) : Result :=
  s.hiWrite d (s.reg 4 d + s.reg 4 m)

/-- T_CMP_hi (T5, R841). -/
def execTCmpHi (d m : Reg) (s : State) : Result :=
  s.thumbFlags (addWithCarry (s.reg 4 d) (~~~(s.reg 4 m)) true)

/-- T_MOV_hi (T5, R842). -/
def execTMovHi (d m : Reg) (s : State) : Result :=
  s.hiWrite d (s.reg 4 m)

/-- T_BX (T5, R843; bits 2:0 are ignored, R331). -/
def execTBx (m : Reg) (_sbz : BitVec 3) (s : State) : Result :=
  .next (s.exchange (s.reg 4 m))

/-- T_BLX_reg_space (the ARMv5 BLX space of T5, R331: refused). -/
def execTBlxRegSpace (_m : Reg) (_low : BitVec 3) (_s : State) : Result :=
  .refused (.unpredictable .blxSpace)

end Sys2Proof.Machine
end

