-- ==== Sys2Proof/Machine/ThumbLoadStore.lean ====
section
/-! DEFINITION. Thumb formats T6 to T15: loads, stores, addresses and the stack (45_thumb_loadstore). -/

namespace Sys2Proof.Machine

open Sys2Proof

/-- A Thumb load from an address (20 R215, R216). -/
def State.thumbLoad (s : State) (k : LoadKind) (rd : LoReg) (a : Word) : Result :=
  .next ((s.setReg (lo rd) (s.loadValue k a)).advance 2)

/-- A Thumb store at an address (20 R217). -/
def State.thumbStore (s : State) (w : Width) (rd : LoReg) (a : Word) : Result :=
  s.store w a (s.loReg rd) fun s1 => .next (s1.advance 2)

/-- The address of T7 and T8: `x[Rb] + x[Ro]`. -/
def State.regAddr (s : State) (ro rb : LoReg) : Word := s.loReg rb + s.loReg ro

/-- The address of T9 and T10: `x[Rb] + zext_5(offset5) * 2^scale` (30 R341). -/
def State.immAddr (s : State) (rb : LoReg) (offset5 : BitVec 5) (scale : Nat) : Word :=
  s.loReg rb + (offset5.setWidth 32 <<< scale)

/-- The address of T11: `x[13] + zext_8(word8) * 4`. -/
def State.spAddr (s : State) (word8 : BitVec 8) : Word := s.reg 4 13 + word8Offset word8

/-- T_LDR_pc (T6, R900). -/
def execTLdrPc (rd : LoReg) (word8 : BitVec 8) (s : State) : Result :=
  .next ((s.setReg (lo rd) (s.memRead .data (s.thumbPcBase + word8Offset word8) .word)).advance 2)

/-- T_STR_reg (T7, R901). -/
def execTStrReg (ro rb rd : LoReg) (s : State) : Result :=
  s.thumbStore .word rd (s.regAddr ro rb)

/-- T_STRB_reg (T7, R902). -/
def execTStrbReg (ro rb rd : LoReg) (s : State) : Result :=
  s.thumbStore .byte rd (s.regAddr ro rb)

/-- T_LDR_reg (T7, R903). -/
def execTLdrReg (ro rb rd : LoReg) (s : State) : Result :=
  s.thumbLoad .word rd (s.regAddr ro rb)

/-- T_LDRB_reg (T7, R904). -/
def execTLdrbReg (ro rb rd : LoReg) (s : State) : Result :=
  s.thumbLoad .byte rd (s.regAddr ro rb)

/-- T_STRH_reg (T8, R905). -/
def execTStrhReg (ro rb rd : LoReg) (s : State) : Result :=
  s.thumbStore .half rd (s.regAddr ro rb)

/-- T_LDSB (T8, R906). -/
def execTLdsb (ro rb rd : LoReg) (s : State) : Result :=
  s.thumbLoad .signedByte rd (s.regAddr ro rb)

/-- T_LDRH_reg (T8, R907). -/
def execTLdrhReg (ro rb rd : LoReg) (s : State) : Result :=
  s.thumbLoad .half rd (s.regAddr ro rb)

/-- T_LDSH (T8, R908). -/
def execTLdsh (ro rb rd : LoReg) (s : State) : Result :=
  s.thumbLoad .signedHalf rd (s.regAddr ro rb)

/-- T_STR_imm (T9, R910). -/
def execTStrImm (offset5 : BitVec 5) (rb rd : LoReg) (s : State) : Result :=
  s.thumbStore .word rd (s.immAddr rb offset5 2)

/-- T_LDR_imm (T9, R911). -/
def execTLdrImm (offset5 : BitVec 5) (rb rd : LoReg) (s : State) : Result :=
  s.thumbLoad .word rd (s.immAddr rb offset5 2)

/-- T_STRB_imm (T9, R912). -/
def execTStrbImm (offset5 : BitVec 5) (rb rd : LoReg) (s : State) : Result :=
  s.thumbStore .byte rd (s.immAddr rb offset5 0)

/-- T_LDRB_imm (T9, R913). -/
def execTLdrbImm (offset5 : BitVec 5) (rb rd : LoReg) (s : State) : Result :=
  s.thumbLoad .byte rd (s.immAddr rb offset5 0)

/-- T_STRH_imm (T10, R914). -/
def execTStrhImm (offset5 : BitVec 5) (rb rd : LoReg) (s : State) : Result :=
  s.thumbStore .half rd (s.immAddr rb offset5 1)

/-- T_LDRH_imm (T10, R915). -/
def execTLdrhImm (offset5 : BitVec 5) (rb rd : LoReg) (s : State) : Result :=
  s.thumbLoad .half rd (s.immAddr rb offset5 1)

/-- T_STR_sp (T11, R916). -/
def execTStrSp (rd : LoReg) (word8 : BitVec 8) (s : State) : Result :=
  s.thumbStore .word rd (s.spAddr word8)

/-- T_LDR_sp (T11, R917). -/
def execTLdrSp (rd : LoReg) (word8 : BitVec 8) (s : State) : Result :=
  s.thumbLoad .word rd (s.spAddr word8)

/-- T_ADD_pc (T12, R920). -/
def execTAddPc (rd : LoReg) (word8 : BitVec 8) (s : State) : Result :=
  .next ((s.setReg (lo rd) (s.thumbPcBase + word8Offset word8)).advance 2)

/-- T_ADD_sp (T12, R921). -/
def execTAddSp (rd : LoReg) (word8 : BitVec 8) (s : State) : Result :=
  .next ((s.setReg (lo rd) (s.spAddr word8)).advance 2)

/-- T_ADD_spimm (T13, R922). -/
def execTAddSpimm (sword7 : BitVec 7) (s : State) : Result :=
  .next ((s.setReg 13 (s.reg 4 13 + (sword7.setWidth 32 <<< 2))).advance 2)

/-- T_SUB_spimm (T13, R923). -/
def execTSubSpimm (sword7 : BitVec 7) (s : State) : Result :=
  .next ((s.setReg 13 (s.reg 4 13 - (sword7.setWidth 32 <<< 2))).advance 2)

/-- The list of PUSH: R0 to R7 and, with R = 1, LR (R929). -/
def pushList (r : Bool) (rlist : BitVec 8) : BitVec 16 := rlist.setWidth 16 ||| (if r then 0x4000 else 0)

/-- The list of POP: R0 to R7 and, with R = 1, PC (R929). -/
def popList (r : Bool) (rlist : BitVec 8) : BitVec 16 := rlist.setWidth 16 ||| (if r then 0x8000 else 0)

/-- 4n of a list. -/
def listSize (list : BitVec 16) : Word := BitVec.ofNat 32 (4 * (regsOf list).length)

/-- The list of STMIA and LDMIA: R0 to R7. -/
def loList (rlist : BitVec 8) : BitVec 16 := rlist.setWidth 16

/-- T_PUSH (T14, R930). -/
def execTPush (r : Bool) (rlist : BitVec 8) (s : State) : Result :=
  refuseIf (pushList r rlist == 0) .thumbEmptyList
    (s.storeWords ((slots (regsOf (pushList r rlist)) (s.reg 4 13 - listSize (pushList r rlist))).map fun x =>
        (x.2, s.reg 4 x.1)) fun s1 =>
      .next ((s1.setReg 13 (s.reg 4 13 - listSize (pushList r rlist))).advance 2))

/-- POP up to the pc (R931): the registers from the stack and the new SP. -/
def State.popRegs (s : State) (list : BitVec 16) : State :=
  (s.loadSlots s s.cpsr.mode (slots (regsOf list) (s.reg 4 13))).setReg 13 (s.reg 4 13 + listSize list)

/-- T_POP (T14, R931; a loaded PC branches and stays in Thumb state). -/
def execTPop (r : Bool) (rlist : BitVec 8) (s : State) : Result :=
  refuseIf (popList r rlist == 0) .thumbEmptyList
    (match s.loadedPc (slots (regsOf (popList r rlist)) (s.reg 4 13)) with
      | some v => .next ((s.popRegs (popList r rlist)).branchThumb v)
      | none => .next ((s.popRegs (popList r rlist)).advance 2))

/-- T_STMIA (T15, R932, R929). -/
def execTStmia (rb : LoReg) (rlist : BitVec 8) (s : State) : Result :=
  refuseIf (rlist == 0) .thumbEmptyList
    (s.storeWords ((slots (regsOf (loList rlist)) (s.loReg rb)).map fun x =>
        (x.2, s.stmValue true (lo rb) (regsOf (loList rlist)) (s.loReg rb + listSize (loList rlist)) x.1)) fun s1 =>
      .next ((s1.setReg (lo rb) (s.loReg rb + listSize (loList rlist))).advance 2))

/-- T_LDMIA (T15, R933, R929). -/
def execTLdmia (rb : LoReg) (rlist : BitVec 8) (s : State) : Result :=
  refuseIf (rlist == 0) .thumbEmptyList
    (.next (((s.loadSlots s s.cpsr.mode (slots (regsOf (loList rlist)) (s.loReg rb))).ldmWriteback true (lo rb)
      (regsOf (loList rlist)) (s.loReg rb + listSize (loList rlist))).advance 2))

end Sys2Proof.Machine
end

