-- ==== Sys2Proof/Machine/Dispatch.lean ====
section
/-! DEFINITION. The meaning of each instruction: one arm per row of opcode_table.json. -/

namespace Sys2Proof.Machine

open Sys2Proof

def exec (i : Instr) (s : State) : Host.Outcome State Fault Refusal :=
  match i with
  | .nv body => Sys2Proof.Machine.execNv body s
  | .bx c rm => Sys2Proof.Machine.execBx c rm s
  | .mul c sf rd rn rs rm => Sys2Proof.Machine.execMul c sf rd rn rs rm s
  | .mla c sf rd rn rs rm => Sys2Proof.Machine.execMla c sf rd rn rs rm s
  | .umull c sf rdHi rdLo rs rm => Sys2Proof.Machine.execUmull c sf rdHi rdLo rs rm s
  | .umlal c sf rdHi rdLo rs rm => Sys2Proof.Machine.execUmlal c sf rdHi rdLo rs rm s
  | .smull c sf rdHi rdLo rs rm => Sys2Proof.Machine.execSmull c sf rdHi rdLo rs rm s
  | .smlal c sf rdHi rdLo rs rm => Sys2Proof.Machine.execSmlal c sf rdHi rdLo rs rm s
  | .swp c rn rd rm => Sys2Proof.Machine.execSwp c rn rd rm s
  | .swpb c rn rd rm => Sys2Proof.Machine.execSwpb c rn rd rm s
  | .strhImm c p u w rn rd imm8 => Sys2Proof.Machine.execStrhImm c p u w rn rd imm8 s
  | .strhReg c p u w rn rd sbz rm => Sys2Proof.Machine.execStrhReg c p u w rn rd sbz rm s
  | .ldrhImm c p u w rn rd imm8 => Sys2Proof.Machine.execLdrhImm c p u w rn rd imm8 s
  | .ldrhReg c p u w rn rd sbz rm => Sys2Proof.Machine.execLdrhReg c p u w rn rd sbz rm s
  | .ldrsbImm c p u w rn rd imm8 => Sys2Proof.Machine.execLdrsbImm c p u w rn rd imm8 s
  | .ldrsbReg c p u w rn rd sbz rm => Sys2Proof.Machine.execLdrsbReg c p u w rn rd sbz rm s
  | .ldrshImm c p u w rn rd imm8 => Sys2Proof.Machine.execLdrshImm c p u w rn rd imm8 s
  | .ldrshReg c p u w rn rd sbz rm => Sys2Proof.Machine.execLdrshReg c p u w rn rd sbz rm s
  | .ldrdSpace c p u im w rn rd hi lo => Sys2Proof.Machine.execLdrdSpace c p u im w rn rd hi lo s
  | .strdSpace c p u im w rn rd hi lo => Sys2Proof.Machine.execStrdSpace c p u im w rn rd hi lo s
  | .undMulspace c body => Sys2Proof.Machine.execUndMulspace c body s
  | .mrs c r rd => Sys2Proof.Machine.execMrs c r rd s
  | .msrReg c r mask rm => Sys2Proof.Machine.execMsrReg c r mask rm s
  | .msrImm c r mask rot imm8 => Sys2Proof.Machine.execMsrImm c r mask rot imm8 s
  | .undPsrspace c body => Sys2Proof.Machine.execUndPsrspace c body s
  | .andImm c sf rn rd rot imm8 => Sys2Proof.Machine.execAndImm c sf rn rd rot imm8 s
  | .andIshift c sf rn rd amt sh rm => Sys2Proof.Machine.execAndIshift c sf rn rd amt sh rm s
  | .andRshift c sf rn rd rs sh rm => Sys2Proof.Machine.execAndRshift c sf rn rd rs sh rm s
  | .eorImm c sf rn rd rot imm8 => Sys2Proof.Machine.execEorImm c sf rn rd rot imm8 s
  | .eorIshift c sf rn rd amt sh rm => Sys2Proof.Machine.execEorIshift c sf rn rd amt sh rm s
  | .eorRshift c sf rn rd rs sh rm => Sys2Proof.Machine.execEorRshift c sf rn rd rs sh rm s
  | .subImm c sf rn rd rot imm8 => Sys2Proof.Machine.execSubImm c sf rn rd rot imm8 s
  | .subIshift c sf rn rd amt sh rm => Sys2Proof.Machine.execSubIshift c sf rn rd amt sh rm s
  | .subRshift c sf rn rd rs sh rm => Sys2Proof.Machine.execSubRshift c sf rn rd rs sh rm s
  | .rsbImm c sf rn rd rot imm8 => Sys2Proof.Machine.execRsbImm c sf rn rd rot imm8 s
  | .rsbIshift c sf rn rd amt sh rm => Sys2Proof.Machine.execRsbIshift c sf rn rd amt sh rm s
  | .rsbRshift c sf rn rd rs sh rm => Sys2Proof.Machine.execRsbRshift c sf rn rd rs sh rm s
  | .addImm c sf rn rd rot imm8 => Sys2Proof.Machine.execAddImm c sf rn rd rot imm8 s
  | .addIshift c sf rn rd amt sh rm => Sys2Proof.Machine.execAddIshift c sf rn rd amt sh rm s
  | .addRshift c sf rn rd rs sh rm => Sys2Proof.Machine.execAddRshift c sf rn rd rs sh rm s
  | .adcImm c sf rn rd rot imm8 => Sys2Proof.Machine.execAdcImm c sf rn rd rot imm8 s
  | .adcIshift c sf rn rd amt sh rm => Sys2Proof.Machine.execAdcIshift c sf rn rd amt sh rm s
  | .adcRshift c sf rn rd rs sh rm => Sys2Proof.Machine.execAdcRshift c sf rn rd rs sh rm s
  | .sbcImm c sf rn rd rot imm8 => Sys2Proof.Machine.execSbcImm c sf rn rd rot imm8 s
  | .sbcIshift c sf rn rd amt sh rm => Sys2Proof.Machine.execSbcIshift c sf rn rd amt sh rm s
  | .sbcRshift c sf rn rd rs sh rm => Sys2Proof.Machine.execSbcRshift c sf rn rd rs sh rm s
  | .rscImm c sf rn rd rot imm8 => Sys2Proof.Machine.execRscImm c sf rn rd rot imm8 s
  | .rscIshift c sf rn rd amt sh rm => Sys2Proof.Machine.execRscIshift c sf rn rd amt sh rm s
  | .rscRshift c sf rn rd rs sh rm => Sys2Proof.Machine.execRscRshift c sf rn rd rs sh rm s
  | .tstImm c rn rd rot imm8 => Sys2Proof.Machine.execTstImm c rn rd rot imm8 s
  | .tstIshift c rn rd amt sh rm => Sys2Proof.Machine.execTstIshift c rn rd amt sh rm s
  | .tstRshift c rn rd rs sh rm => Sys2Proof.Machine.execTstRshift c rn rd rs sh rm s
  | .teqImm c rn rd rot imm8 => Sys2Proof.Machine.execTeqImm c rn rd rot imm8 s
  | .teqIshift c rn rd amt sh rm => Sys2Proof.Machine.execTeqIshift c rn rd amt sh rm s
  | .teqRshift c rn rd rs sh rm => Sys2Proof.Machine.execTeqRshift c rn rd rs sh rm s
  | .cmpImm c rn rd rot imm8 => Sys2Proof.Machine.execCmpImm c rn rd rot imm8 s
  | .cmpIshift c rn rd amt sh rm => Sys2Proof.Machine.execCmpIshift c rn rd amt sh rm s
  | .cmpRshift c rn rd rs sh rm => Sys2Proof.Machine.execCmpRshift c rn rd rs sh rm s
  | .cmnImm c rn rd rot imm8 => Sys2Proof.Machine.execCmnImm c rn rd rot imm8 s
  | .cmnIshift c rn rd amt sh rm => Sys2Proof.Machine.execCmnIshift c rn rd amt sh rm s
  | .cmnRshift c rn rd rs sh rm => Sys2Proof.Machine.execCmnRshift c rn rd rs sh rm s
  | .orrImm c sf rn rd rot imm8 => Sys2Proof.Machine.execOrrImm c sf rn rd rot imm8 s
  | .orrIshift c sf rn rd amt sh rm => Sys2Proof.Machine.execOrrIshift c sf rn rd amt sh rm s
  | .orrRshift c sf rn rd rs sh rm => Sys2Proof.Machine.execOrrRshift c sf rn rd rs sh rm s
  | .movImm c sf rn rd rot imm8 => Sys2Proof.Machine.execMovImm c sf rn rd rot imm8 s
  | .movIshift c sf rn rd amt sh rm => Sys2Proof.Machine.execMovIshift c sf rn rd amt sh rm s
  | .movRshift c sf rn rd rs sh rm => Sys2Proof.Machine.execMovRshift c sf rn rd rs sh rm s
  | .bicImm c sf rn rd rot imm8 => Sys2Proof.Machine.execBicImm c sf rn rd rot imm8 s
  | .bicIshift c sf rn rd amt sh rm => Sys2Proof.Machine.execBicIshift c sf rn rd amt sh rm s
  | .bicRshift c sf rn rd rs sh rm => Sys2Proof.Machine.execBicRshift c sf rn rd rs sh rm s
  | .mvnImm c sf rn rd rot imm8 => Sys2Proof.Machine.execMvnImm c sf rn rd rot imm8 s
  | .mvnIshift c sf rn rd amt sh rm => Sys2Proof.Machine.execMvnIshift c sf rn rd amt sh rm s
  | .mvnRshift c sf rn rd rs sh rm => Sys2Proof.Machine.execMvnRshift c sf rn rd rs sh rm s
  | .undA15 c hi lo => Sys2Proof.Machine.execUndA15 c hi lo s
  | .strImmPre c u w rn rd imm12 => Sys2Proof.Machine.execStrImmPre c u w rn rd imm12 s
  | .strImmPost c u rn rd imm12 => Sys2Proof.Machine.execStrImmPost c u rn rd imm12 s
  | .strtImm c u rn rd imm12 => Sys2Proof.Machine.execStrtImm c u rn rd imm12 s
  | .strRegPre c u w rn rd amt sh rm => Sys2Proof.Machine.execStrRegPre c u w rn rd amt sh rm s
  | .strRegPost c u rn rd amt sh rm => Sys2Proof.Machine.execStrRegPost c u rn rd amt sh rm s
  | .strtReg c u rn rd amt sh rm => Sys2Proof.Machine.execStrtReg c u rn rd amt sh rm s
  | .ldrImmPre c u w rn rd imm12 => Sys2Proof.Machine.execLdrImmPre c u w rn rd imm12 s
  | .ldrImmPost c u rn rd imm12 => Sys2Proof.Machine.execLdrImmPost c u rn rd imm12 s
  | .ldrtImm c u rn rd imm12 => Sys2Proof.Machine.execLdrtImm c u rn rd imm12 s
  | .ldrRegPre c u w rn rd amt sh rm => Sys2Proof.Machine.execLdrRegPre c u w rn rd amt sh rm s
  | .ldrRegPost c u rn rd amt sh rm => Sys2Proof.Machine.execLdrRegPost c u rn rd amt sh rm s
  | .ldrtReg c u rn rd amt sh rm => Sys2Proof.Machine.execLdrtReg c u rn rd amt sh rm s
  | .strbImmPre c u w rn rd imm12 => Sys2Proof.Machine.execStrbImmPre c u w rn rd imm12 s
  | .strbImmPost c u rn rd imm12 => Sys2Proof.Machine.execStrbImmPost c u rn rd imm12 s
  | .strbtImm c u rn rd imm12 => Sys2Proof.Machine.execStrbtImm c u rn rd imm12 s
  | .strbRegPre c u w rn rd amt sh rm => Sys2Proof.Machine.execStrbRegPre c u w rn rd amt sh rm s
  | .strbRegPost c u rn rd amt sh rm => Sys2Proof.Machine.execStrbRegPost c u rn rd amt sh rm s
  | .strbtReg c u rn rd amt sh rm => Sys2Proof.Machine.execStrbtReg c u rn rd amt sh rm s
  | .ldrbImmPre c u w rn rd imm12 => Sys2Proof.Machine.execLdrbImmPre c u w rn rd imm12 s
  | .ldrbImmPost c u rn rd imm12 => Sys2Proof.Machine.execLdrbImmPost c u rn rd imm12 s
  | .ldrbtImm c u rn rd imm12 => Sys2Proof.Machine.execLdrbtImm c u rn rd imm12 s
  | .ldrbRegPre c u w rn rd amt sh rm => Sys2Proof.Machine.execLdrbRegPre c u w rn rd amt sh rm s
  | .ldrbRegPost c u rn rd amt sh rm => Sys2Proof.Machine.execLdrbRegPost c u rn rd amt sh rm s
  | .ldrbtReg c u rn rd amt sh rm => Sys2Proof.Machine.execLdrbtReg c u rn rd amt sh rm s
  | .stm c p u w rn list => Sys2Proof.Machine.execStm c p u w rn list s
  | .stmUser c p u w rn list => Sys2Proof.Machine.execStmUser c p u w rn list s
  | .ldm c p u w rn list => Sys2Proof.Machine.execLdm c p u w rn list s
  | .ldmUser c p u w rn list => Sys2Proof.Machine.execLdmUser c p u w rn list s
  | .ldmRet c p u w rn list => Sys2Proof.Machine.execLdmRet c p u w rn list s
  | .b c imm24 => Sys2Proof.Machine.execB c imm24 s
  | .bl c imm24 => Sys2Proof.Machine.execBl c imm24 s
  | .ldcStc c p u n w l rn crd cpnum offset8 => Sys2Proof.Machine.execLdcStc c p u n w l rn crd cpnum offset8 s
  | .cdp c op1 crn crd cpnum op2 crm => Sys2Proof.Machine.execCdp c op1 crn crd cpnum op2 crm s
  | .mcrMrc c op1 l crn rd cpnum op2 crm => Sys2Proof.Machine.execMcrMrc c op1 l crn rd cpnum op2 crm s
  | .swi c imm24 => Sys2Proof.Machine.execSwi c imm24 s
  | .tLslImm offset5 rs rd => Sys2Proof.Machine.execTLslImm offset5 rs rd s
  | .tLsrImm offset5 rs rd => Sys2Proof.Machine.execTLsrImm offset5 rs rd s
  | .tAsrImm offset5 rs rd => Sys2Proof.Machine.execTAsrImm offset5 rs rd s
  | .tAddReg rn rs rd => Sys2Proof.Machine.execTAddReg rn rs rd s
  | .tSubReg rn rs rd => Sys2Proof.Machine.execTSubReg rn rs rd s
  | .tAddImm3 imm3 rs rd => Sys2Proof.Machine.execTAddImm3 imm3 rs rd s
  | .tSubImm3 imm3 rs rd => Sys2Proof.Machine.execTSubImm3 imm3 rs rd s
  | .tMovImm rd imm8 => Sys2Proof.Machine.execTMovImm rd imm8 s
  | .tCmpImm rd imm8 => Sys2Proof.Machine.execTCmpImm rd imm8 s
  | .tAddImm8 rd imm8 => Sys2Proof.Machine.execTAddImm8 rd imm8 s
  | .tSubImm8 rd imm8 => Sys2Proof.Machine.execTSubImm8 rd imm8 s
  | .tAnd rs rd => Sys2Proof.Machine.execTAnd rs rd s
  | .tEor rs rd => Sys2Proof.Machine.execTEor rs rd s
  | .tLslReg rs rd => Sys2Proof.Machine.execTLslReg rs rd s
  | .tLsrReg rs rd => Sys2Proof.Machine.execTLsrReg rs rd s
  | .tAsrReg rs rd => Sys2Proof.Machine.execTAsrReg rs rd s
  | .tAdc rs rd => Sys2Proof.Machine.execTAdc rs rd s
  | .tSbc rs rd => Sys2Proof.Machine.execTSbc rs rd s
  | .tRor rs rd => Sys2Proof.Machine.execTRor rs rd s
  | .tTst rs rd => Sys2Proof.Machine.execTTst rs rd s
  | .tNeg rs rd => Sys2Proof.Machine.execTNeg rs rd s
  | .tCmpReg rs rd => Sys2Proof.Machine.execTCmpReg rs rd s
  | .tCmn rs rd => Sys2Proof.Machine.execTCmn rs rd s
  | .tOrr rs rd => Sys2Proof.Machine.execTOrr rs rd s
  | .tMul rs rd => Sys2Proof.Machine.execTMul rs rd s
  | .tBic rs rd => Sys2Proof.Machine.execTBic rs rd s
  | .tMvn rs rd => Sys2Proof.Machine.execTMvn rs rd s
  | .tAddHi d m => Sys2Proof.Machine.execTAddHi d m s
  | .tCmpHi d m => Sys2Proof.Machine.execTCmpHi d m s
  | .tMovHi d m => Sys2Proof.Machine.execTMovHi d m s
  | .tBx m sbz => Sys2Proof.Machine.execTBx m sbz s
  | .tBlxRegSpace m low => Sys2Proof.Machine.execTBlxRegSpace m low s
  | .tLdrPc rd word8 => Sys2Proof.Machine.execTLdrPc rd word8 s
  | .tStrReg ro rb rd => Sys2Proof.Machine.execTStrReg ro rb rd s
  | .tStrbReg ro rb rd => Sys2Proof.Machine.execTStrbReg ro rb rd s
  | .tLdrReg ro rb rd => Sys2Proof.Machine.execTLdrReg ro rb rd s
  | .tLdrbReg ro rb rd => Sys2Proof.Machine.execTLdrbReg ro rb rd s
  | .tStrhReg ro rb rd => Sys2Proof.Machine.execTStrhReg ro rb rd s
  | .tLdsb ro rb rd => Sys2Proof.Machine.execTLdsb ro rb rd s
  | .tLdrhReg ro rb rd => Sys2Proof.Machine.execTLdrhReg ro rb rd s
  | .tLdsh ro rb rd => Sys2Proof.Machine.execTLdsh ro rb rd s
  | .tStrImm offset5 rb rd => Sys2Proof.Machine.execTStrImm offset5 rb rd s
  | .tLdrImm offset5 rb rd => Sys2Proof.Machine.execTLdrImm offset5 rb rd s
  | .tStrbImm offset5 rb rd => Sys2Proof.Machine.execTStrbImm offset5 rb rd s
  | .tLdrbImm offset5 rb rd => Sys2Proof.Machine.execTLdrbImm offset5 rb rd s
  | .tStrhImm offset5 rb rd => Sys2Proof.Machine.execTStrhImm offset5 rb rd s
  | .tLdrhImm offset5 rb rd => Sys2Proof.Machine.execTLdrhImm offset5 rb rd s
  | .tStrSp rd word8 => Sys2Proof.Machine.execTStrSp rd word8 s
  | .tLdrSp rd word8 => Sys2Proof.Machine.execTLdrSp rd word8 s
  | .tAddPc rd word8 => Sys2Proof.Machine.execTAddPc rd word8 s
  | .tAddSp rd word8 => Sys2Proof.Machine.execTAddSp rd word8 s
  | .tAddSpimm sword7 => Sys2Proof.Machine.execTAddSpimm sword7 s
  | .tSubSpimm sword7 => Sys2Proof.Machine.execTSubSpimm sword7 s
  | .tPush r rlist => Sys2Proof.Machine.execTPush r rlist s
  | .tPop r rlist => Sys2Proof.Machine.execTPop r rlist s
  | .tUndB body => Sys2Proof.Machine.execTUndB body s
  | .tStmia rb rlist => Sys2Proof.Machine.execTStmia rb rlist s
  | .tLdmia rb rlist => Sys2Proof.Machine.execTLdmia rb rlist s
  | .tSwi value8 => Sys2Proof.Machine.execTSwi value8 s
  | .tUndDe body => Sys2Proof.Machine.execTUndDe body s
  | .tBcond c soffset8 => Sys2Proof.Machine.execTBcond c soffset8 s
  | .tB offset11 => Sys2Proof.Machine.execTB offset11 s
  | .tUndE8 body => Sys2Proof.Machine.execTUndE8 body s
  | .tBlHi offset11 => Sys2Proof.Machine.execTBlHi offset11 s
  | .tBlLo offset11 => Sys2Proof.Machine.execTBlLo offset11 s

end Sys2Proof.Machine
end

