-- ==== Sys2Proof/Machine/Fetch.lean ====
section
/-! DEFINITION. The parts of a tick beside the instruction (60_exceptions R1211, R1213, R1230, R1242, R1244, R1270; 20_memory R214): the
halt test, interrupt sampling, the fetch, the history and the breakpoint check; and where a test places an instruction. -/

namespace Sys2Proof.Machine

open Sys2Proof

/-! ### Halt and interrupts -/

/-- The requested and enabled interrupt sources: `IE AND IF`. -/
def Io.requests (io : Io) : Half := io.ieReg &&& io.ifReg

/-- The IRQ line (R1211). -/
def State.irqLine (s : State) : Bool := s.io.ime && s.io.requests &&& 0x3FFF != 0

/-- The halt test at the start of a tick (R1230): Halt ends on any of bits 13:0, Stop on bits 13, 12 or 7. -/
def State.wake (s : State) : State :=
  match s.halt with
  | .running => s
  | .halt => if s.io.requests &&& 0x3FFF = 0 then s else { s with halt := .running }
  | .stop => if s.io.requests &&& 0x3080 = 0 then s else { s with halt := .running }

/-- Interrupt sampling (R1213): FIQ before IRQ, each under its mask; the link is pc + 4. -/
def State.sampleInterrupts (s : State) : State :=
  if s.fiqLine && !s.cpsr.f then s.takeException .fiq (s.pc + 4)
  else if s.irqLine && !s.cpsr.i then s.takeException .irq (s.pc + 4)
  else s

/-! ### Fetch -/

/-- The instruction's bits at pc, with the width of CPSR.T (20 R214). -/
def State.fetch (s : State) : Code :=
  if s.cpsr.t then .thumb ((s.memRead .fetch s.pc .half).setWidth 16) else .arm (s.memRead .fetch s.pc .word)

/-! ### After the instruction -/

/-- An address appended to the history, which keeps the newest PC_HISTORY_LEN (R1244). -/
def State.record (s : State) (a : Word) : State :=
  let h := s.debugger.history ++ [a]
  { s with debugger := { s.debugger with history := h.drop (h.length - s.params.pcHistoryLen) } }

/-- A fresh epoch of free values (log 5). -/
def State.nextEpoch (s : State) : State := { s with draws := s.draws + 1 }

/-- The breakpoint that the state is at: enabled, and the pc in the set of the current width (R1242). -/
def State.atBreakpoint (s : State) : Bool :=
  s.debugger.enabled && (if s.cpsr.t then s.debugger.thumbBps.contains s.pc else s.debugger.armBps.contains s.pc)

/-- The breakpoint check after a tick (R1242). -/
def State.checkBreakpoint (s : State) : State :=
  if s.atBreakpoint then { s with debugger := { s.debugger with stopped := true } } else s

/-- What a tick does after the instruction at address a retired (R1270 steps 7 and 8). -/
def State.retire (s : State) (a : Word) : State := ((s.record a).nextEpoch).checkBreakpoint

/-! ### Placing an instruction (no part of the machine; log 15) -/

/-- The key of the memory cell an address reads, none for I/O and unmapped addresses. -/
def plainKey (romLen : Nat) (a : Word) : Option Nat :=
  match decodeAddr romLen a with
  | (.unmapped, _) | (.io, _) => none
  | (r, o) => some (r.base + o)

/-- A byte placed in the cell an address reads, whatever the region's write rules; nothing where it reads no cell. -/
def State.placeByte (s : State) (a : Word) (b : Byte) : State :=
  match plainKey s.romLen a with
  | some k => { s with mem := s.mem.write k b }
  | none => s

/-- Bytes placed from an address on. -/
def State.placeBytes (s : State) : Word → List Byte → State
  | _, [] => s
  | a, b :: rest => (s.placeByte a b).placeBytes (a + 1) rest

/-- The pc at which an instruction of n bytes can be placed: the pc aligned to n where n cells stand there, the base of
IWRAM otherwise. -/
def State.placeAddr (s : State) (n : Nat) : Word :=
  let a := alignPc (n == 2) s.pc
  if (List.range n).all fun k => (plainKey s.romLen (a + BitVec.ofNat 32 k)).isSome then a else 0x03000000

/-- The state that is running with the instruction state of c, takes no interrupt and fetches c next. -/
def State.place (s : State) (thumb : Bool) (bytes : List Byte) : State :=
  let s1 := { s with
    halt := .running
    cpsr := { s.cpsr with t := thumb, i := s.cpsr.i || s.irqLine, f := s.cpsr.f || s.fiqLine } }
  (s1.setPc (s1.placeAddr bytes.length)).placeBytes (s1.placeAddr bytes.length) bytes

end Sys2Proof.Machine
end

