-- ==== Sys2Proof/Machine/Step.lean ====
section
/-! DEFINITION. The step: one tick (60_exceptions R1270), and the placing of an instruction where the step fetches it. -/

namespace Sys2Proof.Machine

open Sys2Proof

/-- One tick of a machine that is running and has sampled its interrupts: fetch, decode, execute, retire (R1270 steps 3
to 8). -/
def runTick (s : State) : Result :=
  match exec (decode s.fetch) s with
  | .next t => .next (t.retire s.pc)
  | .fault f => .fault f
  | .refused r => .refused r

/-- `tick()` (R1270): a tick that finds the machine halted fetches nothing and only checks for a breakpoint (R1230, R1242). -/
def step (s : State) : Host.Outcome State Fault Refusal :=
  if s.wake.halt = .running then runTick s.wake.sampleInterrupts else .next s.wake.checkBreakpoint

/-- `s` with the instruction w of nbits bits placed where the step fetches next (log 15): up to 16 bits are a Thumb
halfword, more are an ARM word. -/
def State.withFetchWord (s : State) (nbits w : Nat) : State :=
  if nbits ≤ 16 then s.place true (Code.thumb (BitVec.ofNat 16 w)).bytes
  else s.place false (Code.arm (BitVec.ofNat 32 w)).bytes

end Sys2Proof.Machine
end

