-- ==== Sys2Proof/Machine/Ppu.lean ====
section
/-! DEFINITION. The PPU (47_ppu_render): a frame as a pure function of memory and the I/O registers. It changes no state. -/

namespace Sys2Proof.Machine

open Sys2Proof

/-! ### Register fields (10_state R119, R121, R124, R125) -/

/-- DISPCNT bits 2:0. -/
def Io.bgMode (io : Io) : Nat := (io.dispcnt.extractLsb' 0 3).toNat
/-- DISPCNT bit 4, the displayed frame of modes 4 and 5. -/
def Io.frameSelect (io : Io) : Nat := (io.dispcnt.getLsbD 4).toNat
/-- DISPCNT bit 7. -/
def Io.forcedBlank (io : Io) : Bool := io.dispcnt.getLsbD 7
/-- DISPCNT bit 8 + n. -/
def Io.bgEnabled (io : Io) (n : Fin 4) : Bool := io.dispcnt.getLsbD (8 + n.val)

/-- BGnCNT bits 1:0. -/
def Bg.priority (g : Bg) : Nat := (g.cnt.extractLsb' 0 2).toNat
/-- BGnCNT bits 3:2: CBB. -/
def Bg.charBase (g : Bg) : Nat := (g.cnt.extractLsb' 2 2).toNat
/-- BGnCNT bit 6. -/
def Bg.mosaic (g : Bg) : Bool := g.cnt.getLsbD 6
/-- BGnCNT bit 7: 256 colours. -/
def Bg.colours256 (g : Bg) : Bool := g.cnt.getLsbD 7
/-- BGnCNT bits 12:8: SBB. -/
def Bg.screenBase (g : Bg) : Nat := (g.cnt.extractLsb' 8 5).toNat
/-- BGnCNT bit 13. -/
def Bg.wrap (g : Bg) : Bool := g.cnt.getLsbD 13
/-- BGnCNT bits 15:14. -/
def Bg.size (g : Bg) : Nat := (g.cnt.extractLsb' 14 2).toNat

/-! ### Colours (R1160 to R1162) -/

/-- A pixel. -/
structure Rgba where
  r : Byte
  g : Byte
  b : Byte
  a : Byte
deriving DecidableEq, Repr

/-- `E(v)`, five bits to eight (R1161). -/
def expand5 (v : BitVec 5) : Byte := (v.setWidth 8 <<< 3) ||| (v.setWidth 8 >>> 2)

/-- A BGR555 colour as RGBA; bit 15 is ignored (R1160, R1161). -/
def colourOf (c : Half) : Rgba := ⟨expand5 (c.extractLsb' 0 5), expand5 (c.extractLsb' 5 5), expand5 (c.extractLsb' 10 5), 255⟩

/-- White, the pixel of a forced blank (R1103). -/
def Rgba.white : Rgba := ⟨255, 255, 255, 255⟩

/-- The four bytes of a pixel in the framebuffer (R1162). -/
def Rgba.bytes (p : Rgba) : List Byte := [p.r, p.g, p.b, p.a]

/-- Entry i of the background palette (R1160). -/
def State.palette (s : State) (i : Nat) : Half := (s.memRead .ppu (0x05000000 + BitVec.ofNat 32 (2 * i)) .half).setWidth 16

/-! ### VRAM -/

/-- `V(o)`. -/
def State.vram (s : State) (o : Nat) : Byte := (s.memRead .ppu (0x06000000 + BitVec.ofNat 32 o) .byte).setWidth 8

/-- `V16(o)`. -/
def State.vram16 (s : State) (o : Nat) : Half := (s.memRead .ppu (0x06000000 + BitVec.ofNat 32 o) .half).setWidth 16

/-- V(o) in the tile modes: 0 at and past 0x10000 (R1123). -/
def State.tileByte (s : State) (o : Nat) : Byte := if 0x10000 ≤ o then 0 else s.vram o

/-- V16(o) in the tile modes (R1123). -/
def State.tileHalf (s : State) (o : Nat) : Half := if 0x10000 ≤ o then 0 else s.vram16 o

/-! ### Layers -/

/-- The kinds of layer (R1102). -/
inductive Layer where
  | text | affine | bitmap | absent
deriving DecidableEq, Repr

/-- The layer background n is in a mode (R1102). -/
def layerOf (mode : Nat) (n : Fin 4) : Layer :=
  match mode, n.val with
  | 0, _ => .text
  | 1, 0 | 1, 1 => .text
  | 1, 2 => .affine
  | 2, 2 | 2, 3 => .affine
  | 3, 2 | 4, 2 | 5, 2 => .bitmap
  | _, _ => .absent

/-- The width of a text map in pixels (R1120). -/
def textWidth (size : Nat) : Nat := if size % 2 = 1 then 512 else 256

/-- The height of a text map in pixels (R1120). -/
def textHeight (size : Nat) : Nat := if 2 ≤ size then 512 else 256

/-- The screen pixel a layer's pixel is computed at (R1150). -/
def Io.mosaicAt (io : Io) (g : Bg) (x y : Nat) : Nat × Nat :=
  if g.mosaic then
    (x - x % ((io.mosaic.extractLsb' 0 4).toNat + 1), y - y % ((io.mosaic.extractLsb' 4 4).toNat + 1))
  else (x, y)

/-- A palette entry, transparent for index 0. -/
def State.indexed8 (s : State) (i : Nat) (bank : Nat) : Option Half := if i = 0 then none else some (s.palette (bank + i))

/-- The map entry of a text background at map pixel (tx, ty) (R1121). -/
def State.textEntry (s : State) (g : Bg) (tx ty : Nat) : Half :=
  s.tileHalf (g.screenBase * 0x800 + (tx / 256 + ty / 256 * (textWidth g.size / 256)) * 0x800
    + ty % 256 / 8 * 64 + tx % 256 / 8 * 2)

/-- The colour of a text background at map pixel (tx, ty), none where transparent (R1122). -/
def State.textTile (s : State) (g : Bg) (tx ty : Nat) : Option Half :=
  let e := s.textEntry g tx ty
  let px := if e.getLsbD 10 then 7 - tx % 8 else tx % 8
  let py := if e.getLsbD 11 then 7 - ty % 8 else ty % 8
  let tile := (e.extractLsb' 0 10).toNat
  if g.colours256 then s.indexed8 (s.tileByte (g.charBase * 0x4000 + tile * 64 + py * 8 + px)).toNat 0
  else
    let b := s.tileByte (g.charBase * 0x4000 + tile * 32 + py * 4 + px / 2)
    s.indexed8 (if px % 2 = 0 then (b.extractLsb' 0 4).toNat else (b.extractLsb' 4 4).toNat)
      (16 * (e.extractLsb' 12 4).toNat)

/-- The pixel of a text background at a screen pixel after mosaic (R1120). -/
def State.textPixel (s : State) (g : Bg) (x y : Nat) : Option Half :=
  s.textTile g ((x + (g.hofs.extractLsb' 0 9).toNat) % textWidth g.size)
    ((y + (g.vofs.extractLsb' 0 9).toNat) % textHeight g.size)

/-- The colour of an affine background at map pixel (tx, ty) of an S by S map (R1130). -/
def State.affineTile (s : State) (g : Bg) (size tx ty : Nat) : Option Half :=
  let t := (s.tileByte (g.screenBase * 0x800 + ty / 8 * (size / 8) + tx / 8)).toNat
  s.indexed8 (s.tileByte (g.charBase * 0x4000 + t * 64 + ty % 8 * 8 + tx % 8)).toNat 0

/-- The map coordinate of an affine background: `(ref + p * x + q * y) >> 8` in exact integers (R1130). -/
def affineCoord (ref : Word) (p q : Half) (x y : Nat) : Int :=
  ((ref.extractLsb' 0 28).toInt + p.toInt * x + q.toInt * y) / 256

/-- The pixel of an affine background at a screen pixel after mosaic (R1130). -/
def State.affinePixel (s : State) (g : Bg) (f : Affine) (x y : Nat) : Option Half :=
  let size := 128 <<< g.size
  let tx := affineCoord f.x f.pa f.pb x y
  let ty := affineCoord f.y f.pc f.pd x y
  if g.wrap then s.affineTile g size (tx % size).toNat (ty % size).toNat
  else if tx < 0 ∨ size ≤ tx ∨ ty < 0 ∨ size ≤ ty then none
  else s.affineTile g size tx.toNat ty.toNat

/-- The pixel of the bitmap of modes 3 to 5 at a screen pixel after mosaic (R1140). -/
def State.bitmapPixel (s : State) (mode x y : Nat) : Option Half :=
  match mode with
  | 3 => some (s.vram16 (2 * (240 * y + x)))
  | 4 => s.indexed8 (s.vram (0xA000 * s.io.frameSelect + 240 * y + x)).toNat 0
  | 5 => if x < 160 ∧ y < 128 then some (s.vram16 (0xA000 * s.io.frameSelect + 2 * (160 * y + x))) else none
  | _ => none

/-- The affine registers of background n: BG2's or BG3's. -/
def Io.affineOf (io : Io) (n : Fin 4) : Affine := if n = 2 then io.aff[0] else io.aff[1]

/-- The pixel of background n in a mode, none where it is transparent or the mode has no such background. -/
def State.layerPixel (s : State) (mode : Nat) (n : Fin 4) (x y : Nat) : Option Half :=
  let g := s.io.bg[n]
  let q := s.io.mosaicAt g x y
  match layerOf mode n with
  | .text => s.textPixel g q.1 q.2
  | .affine => s.affinePixel g (s.io.affineOf n) q.1 q.2
  | .bitmap => s.bitmapPixel mode q.1 q.2
  | .absent => none

/-! ### Composition (R1155) -/

/-- The opaque active layers at a pixel as (priority, number, colour), by rising number. -/
def State.opaqueLayers (s : State) (mode x y : Nat) : List (Nat × Fin 4 × Half) :=
  ([0, 1, 2, 3] : List (Fin 4)).filterMap fun n =>
    if s.io.bgEnabled n then (s.layerPixel mode n x y).map fun c => (s.io.bg[n].priority, n, c) else none

/-- The front layer: the least priority, the first of equals. -/
def frontLayer : List (Nat × Fin 4 × Half) → Option (Nat × Fin 4 × Half)
  | [] => none
  | l :: rest =>
    match frontLayer rest with
    | none => some l
    | some m => if l.1 ≤ m.1 then some l else some m

/-- A pixel whose every bit is a free value (R1101, log 17). -/
def freePixel (epoch x y : Nat) : Rgba :=
  let d := Config.draw epoch (.pixel x y)
  ⟨d.extractLsb' 0 8, d.extractLsb' 8 8, d.extractLsb' 16 8, d.extractLsb' 24 8⟩

/-- The pixel (x, y) of the frame (R1101, R1103, R1155). -/
def State.renderPixel (s : State) (x y : Nat) : Rgba :=
  if s.io.forcedBlank then Rgba.white
  else if 6 ≤ s.io.bgMode then freePixel s.draws x y
  else
    match frontLayer (s.opaqueLayers s.io.bgMode x y) with
    | some l => colourOf l.2.2
    | none => colourOf (s.palette 0)

/-- Row y of the frame, left to right. -/
def State.renderRow (s : State) (y : Nat) : List Byte :=
  (List.range 240).flatMap fun x => (s.renderPixel x y).bytes

/-- `Render` (R1100, R1162): the 153600 bytes of the frame, row by row. -/
def State.render (s : State) : List Byte := (List.range 160).flatMap s.renderRow

/-! ### Queries -/

/-- What `background_info(n)` returns (R1170). -/
structure BgInfo where
  priority : Nat
  charBase : Nat
  screenBase : Nat
  size : Nat
  colours256 : Bool
  mosaic : Bool
  wrap : Bool
deriving DecidableEq, Repr

/-- `background_info(n)`: absent for n past 3 (R1170). -/
def State.backgroundInfo (s : State) (n : Nat) : Option BgInfo :=
  if h : n < 4 then
    let g := s.io.bg[n]
    some ⟨g.priority, g.charBase, g.screenBase, g.size, g.colours256, g.mosaic, g.wrap⟩
  else none

end Sys2Proof.Machine
end

