-- ==== Sys2Proof/Machine/HostOps.lean ====
section
/-! DEFINITION. What the host and the environment do between ticks (60_exceptions R1210, R1212, R1231, R1240 to R1266; 70 R1300 to R1304;
20_memory R207, R229). Log 14. -/

namespace Sys2Proof.Machine

open Sys2Proof

/-! ### Construct and reset (R1300) -/

/-- The keys of the RAM whose contents RESET_REG_POLICY governs (20 R231): EWRAM, IWRAM, palette RAM, VRAM, OAM. -/
def ramRanges : List (Nat × Nat) :=
  [(0x02000000, 0x40000), (0x03000000, 0x8000), (0x05000000, 0x400), (0x06000000, 0x18000), (0x07000000, 0x400)]

/-- Cells that hold free bytes in a range of keys. -/
def freeCells (epoch : Nat) (r : Nat × Nat) : Memory :=
  (List.range r.2).flatMap fun i => Memory.cell (r.1 + i) ((Config.draw epoch (.resetMem (r.1 + i))).setWidth 8)

/-- The cells of consecutive bytes from a key on. -/
def cellsOf : Nat → List Byte → Memory
  | _, [] => []
  | a, b :: rest => Memory.cell a b ++ cellsOf (a + 1) rest

/-- A free status register; bits 27:8 read 0 (10_state R108, R133). -/
def freePsr (epoch n : Nat) : Psr := Psr.ofWord (Config.draw epoch (.resetSpsr n))

/-- Registers, SPSRs and RAM at power-on by RESET_REG_POLICY (R1300, 10_state R133, 20 R231), beside BIOS and ROM cells. -/
def powerOnWith (p : Params) (bios rom : Memory) (romLen epoch : Nat) : State :=
  match p.resetRegPolicy with
  | .zero => { State.powerOn p with mem := bios ++ rom, romLen := romLen, draws := epoch + 1 }
  | .unspecified =>
    { State.powerOn p with
      regs := Vector.ofFn fun k : Fin 30 => Config.draw epoch (.resetReg k.val)
      spsr := Vector.ofFn fun k : Fin 5 => freePsr epoch k.val
      mem := bios ++ ramRanges.flatMap (freeCells epoch) ++ rom
      romLen := romLen
      draws := epoch + 1 }

/-- `construct` with the parameters p, the first 16384 bytes of a BIOS_IMAGE and an epoch for the free values (R1261, R1300). -/
def construct (p : Params) (biosImage : List Byte) (epoch : Nat) : State :=
  powerOnWith p (cellsOf 0 (biosImage.take 0x4000)) [] 0 epoch

/-- `reset()` (R1300, R1304): the power-on state; BIOS_IMAGE, the cartridge image and the parameters stay. -/
def State.resetOp (s : State) : State :=
  powerOnWith s.params (s.mem.filter fun c => decide (c.1 < 0x4000)) (s.mem.filter fun c => decide (0x08000000 ≤ c.1))
    s.romLen s.draws

/-- `skip_bios()` (R1302, 10_state R134). -/
def State.skipBios (s : State) : State :=
  { s with
    regs := (((Vector.replicate 30 0).set 13 0x03007F00).set 22 0x03007FA0).set 24 0x03007FE0
    pc := 0x08000000
    cpsr := ⟨false, false, false, false, false, false, false, .sys⟩
    spsr := Vector.replicate 5 Psr.zero
    halt := .running }

/-! ### The cartridge (20 R207, R1266) -/

/-- `load_rom(bytes)`: none where the host operation refuses a buffer past 32 MiB (D45). -/
def State.loadRom (s : State) (bytes : List Byte) : Option State :=
  if 33554432 < bytes.length then none
  else some { s with
    mem := s.mem.filter (fun c => decide (c.1 < 0x08000000)) ++ cellsOf 0x08000000 bytes
    romLen := bytes.length }

/-- `load_test_rom()`: load_rom(TEST_ROM_IMAGE) (D55). -/
def State.loadTestRom (s : State) : Option State := s.loadRom s.params.testRom

/-! ### Ticks -/

/-- `tick_multiple(n)` (R1231): n ticks, ending early once the machine is halted after a tick. That FIQ_LINE keeps one level for all
n ticks (R1212) is the model's choice (log 13). -/
def tickMultiple : Nat → State → Result
  | 0, s => .next s
  | n + 1, s =>
    match step s with
    | .next t => if t.halt = .running then tickMultiple n t else .next t
    | .fault f => .fault f
    | .refused r => .refused r

/-! ### Keys, interrupts and the FIQ line -/

/-- `set_key(k, pressed)` (R1262): KEYINPUT bit k cleared while pressed; nothing for k past 9. -/
def State.setKey (s : State) (k : Nat) (pressed : Bool) : State :=
  if k < 10 then
    let m : BitVec 10 := 1 <<< k
    { s with io := { s.io with keyinput := if pressed then s.io.keyinput &&& ~~~m else s.io.keyinput ||| m } }
  else s

/-- IRQ_SOURCE: the environment sets a subset of IF bits 13:0 (R1210, log 13). -/
def State.raiseIrq (s : State) (bits : BitVec 14) : State :=
  { s with io := { s.io with ifReg := s.io.ifReg ||| bits.setWidth 16 } }

/-- FIQ_LINE: the environment sets the level (R1212, log 13). -/
def State.setFiqLine (s : State) (b : Bool) : State := { s with fiqLine := b }

/-! ### The debugger (R1240 to R1245) -/

/-- A set with a inserted, once. -/
def insertOnce (l : List Word) (a : Word) : List Word := if l.contains a then l else l ++ [a]

/-- The debugger changed by g. -/
def State.onDebug (s : State) (g : Debugger → Debugger) : State := { s with debugger := g s.debugger }

/-- `add_arm_breakpoint(a)`. -/
def State.addArmBreakpoint (s : State) (a : Word) : State := s.onDebug fun d => { d with armBps := insertOnce d.armBps a }
/-- `add_thumb_breakpoint(a)`. -/
def State.addThumbBreakpoint (s : State) (a : Word) : State :=
  s.onDebug fun d => { d with thumbBps := insertOnce d.thumbBps a }
/-- `remove_arm_breakpoint(a)`. -/
def State.removeArmBreakpoint (s : State) (a : Word) : State :=
  s.onDebug fun d => { d with armBps := d.armBps.filter fun x => x != a }
/-- `remove_thumb_breakpoint(a)`. -/
def State.removeThumbBreakpoint (s : State) (a : Word) : State :=
  s.onDebug fun d => { d with thumbBps := d.thumbBps.filter fun x => x != a }
/-- `arm_breakpoints()`; the order is not specified (R1240). -/
def State.armBreakpoints (s : State) : List Word := s.debugger.armBps
/-- `thumb_breakpoints()`. -/
def State.thumbBreakpoints (s : State) : List Word := s.debugger.thumbBps
/-- `enable_debugger(b)` (R1241). -/
def State.enableDebugger (s : State) (b : Bool) : State := s.onDebug fun d => { d with enabled := b }
/-- `set_stopped(b)` (R1243). -/
def State.setStopped (s : State) (b : Bool) : State := s.onDebug fun d => { d with stopped := b }
/-- The executing PC: the address about to retire (R1245). -/
def State.executingPc (s : State) : Word := s.pc
/-- The last-committed address: the newest entry of the history, absent if there is none (R1245). -/
def State.lastCommitted (s : State) : Option Word := s.debugger.history.getLast?

/-! ### Queries -/

/-- What `inspect_cpu()` returns (R1250). -/
structure CpuSnapshot where
  regs : Vector Word 16
  pc : Word
  cpsr : Word
  mode : Mode
  thumb : Bool
  spsr : Option Word
deriving DecidableEq, Repr

/-- The offset of R15 as an operand: 4 in Thumb state, 8 in ARM state (10_state R110). -/
def State.pcOffset (s : State) : Word := if s.cpsr.t then 4 else 8

/-- `inspect_cpu()` (R1250): r15 is the view's PC operand, pc the address of the next instruction (log 21). -/
def State.inspectCpu (s : State) : CpuSnapshot where
  regs := Vector.ofFn fun r : Fin 16 => s.reg s.pcOffset (BitVec.ofNat 4 r.val)
  pc := s.pc
  cpsr := s.cpsr.word
  mode := s.cpsr.mode
  thumb := s.cpsr.t
  spsr := s.curSpsr.map Psr.word

/-- A query for the register r of the bank of mode m: absent where m is not the current mode (R1250, log 21). That User and System,
which share their registers (10_state R101, R102), count as two modes here is the model's choice (log 28). -/
def State.inspectBanked (s : State) (m : Mode) (r : Reg) : Option Word :=
  if m = s.cpsr.mode then some (s.reg s.pcOffset r) else none

/-- `thumb_state()` (10_state R113). -/
def State.thumbState (s : State) : Bool := s.cpsr.t
/-- `ie_reg()` (R1251). -/
def State.ieQuery (s : State) : Half := s.io.ieReg
/-- `if_reg()` (R1251). -/
def State.ifQuery (s : State) : Half := s.io.ifReg
/-- `inspect_memory()` (R1251): the snapshot, as the byte it holds at each address, and the state after it, which differs in the
epoch of the free values only. The spec leaves the record open (91 N20): that one snapshot holds one draw for each byte of
DISPSTAT and VCOUNT, and that a later snapshot or host read draws anew (10_state R120, 20 R220), is the model's choice (log 23). -/
def State.inspectMemory (s : State) : (Word → Byte) × State := (s.readByte .host, s.nextEpoch)

/-- `read_address(a)` (20 R229). The state after it differs in the epoch of the free values only (log 23). -/
def State.readAddress (s : State) (a : Word) : Word × State := (s.memRead .host (a &&& 0xFFFFFFFC) .word, s.nextEpoch)
/-- `read_halfword(a)` (20 R229). -/
def State.readHalfword (s : State) (a : Word) : Word × State := (s.memRead .host (a &&& 0xFFFFFFFE) .half, s.nextEpoch)

/-- `disassemble_arm(w)`: total, its text not given (R1252, log 18). -/
def disassembleArm (w : Word) : String := Config.disassembleArm w
/-- `disassemble_thumb(h)`. -/
def disassembleThumb (h : Half) : String := Config.disassembleThumb h

/-- `inspect_ppu()` (R1263): the frame and the four background records. -/
def State.inspectPpu (s : State) : List Byte × List (Option BgInfo) :=
  (s.render, (List.range 4).map s.backgroundInfo)

/-! ### The queue and the host's loop (R1260 to R1266) -/

/-- The host's state changed by g. -/
def State.onHost (s : State) (g : HostSide → HostSide) : State := { s with host := g s.host }

/-- `set_screen_array`: the caller's buffer, of any length (log 27), becomes the shared framebuffer (R1263). -/
def State.setScreenArray (s : State) (buffer : List Byte) : State := s.onHost fun h => { h with screen := some buffer }

/-- A command put at the end of the queue (R1260). -/
def State.enqueue (s : State) (c : HostCommand) : State := s.onHost fun h => { h with queue := h.queue ++ [c] }

/-- `SetPause(b)` (R1232, R1265): clearing it also clears the stopped flag. -/
def State.setPause (s : State) (b : Bool) : State :=
  let s1 := s.onHost fun h => { h with paused := b }
  if b then s1 else s1.setStopped false

/-- The effect of one queued command (R1260 to R1266). A LoadRom that the host operation refuses has none (log 22). A draw
request replaces the whole shared buffer by the frame, whatever length the caller gave it (log 27). -/
def State.applyCommand (s : State) : HostCommand → State
  | .setPause b => s.setPause b
  | .setKey k pressed => s.setKey k pressed
  | .loadRom bytes => (s.loadRom bytes).getD s
  | .requestScreenDraw =>
    match s.host.screen with
    | some _ => (s.onHost fun h => { h with screen := some s.render }).nextEpoch
    | none => s
  | .requestCpuDebugInfo => s.onHost fun h => { h with staged := some s.pc }

/-- The commands applied in order. -/
def State.applyCommands (s : State) : List HostCommand → State
  | [] => s
  | c :: rest => (s.applyCommand c).applyCommands rest

/-- `process_responses()` (R1260): the queue drained in order, each command once. -/
def State.processResponses (s : State) : State :=
  (s.onHost fun h => { h with queue := [] }).applyCommands s.host.queue

/-- One iteration of the host's tick loop (R1265). -/
def State.hostLoop (s : State) : Result :=
  let t := s.processResponses
  if t.host.paused || t.debugger.stopped then .next t else step t

/-! ### Instances (R1260, R1304) -/

/-- A core the host holds: live, or consumed by `reset()`. -/
inductive Instance where
  | live (s : State)
  | consumed
deriving DecidableEq, Repr

/-- The definite failure of an operation on a consumed instance (R1260). -/
inductive HostFailure where
  | consumed
deriving DecidableEq, Repr

/-- What an operation answers on an instance: its own answer on a live one, the definite failure on a consumed one, whatever
the operation answers with (R1260, R1304). Every operation below goes through it. -/
def Instance.use {α : Type} (i : Instance) (g : State → α) : Except HostFailure α :=
  match i with
  | .live s => .ok (g s)
  | .consumed => .error .consumed

/-- An operation that answers with the state after it only: `skip_bios`, `set_key`, the debugger's, `set_screen_array`,
`process_responses`, a command put into the queue (R1260 to R1266). -/
def Instance.apply (i : Instance) (g : State → State) : Except HostFailure Instance := i.use fun s => .live (g s)

/-- `reset()` on an instance: the instance it consumes and the new one (R1304). -/
def Instance.reset (i : Instance) : Except HostFailure (Instance × Instance) := i.use fun s => (.consumed, .live s.resetOp)

/-- The instance after ticks: live in the next state. -/
def liveOutcome : Result → Host.Outcome Instance Fault Refusal
  | .next t => .next (.live t)
  | .fault f => .fault f
  | .refused r => .refused r

/-- `tick()` on an instance. -/
def Instance.tick (i : Instance) : Except HostFailure (Host.Outcome Instance Fault Refusal) :=
  i.use fun s => liveOutcome (step s)

/-- `tick_multiple(n)` on an instance. -/
def Instance.tickMultiple (i : Instance) (n : Nat) : Except HostFailure (Host.Outcome Instance Fault Refusal) :=
  i.use fun s => liveOutcome (Machine.tickMultiple n s)

/-- One iteration of the host's loop on an instance (R1265). -/
def Instance.hostLoop (i : Instance) : Except HostFailure (Host.Outcome Instance Fault Refusal) :=
  i.use fun s => liveOutcome s.hostLoop

/-- `load_rom(bytes)` on an instance; none where the buffer is refused. -/
def Instance.loadRom (i : Instance) (bytes : List Byte) : Except HostFailure (Option Instance) :=
  i.use fun s => (s.loadRom bytes).map .live

/-- `load_test_rom()` on an instance. -/
def Instance.loadTestRom (i : Instance) : Except HostFailure (Option Instance) := i.use fun s => s.loadTestRom.map .live

/-- A query that draws: its answer and the instance after it. -/
def Instance.read {α : Type} (i : Instance) (g : State → α × State) : Except HostFailure (α × Instance) :=
  i.use fun s => ((g s).1, .live (g s).2)

/-- `read_address(a)` on an instance. -/
def Instance.readAddress (i : Instance) (a : Word) : Except HostFailure (Word × Instance) := i.read fun s => s.readAddress a
/-- `read_halfword(a)` on an instance. -/
def Instance.readHalfword (i : Instance) (a : Word) : Except HostFailure (Word × Instance) := i.read fun s => s.readHalfword a
/-- `inspect_memory()` on an instance. -/
def Instance.inspectMemory (i : Instance) : Except HostFailure ((Word → Byte) × Instance) := i.read State.inspectMemory
/-- `inspect_cpu()` on an instance. -/
def Instance.inspectCpu (i : Instance) : Except HostFailure CpuSnapshot := i.use State.inspectCpu
/-- A query for a banked register on an instance. -/
def Instance.inspectBanked (i : Instance) (m : Mode) (r : Reg) : Except HostFailure (Option Word) :=
  i.use fun s => s.inspectBanked m r
/-- `inspect_ppu()` on an instance. -/
def Instance.inspectPpu (i : Instance) : Except HostFailure (List Byte × List (Option BgInfo)) := i.use State.inspectPpu
/-- `background_info(n)` on an instance. -/
def Instance.backgroundInfo (i : Instance) (n : Nat) : Except HostFailure (Option BgInfo) := i.use fun s => s.backgroundInfo n
/-- `thumb_state()` on an instance. -/
def Instance.thumbState (i : Instance) : Except HostFailure Bool := i.use State.thumbState
/-- `ie_reg()` on an instance. -/
def Instance.ieQuery (i : Instance) : Except HostFailure Half := i.use State.ieQuery
/-- `if_reg()` on an instance. -/
def Instance.ifQuery (i : Instance) : Except HostFailure Half := i.use State.ifQuery
/-- `arm_breakpoints()` on an instance. -/
def Instance.armBreakpoints (i : Instance) : Except HostFailure (List Word) := i.use State.armBreakpoints
/-- `thumb_breakpoints()` on an instance. -/
def Instance.thumbBreakpoints (i : Instance) : Except HostFailure (List Word) := i.use State.thumbBreakpoints
/-- The executing PC and the last-committed address on an instance (R1245). -/
def Instance.pcQuery (i : Instance) : Except HostFailure (Word × Option Word) :=
  i.use fun s => (s.executingPc, s.lastCommitted)
/-- A command put into the queue of an instance: after the teardown, the definite failure (R1260). -/
def Instance.enqueue (i : Instance) (c : HostCommand) : Except HostFailure Instance := i.apply fun s => s.enqueue c

end Sys2Proof.Machine
end

