-- ==== Sys2Proof/Safety.lean ====
section
/-! DEFINITION. What statements about the machine are said in: safe runs, the invariant of the step, and what an
instruction may leave unchanged. -/

namespace Sys2Proof.Machine

open Sys2Proof

/-! ### Runs -/

/-- The step has a next state. -/
def State.Safe (s : State) : Prop := ∃ t, step s = .next t

/-- t comes from s by steps. -/
inductive Reaches : State → State → Prop where
  | refl (s : State) : Reaches s s
  | tail {s t u : State} : Reaches s t → step t = .next u → Reaches s u

/-- n ticks one after the other, up to the first refusal. -/
def ticks : Nat → State → Result
  | 0, s => .next s
  | n + 1, s =>
    match step s with
    | .next t => ticks n t
    | .fault f => .fault f
    | .refused r => .refused r

/-! ### The invariant -/

/-- The pc is aligned to the instruction width (10_state R105). -/
def State.pcAligned (s : State) : Prop := if s.cpsr.t then s.pc &&& 1 = 0 else s.pc &&& 3 = 0

/-- The memory is in canonical form, the pc aligned, the history bounded. -/
def State.Inv (s : State) : Prop :=
  s.mem.wf = true ∧ s.pcAligned ∧ s.debugger.history.length ≤ s.params.pcHistoryLen

/-! ### Frames -/

/-- Nothing in memory changed: the cells are the same, and every byte at every address reads as before. -/
def SameMemory (s t : State) : Prop := t.mem = s.mem ∧ ∀ acc a, t.readByte acc a = s.readByte acc a

/-- The I/O registers and the halt state, which only a store changes. -/
def SameIo (s t : State) : Prop := t.io = s.io ∧ t.halt = s.halt

/-- What no instruction changes: the cartridge's length, the FIQ line, the parameters, the debugger, the host and the epoch
of the free values. -/
def SameOutside (s t : State) : Prop :=
  t.romLen = s.romLen ∧ t.fiqLine = s.fiqLine ∧ t.params = s.params ∧ t.debugger = s.debugger ∧ t.host = s.host ∧ t.draws = s.draws

/-- Every physical register that is not listed is the same. -/
def SameRegsBut (ps : List (Fin 30)) (s t : State) : Prop := ∀ p, p ∉ ps → t.peek p = s.peek p

/-- Everything but the listed registers, the CPSR and the pc is the same. -/
def FrameFlags (ps : List (Fin 30)) (s t : State) : Prop :=
  SameRegsBut ps s t ∧ t.spsr = s.spsr ∧ SameMemory s t ∧ SameIo s t ∧ SameOutside s t

/-- Everything but the listed registers and the pc is the same. -/
def FrameRegs (ps : List (Fin 30)) (s t : State) : Prop := t.cpsr = s.cpsr ∧ FrameFlags ps s t

/-- The mode, the masks and the instruction state: the CPSR but for its flags. -/
def SameControl (s t : State) : Prop :=
  t.cpsr.mode = s.cpsr.mode ∧ t.cpsr.i = s.cpsr.i ∧ t.cpsr.f = s.cpsr.f ∧ t.cpsr.t = s.cpsr.t

/-- The places (20 R203: region and offset) that a store of width w at address a can write: its own bytes; for a byte in
palette RAM or VRAM both bytes of the halfword (R209, R210). -/
def storePlaces (romLen : Nat) (w : Width) (a : Word) : List (Region × Nat) :=
  match w with
  | .byte =>
    match decodeAddr romLen a with
    | (.pal, o) => [(.pal, o - o % 2), (.pal, o - o % 2 + 1)]
    | (.vram, o) => [(.vram, o - o % 2), (.vram, o - o % 2 + 1)]
    | p => [p]
  | .half => [decodeAddr romLen a, decodeAddr romLen (a + 1)]
  | .word => [decodeAddr romLen a, decodeAddr romLen (a + 1), decodeAddr romLen (a + 2), decodeAddr romLen (a + 3)]

/-- Every byte at an address of no listed place reads as before; and where no listed place is an I/O register, the I/O
registers and the halt state are the same. -/
def SameMemoryBut (places : List (Region × Nat)) (s t : State) : Prop :=
  (∀ acc a, decodeAddr s.romLen a ∉ places → t.readByte acc a = s.readByte acc a) ∧
    ((∀ o, (.io, o) ∉ places) → SameIo s t)

/-- The frame of a store: everything but the listed registers, the listed places and the pc is the same. -/
def FrameStore (ps : List (Fin 30)) (places : List (Region × Nat)) (s t : State) : Prop :=
  t.cpsr = s.cpsr ∧ SameRegsBut ps s t ∧ t.spsr = s.spsr ∧ SameMemoryBut places s t ∧ SameOutside s t

end Sys2Proof.Machine
end

