-- ==== Sys2Proof/Views.lean ====
section
/-! DEFINITION. How the statements name families of instructions: a family as an operation with an operand form, the constructor
of Instr it stands for, and what the rules of the spec say of it in exact arithmetic. Used by statements and tests, by no meaning. -/

namespace Sys2Proof

/-! ### Classes of instructions -/

/-- The ARM instructions that write memory (42 R611, R613, R615, R617, R621, R643, R644, R660, R661) and the Thumb ones (45 R901,
R902, R905, R910, R912, R914, R916, R930, R932). -/
def Instr.stores : Instr → Bool
  | .strImmPre _ _ _ _ _ _ | .strImmPost _ _ _ _ _ | .strtImm _ _ _ _ _ => true
  | .strRegPre _ _ _ _ _ _ _ _ | .strRegPost _ _ _ _ _ _ _ | .strtReg _ _ _ _ _ _ _ => true
  | .strbImmPre _ _ _ _ _ _ | .strbImmPost _ _ _ _ _ | .strbtImm _ _ _ _ _ => true
  | .strbRegPre _ _ _ _ _ _ _ _ | .strbRegPost _ _ _ _ _ _ _ | .strbtReg _ _ _ _ _ _ _ => true
  | .strhImm _ _ _ _ _ _ _ | .strhReg _ _ _ _ _ _ _ _ => true
  | .stm _ _ _ _ _ _ | .stmUser _ _ _ _ _ _ | .swp _ _ _ _ | .swpb _ _ _ _ => true
  | .tStrReg _ _ _ | .tStrbReg _ _ _ | .tStrhReg _ _ _ | .tStrImm _ _ _ | .tStrbImm _ _ _ | .tStrhImm _ _ _ => true
  | .tStrSp _ _ | .tPush _ _ | .tStmia _ _ => true
  | _ => false

/-- The two BX (43 R702, 44 R843). -/
def Instr.exchanges : Instr → Bool
  | .bx _ _ | .tBx _ _ => true
  | _ => false

/-- The two MSR (41 R522, R523). -/
def Instr.writesPsr : Instr → Bool
  | .msrReg _ _ _ _ | .msrImm _ _ _ _ _ => true
  | _ => false

/-- SWI and the undefined and coprocessor spaces (43 R710, R720; 46 R1010, R1050). -/
def Instr.traps : Instr → Bool
  | .swi _ _ | .tSwi _ => true
  | .undMulspace _ _ | .undPsrspace _ _ | .undA15 _ _ _ | .tUndB _ | .tUndDe _ | .tUndE8 _ => true
  | .ldcStc _ _ _ _ _ _ _ _ _ _ | .cdp _ _ _ _ _ _ _ | .mcrMrc _ _ _ _ _ _ _ _ => true
  | _ => false

/-- The forms that restore the CPSR from the SPSR: LDM with S = 1 and R15 in the list (42 R642), and the register-writing
data-processing instructions with S = 1 and Rd = 15 (40 R416). -/
def Instr.restores : Instr → Bool
  | .ldmRet _ _ _ _ _ _ => true
  | .andImm _ sf _ rd _ _ | .andIshift _ sf _ rd _ _ _ | .andRshift _ sf _ rd _ _ _ => sf && rd == 15
  | .eorImm _ sf _ rd _ _ | .eorIshift _ sf _ rd _ _ _ | .eorRshift _ sf _ rd _ _ _ => sf && rd == 15
  | .subImm _ sf _ rd _ _ | .subIshift _ sf _ rd _ _ _ | .subRshift _ sf _ rd _ _ _ => sf && rd == 15
  | .rsbImm _ sf _ rd _ _ | .rsbIshift _ sf _ rd _ _ _ | .rsbRshift _ sf _ rd _ _ _ => sf && rd == 15
  | .addImm _ sf _ rd _ _ | .addIshift _ sf _ rd _ _ _ | .addRshift _ sf _ rd _ _ _ => sf && rd == 15
  | .adcImm _ sf _ rd _ _ | .adcIshift _ sf _ rd _ _ _ | .adcRshift _ sf _ rd _ _ _ => sf && rd == 15
  | .sbcImm _ sf _ rd _ _ | .sbcIshift _ sf _ rd _ _ _ | .sbcRshift _ sf _ rd _ _ _ => sf && rd == 15
  | .rscImm _ sf _ rd _ _ | .rscIshift _ sf _ rd _ _ _ | .rscRshift _ sf _ rd _ _ _ => sf && rd == 15
  | .orrImm _ sf _ rd _ _ | .orrIshift _ sf _ rd _ _ _ | .orrRshift _ sf _ rd _ _ _ => sf && rd == 15
  | .movImm _ sf _ rd _ _ | .movIshift _ sf _ rd _ _ _ | .movRshift _ sf _ rd _ _ _ => sf && rd == 15
  | .bicImm _ sf _ rd _ _ | .bicIshift _ sf _ rd _ _ _ | .bicRshift _ sf _ rd _ _ _ => sf && rd == 15
  | .mvnImm _ sf _ rd _ _ | .mvnIshift _ sf _ rd _ _ _ | .mvnRshift _ sf _ rd _ _ _ => sf && rd == 15
  | _ => false

/-- An instruction of Thumb state: its encoding is a halfword. -/
def Instr.isThumb (i : Instr) : Bool :=
  match encode i with
  | .thumb _ => true
  | .arm _ => false

end Sys2Proof

namespace Sys2Proof.Machine

open Sys2Proof

/-! ### Conditions -/

/-- The condition field of an ARM instruction; none for NV and for the Thumb instructions. -/
def armCond : Instr → Option Cond
  | .nv _ => none
  | .bx c _ => some c
  | .mul c _ _ _ _ _ => some c
  | .mla c _ _ _ _ _ => some c
  | .umull c _ _ _ _ _ => some c
  | .umlal c _ _ _ _ _ => some c
  | .smull c _ _ _ _ _ => some c
  | .smlal c _ _ _ _ _ => some c
  | .swp c _ _ _ => some c
  | .swpb c _ _ _ => some c
  | .strhImm c _ _ _ _ _ _ => some c
  | .strhReg c _ _ _ _ _ _ _ => some c
  | .ldrhImm c _ _ _ _ _ _ => some c
  | .ldrhReg c _ _ _ _ _ _ _ => some c
  | .ldrsbImm c _ _ _ _ _ _ => some c
  | .ldrsbReg c _ _ _ _ _ _ _ => some c
  | .ldrshImm c _ _ _ _ _ _ => some c
  | .ldrshReg c _ _ _ _ _ _ _ => some c
  | .ldrdSpace c _ _ _ _ _ _ _ _ => some c
  | .strdSpace c _ _ _ _ _ _ _ _ => some c
  | .undMulspace c _ => some c
  | .mrs c _ _ => some c
  | .msrReg c _ _ _ => some c
  | .msrImm c _ _ _ _ => some c
  | .undPsrspace c _ => some c
  | .andImm c _ _ _ _ _ => some c
  | .andIshift c _ _ _ _ _ _ => some c
  | .andRshift c _ _ _ _ _ _ => some c
  | .eorImm c _ _ _ _ _ => some c
  | .eorIshift c _ _ _ _ _ _ => some c
  | .eorRshift c _ _ _ _ _ _ => some c
  | .subImm c _ _ _ _ _ => some c
  | .subIshift c _ _ _ _ _ _ => some c
  | .subRshift c _ _ _ _ _ _ => some c
  | .rsbImm c _ _ _ _ _ => some c
  | .rsbIshift c _ _ _ _ _ _ => some c
  | .rsbRshift c _ _ _ _ _ _ => some c
  | .addImm c _ _ _ _ _ => some c
  | .addIshift c _ _ _ _ _ _ => some c
  | .addRshift c _ _ _ _ _ _ => some c
  | .adcImm c _ _ _ _ _ => some c
  | .adcIshift c _ _ _ _ _ _ => some c
  | .adcRshift c _ _ _ _ _ _ => some c
  | .sbcImm c _ _ _ _ _ => some c
  | .sbcIshift c _ _ _ _ _ _ => some c
  | .sbcRshift c _ _ _ _ _ _ => some c
  | .rscImm c _ _ _ _ _ => some c
  | .rscIshift c _ _ _ _ _ _ => some c
  | .rscRshift c _ _ _ _ _ _ => some c
  | .tstImm c _ _ _ _ => some c
  | .tstIshift c _ _ _ _ _ => some c
  | .tstRshift c _ _ _ _ _ => some c
  | .teqImm c _ _ _ _ => some c
  | .teqIshift c _ _ _ _ _ => some c
  | .teqRshift c _ _ _ _ _ => some c
  | .cmpImm c _ _ _ _ => some c
  | .cmpIshift c _ _ _ _ _ => some c
  | .cmpRshift c _ _ _ _ _ => some c
  | .cmnImm c _ _ _ _ => some c
  | .cmnIshift c _ _ _ _ _ => some c
  | .cmnRshift c _ _ _ _ _ => some c
  | .orrImm c _ _ _ _ _ => some c
  | .orrIshift c _ _ _ _ _ _ => some c
  | .orrRshift c _ _ _ _ _ _ => some c
  | .movImm c _ _ _ _ _ => some c
  | .movIshift c _ _ _ _ _ _ => some c
  | .movRshift c _ _ _ _ _ _ => some c
  | .bicImm c _ _ _ _ _ => some c
  | .bicIshift c _ _ _ _ _ _ => some c
  | .bicRshift c _ _ _ _ _ _ => some c
  | .mvnImm c _ _ _ _ _ => some c
  | .mvnIshift c _ _ _ _ _ _ => some c
  | .mvnRshift c _ _ _ _ _ _ => some c
  | .undA15 c _ _ => some c
  | .strImmPre c _ _ _ _ _ => some c
  | .strImmPost c _ _ _ _ => some c
  | .strtImm c _ _ _ _ => some c
  | .strRegPre c _ _ _ _ _ _ _ => some c
  | .strRegPost c _ _ _ _ _ _ => some c
  | .strtReg c _ _ _ _ _ _ => some c
  | .ldrImmPre c _ _ _ _ _ => some c
  | .ldrImmPost c _ _ _ _ => some c
  | .ldrtImm c _ _ _ _ => some c
  | .ldrRegPre c _ _ _ _ _ _ _ => some c
  | .ldrRegPost c _ _ _ _ _ _ => some c
  | .ldrtReg c _ _ _ _ _ _ => some c
  | .strbImmPre c _ _ _ _ _ => some c
  | .strbImmPost c _ _ _ _ => some c
  | .strbtImm c _ _ _ _ => some c
  | .strbRegPre c _ _ _ _ _ _ _ => some c
  | .strbRegPost c _ _ _ _ _ _ => some c
  | .strbtReg c _ _ _ _ _ _ => some c
  | .ldrbImmPre c _ _ _ _ _ => some c
  | .ldrbImmPost c _ _ _ _ => some c
  | .ldrbtImm c _ _ _ _ => some c
  | .ldrbRegPre c _ _ _ _ _ _ _ => some c
  | .ldrbRegPost c _ _ _ _ _ _ => some c
  | .ldrbtReg c _ _ _ _ _ _ => some c
  | .stm c _ _ _ _ _ => some c
  | .stmUser c _ _ _ _ _ => some c
  | .ldm c _ _ _ _ _ => some c
  | .ldmUser c _ _ _ _ _ => some c
  | .ldmRet c _ _ _ _ _ => some c
  | .b c _ => some c
  | .bl c _ => some c
  | .ldcStc c _ _ _ _ _ _ _ _ _ => some c
  | .cdp c _ _ _ _ _ _ => some c
  | .mcrMrc c _ _ _ _ _ _ _ => some c
  | .swi c _ => some c
  | .tLslImm _ _ _ => none
  | .tLsrImm _ _ _ => none
  | .tAsrImm _ _ _ => none
  | .tAddReg _ _ _ => none
  | .tSubReg _ _ _ => none
  | .tAddImm3 _ _ _ => none
  | .tSubImm3 _ _ _ => none
  | .tMovImm _ _ => none
  | .tCmpImm _ _ => none
  | .tAddImm8 _ _ => none
  | .tSubImm8 _ _ => none
  | .tAnd _ _ => none
  | .tEor _ _ => none
  | .tLslReg _ _ => none
  | .tLsrReg _ _ => none
  | .tAsrReg _ _ => none
  | .tAdc _ _ => none
  | .tSbc _ _ => none
  | .tRor _ _ => none
  | .tTst _ _ => none
  | .tNeg _ _ => none
  | .tCmpReg _ _ => none
  | .tCmn _ _ => none
  | .tOrr _ _ => none
  | .tMul _ _ => none
  | .tBic _ _ => none
  | .tMvn _ _ => none
  | .tAddHi _ _ => none
  | .tCmpHi _ _ => none
  | .tMovHi _ _ => none
  | .tBx _ _ => none
  | .tBlxRegSpace _ _ => none
  | .tLdrPc _ _ => none
  | .tStrReg _ _ _ => none
  | .tStrbReg _ _ _ => none
  | .tLdrReg _ _ _ => none
  | .tLdrbReg _ _ _ => none
  | .tStrhReg _ _ _ => none
  | .tLdsb _ _ _ => none
  | .tLdrhReg _ _ _ => none
  | .tLdsh _ _ _ => none
  | .tStrImm _ _ _ => none
  | .tLdrImm _ _ _ => none
  | .tStrbImm _ _ _ => none
  | .tLdrbImm _ _ _ => none
  | .tStrhImm _ _ _ => none
  | .tLdrhImm _ _ _ => none
  | .tStrSp _ _ => none
  | .tLdrSp _ _ => none
  | .tAddPc _ _ => none
  | .tAddSp _ _ => none
  | .tAddSpimm _ => none
  | .tSubSpimm _ => none
  | .tPush _ _ => none
  | .tPop _ _ => none
  | .tUndB _ => none
  | .tStmia _ _ => none
  | .tLdmia _ _ => none
  | .tSwi _ => none
  | .tUndDe _ => none
  | .tBcond _ _ => none
  | .tB _ => none
  | .tUndE8 _ => none
  | .tBlHi _ => none
  | .tBlLo _ => none

/-! ### ARM data processing (40_arm_dataproc) -/

/-- The three operand forms: formats A3, A1 and A2 (30 R301). -/
inductive DpOperand where
  | imm (rot : BitVec 4) (imm8 : BitVec 8)
  | ishift (amt : BitVec 5) (sh : ShiftKind) (rm : Reg)
  | rshift (rs : Reg) (sh : ShiftKind) (rm : Reg)
deriving DecidableEq, Repr

/-- `shifter_operand` and `shifter_carry_out` (R410 to R413): R15 reads as pc + 8, as pc + 12 in format A2. -/
def DpOperand.out (o : DpOperand) (s : State) : ShiftOut :=
  match o with
  | .imm rot imm8 => immOperand s.cpsr.c rot imm8
  | .ishift amt sh rm => shiftImm s.cpsr.c sh (s.reg 8 rm) amt
  | .rshift rs sh rm => shiftReg s.cpsr.c sh (s.reg 12 rm) (shiftAmount (s.reg 12 rs))

/-- The value of Rn (R413). -/
def DpOperand.first (o : DpOperand) (s : State) (rn : Reg) : Word :=
  match o with
  | .imm _ _ | .ishift _ _ _ => s.reg 8 rn
  | .rshift _ _ _ => s.reg 12 rn

/-- The form the spec gives a meaning: a register-specified shift not by R15 (R412). -/
def DpOperand.defined (o : DpOperand) : Prop :=
  match o with
  | .imm _ _ | .ishift _ _ _ => True
  | .rshift rs _ _ => rs ≠ 15

/-- AND, EOR, ORR, BIC, MOV, MVN. -/
inductive LogicOp where
  | and | eor | orr | bic | mov | mvn
deriving DecidableEq, Repr

/-- The result (R420, R421, R432 to R435). -/
def LogicOp.result : LogicOp → Word → Word → Word
  | .and, a, b => a &&& b
  | .eor, a, b => a ^^^ b
  | .orr, a, b => a ||| b
  | .bic, a, b => a &&& ~~~b
  | .mov, _, b => b
  | .mvn, _, b => ~~~b

/-- SUB, RSB, ADD, ADC, SBC, RSC. -/
inductive ArithOp where
  | sub | rsb | add | adc | sbc | rsc
deriving DecidableEq, Repr

/-- The result (R422 to R427), cin the old C. -/
def ArithOp.result : ArithOp → Word → Word → Bool → Word
  | .sub, a, b, _ => a - b
  | .rsb, a, b, _ => b - a
  | .add, a, b, _ => a + b
  | .adc, a, b, cin => a + b + (if cin then 1 else 0)
  | .sbc, a, b, cin => a - b - (if cin then 0 else 1)
  | .rsc, a, b, cin => b - a - (if cin then 0 else 1)

/-- The carry: of an addition, the exact sum reaches 2^32; of a subtraction, no borrow occurs (00_scope R14). -/
def ArithOp.carry : ArithOp → Word → Word → Bool → Prop
  | .sub, a, b, _ => b.toNat ≤ a.toNat
  | .rsb, a, b, _ => a.toNat ≤ b.toNat
  | .add, a, b, _ => 2 ^ 32 ≤ a.toNat + b.toNat
  | .adc, a, b, cin => 2 ^ 32 ≤ a.toNat + b.toNat + cin.toNat
  | .sbc, a, b, cin => b.toNat + (!cin).toNat ≤ a.toNat
  | .rsc, a, b, cin => a.toNat + (!cin).toNat ≤ b.toNat

/-- The exact signed result (00_scope R14). -/
def ArithOp.exact : ArithOp → Word → Word → Bool → Int
  | .sub, a, b, _ => a.toInt - b.toInt
  | .rsb, a, b, _ => b.toInt - a.toInt
  | .add, a, b, _ => a.toInt + b.toInt
  | .adc, a, b, cin => a.toInt + b.toInt + cin.toNat
  | .sbc, a, b, cin => a.toInt - b.toInt - (!cin).toNat
  | .rsc, a, b, cin => b.toInt - a.toInt - (!cin).toNat

/-- An exact result outside the signed 32-bit range: the V flag (00_scope R14). -/
def Overflows (x : Int) : Prop := x < -2 ^ 31 ∨ 2 ^ 31 ≤ x

/-- TST, TEQ, CMP, CMN. -/
inductive CompareOp where
  | tst | teq | cmp | cmn
deriving DecidableEq, Repr

/-- N and Z of a result (40 R414). -/
def NzOf (p : Cpsr) (r : Word) : Prop := (p.n = true ↔ r.toInt < 0) ∧ (p.z = true ↔ r = 0)

/-- The flags of a logical result: C from the shifter, V as before (R414). -/
def LogicFlags (old new : Cpsr) (r : Word) (shifterCarry : Bool) : Prop :=
  NzOf new r ∧ new.c = shifterCarry ∧ new.v = old.v

/-- The flags of an arithmetic result (R414). -/
def ArithFlags (op : ArithOp) (new : Cpsr) (a b : Word) (cin : Bool) : Prop :=
  NzOf new (op.result a b cin) ∧ (new.c = true ↔ op.carry a b cin) ∧ (new.v = true ↔ Overflows (op.exact a b cin))

/-- The instruction of an operation and an operand form. -/
def LogicOp.instr (op : LogicOp) (o : DpOperand) (c : Cond) (sf : Bool) (rn rd : Reg) : Instr :=
  match op, o with
  | .and, .imm rot imm8 => .andImm c sf rn rd rot imm8
  | .and, .ishift amt sh rm => .andIshift c sf rn rd amt sh rm
  | .and, .rshift rs sh rm => .andRshift c sf rn rd rs sh rm
  | .eor, .imm rot imm8 => .eorImm c sf rn rd rot imm8
  | .eor, .ishift amt sh rm => .eorIshift c sf rn rd amt sh rm
  | .eor, .rshift rs sh rm => .eorRshift c sf rn rd rs sh rm
  | .orr, .imm rot imm8 => .orrImm c sf rn rd rot imm8
  | .orr, .ishift amt sh rm => .orrIshift c sf rn rd amt sh rm
  | .orr, .rshift rs sh rm => .orrRshift c sf rn rd rs sh rm
  | .bic, .imm rot imm8 => .bicImm c sf rn rd rot imm8
  | .bic, .ishift amt sh rm => .bicIshift c sf rn rd amt sh rm
  | .bic, .rshift rs sh rm => .bicRshift c sf rn rd rs sh rm
  | .mov, .imm rot imm8 => .movImm c sf rn rd rot imm8
  | .mov, .ishift amt sh rm => .movIshift c sf rn rd amt sh rm
  | .mov, .rshift rs sh rm => .movRshift c sf rn rd rs sh rm
  | .mvn, .imm rot imm8 => .mvnImm c sf rn rd rot imm8
  | .mvn, .ishift amt sh rm => .mvnIshift c sf rn rd amt sh rm
  | .mvn, .rshift rs sh rm => .mvnRshift c sf rn rd rs sh rm

/-- The instruction of an operation and an operand form. -/
def ArithOp.instr (op : ArithOp) (o : DpOperand) (c : Cond) (sf : Bool) (rn rd : Reg) : Instr :=
  match op, o with
  | .sub, .imm rot imm8 => .subImm c sf rn rd rot imm8
  | .sub, .ishift amt sh rm => .subIshift c sf rn rd amt sh rm
  | .sub, .rshift rs sh rm => .subRshift c sf rn rd rs sh rm
  | .rsb, .imm rot imm8 => .rsbImm c sf rn rd rot imm8
  | .rsb, .ishift amt sh rm => .rsbIshift c sf rn rd amt sh rm
  | .rsb, .rshift rs sh rm => .rsbRshift c sf rn rd rs sh rm
  | .add, .imm rot imm8 => .addImm c sf rn rd rot imm8
  | .add, .ishift amt sh rm => .addIshift c sf rn rd amt sh rm
  | .add, .rshift rs sh rm => .addRshift c sf rn rd rs sh rm
  | .adc, .imm rot imm8 => .adcImm c sf rn rd rot imm8
  | .adc, .ishift amt sh rm => .adcIshift c sf rn rd amt sh rm
  | .adc, .rshift rs sh rm => .adcRshift c sf rn rd rs sh rm
  | .sbc, .imm rot imm8 => .sbcImm c sf rn rd rot imm8
  | .sbc, .ishift amt sh rm => .sbcIshift c sf rn rd amt sh rm
  | .sbc, .rshift rs sh rm => .sbcRshift c sf rn rd rs sh rm
  | .rsc, .imm rot imm8 => .rscImm c sf rn rd rot imm8
  | .rsc, .ishift amt sh rm => .rscIshift c sf rn rd amt sh rm
  | .rsc, .rshift rs sh rm => .rscRshift c sf rn rd rs sh rm

/-- The instruction of an operation and an operand form. -/
def CompareOp.instr (op : CompareOp) (o : DpOperand) (c : Cond) (rn rd : Reg) : Instr :=
  match op, o with
  | .tst, .imm rot imm8 => .tstImm c rn rd rot imm8
  | .tst, .ishift amt sh rm => .tstIshift c rn rd amt sh rm
  | .tst, .rshift rs sh rm => .tstRshift c rn rd rs sh rm
  | .teq, .imm rot imm8 => .teqImm c rn rd rot imm8
  | .teq, .ishift amt sh rm => .teqIshift c rn rd amt sh rm
  | .teq, .rshift rs sh rm => .teqRshift c rn rd rs sh rm
  | .cmp, .imm rot imm8 => .cmpImm c rn rd rot imm8
  | .cmp, .ishift amt sh rm => .cmpIshift c rn rd amt sh rm
  | .cmp, .rshift rs sh rm => .cmpRshift c rn rd rs sh rm
  | .cmn, .imm rot imm8 => .cmnImm c rn rd rot imm8
  | .cmn, .ishift amt sh rm => .cmnIshift c rn rd amt sh rm
  | .cmn, .rshift rs sh rm => .cmnRshift c rn rd rs sh rm

/-- One of the twelve operations that write Rd, with its result. -/
inductive WriteOp where
  | logic (op : LogicOp)
  | arith (op : ArithOp)
deriving DecidableEq, Repr

def WriteOp.instr (op : WriteOp) (o : DpOperand) (c : Cond) (sf : Bool) (rn rd : Reg) : Instr :=
  match op with
  | .logic l => l.instr o c sf rn rd
  | .arith l => l.instr o c sf rn rd

/-- The result of an operation in a state (R420 to R427, R432 to R435). -/
def WriteOp.result (op : WriteOp) (o : DpOperand) (s : State) (rn : Reg) : Word :=
  match op with
  | .logic l => l.result (o.first s rn) (o.out s).value
  | .arith l => l.result (o.first s rn) (o.out s).value s.cpsr.c

/-! ### ARM single transfers (42_arm_loadstore) -/

/-- The offset of formats A13 and A14. -/
inductive XferOffset where
  | imm (imm12 : BitVec 12)
  | reg (amt : BitVec 5) (sh : ShiftKind) (rm : Reg)
deriving DecidableEq, Repr

/-- The value of an offset (R600). -/
def XferOffset.value (o : XferOffset) (s : State) : Word :=
  match o with
  | .imm imm12 => imm12.setWidth 32
  | .reg amt sh rm => (shiftImm s.cpsr.c sh (s.reg 8 rm) amt).value

/-- Pre-indexed or offset with the W bit, post-indexed, and the T forms (R600, R605). -/
inductive XferForm where
  | pre (w : Bool)
  | post
  | user
deriving DecidableEq, Repr

/-- The form writes the base back (R600). -/
def XferForm.writesBase : XferForm → Bool
  | .pre w => w
  | .post | .user => true

/-- `t` of R600: the base plus or minus the offset. -/
def indexedAddr (s : State) (u : Bool) (rn : Reg) (offset : Word) : Word :=
  if u then s.reg 8 rn + offset else s.reg 8 rn - offset

/-- The address of the access (R600). -/
def XferForm.addr (f : XferForm) (s : State) (u : Bool) (rn : Reg) (offset : Word) : Word :=
  match f with
  | .pre _ => indexedAddr s u rn offset
  | .post | .user => s.reg 8 rn

/-- The register fields to which R600 gives a meaning. -/
def XferForm.defined (f : XferForm) (o : XferOffset) (rn : Reg) : Prop :=
  (f.writesBase = true → rn ≠ 15) ∧
    match o with
    | .imm _ => True
    | .reg _ _ rm => rm ≠ 15 ∧ (f.writesBase = true → rm ≠ rn)

/-- The twelve word and byte loads. -/
def loadInstr (byte : Bool) (f : XferForm) (o : XferOffset) (c : Cond) (u : Bool) (rn rd : Reg) : Instr :=
  match byte, f, o with
  | false, .pre w, .imm i => .ldrImmPre c u w rn rd i
  | false, .pre w, .reg amt sh rm => .ldrRegPre c u w rn rd amt sh rm
  | false, .post, .imm i => .ldrImmPost c u rn rd i
  | false, .post, .reg amt sh rm => .ldrRegPost c u rn rd amt sh rm
  | false, .user, .imm i => .ldrtImm c u rn rd i
  | false, .user, .reg amt sh rm => .ldrtReg c u rn rd amt sh rm
  | true, .pre w, .imm i => .ldrbImmPre c u w rn rd i
  | true, .pre w, .reg amt sh rm => .ldrbRegPre c u w rn rd amt sh rm
  | true, .post, .imm i => .ldrbImmPost c u rn rd i
  | true, .post, .reg amt sh rm => .ldrbRegPost c u rn rd amt sh rm
  | true, .user, .imm i => .ldrbtImm c u rn rd i
  | true, .user, .reg amt sh rm => .ldrbtReg c u rn rd amt sh rm

/-- The twelve word and byte stores. -/
def storeInstr (byte : Bool) (f : XferForm) (o : XferOffset) (c : Cond) (u : Bool) (rn rd : Reg) : Instr :=
  match byte, f, o with
  | false, .pre w, .imm i => .strImmPre c u w rn rd i
  | false, .pre w, .reg amt sh rm => .strRegPre c u w rn rd amt sh rm
  | false, .post, .imm i => .strImmPost c u rn rd i
  | false, .post, .reg amt sh rm => .strRegPost c u rn rd amt sh rm
  | false, .user, .imm i => .strtImm c u rn rd i
  | false, .user, .reg amt sh rm => .strtReg c u rn rd amt sh rm
  | true, .pre w, .imm i => .strbImmPre c u w rn rd i
  | true, .pre w, .reg amt sh rm => .strbRegPre c u w rn rd amt sh rm
  | true, .post, .imm i => .strbImmPost c u rn rd i
  | true, .post, .reg amt sh rm => .strbRegPost c u rn rd amt sh rm
  | true, .user, .imm i => .strbtImm c u rn rd i
  | true, .user, .reg amt sh rm => .strbtReg c u rn rd amt sh rm

/-- The offset of formats A12 and A11. -/
inductive HalfOffset where
  | imm (imm8 : BitVec 8)
  | reg (sbz : BitVec 4) (rm : Reg)
deriving DecidableEq, Repr

/-- The value of an offset (R604). -/
def HalfOffset.value (o : HalfOffset) (s : State) : Word :=
  match o with
  | .imm imm8 => imm8.setWidth 32
  | .reg _ rm => s.reg 8 rm

/-- The form of the P and W bits; P = 0 is post-indexed (R604). -/
def halfForm (p w : Bool) : XferForm := if p then .pre w else .post

/-- The fields to which 30 R312 and R604 give a meaning. -/
def HalfOffset.defined (o : HalfOffset) (p w : Bool) (rn : Reg) : Prop :=
  (p = false → w = false) ∧ ((halfForm p w).writesBase = true → rn ≠ 15) ∧
    match o with
    | .imm _ => True
    | .reg sbz rm => sbz = 0 ∧ rm ≠ 15 ∧ ((halfForm p w).writesBase = true → rm ≠ rn)

/-- LDRH, LDRSB, LDRSH. -/
inductive HalfKind where
  | half | signedByte | signedHalf
deriving DecidableEq, Repr

/-- The kind of access. -/
def HalfKind.load : HalfKind → LoadKind
  | .half => .half | .signedByte => .signedByte | .signedHalf => .signedHalf

/-- The six halfword and signed loads. -/
def HalfKind.instr (k : HalfKind) (o : HalfOffset) (c : Cond) (p u w : Bool) (rn rd : Reg) : Instr :=
  match k, o with
  | .half, .imm i => .ldrhImm c p u w rn rd i
  | .half, .reg sbz rm => .ldrhReg c p u w rn rd sbz rm
  | .signedByte, .imm i => .ldrsbImm c p u w rn rd i
  | .signedByte, .reg sbz rm => .ldrsbReg c p u w rn rd sbz rm
  | .signedHalf, .imm i => .ldrshImm c p u w rn rd i
  | .signedHalf, .reg sbz rm => .ldrshReg c p u w rn rd sbz rm

/-- The two halfword stores. -/
def strhInstr (o : HalfOffset) (c : Cond) (p u w : Bool) (rn rd : Reg) : Instr :=
  match o with
  | .imm i => .strhImm c p u w rn rd i
  | .reg sbz rm => .strhReg c p u w rn rd sbz rm

/-- The store leaves what `MemWrite` leaves in memory, the I/O registers and the halt state. -/
def Wrote (s t : State) (a : Word) (w : Width) (v : Word) : Prop :=
  t.mem = (s.memWrite a w v).mem ∧ t.io = (s.memWrite a w v).io ∧ t.halt = (s.memWrite a w v).halt

/-! ### Block transfers (42 R630 to R644, 45 R929 to R933) -/

/-- The place of register r among the registers of a list: how many lower ones there are. -/
def rankIn (list : BitVec 16) (r : Reg) : Nat := (List.range r.toNat).countP fun k => list.getLsbD k

/-- How many registers a list names. -/
def listCount (list : BitVec 16) : Nat := (List.range 16).countP fun k => list.getLsbD k

/-- The start address of R630 for n registers from base b. -/
def blockBaseAddr (p u : Bool) (b : Word) (n : Nat) : Word :=
  if u then (if p then b + 4 else b)
  else if p then b - BitVec.ofNat 32 (4 * n) else b - BitVec.ofNat 32 (4 * n) + 4

/-- The slot of register r of a list (R630): bits 1:0 of the address are not used (20 R217). -/
def slotOf (p u : Bool) (b : Word) (list : BitVec 16) (r : Reg) : Word :=
  (blockBaseAddr p u b (listCount list) + BitVec.ofNat 32 (4 * rankIn list r)) &&& 0xFFFFFFFC

/-- The base after writeback (R630). -/
def blockBack (u : Bool) (b : Word) (n : Nat) : Word :=
  if u then b + BitVec.ofNat 32 (4 * n) else b - BitVec.ofNat 32 (4 * n)

/-- The words of a block store: each register's slot and its value, lowest register first. -/
def blockWords (slot : Reg → Word) (value : Reg → Word) (list : BitVec 16) : List (Word × Word) :=
  (([0, 1, 2, 3, 4, 5, 6, 7, 8, 9, 10, 11, 12, 13, 14, 15] : List Reg).filter fun r => list.getLsbD r.toNat).map
    fun r => (slot r, value r)

/-- The words written one after the other. -/
def writeAll (s : State) (ws : List (Word × Word)) : State := ws.foldl (fun t x => t.memWrite x.1 .word x.2) s

/-- The places of the words. -/
def wordPlaces (romLen : Nat) (ws : List (Word × Word)) : List (Region × Nat) :=
  ws.flatMap fun x => storePlaces romLen .word x.1

/-- No word is turned away by IO_DEVICE_POLICY = refuse (10_state R126). -/
def Accepted (s : State) (ws : List (Word × Word)) : Prop := ∀ x ∈ ws, s.refusesWrite x.1 .word = false

/-- Memory, the I/O registers and the halt state are what the words written leave. -/
def WroteAll (s t : State) (ws : List (Word × Word)) : Prop :=
  t.mem = (writeAll s ws).mem ∧ t.io = (writeAll s ws).io ∧ t.halt = (writeAll s ws).halt

/-- The physical registers a list names in the view of a mode, R15 left out. -/
def listRegs (m : Mode) (list : BitVec 16) : List (Fin 30) :=
  (([0, 1, 2, 3, 4, 5, 6, 7, 8, 9, 10, 11, 12, 13, 14] : List Reg).filter fun r => list.getLsbD r.toNat).map (physReg m)

/-! ### Exceptions (60_exceptions R1200, R1201) -/

/-- What taking an exception leaves: link in R14 and the old CPSR in the SPSR of the kind's mode, that mode with T = 0 and
I = 1, F = 1 for Reset and FIQ, NZCV as before, the pc at the vector, and nothing else changed. -/
def TookException (s t : State) (mode : Mode) (setsF : Bool) (vector link : Word) : Prop :=
  t.peek (physReg mode 14) = link ∧ (∃ k, mode.spsrIndex = some k ∧ t.spsr = s.spsr.set k s.cpsr.toPsr) ∧
    t.cpsr = { s.cpsr with mode := mode, t := false, i := true, f := s.cpsr.f || setsF } ∧ t.pc = vector ∧
    SameRegsBut [physReg mode 14] s t ∧ SameMemory s t ∧ SameIo s t ∧ SameOutside s t

/-! ### Memory (20_memory) and the I/O registers (10_state) -/

/-- Where an address of EWRAM, IWRAM, palette RAM, VRAM or OAM stands: the number of its region and the offset in it, in exact
arithmetic, mirrors and the upper quarter of VRAM folded (R203). -/
def storagePlace (a : Word) : Option (Nat × Nat) :=
  let n := a.toNat
  match n / 0x1000000 with
  | 2 => some (2, n % 0x40000)
  | 3 => some (3, n % 0x8000)
  | 5 => some (5, n % 0x400)
  | 6 => some (6, if 0x18000 ≤ n % 0x20000 then n % 0x20000 - 0x8000 else n % 0x20000)
  | 7 => some (7, n % 0x400)
  | _ => none

/-- The I/O offsets of the register table of R127; every other offset below 0x400 is a plain cell (R126). -/
def inRegisterTable (o : Nat) : Prop :=
  o < 2 ∨ (4 ≤ o ∧ o < 0x40) ∨ (0x4C ≤ o ∧ o < 0x4E) ∨ (0x130 ≤ o ∧ o < 0x134) ∨ (0x200 ≤ o ∧ o < 0x204) ∨
    (0x208 ≤ o ∧ o < 0x20C) ∨ (0x300 ≤ o ∧ o < 0x302)

/-- The low halfword of x replaced by that of v (R124: each half may be written separately). -/
def withLow (x v : Word) : Word := (x &&& 0xFFFF0000) ||| (v &&& 0x0000FFFF)

/-- The high halfword of x replaced by the low one of v. -/
def withHigh (x v : Word) : Word := (x &&& 0x0000FFFF) ||| (v <<< 16)

/-! ### Layers of the PPU (47_ppu_render), in exact arithmetic on the words of the registers -/

/-- The number in bits lo + n - 1 down to lo of v. -/
def bitsOf (v lo n : Nat) : Nat := v / 2 ^ lo % 2 ^ n

/-- A VRAM byte of the tile modes: 0 at and past offset 0x10000 (R1123). -/
def tileVram (s : State) (o : Nat) : Nat :=
  if 0x10000 ≤ o then 0 else (s.readByte .ppu (BitVec.ofNat 32 (0x06000000 + o))).toNat

/-- The halfword at an address as the PPU reads it, little-endian. -/
def ppuHalf (s : State) (a : Nat) : Half :=
  BitVec.ofNat 16 ((s.readByte .ppu (BitVec.ofNat 32 a)).toNat + 0x100 * (s.readByte .ppu (BitVec.ofNat 32 (a + 1))).toNat)

/-- The colour of index i of the palette entries from bank on; index 0 is transparent (R1122, R1160). -/
def paletteColour (s : State) (bank i : Nat) : Option Half :=
  if i = 0 then none else some (ppuHalf s (0x05000000 + 2 * (bank + i)))

/-- A screen coordinate after mosaic, by the field of MOSAIC from bit lo on (R1150). -/
def mosaicCoord (s : State) (cnt lo x : Nat) : Nat :=
  if bitsOf cnt 6 1 = 1 then x - x % (bitsOf s.io.mosaic.toNat lo 4 + 1) else x

/-- The pixel of text background n at the screen pixel (x, y) after mosaic (R1120 to R1123). -/
def textLayer (s : State) (n : Fin 4) (x y : Nat) : Option Half :=
  let cnt := s.io.bg[n].cnt.toNat
  let w := if bitsOf cnt 14 1 = 1 then 512 else 256
  let h := if bitsOf cnt 15 1 = 1 then 512 else 256
  let tx := (x + bitsOf s.io.bg[n].hofs.toNat 0 9) % w
  let ty := (y + bitsOf s.io.bg[n].vofs.toNat 0 9) % h
  let block := tx / 256 + ty / 256 * (w / 256)
  let at0 := bitsOf cnt 8 5 * 0x800 + block * 0x800 + ty % 256 / 8 * 64 + tx % 256 / 8 * 2
  let e := tileVram s at0 + 0x100 * tileVram s (at0 + 1)
  let px := if bitsOf e 10 1 = 1 then 7 - tx % 8 else tx % 8
  let py := if bitsOf e 11 1 = 1 then 7 - ty % 8 else ty % 8
  let tiles := bitsOf cnt 2 2 * 0x4000
  if bitsOf cnt 7 1 = 1 then paletteColour s 0 (tileVram s (tiles + bitsOf e 0 10 * 64 + py * 8 + px))
  else
    let b := tileVram s (tiles + bitsOf e 0 10 * 32 + py * 4 + px / 2)
    paletteColour s (16 * bitsOf e 12 4) (if px % 2 = 0 then bitsOf b 0 4 else bitsOf b 4 4)

/-- A coordinate of an affine map: the reference point, a signed number of 28 bits, plus p x + q y with signed p and q, and
the 8 fraction bits dropped (R1130). -/
def affineMapCoord (ref : Word) (p q : Half) (x y : Nat) : Int :=
  (Int.bmod ref.toNat (2 ^ 28) + p.toInt * x + q.toInt * y) / 256

/-- The pixel of affine background n, with the registers g, at the screen pixel (x, y) after mosaic (R1130, R1123). -/
def affineLayer (s : State) (n : Fin 4) (g : Affine) (x y : Nat) : Option Half :=
  let cnt := s.io.bg[n].cnt.toNat
  let size := 128 * 2 ^ bitsOf cnt 14 2
  let tx := affineMapCoord g.x g.pa g.pb x y
  let ty := affineMapCoord g.y g.pc g.pd x y
  let pixel := fun (tx ty : Nat) =>
    let t := tileVram s (bitsOf cnt 8 5 * 0x800 + ty / 8 * (size / 8) + tx / 8)
    paletteColour s 0 (tileVram s (bitsOf cnt 2 2 * 0x4000 + t * 64 + ty % 8 * 8 + tx % 8))
  if bitsOf cnt 13 1 = 1 then pixel (tx % size).toNat (ty % size).toNat
  else if 0 ≤ tx ∧ tx < size ∧ 0 ≤ ty ∧ ty < size then pixel tx.toNat ty.toNat
  else none

/-- The pixel of the bitmap of a mode at the screen pixel (x, y) after mosaic (R1140). -/
def bitmapLayer (s : State) (mode x y : Nat) : Option Half :=
  let frame := 0xA000 * bitsOf s.io.dispcnt.toNat 4 1
  if mode = 3 then some (ppuHalf s (0x06000000 + 2 * (240 * y + x)))
  else if mode = 4 then
    paletteColour s 0 (s.readByte .ppu (BitVec.ofNat 32 (0x06000000 + frame + 240 * y + x))).toNat
  else if x < 160 ∧ y < 128 then some (ppuHalf s (0x06000000 + frame + 2 * (160 * y + x)))
  else none

/-! ### Thumb (44_thumb_alu, 45_thumb_loadstore) -/

/-- The Thumb instructions that add or subtract into a low register. -/
inductive ThumbArith where
  | addReg (rn rs rd : LoReg) | subReg (rn rs rd : LoReg) | addImm3 (imm3 : BitVec 3) (rs rd : LoReg)
  | subImm3 (imm3 : BitVec 3) (rs rd : LoReg) | addImm8 (rd : LoReg) (imm8 : BitVec 8)
  | subImm8 (rd : LoReg) (imm8 : BitVec 8) | adc (rs rd : LoReg) | sbc (rs rd : LoReg) | neg (rs rd : LoReg)
deriving DecidableEq, Repr

def ThumbArith.instr : ThumbArith → Instr
  | .addReg rn rs rd => .tAddReg rn rs rd
  | .subReg rn rs rd => .tSubReg rn rs rd
  | .addImm3 imm3 rs rd => .tAddImm3 imm3 rs rd
  | .subImm3 imm3 rs rd => .tSubImm3 imm3 rs rd
  | .addImm8 rd imm8 => .tAddImm8 rd imm8
  | .subImm8 rd imm8 => .tSubImm8 rd imm8
  | .adc rs rd => .tAdc rs rd
  | .sbc rs rd => .tSbc rs rd
  | .neg rs rd => .tNeg rs rd

/-- The destination, the operation and the two operands (R803 to R806, R809, R810, R825, R826, R829). -/
def ThumbArith.parts (i : ThumbArith) (s : State) : LoReg × ArithOp × Word × Word :=
  match i with
  | .addReg rn rs rd => (rd, .add, s.reg 4 (lo rs), s.reg 4 (lo rn))
  | .subReg rn rs rd => (rd, .sub, s.reg 4 (lo rs), s.reg 4 (lo rn))
  | .addImm3 imm3 rs rd => (rd, .add, s.reg 4 (lo rs), imm3.setWidth 32)
  | .subImm3 imm3 rs rd => (rd, .sub, s.reg 4 (lo rs), imm3.setWidth 32)
  | .addImm8 rd imm8 => (rd, .add, s.reg 4 (lo rd), imm8.setWidth 32)
  | .subImm8 rd imm8 => (rd, .sub, s.reg 4 (lo rd), imm8.setWidth 32)
  | .adc rs rd => (rd, .adc, s.reg 4 (lo rd), s.reg 4 (lo rs))
  | .sbc rs rd => (rd, .sbc, s.reg 4 (lo rd), s.reg 4 (lo rs))
  | .neg rs rd => (rd, .sub, 0, s.reg 4 (lo rs))

/-- The Thumb logical instructions and shifts into a low register. -/
inductive ThumbLogic where
  | movImm (rd : LoReg) (imm8 : BitVec 8) | and (rs rd : LoReg) | eor (rs rd : LoReg) | orr (rs rd : LoReg)
  | bic (rs rd : LoReg) | mvn (rs rd : LoReg) | lslImm (offset5 : BitVec 5) (rs rd : LoReg)
  | lsrImm (offset5 : BitVec 5) (rs rd : LoReg) | asrImm (offset5 : BitVec 5) (rs rd : LoReg) | lslReg (rs rd : LoReg)
  | lsrReg (rs rd : LoReg) | asrReg (rs rd : LoReg) | ror (rs rd : LoReg)
deriving DecidableEq, Repr

def ThumbLogic.instr : ThumbLogic → Instr
  | .movImm rd imm8 => .tMovImm rd imm8
  | .and rs rd => .tAnd rs rd
  | .eor rs rd => .tEor rs rd
  | .orr rs rd => .tOrr rs rd
  | .bic rs rd => .tBic rs rd
  | .mvn rs rd => .tMvn rs rd
  | .lslImm offset5 rs rd => .tLslImm offset5 rs rd
  | .lsrImm offset5 rs rd => .tLsrImm offset5 rs rd
  | .asrImm offset5 rs rd => .tAsrImm offset5 rs rd
  | .lslReg rs rd => .tLslReg rs rd
  | .lsrReg rs rd => .tLsrReg rs rd
  | .asrReg rs rd => .tAsrReg rs rd
  | .ror rs rd => .tRor rs rd

/-- The destination, the result and the carry (R800 to R802, R807, R812, R820 to R824, R827, R832, R834, R835): a logical
result keeps C. -/
def ThumbLogic.parts (i : ThumbLogic) (s : State) : LoReg × ShiftOut :=
  match i with
  | .movImm rd imm8 => (rd, ⟨imm8.setWidth 32, s.cpsr.c⟩)
  | .and rs rd => (rd, ⟨s.reg 4 (lo rd) &&& s.reg 4 (lo rs), s.cpsr.c⟩)
  | .eor rs rd => (rd, ⟨s.reg 4 (lo rd) ^^^ s.reg 4 (lo rs), s.cpsr.c⟩)
  | .orr rs rd => (rd, ⟨s.reg 4 (lo rd) ||| s.reg 4 (lo rs), s.cpsr.c⟩)
  | .bic rs rd => (rd, ⟨s.reg 4 (lo rd) &&& ~~~(s.reg 4 (lo rs)), s.cpsr.c⟩)
  | .mvn rs rd => (rd, ⟨~~~(s.reg 4 (lo rs)), s.cpsr.c⟩)
  | .lslImm offset5 rs rd => (rd, shiftImm s.cpsr.c .lsl (s.reg 4 (lo rs)) offset5)
  | .lsrImm offset5 rs rd => (rd, shiftImm s.cpsr.c .lsr (s.reg 4 (lo rs)) offset5)
  | .asrImm offset5 rs rd => (rd, shiftImm s.cpsr.c .asr (s.reg 4 (lo rs)) offset5)
  | .lslReg rs rd => (rd, shiftReg s.cpsr.c .lsl (s.reg 4 (lo rd)) (shiftAmount (s.reg 4 (lo rs))))
  | .lsrReg rs rd => (rd, shiftReg s.cpsr.c .lsr (s.reg 4 (lo rd)) (shiftAmount (s.reg 4 (lo rs))))
  | .asrReg rs rd => (rd, shiftReg s.cpsr.c .asr (s.reg 4 (lo rd)) (shiftAmount (s.reg 4 (lo rs))))
  | .ror rs rd => (rd, shiftReg s.cpsr.c .ror (s.reg 4 (lo rd)) (shiftAmount (s.reg 4 (lo rs))))

/-- The loads of formats T6 to T11. -/
inductive ThumbLoad where
  | ldrPc (rd : LoReg) (word8 : BitVec 8) | ldrReg (ro rb rd : LoReg) | ldrbReg (ro rb rd : LoReg) | ldsb (ro rb rd : LoReg)
  | ldrhReg (ro rb rd : LoReg) | ldsh (ro rb rd : LoReg) | ldrImm (offset5 : BitVec 5) (rb rd : LoReg)
  | ldrbImm (offset5 : BitVec 5) (rb rd : LoReg) | ldrhImm (offset5 : BitVec 5) (rb rd : LoReg)
  | ldrSp (rd : LoReg) (word8 : BitVec 8)
deriving DecidableEq, Repr

def ThumbLoad.instr : ThumbLoad → Instr
  | .ldrPc rd word8 => .tLdrPc rd word8
  | .ldrReg ro rb rd => .tLdrReg ro rb rd
  | .ldrbReg ro rb rd => .tLdrbReg ro rb rd
  | .ldsb ro rb rd => .tLdsb ro rb rd
  | .ldrhReg ro rb rd => .tLdrhReg ro rb rd
  | .ldsh ro rb rd => .tLdsh ro rb rd
  | .ldrImm offset5 rb rd => .tLdrImm offset5 rb rd
  | .ldrbImm offset5 rb rd => .tLdrbImm offset5 rb rd
  | .ldrhImm offset5 rb rd => .tLdrhImm offset5 rb rd
  | .ldrSp rd word8 => .tLdrSp rd word8

/-- The destination, the kind of access and the address (R900, R903, R904, R906 to R908, R911, R913, R915, R917). -/
def ThumbLoad.parts (i : ThumbLoad) (s : State) : LoReg × LoadKind × Word :=
  match i with
  | .ldrPc rd word8 => (rd, .word, ((s.pc + 4) &&& 0xFFFFFFFC) + word8.setWidth 32 * 4)
  | .ldrReg ro rb rd => (rd, .word, s.reg 4 (lo rb) + s.reg 4 (lo ro))
  | .ldrbReg ro rb rd => (rd, .byte, s.reg 4 (lo rb) + s.reg 4 (lo ro))
  | .ldsb ro rb rd => (rd, .signedByte, s.reg 4 (lo rb) + s.reg 4 (lo ro))
  | .ldrhReg ro rb rd => (rd, .half, s.reg 4 (lo rb) + s.reg 4 (lo ro))
  | .ldsh ro rb rd => (rd, .signedHalf, s.reg 4 (lo rb) + s.reg 4 (lo ro))
  | .ldrImm offset5 rb rd => (rd, .word, s.reg 4 (lo rb) + offset5.setWidth 32 * 4)
  | .ldrbImm offset5 rb rd => (rd, .byte, s.reg 4 (lo rb) + offset5.setWidth 32)
  | .ldrhImm offset5 rb rd => (rd, .half, s.reg 4 (lo rb) + offset5.setWidth 32 * 2)
  | .ldrSp rd word8 => (rd, .word, s.reg 4 13 + word8.setWidth 32 * 4)

/-- The stores of formats T7 to T11. -/
inductive ThumbStore where
  | strReg (ro rb rd : LoReg) | strbReg (ro rb rd : LoReg) | strhReg (ro rb rd : LoReg)
  | strImm (offset5 : BitVec 5) (rb rd : LoReg) | strbImm (offset5 : BitVec 5) (rb rd : LoReg)
  | strhImm (offset5 : BitVec 5) (rb rd : LoReg) | strSp (rd : LoReg) (word8 : BitVec 8)
deriving DecidableEq, Repr

def ThumbStore.instr : ThumbStore → Instr
  | .strReg ro rb rd => .tStrReg ro rb rd
  | .strbReg ro rb rd => .tStrbReg ro rb rd
  | .strhReg ro rb rd => .tStrhReg ro rb rd
  | .strImm offset5 rb rd => .tStrImm offset5 rb rd
  | .strbImm offset5 rb rd => .tStrbImm offset5 rb rd
  | .strhImm offset5 rb rd => .tStrhImm offset5 rb rd
  | .strSp rd word8 => .tStrSp rd word8

/-- The source, the width and the address, aligned down (R901, R902, R905, R910, R912, R914, R916; 20 R217). -/
def ThumbStore.parts (i : ThumbStore) (s : State) : LoReg × Width × Word :=
  match i with
  | .strReg ro rb rd => (rd, .word, (s.reg 4 (lo rb) + s.reg 4 (lo ro)) &&& 0xFFFFFFFC)
  | .strbReg ro rb rd => (rd, .byte, s.reg 4 (lo rb) + s.reg 4 (lo ro))
  | .strhReg ro rb rd => (rd, .half, (s.reg 4 (lo rb) + s.reg 4 (lo ro)) &&& 0xFFFFFFFE)
  | .strImm offset5 rb rd => (rd, .word, (s.reg 4 (lo rb) + offset5.setWidth 32 * 4) &&& 0xFFFFFFFC)
  | .strbImm offset5 rb rd => (rd, .byte, s.reg 4 (lo rb) + offset5.setWidth 32)
  | .strhImm offset5 rb rd => (rd, .half, (s.reg 4 (lo rb) + offset5.setWidth 32 * 2) &&& 0xFFFFFFFE)
  | .strSp rd word8 => (rd, .word, (s.reg 4 13 + word8.setWidth 32 * 4) &&& 0xFFFFFFFC)

end Sys2Proof.Machine
end

