-- ==== Sys2Proof/Certificates/Slice0/Obligations.lean ====
section
/-! DEFINITION. The statements for the provers. `OBLIGATIONS.json` gives each its title, the rules it states and their words. -/

open Sys2Proof Sys2Proof.Machine

/-! ### Encoding -/

/-- Decoding the encoding of a well-formed instruction gives it back, with every field (30 R301, R311, R320, R330). -/
def Obligations.DecodeOfEncode : Prop := ∀ i : Instr, i.wellFormed = true → decode (encode i) = i

/-- Every ARM word and every Thumb halfword decodes to a well-formed instruction: the decoder is total (30 R311, R330). Encoding
that instruction gives the bits back; this clause is the model's choice, since the fields that R313 and R331 ignore stay
operands of the instruction (log 11). -/
def Obligations.EncodeOfDecode : Prop := ∀ c : Code, (decode c).wellFormed = true ∧ encode (decode c) = c

/-- Words written out from the spec's encodings: ADDS R0, R1, R2; MOVEQ R0, #1; LDR R0, [R1]; STMIA R0!, {R0, R1};
SWI 0x123456; a word of condition 1111; Thumb ADD R0, R1, R2, PUSH {LR} and BEQ +12 (30 R301, R310, R320; 95 §2). -/
def Obligations.SpecWordsDecode : Prop :=
  decodeTableWord 32 0xE0910002 = some (.addIshift .al true 1 0 0 .lsl 2) ∧
  decodeTableWord 32 0x03A00001 = some (.movImm .eq false 0 0 0 1) ∧
  decodeTableWord 32 0xE5910000 = some (.ldrImmPre .al true false 1 0 0) ∧
  decodeTableWord 32 0xE8A00003 = some (.stm .al false true true 0 3) ∧
  decodeTableWord 32 0xEF123456 = some (.swi .al 0x123456) ∧
  decodeTableWord 32 0xF3A00001 = some (.nv 0x3A00001) ∧
  decodeTableWord 16 0x1888 = some (.tAddReg 2 1 0) ∧
  decodeTableWord 16 0xB500 = some (.tPush true 0) ∧
  decodeTableWord 16 0xD006 = some (.tBcond .eq 6)

/-! ### The step -/

/-- A machine that the halt test leaves running (s.wake is s itself where it runs already) and that no interrupt stops runs the
instruction that the bytes at pc decode to, in the instruction state of CPSR.T: where exec gives a next state, the step gives
that state with the address appended to the history (the newest PC_HISTORY_LEN kept), the epoch of the free values advanced and
the stopped flag set at a breakpoint, and nothing else changed; where exec refuses, the step refuses (60 R1270, R1230, R1244,
R1242; 20 R214). The epoch is the model's (log 5). -/
def Obligations.StepRunsDecoded : Prop :=
  ∀ (s : State) (i : Instr), s.wake.halt = .running → (s.fiqLine = true → s.cpsr.f = true) →
    (s.irqLine = true → s.cpsr.i = true) →
    decodeBytes s.cpsr.t ((List.range (if s.cpsr.t then 2 else 4)).map fun k => s.readByte .fetch (s.pc + BitVec.ofNat 32 k))
      = .ok (i, []) →
    (∀ t, exec i s.wake = .next t → step s = .next { t with
      draws := t.draws + 1
      debugger := { t.debugger with
        history := (t.debugger.history ++ [s.pc]).drop (t.debugger.history.length + 1 - t.params.pcHistoryLen)
        stopped := t.debugger.stopped || (t.debugger.enabled &&
          if t.cpsr.t then t.debugger.thumbBps.contains t.pc else t.debugger.armBps.contains t.pc) } }) ∧
    ∀ r, exec i s.wake = .refused r → step s = .refused r

/-- A tick that finds the machine halted (R1230): Halt ends exactly when IE AND IF has one of bits 13:0, Stop exactly when it
has bit 13, 12 or 7, whatever IME is; while it stays halted a tick changes nothing but the stopped flag of the debugger, which
the breakpoint check sets (R1242). What the tick does where the halt ends is InterruptSampling's. -/
def Obligations.HaltedTick : Prop :=
  ∀ s : State,
    (s.wake.halt = .running ↔ s.halt = .running ∨
      (s.halt = .halt ∧ ∃ n : Fin 14, s.io.ieReg.getLsbD n = true ∧ s.io.ifReg.getLsbD n = true) ∨
      (s.halt = .stop ∧ ∃ n ∈ [7, 12, 13], s.io.ieReg.getLsbD n = true ∧ s.io.ifReg.getLsbD n = true)) ∧
    s.wake = { s with halt := s.wake.halt } ∧
    (s.wake.halt ≠ .running → ∃ b, step s = .next { s with debugger := { s.debugger with stopped := b } } ∧
      (b = true ↔ s.debugger.stopped = true ∨ (s.debugger.enabled = true ∧
        s.pc ∈ if s.cpsr.t then s.debugger.thumbBps else s.debugger.armBps)))

/-- Interrupt sampling (R1211, R1213, R1206): a machine that the halt test leaves running, also one whose halt this very tick ends
(R1230), takes FIQ when the line is up and F = 0; otherwise IRQ when IME, some enabled request of bits 13:0 and I = 0;
otherwise none. The link is pc + 4. The same tick then runs the instruction at the new pc. -/
def Obligations.InterruptSampling : Prop :=
  ∀ s : State, s.wake.halt = .running → ∃ t, step s = runTick t ∧
    (s.fiqLine = true ∧ s.cpsr.f = false → TookException s.wake t .fiq true 0x1C (s.pc + 4)) ∧
    (¬ (s.fiqLine = true ∧ s.cpsr.f = false) ∧ s.cpsr.i = false ∧ s.io.ime = true ∧
      (∃ n : Fin 14, s.io.ieReg.getLsbD n = true ∧ s.io.ifReg.getLsbD n = true) →
        TookException s.wake t .irq false 0x18 (s.pc + 4)) ∧
    (¬ (s.fiqLine = true ∧ s.cpsr.f = false) ∧ ¬ (s.cpsr.i = false ∧ s.io.ime = true ∧
      ∃ n : Fin 14, s.io.ieReg.getLsbD n = true ∧ s.io.ifReg.getLsbD n = true) → t = s.wake)

/-- `TakeException` for the seven kinds of the table of R1201: mode, vector and mask as the row says. -/
def Obligations.ExceptionTable : Prop :=
  ∀ (s : State) (link : Word),
    TookException s (s.takeException .reset link) .svc true 0x00 link ∧
    TookException s (s.takeException .dataAbort link) .abt false 0x10 link ∧
    TookException s (s.takeException .fiq link) .fiq true 0x1C link ∧
    TookException s (s.takeException .irq link) .irq false 0x18 link ∧
    TookException s (s.takeException .prefetchAbort link) .abt false 0x0C link ∧
    TookException s (s.takeException .undefined link) .und false 0x04 link ∧
    TookException s (s.takeException .softwareInterrupt link) .svc false 0x08 link

/-! ### Invariants and rules of the whole machine -/

/-- A step keeps the memory in canonical form, the pc aligned to the instruction state (10_state R105) and the history within
PC_HISTORY_LEN (R1244). -/
def Obligations.StepKeepsInvariant : Prop := ∀ s t : State, s.Inv → step s = .next t → t.Inv

/-- The invariant holds after power-on, whatever the parameters, the BIOS image and the free values, and after reset(). -/
def Obligations.InvariantAtReset : Prop :=
  State.reset.Inv ∧ (∀ p bios epoch, (construct p bios epoch).Inv) ∧ ∀ s : State, s.mem.wf = true → s.resetOp.Inv

/-- User mode can leave only through an exception (R1216, R1215): an instruction run in User mode either leaves mode, masks
and SPSRs as they are, or takes Undefined or SoftwareInterrupt. -/
def Obligations.UserModeLeavesByException : Prop :=
  ∀ (i : Instr) (s t : State), s.cpsr.mode = .usr → exec i s = .next t →
    (t.cpsr.mode = .usr ∧ t.cpsr.i = s.cpsr.i ∧ t.cpsr.f = s.cpsr.f ∧ t.spsr = s.spsr) ∨
    ∃ link, t = s.takeException .undefined link ∨ t = s.takeException .softwareInterrupt link

/-- Mode, masks, instruction state and SPSRs change only by BX, MSR, an exception entry and an SPSR restore (10_state R111,
60 R1216): every other instruction leaves them alone. -/
def Obligations.ControlBitsKept : Prop :=
  ∀ (i : Instr) (s t : State),
    i.exchanges = false → i.writesPsr = false → i.traps = false → i.restores = false →
    exec i s = .next t → SameControl s t ∧ t.spsr = s.spsr

/-- Only stores change memory, the I/O registers or the halt state (20 R222, 10_state R130): every instruction but the
stores, the block stores, the swaps and PUSH leaves every byte as it reads. -/
def Obligations.OnlyStoresWrite : Prop :=
  ∀ (i : Instr) (s t : State), i.stores = false → exec i s = .next t → SameMemory s t ∧ SameIo s t

/-- No instruction changes the debugger (60 R1246), the host, the cartridge (its length and every byte that reads at or above
0x08000000, 20 R207), the boot code (every byte below 0x02000000, 20 R206), the FIQ line, a parameter or the epoch of the free
values (the model's own field, log 5). -/
def Obligations.OutsideUntouched : Prop :=
  ∀ (i : Instr) (s t : State), exec i s = .next t → SameOutside s t ∧
    ∀ acc a, a.toNat < 0x02000000 ∨ 0x08000000 ≤ a.toNat → t.readByte acc a = s.readByte acc a

/-! ### Memory (20_memory) -/

/-- Memory as bytes, little-endian. A read of each width, for data and for fetch, is the number its bytes make, the one at the
lowest address lowest (R213; 00_scope R12). An aligned write leaves byte k of the value at the k-th byte's place, which reads
back at every address of that place, mirrors included (R203): words and halfwords in EWRAM, IWRAM, palette RAM, VRAM and OAM,
bytes in EWRAM and IWRAM (R208 to R211). -/
def Obligations.RamReadsBack : Prop :=
  (∀ (s : State) (acc : Access) (a : Word),
    (s.memRead acc a .byte).toNat = (s.readByte acc a).toNat ∧
    (s.memRead acc a .half).toNat = (s.readByte acc a).toNat + 2 ^ 8 * (s.readByte acc (a + 1)).toNat ∧
    (s.memRead acc a .word).toNat = (s.readByte acc a).toNat + 2 ^ 8 * (s.readByte acc (a + 1)).toNat +
      2 ^ 16 * (s.readByte acc (a + 2)).toNat + 2 ^ 24 * (s.readByte acc (a + 3)).toNat) ∧
  ∀ (s : State) (acc : Access) (w : Width) (a b v : Word) (k region o : Nat), k < w.bytes → a.toNat % w.bytes = 0 →
    storagePlace a = some (region, o) → storagePlace b = some (region, o + k) → (w = .byte → region = 2 ∨ region = 3) →
    (s.memWrite a w v).readByte acc b = v.extractLsb' (8 * k) 8

/-- An unmapped byte reads 0, and a byte written to BIOS, cartridge ROM or an unmapped address is ignored, alone or as one byte of
a wider write (R204, R206, R207). -/
def Obligations.ReadOnlyRegions : Prop :=
  ∀ (s : State) (a : Word),
    ((decodeAddr s.romLen a).1 = .unmapped → ∀ acc, s.readByte acc a = 0) ∧
    ((decodeAddr s.romLen a).1 = .unmapped ∨ (decodeAddr s.romLen a).1 = .bios ∨ (decodeAddr s.romLen a).1 = .rom →
      ∀ b, s.memWrite a .byte b = s ∧ s.writePlain a (b.setWidth 8) = s)

/-- Byte writes to the video memories (R209 to R211): in palette RAM, and in VRAM below the limit of the background mode, the
byte lands in both bytes of its halfword; above the limit and in OAM it is ignored. -/
def Obligations.VideoByteWrites : Prop :=
  ∀ (s : State) (a v : Word) (acc : Access),
    let t := s.memWrite a .byte v
    let doubled := t.memRead acc (a - a % 2) .half = (v &&& 0xFF) * 0x101
    let o := if 0x18000 ≤ a.toNat % 0x20000 then a.toNat % 0x20000 - 0x8000 else a.toNat % 0x20000
    let limit := if s.io.dispcnt.toNat % 8 ≤ 2 then 0x10000 else 0x14000
    (a.toNat / 0x1000000 = 5 → doubled) ∧ (a.toNat / 0x1000000 = 6 → o < limit → doubled) ∧
    (a.toNat / 0x1000000 = 6 → limit ≤ o → t = s) ∧ (a.toNat / 0x1000000 = 7 → t = s)

/-- The I/O registers, one by one. IE takes a halfword and reads it (10_state R114); a 1 written to IF clears its bit and a read
changes nothing (R115); IME takes bit 0 and reads it (R116); KEYINPUT and VCOUNT ignore writes, KEYINPUT reads the keys in bits
9:0, VCOUNT 0 in bits 15:8 (R118, R120); KEYCNT, POSTFLG, DISPCNT and BGnCNT hold what is written (R117 to R119, R121); DISPSTAT
holds bits 5:3 and 15:8 and reads 0 in bits 7:6 (R120); the scroll, affine and mosaic registers hold what is written, the
reference points also by halves, and read 0 (R122 to R125); a byte to HALTCNT enters Halt or Stop by its bit 7, a halfword at
POSTFLG does the same with its high byte, and HALTCNT reads 0 (R117); an unmodelled offset is a plain cell (R126, R127). Each
write leaves everything else alone. -/
def Obligations.IoRegisterWrites : Prop :=
  ∀ (s : State) (v : Word) (acc : Access), let h : Half := v.setWidth 16
    (s.memWrite 0x04000202 .half v = { s with io := { s.io with ifReg := s.io.ifReg &&& ~~~h } } ∧
      s.memWrite 0x04000200 .half v = { s with io := { s.io with ieReg := h } } ∧
      s.memWrite 0x04000208 .word v = { s with io := { s.io with ime := v.getLsbD 0 } } ∧
      s.memWrite 0x04000130 .half v = s ∧ s.memWrite 0x04000006 .half v = s ∧
      s.memWrite 0x04000301 .byte v = { s with halt := if v.getLsbD 7 then .stop else .halt } ∧
      s.memWrite 0x04000300 .half v =
        { s with halt := if v.getLsbD 15 then .stop else .halt, io := { s.io with postflg := v.setWidth 8 } } ∧
      s.readByte acc 0x04000301 = 0) ∧
    (s.memRead acc 0x04000200 .half = s.io.ieReg.setWidth 32 ∧ s.memRead acc 0x04000202 .half = s.io.ifReg.setWidth 32 ∧
      s.memRead acc 0x04000208 .word = (if s.io.ime then 1 else 0) ∧
      s.memRead acc 0x04000130 .half = s.io.keyinput.setWidth 32 ∧ s.readByte acc 0x04000007 = 0 ∧
      s.readByte acc 0x04000300 = s.io.postflg) ∧
    (s.memWrite 0x04000000 .half v = { s with io := { s.io with dispcnt := h } } ∧
      s.memRead acc 0x04000000 .half = s.io.dispcnt.setWidth 32 ∧
      s.memWrite 0x04000004 .half v =
        { s with io := { s.io with dispstatEnables := v.extractLsb' 3 3, dispstatVcount := v.extractLsb' 8 8 } } ∧
      (s.memRead acc 0x04000004 .half).extractLsb' 3 29 = (s.io.dispstatVcount.setWidth 29 <<< 5) ||| s.io.dispstatEnables.setWidth 29 ∧
      s.memWrite 0x04000132 .half v = { s with io := { s.io with keycnt := h } } ∧
      s.memRead acc 0x04000132 .half = s.io.keycnt.setWidth 32 ∧
      s.memWrite 0x0400004C .half v = { s with io := { s.io with mosaic := h } } ∧ s.memRead acc 0x0400004C .half = 0) ∧
    (∀ n : Fin 4, let g := s.io.bg[n]
      let put := fun g' : Bg => { s with io := { s.io with bg := s.io.bg.set n g' } }
      s.memWrite (0x04000008 + BitVec.ofNat 32 (2 * n)) .half v = put { g with cnt := h } ∧
      s.memRead acc (0x04000008 + BitVec.ofNat 32 (2 * n)) .half = g.cnt.setWidth 32 ∧
      s.memWrite (0x04000010 + BitVec.ofNat 32 (4 * n)) .half v = put { g with hofs := h } ∧
      s.memWrite (0x04000012 + BitVec.ofNat 32 (4 * n)) .half v = put { g with vofs := h } ∧
      s.memRead acc (0x04000010 + BitVec.ofNat 32 (4 * n)) .word = 0) ∧
    (∀ m : Fin 2, let g := s.io.aff[m]
      let put := fun g' : Affine => { s with io := { s.io with aff := s.io.aff.set m g' } }
      let a : Word := 0x04000020 + BitVec.ofNat 32 (16 * m)
      s.memWrite a .half v = put { g with pa := h } ∧ s.memWrite (a + 2) .half v = put { g with pb := h } ∧
      s.memWrite (a + 4) .half v = put { g with pc := h } ∧ s.memWrite (a + 6) .half v = put { g with pd := h } ∧
      s.memWrite (a + 8) .word v = put { g with x := v } ∧ s.memWrite (a + 12) .word v = put { g with y := v } ∧
      s.memWrite (a + 8) .half v = put { g with x := withLow g.x v } ∧ s.memWrite (a + 10) .half v = put { g with x := withHigh g.x v } ∧
      s.memWrite (a + 12) .half v = put { g with y := withLow g.y v } ∧ s.memWrite (a + 14) .half v = put { g with y := withHigh g.y v } ∧
      ∀ k : Fin 4, s.memRead acc (a + BitVec.ofNat 32 (4 * k)) .word = 0) ∧
    ∀ o : Nat, o < 0x400 → ¬ inRegisterTable o →
      let a : Word := 0x04000000 + BitVec.ofNat 32 o
      let t := s.memWrite a .byte v
      t.readByte acc a = v.setWidth 8 ∧ (∀ b, b ≠ a → t.readByte acc b = s.readByte acc b) ∧ t = { s with mem := t.mem }

/-- Misaligned loads (R215, R216): a word is the aligned word rotated right by 8 times the low address bits; LDRH at an odd
address is the aligned halfword rotated by 8; LDRSH at an odd address is the signed byte there. Aligned ones are plain. -/
def Obligations.MisalignedLoads : Prop :=
  ∀ (s : State) (a : Word),
    s.loadValue .word a = (s.memRead .data (a - a % 4) .word).rotateRight (8 * (a.toNat % 4)) ∧
    (a.toNat % 2 = 1 → s.loadValue .half a = (s.memRead .data (a - 1) .half).rotateRight 8 ∧
      s.loadValue .signedHalf a = s.loadValue .signedByte a) ∧
    (a.toNat % 2 = 0 → s.loadValue .half a = s.memRead .data a .half ∧
      (s.loadValue .signedHalf a).toInt =
        if 0x8000 ≤ (s.memRead .data a .half).toNat then ((s.memRead .data a .half).toNat : Int) - 0x10000
        else (s.memRead .data a .half).toNat) ∧
    s.loadValue .byte a = s.memRead .data a .byte ∧
    (s.loadValue .signedByte a).toInt =
      if 0x80 ≤ (s.memRead .data a .byte).toNat then ((s.memRead .data a .byte).toNat : Int) - 0x100
      else (s.memRead .data a .byte).toNat

/-! ### Reset, boot and the host -/

/-- reset() (R1300): CPSR 0xD3, pc 0, Running, IO registers, debugger and host at their reset values; the cartridge image and
the BIOS survive; under RESET_REG_POLICY = zero every register, every SPSR and every byte of RAM is 0. -/
def Obligations.ResetValues : Prop :=
  ∀ s : State, let t := s.resetOp
    t.cpsr.word = 0xD3 ∧ t.pc = 0 ∧ t.halt = .running ∧ t.io = Io.reset ∧ t.debugger = ⟨[], [], false, false, []⟩ ∧
    t.host = ⟨[], none, none, false⟩ ∧ t.romLen = s.romLen ∧
    (∀ acc a, (decodeAddr s.romLen a).1 = .rom ∨ (decodeAddr s.romLen a).1 = .bios →
      t.readByte acc a = s.readByte acc a) ∧
    (s.params.resetRegPolicy = .zero → (∀ p, t.peek p = 0) ∧ (∀ k : Fin 5, t.spsr[k].word = 0) ∧
      ∀ acc a, (decodeAddr s.romLen a).1 ∈ [.ewram, .iwram, .pal, .vram, .oam] → t.readByte acc a = 0)

/-- skip_bios() (R1302): CPSR 0x1F, pc 0x08000000, the three stack pointers, every other register and SPSR 0, Running; memory,
I/O registers, debugger and host as before. -/
def Obligations.SkipBios : Prop :=
  ∀ s : State, let t := s.skipBios
    t.cpsr.word = 0x1F ∧ t.pc = 0x08000000 ∧ t.halt = .running ∧ (∀ k : Fin 5, t.spsr[k].word = 0) ∧
    (∀ p : Fin 30, t.peek p = if p = 13 then 0x03007F00 else if p = 22 then 0x03007FA0 else if p = 24 then 0x03007FE0 else 0) ∧
    SameMemory s t ∧ t.io = s.io ∧ t.debugger = s.debugger ∧ t.host = s.host ∧ t.romLen = s.romLen

/-- load_rom (20 R207): a buffer past 33554432 bytes is refused; otherwise byte i of it is at ROM offset i of the three
mirrors, and other memory is as before. -/
def Obligations.LoadRom : Prop :=
  ∀ (s : State) (bytes : List Byte),
    (33554432 < bytes.length → s.loadRom bytes = none) ∧
    (bytes.length ≤ 33554432 → ∃ t, s.loadRom bytes = some t ∧ t.romLen = bytes.length ∧
      (∀ acc (i : Nat) (h : i < bytes.length) (m : Fin 3),
        t.readByte acc (BitVec.ofNat 32 (0x08000000 + 0x02000000 * m + i)) = bytes[i]) ∧
      (∀ acc (a : Word), a.toNat < 0x08000000 → t.readByte acc a = s.readByte acc a) ∧
      t.regs = s.regs ∧ t.pc = s.pc ∧ t.cpsr = s.cpsr ∧ t.spsr = s.spsr ∧ t.io = s.io ∧ t.halt = s.halt)

/-- tick_multiple(n) equals n ticks (R1231), unless it ends early in a halt that a pending request would end at once (log
26). -/
def Obligations.TickMultipleIsTicks : Prop :=
  ∀ (n : Nat) (s t : State), tickMultiple n s = .next t →
    (t.wake.halt = .running → t.halt = .running) → ticks n s = .next t

/-! ### The PPU (47_ppu_render) -/

/-- The framebuffer (R1161, R1162): 153600 bytes, pixel (x, y) at 4 (240 y + x) in the order R, G, B, A; each channel of five
bits v of a colour becomes v * 8 + v / 4, alpha 255, bit 15 ignored. -/
def Obligations.FramebufferLayout : Prop :=
  (∀ s : State, s.render.length = 153600 ∧
    ∀ x y : Nat, x < 240 → y < 160 → (s.render.drop (4 * (240 * y + x))).take 4 =
      [(s.renderPixel x y).r, (s.renderPixel x y).g, (s.renderPixel x y).b, (s.renderPixel x y).a]) ∧
  ∀ c : Half, (colourOf c).r.toNat = c.toNat % 32 * 8 + c.toNat % 32 / 4 ∧
    (colourOf c).g.toNat = c.toNat / 32 % 32 * 8 + c.toNat / 32 % 32 / 4 ∧
    (colourOf c).b.toNat = c.toNat / 1024 % 32 * 8 + c.toNat / 1024 % 32 / 4 ∧ (colourOf c).a = 255

/-- Composition (R1103, R1155): forced blank is white whatever the mode; in modes 0 to 5 a pixel is the colour of the opaque
active background with the least pair of priority and number, or palette entry 0 where there is none. -/
def Obligations.Composition : Prop :=
  ∀ (s : State) (x y : Nat),
    (s.io.forcedBlank = true → s.renderPixel x y = ⟨255, 255, 255, 255⟩) ∧
    (s.io.forcedBlank = false → s.io.bgMode ≤ 5 →
      (∀ (n : Fin 4) (c : Half), s.io.bgEnabled n = true → s.layerPixel s.io.bgMode n x y = some c →
        (∀ m : Fin 4, s.io.bgEnabled m = true → s.layerPixel s.io.bgMode m x y ≠ none →
          s.io.bg[n].priority < s.io.bg[m].priority ∨ (s.io.bg[n].priority = s.io.bg[m].priority ∧ n ≤ m)) →
        s.renderPixel x y = colourOf c) ∧
      ((∀ n : Fin 4, s.io.bgEnabled n = true → s.layerPixel s.io.bgMode n x y = none) →
        s.renderPixel x y = colourOf (s.palette 0)))

/-- The pixel of each layer (R1102, R1120 to R1123, R1130, R1140, R1150), from the words of the registers and the bytes of VRAM
and palette RAM: text backgrounds in modes 0 and 1, affine ones in modes 1 and 2, the bitmap of modes 3 to 5, each at the
screen pixel after mosaic; a background that the mode does not have is transparent. -/
def Obligations.LayerPixels : Prop :=
  ∀ (s : State) (x y : Nat) (n : Fin 4),
    let mx := mosaicCoord s s.io.bg[n].cnt.toNat 0 x
    let my := mosaicCoord s s.io.bg[n].cnt.toNat 4 y
    (∀ mode, mode = 0 ∨ (mode = 1 ∧ n < 2) → s.layerPixel mode n x y = textLayer s n mx my) ∧
    (∀ mode, (mode = 1 ∨ mode = 2) ∧ n = 2 → s.layerPixel mode n x y = affineLayer s n s.io.aff[0] mx my) ∧
    (n = 3 → s.layerPixel 2 n x y = affineLayer s n s.io.aff[1] mx my) ∧
    (∀ mode, (mode = 3 ∨ mode = 4 ∨ mode = 5) ∧ n = 2 → s.layerPixel mode n x y = bitmapLayer s mode mx my) ∧
    ∀ mode, (mode = 1 ∧ n = 3) ∨ (mode = 2 ∧ n < 2) ∨ ((mode = 3 ∨ mode = 4 ∨ mode = 5) ∧ n ≠ 2) →
      s.layerPixel mode n x y = none

/-! ### Conditions and the shifter (40_arm_dataproc) -/

/-- An ARM instruction whose condition fails, and every word of condition 1111 (nv), advances the pc by 4 and does nothing else
(R401, R403, 30 R310). For nv, and for ldrdSpace and strdSpace (refused where the condition passes, 30 R312), this is the whole
of what completes. -/
def Obligations.ConditionFails : Prop :=
  (∀ (i : Instr) (c : Cond) (s : State), armCond i = some c → Cond.passes c s.cpsr = false →
    exec i s = .next { s with pc := s.pc + 4 }) ∧
  ∀ (body : BitVec 28) (s : State), exec (.nv body) s = .next { s with pc := s.pc + 4 }

/-- After a comparison of a with b (the flags of a - b), each condition of R400 means what its name says: equal, unsigned
higher or same, signed greater than, and so on; AL always passes. -/
def Obligations.ConditionsAfterCompare : Prop :=
  ∀ (p : Cpsr) (a b : Word), ArithFlags .sub p a b p.c →
    (Cond.passes .eq p = true ↔ a = b) ∧ (Cond.passes .ne p = true ↔ a ≠ b) ∧
    (Cond.passes .cs p = true ↔ b.toNat ≤ a.toNat) ∧ (Cond.passes .cc p = true ↔ a.toNat < b.toNat) ∧
    (Cond.passes .mi p = true ↔ (a - b).toInt < 0) ∧ (Cond.passes .pl p = true ↔ 0 ≤ (a - b).toInt) ∧
    (Cond.passes .vs p = true ↔ Overflows (a.toInt - b.toInt)) ∧ (Cond.passes .vc p = true ↔ ¬ Overflows (a.toInt - b.toInt)) ∧
    (Cond.passes .hi p = true ↔ b.toNat < a.toNat) ∧ (Cond.passes .ls p = true ↔ a.toNat ≤ b.toNat) ∧
    (Cond.passes .ge p = true ↔ b.toInt ≤ a.toInt) ∧ (Cond.passes .lt p = true ↔ a.toInt < b.toInt) ∧
    (Cond.passes .gt p = true ↔ b.toInt < a.toInt) ∧ (Cond.passes .le p = true ↔ a.toInt ≤ b.toInt) ∧
    Cond.passes .al p = true

/-- The immediate operand and the immediate shifts in exact arithmetic (R410, R411): LSL #0 is the register and the old C;
LSR and ASR #0 mean 32; ROR #0 is RRX. -/
def Obligations.ImmediateShifter : Prop :=
  (∀ (c : Bool) (rot : BitVec 4) (imm8 : BitVec 8), let o := immOperand c rot imm8
    o.value = (imm8.setWidth 32).rotateRight (2 * rot.toNat) ∧ o.carry = if rot = 0 then c else o.value.getLsbD 31) ∧
  ∀ (c : Bool) (m : Word) (n : BitVec 5),
    let k := if n = 0 then 32 else n.toNat
    let lsl := shiftImm c .lsl m n
    let lsr := shiftImm c .lsr m n
    let asr := shiftImm c .asr m n
    let ror := shiftImm c .ror m n
    (lsl.value.toNat = m.toNat * 2 ^ n.toNat % 2 ^ 32 ∧ lsl.carry = if n = 0 then c else m.getLsbD (32 - n.toNat)) ∧
    (lsr.value.toNat = m.toNat / 2 ^ k ∧ lsr.carry = m.getLsbD (k - 1)) ∧
    (asr.value.toInt = m.toInt / 2 ^ k ∧ asr.carry = m.getLsbD (k - 1)) ∧
    (n = 0 → ror.value.toNat = (if c then 2 ^ 31 else 0) + m.toNat / 2 ∧ ror.carry = m.getLsbD 0) ∧
    (n ≠ 0 → (∀ i : Fin 32, ror.value.getLsbD i = m.getLsbD ((i + n.toNat) % 32)) ∧ ror.carry = m.getLsbD (n.toNat - 1))

/-- The register-specified shifts by the low byte s (R412): 0 changes nothing; LSL and LSR by 32 leave 0 and the last bit in
C, by more 0 and 0; ASR by 32 and more leaves the sign; ROR takes s mod 32, with bit 31 in C where that is 0. -/
def Obligations.RegisterShifter : Prop :=
  ∀ (c : Bool) (m : Word) (s : Byte),
    (∀ k, s = 0 → shiftReg c k m s = ⟨m, c⟩) ∧
    (s ≠ 0 →
      ((shiftReg c .lsl m s).value.toNat = m.toNat * 2 ^ s.toNat % 2 ^ 32 ∧
        (shiftReg c .lsl m s).carry = (decide (s.toNat ≤ 32) && m.getLsbD (32 - s.toNat))) ∧
      ((shiftReg c .lsr m s).value.toNat = m.toNat / 2 ^ s.toNat ∧
        (shiftReg c .lsr m s).carry = (decide (s.toNat ≤ 32) && m.getLsbD (s.toNat - 1))) ∧
      ((shiftReg c .asr m s).value.toInt = m.toInt / 2 ^ s.toNat ∧
        (shiftReg c .asr m s).carry = m.getLsbD (min s.toNat 32 - 1)) ∧
      (∀ i : Fin 32, (shiftReg c .ror m s).value.getLsbD i = m.getLsbD ((i + s.toNat) % 32)) ∧
      (shiftReg c .ror m s).carry = m.getLsbD ((s.toNat + 31) % 32))

/-! ### ARM data processing (40_arm_dataproc) -/

/-- AND, EOR, ORR, BIC, MOV, MVN in their three forms (andImm … mvnRshift) with Rd other than R15: the result, with S = 1 N
and Z from it, C from the shifter and V as before, and nothing else (R414, R420, R421, R432 to R435). -/
def Obligations.LogicalResults : Prop :=
  ∀ (op : LogicOp) (o : DpOperand) (c : Cond) (sf : Bool) (rn rd : Reg) (s : State),
    Cond.passes c s.cpsr = true → o.defined → rd ≠ 15 →
    ∃ t, exec (op.instr o c sf rn rd) s = .next t ∧ t.pc = s.pc + 4 ∧
      t.reg 8 rd = op.result (o.first s rn) (o.out s).value ∧
      (sf = true → LogicFlags s.cpsr t.cpsr (op.result (o.first s rn) (o.out s).value) (o.out s).carry) ∧
      (sf = false → t.cpsr = s.cpsr) ∧ SameControl s t ∧ FrameFlags [physReg s.cpsr.mode rd] s t

/-- SUB, RSB, ADD, ADC, SBC, RSC in their three forms (subImm … rscRshift) with Rd other than R15: the result, with S = 1 the
flags of the exact sum or difference, and nothing else (R414, R422 to R427; 00_scope R14). -/
def Obligations.ArithmeticResults : Prop :=
  ∀ (op : ArithOp) (o : DpOperand) (c : Cond) (sf : Bool) (rn rd : Reg) (s : State),
    Cond.passes c s.cpsr = true → o.defined → rd ≠ 15 →
    ∃ t, exec (op.instr o c sf rn rd) s = .next t ∧ t.pc = s.pc + 4 ∧
      t.reg 8 rd = op.result (o.first s rn) (o.out s).value s.cpsr.c ∧
      (sf = true → ArithFlags op t.cpsr (o.first s rn) (o.out s).value s.cpsr.c) ∧
      (sf = false → t.cpsr = s.cpsr) ∧ SameControl s t ∧ FrameFlags [physReg s.cpsr.mode rd] s t

/-- TST, TEQ, CMP, CMN in their three forms (tstImm … cmnRshift): the flags of AND, EOR, SUB and ADD, and nothing else; an Rd
field of 1111 is refused (R428 to R431, 30 R313). -/
def Obligations.CompareResults : Prop :=
  ∀ (op : CompareOp) (o : DpOperand) (c : Cond) (rn rd : Reg) (s : State), Cond.passes c s.cpsr = true → o.defined →
    let a := o.first s rn
    let b := (o.out s).value
    (rd = 15 → exec (op.instr o c rn rd) s = .refused (.unpredictable .compareRdPc)) ∧
    (rd ≠ 15 → ∃ t, exec (op.instr o c rn rd) s = .next t ∧ t.pc = s.pc + 4 ∧
      (match op with
        | .tst => LogicFlags s.cpsr t.cpsr (a &&& b) (o.out s).carry
        | .teq => LogicFlags s.cpsr t.cpsr (a ^^^ b) (o.out s).carry
        | .cmp => ArithFlags .sub t.cpsr a b s.cpsr.c
        | .cmn => ArithFlags .add t.cpsr a b s.cpsr.c) ∧
      SameControl s t ∧ FrameFlags [] s t)

/-- A data-processing instruction that writes R15 (R415, R416): with S = 0 it branches to the result with bits 1:0 cleared and
changes nothing else; with S = 1 it copies the mode's SPSR to the CPSR and goes to the result aligned by the new T; it is
refused where the mode has no SPSR or the SPSR names no mode (10_state R109). -/
def Obligations.DataProcessingToPc : Prop :=
  ∀ (op : WriteOp) (o : DpOperand) (c : Cond) (rn : Reg) (s : State), Cond.passes c s.cpsr = true → o.defined →
    let v := op.result o s rn
    exec (op.instr o c false rn 15) s = .next { s with pc := v &&& 0xFFFFFFFC } ∧
    (s.cpsr.mode = .usr ∨ s.cpsr.mode = .sys → exec (op.instr o c true rn 15) s = .refused (.unpredictable .noSpsr)) ∧
    ∀ k, s.cpsr.mode.spsrIndex = some k →
      (∀ m : Mode, s.spsr[k].m = m.bits → ∃ t, exec (op.instr o c true rn 15) s = .next t ∧ t.cpsr.word = s.spsr[k].word ∧
        t.pc = (if s.spsr[k].t then v &&& 0xFFFFFFFE else v &&& 0xFFFFFFFC) ∧ FrameFlags [] s t) ∧
      ((∀ m : Mode, s.spsr[k].m ≠ m.bits) → exec (op.instr o c true rn 15) s = .refused .invalidMode)

/-! ### Multiply and PSR transfer (41_arm_multiply_psr) -/

/-- MUL, MLA and Thumb MUL (mul, mla, tMul; R500, R501, R510, R511, R833): the low 32 bits, with S = 1 and in Thumb state N and
Z from them and V as before (C is free), and nothing else; refused with R15 or Rd = Rm, Thumb MUL with Rd = Rs. -/
def Obligations.MultiplyResults : Prop :=
  (∀ (acc sf : Bool) (c : Cond) (rd rn rs rm : Reg) (s : State), Cond.passes c s.cpsr = true →
    let i : Instr := if acc then .mla c sf rd rn rs rm else .mul c sf rd rn rs rm
    let v := s.reg 8 rm * s.reg 8 rs + (if acc then s.reg 8 rn else 0)
    (rd = 15 ∨ rs = 15 ∨ rm = 15 ∨ rd = rm ∨ (acc = true ∧ rn = 15) → exec i s = .refused (.unpredictable .multiplyRegs)) ∧
    (rd ≠ 15 → rs ≠ 15 → rm ≠ 15 → rd ≠ rm → (acc = true → rn ≠ 15) →
      ∃ t, exec i s = .next t ∧ t.pc = s.pc + 4 ∧ t.reg 8 rd = v ∧
        (sf = true → NzOf t.cpsr v ∧ t.cpsr.v = s.cpsr.v) ∧ (sf = false → t.cpsr = s.cpsr) ∧ SameControl s t ∧
        FrameFlags [physReg s.cpsr.mode rd] s t)) ∧
  ∀ (rs rd : LoReg) (s : State),
    (rd = rs → exec (.tMul rs rd) s = .refused (.unpredictable .multiplyRegs)) ∧
    (rd ≠ rs → ∃ t, exec (.tMul rs rd) s = .next t ∧ t.pc = s.pc + 2 ∧
      t.reg 4 (lo rd) = s.reg 4 (lo rd) * s.reg 4 (lo rs) ∧ NzOf t.cpsr (s.reg 4 (lo rd) * s.reg 4 (lo rs)) ∧
      t.cpsr.v = s.cpsr.v ∧ SameControl s t ∧ FrameFlags [physReg s.cpsr.mode (lo rd)] s t)

/-- UMULL, UMLAL, SMULL, SMLAL (umull, umlal, smull, smlal; R500 to R502, R512 to R515): the 64-bit product, with the old
RdHi : RdLo added by the accumulating ones, in RdHi : RdLo; with S = 1 N and Z from all 64 bits (C and V are free); nothing
else; refused with R15 or with two of RdHi, RdLo, Rm the same. -/
def Obligations.LongMultiplyResults : Prop :=
  ∀ (signed acc sf : Bool) (c : Cond) (hi lo rs rm : Reg) (s : State), Cond.passes c s.cpsr = true →
    let i : Instr := match signed, acc with
      | false, false => .umull c sf hi lo rs rm
      | false, true => .umlal c sf hi lo rs rm
      | true, false => .smull c sf hi lo rs rm
      | true, true => .smlal c sf hi lo rs rm
    let product : Int := if signed then (s.reg 8 rm).toInt * (s.reg 8 rs).toInt
      else ((s.reg 8 rm).toNat : Int) * (s.reg 8 rs).toNat
    let old : Nat := (s.reg 8 hi).toNat * 2 ^ 32 + (s.reg 8 lo).toNat
    let v : Dword := BitVec.ofInt 64 (product + if acc then (old : Int) else 0)
    (hi = 15 ∨ lo = 15 ∨ rs = 15 ∨ rm = 15 ∨ hi = lo ∨ hi = rm ∨ lo = rm →
      exec i s = .refused (.unpredictable .multiplyRegs)) ∧
    (hi ≠ 15 → lo ≠ 15 → rs ≠ 15 → rm ≠ 15 → hi ≠ lo → hi ≠ rm → lo ≠ rm →
      ∃ t, exec i s = .next t ∧ t.pc = s.pc + 4 ∧ (t.reg 8 hi).toNat * 2 ^ 32 + (t.reg 8 lo).toNat = v.toNat ∧
        (sf = true → (t.cpsr.n = true ↔ v.toInt < 0) ∧ (t.cpsr.z = true ↔ v = 0)) ∧ (sf = false → t.cpsr = s.cpsr) ∧
        SameControl s t ∧ FrameFlags [physReg s.cpsr.mode hi, physReg s.cpsr.mode lo] s t)

/-- MRS (mrs; R520): Rd gets the CPSR, or the mode's SPSR; in User and System mode MRS SPSR still completes, its value free.
Rd = R15 is refused. -/
def Obligations.MrsReads : Prop :=
  ∀ (c : Cond) (r : Bool) (rd : Reg) (s : State), Cond.passes c s.cpsr = true →
    (rd = 15 → exec (.mrs c r rd) s = .refused (.unpredictable .mrsToPc)) ∧
    (rd ≠ 15 → ∃ t, exec (.mrs c r rd) s = .next t ∧ t.pc = s.pc + 4 ∧ (r = false → t.reg 8 rd = s.cpsr.word) ∧
      (r = true → ∀ k, s.cpsr.mode.spsrIndex = some k → t.reg 8 rd = s.spsr[k].word) ∧
      FrameRegs [physReg s.cpsr.mode rd] s t)

/-- MSR to the CPSR (msrReg, msrImm; R521 to R523): bit b of the new CPSR is bit b of the value where the field mask names its
byte and it is not reserved, and in User mode only for the flags byte; refused where that would leave no mode or change T.
With MODE_CHANGE_SPSR_COPY off nothing else changes; with it on, a mode change copies the old CPSR to the SPSR of the new
mode. -/
def Obligations.MsrCpsr : Prop :=
  ∀ (c : Cond) (mask : BitVec 4) (i : Instr) (v : Word) (s : State), Cond.passes c s.cpsr = true →
    ((∃ rm, rm ≠ 15 ∧ i = .msrReg c false mask rm ∧ v = s.reg 8 rm) ∨
      ∃ rot imm8, i = .msrImm c false mask rot imm8 ∧ v = (imm8.setWidth 32).rotateRight (2 * rot.toNat)) →
    ∀ w : Word, (∀ b : Fin 32, w.getLsbD b =
        if mask.getLsbD (b / 8) = true ∧ (28 ≤ b.val ∨ b.val < 8) ∧ (s.cpsr.mode = .usr → 24 ≤ b.val) then v.getLsbD b
        else s.cpsr.word.getLsbD b) →
      ((∀ m : Mode, w.extractLsb' 0 5 ≠ m.bits) → exec i s = .refused .invalidMode) ∧
      (∀ m : Mode, w.extractLsb' 0 5 = m.bits → w.getLsbD 5 ≠ s.cpsr.t → exec i s = .refused (.unpredictable .msrChangesT)) ∧
      (∀ m : Mode, w.extractLsb' 0 5 = m.bits → w.getLsbD 5 = s.cpsr.t →
        ∃ t, exec i s = .next t ∧ t.pc = s.pc + 4 ∧ t.cpsr.word = w ∧ SameRegsBut [] s t ∧ SameMemory s t ∧ SameIo s t ∧
          SameOutside s t ∧
          t.spsr = (match m.spsrIndex with
            | some k => if s.params.modeChangeSpsrCopy = true ∧ m ≠ s.cpsr.mode then s.spsr.set k s.cpsr.toPsr else s.spsr
            | none => s.spsr))

/-- MSR to the SPSR (msrReg, msrImm; R521): the named, not reserved bytes of the mode's SPSR; in User and System mode nothing
but the pc changes. MSR from R15 is refused (R522). -/
def Obligations.MsrSpsr : Prop :=
  ∀ (c : Cond) (mask : BitVec 4) (i : Instr) (v : Word) (s : State), Cond.passes c s.cpsr = true →
    ((∃ rm, rm ≠ 15 ∧ i = .msrReg c true mask rm ∧ v = s.reg 8 rm) ∨
      ∃ rot imm8, i = .msrImm c true mask rot imm8 ∧ v = (imm8.setWidth 32).rotateRight (2 * rot.toNat)) →
    (∀ r, exec (.msrReg c r mask 15) s = .refused (.unpredictable .msrFromPc)) ∧
    (s.cpsr.mode.spsrIndex = none → exec i s = .next { s with pc := s.pc + 4 }) ∧
    ∀ k, s.cpsr.mode.spsrIndex = some k → ∃ p, exec i s = .next { s with pc := s.pc + 4, spsr := s.spsr.set k p } ∧
      ∀ b : Fin 32, p.word.getLsbD b =
        if mask.getLsbD (b / 8) = true ∧ (28 ≤ b.val ∨ b.val < 8) then v.getLsbD b else s.spsr[k].word.getLsbD b

/-! ### ARM loads and stores (42_arm_loadstore) -/

/-- The twelve word and byte loads (ldrImmPre … ldrbtReg): Rd gets the loaded value (also where Rd is the base), the base its
writeback, and nothing else (R600, R602, R605, R610, R612, R614, R616). A word load into R15 branches to the loaded value
with bits 1:0 cleared and stays in ARM state; a byte load into R15 is refused (R603). -/
def Obligations.LoadResults : Prop :=
  ∀ (byte : Bool) (f : XferForm) (o : XferOffset) (c : Cond) (u : Bool) (rn rd : Reg) (s : State),
    Cond.passes c s.cpsr = true → f.defined o rn →
    let i := loadInstr byte f o c u rn rd
    let v := s.loadValue (if byte then .byte else .word) (f.addr s u rn (o.value s))
    (byte = true → rd = 15 → exec i s = .refused (.unpredictable .narrowLoadPc)) ∧
    ((byte = true → rd ≠ 15) → ∃ t, exec i s = .next t ∧
      (rd ≠ 15 → t.pc = s.pc + 4 ∧ t.reg 8 rd = v) ∧ (rd = 15 → t.pc = v &&& 0xFFFFFFFC) ∧
      (f.writesBase = true → rn ≠ rd → t.reg 8 rn = indexedAddr s u rn (o.value s)) ∧
      FrameRegs ((if rd = 15 then [] else [physReg s.cpsr.mode rd]) ++ if f.writesBase then [physReg s.cpsr.mode rn] else [])
        s t)

/-- The twelve word and byte stores (strImmPre … strbtReg): the aligned word or the byte of Rd (R15 stores pc + 12) at the
address, the base its writeback, and nothing else (R600 to R602, R605, R611, R613, R615, R617; 20 R217). A byte store of
R15 is refused. A store that the device policy turns away is refused (10_state R126); refusing the whole of it is the model's
choice (log 16). -/
def Obligations.StoreResults : Prop :=
  ∀ (byte : Bool) (f : XferForm) (o : XferOffset) (c : Cond) (u : Bool) (rn rd : Reg) (s : State),
    Cond.passes c s.cpsr = true → f.defined o rn →
    let w : Width := if byte then .byte else .word
    let a := if byte then f.addr s u rn (o.value s) else f.addr s u rn (o.value s) &&& 0xFFFFFFFC
    let i := storeInstr byte f o c u rn rd
    (byte = true → rd = 15 → exec i s = .refused (.unpredictable .narrowStorePc)) ∧
    ((byte = true → rd ≠ 15) → s.refusesWrite a w = true → exec i s = .refused .unmodelledDevice) ∧
    ((byte = true → rd ≠ 15) → s.refusesWrite a w = false → ∃ t, exec i s = .next t ∧ t.pc = s.pc + 4 ∧
      Wrote s t a w (if rd = 15 then s.pc + 12 else s.reg 8 rd) ∧
      (f.writesBase = true → t.reg 8 rn = indexedAddr s u rn (o.value s)) ∧
      FrameStore (if f.writesBase then [physReg s.cpsr.mode rn] else []) (storePlaces s.romLen w a) s t)

/-- LDRH, LDRSB, LDRSH (ldrhImm … ldrshReg): Rd gets the loaded value, the base its writeback, and nothing else (R603, R604,
R620, R622, R623). Rd = R15 is refused. -/
def Obligations.HalfLoadResults : Prop :=
  ∀ (k : HalfKind) (o : HalfOffset) (c : Cond) (p u w : Bool) (rn rd : Reg) (s : State),
    Cond.passes c s.cpsr = true → o.defined p w rn →
    let f := halfForm p w
    (rd = 15 → exec (k.instr o c p u w rn rd) s = .refused (.unpredictable .narrowLoadPc)) ∧
    (rd ≠ 15 → ∃ t, exec (k.instr o c p u w rn rd) s = .next t ∧ t.pc = s.pc + 4 ∧
      t.reg 8 rd = s.loadValue k.load (f.addr s u rn (o.value s)) ∧
      (f.writesBase = true → rn ≠ rd → t.reg 8 rn = indexedAddr s u rn (o.value s)) ∧
      FrameRegs (physReg s.cpsr.mode rd :: if f.writesBase then [physReg s.cpsr.mode rn] else []) s t)

/-- STRH (strhImm, strhReg): the low halfword of Rd at the aligned address, the base its writeback, and nothing else (R601,
R604, R621; 20 R217). Rd = R15 is refused. A store that the device policy turns away is refused (10_state R126);
refusing the whole of it is the model's choice (log 16). -/
def Obligations.HalfStoreResults : Prop :=
  ∀ (o : HalfOffset) (c : Cond) (p u w : Bool) (rn rd : Reg) (s : State),
    Cond.passes c s.cpsr = true → o.defined p w rn →
    let f := halfForm p w
    let a := f.addr s u rn (o.value s) &&& 0xFFFFFFFE
    (rd = 15 → exec (strhInstr o c p u w rn rd) s = .refused (.unpredictable .narrowStorePc)) ∧
    (rd ≠ 15 → s.refusesWrite a .half = true → exec (strhInstr o c p u w rn rd) s = .refused .unmodelledDevice) ∧
    (rd ≠ 15 → s.refusesWrite a .half = false → ∃ t, exec (strhInstr o c p u w rn rd) s = .next t ∧ t.pc = s.pc + 4 ∧
      Wrote s t a .half (s.reg 8 rd) ∧
      (f.writesBase = true → t.reg 8 rn = indexedAddr s u rn (o.value s)) ∧
      FrameStore (if f.writesBase then [physReg s.cpsr.mode rn] else []) (storePlaces s.romLen .half a) s t)

/-- SWP and SWPB (swp, swpb; R650, R660, R661): Rd gets what the location held, the aligned word or the byte there gets Rm, and
nothing else; refused with R15, Rn = Rd or Rn = Rm. A swap whose write the device policy turns away is refused (10_state R126);
refusing the whole of it is the model's choice (log 16). -/
def Obligations.SwapResults : Prop :=
  ∀ (byte : Bool) (c : Cond) (rn rd rm : Reg) (s : State), Cond.passes c s.cpsr = true →
    let i : Instr := if byte then .swpb c rn rd rm else .swp c rn rd rm
    let w : Width := if byte then .byte else .word
    let a := if byte then s.reg 8 rn else s.reg 8 rn &&& 0xFFFFFFFC
    (rn = 15 ∨ rd = 15 ∨ rm = 15 ∨ rn = rd ∨ rn = rm → exec i s = .refused (.unpredictable .swapRegs)) ∧
    (rn ≠ 15 → rd ≠ 15 → rm ≠ 15 → rn ≠ rd → rn ≠ rm → s.refusesWrite a w = false → ∃ t, exec i s = .next t ∧
      t.pc = s.pc + 4 ∧ t.reg 8 rd = s.loadValue (if byte then .byte else .word) (s.reg 8 rn) ∧ Wrote s t a w (s.reg 8 rm) ∧
      FrameStore [physReg s.cpsr.mode rd] (storePlaces s.romLen w a) s t) ∧
    (rn ≠ 15 → rd ≠ 15 → rm ≠ 15 → rn ≠ rd → rn ≠ rm → s.refusesWrite a w = true → exec i s = .refused .unmodelledDevice)

/-- The forms of transfers, shifts and block transfers that the spec refuses, where the condition passes. Word and byte transfers
(R600): writeback to R15, R15 or, in a writing form, the base as the offset register. Halfword and signed transfers (R604, 30
R312): the should-be-zero field, P = 0 with W = 1, writeback to R15, R15 or, in a writing form, the base as the offset register.
A shift by R15 in the sixteen data-processing instructions (R412). R15 as the base of a block transfer (R630). The ARMv5
doubleword space (R312). Where two reasons meet, the one refused first is named; each form is refused with some reason. -/
def Obligations.UndefinedFormsRefused : Prop :=
  ∀ (c : Cond) (s : State), Cond.passes c s.cpsr = true →
    (∀ (byte : Bool), ∀ mk ∈ [loadInstr byte, storeInstr byte],
      (∀ f o u rd, f.writesBase = true → exec (mk f o c u 15 rd) s = .refused (.unpredictable .writebackToPc)) ∧
      (∀ f amt sh u rn rd, (f.writesBase = true → rn ≠ 15) → (byte = true → rd ≠ 15) →
        exec (mk f (.reg amt sh 15) c u rn rd) s = .refused (.unpredictable .offsetPc)) ∧
      (∀ f amt sh u rn rd, f.writesBase = true → rn ≠ 15 → (byte = true → rd ≠ 15) →
        exec (mk f (.reg amt sh rn) c u rn rd) s = .refused (.unpredictable .offsetIsBase)) ∧
      ∀ f o u rn rd, ¬ XferForm.defined f o rn → ∃ why, exec (mk f o c u rn rd) s = .refused (.unpredictable why)) ∧
    (∀ mk ∈ [HalfKind.half.instr, HalfKind.signedByte.instr, HalfKind.signedHalf.instr, strhInstr],
      (∀ p u w rn rd sbz rm, sbz ≠ 0 → exec (mk (.reg sbz rm) c p u w rn rd) s = .refused (.unpredictable .halfwordSbz)) ∧
      (∀ o u rn rd, ((∃ imm8, o = .imm imm8) ∨ ∃ rm, o = .reg 0 rm) →
        exec (mk o c false u true rn rd) s = .refused (.unpredictable .halfwordPostW) ∧
        ∀ p w, (p = false → w = false) → (halfForm p w).writesBase = true →
          exec (mk o c p u w 15 rd) s = .refused (.unpredictable .writebackToPc)) ∧
      (∀ p u w rn rd, (p = false → w = false) → ((halfForm p w).writesBase = true → rn ≠ 15) → rd ≠ 15 →
        exec (mk (.reg 0 15) c p u w rn rd) s = .refused (.unpredictable .offsetPc) ∧
        ((halfForm p w).writesBase = true → exec (mk (.reg 0 rn) c p u w rn rd) s = .refused (.unpredictable .offsetIsBase))) ∧
      ∀ o p u w rn rd, ¬ HalfOffset.defined o p w rn → ∃ why, exec (mk o c p u w rn rd) s = .refused (.unpredictable why)) ∧
    (∀ p u i w rn rd hi lo, exec (.ldrdSpace c p u i w rn rd hi lo) s = .refused (.unpredictable .ldrdSpace) ∧
      exec (.strdSpace c p u i w rn rd hi lo) s = .refused (.unpredictable .strdSpace)) ∧
    (∀ rn rd sh rm, (∀ (op : WriteOp) sf, exec (op.instr (.rshift 15 sh rm) c sf rn rd) s = .refused (.unpredictable .shiftByPc)) ∧
      ∀ op : CompareOp, exec (op.instr (.rshift 15 sh rm) c rn rd) s = .refused (.unpredictable .shiftByPc)) ∧
    ∀ p u w list list15, ∀ i ∈ [Instr.ldm c p u w 15 list, .stm c p u w 15 list, .ldmUser c p u w 15 list15,
      .stmUser c p u w 15 list, .ldmRet c p u w 15 list15], exec i s = .refused (.unpredictable .blockBasePc)

/-! ### ARM block transfers (42_arm_loadstore) -/

/-- LDM (ldm; R630 to R632, R640): each listed register gets the word of its slot, R15 branches with bits 1:0 cleared, the
base is written back unless it is listed; an empty list loads R15 alone and counts as 16 registers; nothing else changes. -/
def Obligations.LdmResults : Prop :=
  ∀ (c : Cond) (p u w : Bool) (rn : Reg) (list : BitVec 16) (s : State), Cond.passes c s.cpsr = true → rn ≠ 15 →
    let b := s.reg 8 rn
    ∃ t, exec (.ldm c p u w rn list) s = .next t ∧
      (list ≠ 0 →
        (∀ r : Reg, list.getLsbD r.toNat = true → r ≠ 15 → t.reg 8 r = s.memRead .data (slotOf p u b list r) .word) ∧
        t.pc = (if list.getLsbD 15 then s.memRead .data (slotOf p u b list 15) .word &&& 0xFFFFFFFC else s.pc + 4) ∧
        (w = true → list.getLsbD rn.toNat = false → t.reg 8 rn = blockBack u b (listCount list)) ∧
        FrameRegs (listRegs s.cpsr.mode list ++ if w then [physReg s.cpsr.mode rn] else []) s t) ∧
      (list = 0 → t.pc = s.memRead .data (blockBaseAddr p u b 16 &&& 0xFFFFFFFC) .word &&& 0xFFFFFFFC ∧
        (w = true → t.reg 8 rn = blockBack u b 16) ∧ FrameRegs (if w then [physReg s.cpsr.mode rn] else []) s t)

/-- The transfers of User-mode registers (ldmUser, stmUser; R641, R644): each listed register of the User bank gets the word of
its slot, or goes to it, R15 as pc + 12, and nothing else changes; refused with W = 1, in User and System mode, and with an
empty list. A block store of which the device policy turns a word away is refused (10_state R126); refusing the whole of it is
the model's choice (log 16). -/
def Obligations.UserBankResults : Prop :=
  ∀ (c : Cond) (p u w : Bool) (rn : Reg) (list : BitVec 16) (s : State), Cond.passes c s.cpsr = true → rn ≠ 15 →
    let l : BitVec 15 := list.setWidth 15
    let slot := slotOf p u (s.reg 8 rn)
    let ws := blockWords (slot list) (fun r => if r = 15 then s.pc + 12 else s.peek (physReg .usr r)) list
    (∀ why, (w = true ∧ why = Why.userBankWriteback) ∨
        (w = false ∧ (s.cpsr.mode = .usr ∨ s.cpsr.mode = .sys) ∧ why = .userBankMode) →
      exec (.ldmUser c p u w rn l) s = .refused (.unpredictable why) ∧
      exec (.stmUser c p u w rn list) s = .refused (.unpredictable why)) ∧
    (w = false → s.cpsr.mode ≠ .usr → s.cpsr.mode ≠ .sys →
      (l = 0 → exec (.ldmUser c p u w rn l) s = .refused (.unpredictable .userBankEmpty)) ∧
      (list = 0 → exec (.stmUser c p u w rn list) s = .refused (.unpredictable .userBankEmpty)) ∧
      (l ≠ 0 → ∃ t, exec (.ldmUser c p u w rn l) s = .next t ∧ t.pc = s.pc + 4 ∧
        (∀ r : Reg, r ≠ 15 → list.getLsbD r.toNat = true →
          t.peek (physReg .usr r) = s.memRead .data (slot (l.setWidth 16) r) .word) ∧
        FrameRegs (listRegs .usr (l.setWidth 16)) s t) ∧
      (list ≠ 0 → Accepted s ws → ∃ t, exec (.stmUser c p u w rn list) s = .next t ∧ t.pc = s.pc + 4 ∧ WroteAll s t ws ∧
        FrameStore [] (wordPlaces s.romLen ws) s t) ∧
      (list ≠ 0 → ¬ Accepted s ws → exec (.stmUser c p u w rn list) s = .refused .unmodelledDevice))

/-- LDM with R15 that restores the CPSR (ldmRet; R642, 60 R1220): the listed registers and the writeback in the view of the
mode, then the CPSR from the mode's SPSR, then the pc aligned by the new T; refused where the mode has no SPSR or the SPSR
names no mode. -/
def Obligations.LdmReturnResults : Prop :=
  ∀ (c : Cond) (p u w : Bool) (rn : Reg) (list : BitVec 15) (s : State), Cond.passes c s.cpsr = true → rn ≠ 15 →
    let b := s.reg 8 rn
    let l : BitVec 16 := list.setWidth 16 ||| 0x8000
    (s.cpsr.mode.spsrIndex = none → exec (.ldmRet c p u w rn list) s = .refused (.unpredictable .noSpsr)) ∧
    ∀ k, s.cpsr.mode.spsrIndex = some k →
      ((∀ m : Mode, s.spsr[k].m ≠ m.bits) → exec (.ldmRet c p u w rn list) s = .refused .invalidMode) ∧
      ∀ m : Mode, s.spsr[k].m = m.bits → ∃ t, exec (.ldmRet c p u w rn list) s = .next t ∧ t.cpsr.word = s.spsr[k].word ∧
        (∀ r : Reg, l.getLsbD r.toNat = true → r ≠ 15 →
          t.peek (physReg s.cpsr.mode r) = s.memRead .data (slotOf p u b l r) .word) ∧
        t.pc = (if s.spsr[k].t then s.memRead .data (slotOf p u b l 15) .word &&& 0xFFFFFFFE
          else s.memRead .data (slotOf p u b l 15) .word &&& 0xFFFFFFFC) ∧
        (w = true → l.getLsbD rn.toNat = false → t.peek (physReg s.cpsr.mode rn) = blockBack u b (listCount l)) ∧
        FrameFlags (listRegs s.cpsr.mode l ++ if w then [physReg s.cpsr.mode rn] else []) s t

/-- STM (stm; R630 to R632, R643): each listed register goes to its slot, R15 as pc + 12, a written-back base that is not the
lowest register as its new value; an empty list stores R15 alone and counts as 16 registers; the base is written back, and
nothing else changes. A block store of which the device policy turns a word away is refused (10_state R126); refusing the whole
of it is the model's choice (log 16). -/
def Obligations.StmResults : Prop :=
  ∀ (c : Cond) (p u w : Bool) (rn : Reg) (list : BitVec 16) (s : State), Cond.passes c s.cpsr = true → rn ≠ 15 →
    let b := s.reg 8 rn
    let n := if list = 0 then 16 else listCount list
    let value : Reg → Word := fun r =>
      if r = 15 then s.pc + 12 else if r = rn ∧ w = true ∧ rankIn list r ≠ 0 then blockBack u b n else s.reg 8 r
    let ws := if list = 0 then [(blockBaseAddr p u b 16 &&& 0xFFFFFFFC, s.pc + 12)] else blockWords (slotOf p u b list) value list
    (Accepted s ws → ∃ t, exec (.stm c p u w rn list) s = .next t ∧ t.pc = s.pc + 4 ∧ WroteAll s t ws ∧
      (w = true → t.reg 8 rn = blockBack u b n) ∧
      FrameStore (if w then [physReg s.cpsr.mode rn] else []) (wordPlaces s.romLen ws) s t) ∧
    (¬ Accepted s ws → exec (.stm c p u w rn list) s = .refused .unmodelledDevice)

/-! ### Branches and exceptions (43, 46) -/

/-- B, BL and BX (b, bl, bx; R700 to R702): the target is pc + 8 plus four times the signed offset; BL leaves pc + 4 in R14;
BX takes the instruction state from bit 0 and aligns by it; nothing else changes. -/
def Obligations.ArmBranches : Prop :=
  ∀ (c : Cond) (imm24 : BitVec 24) (rm : Reg) (s : State), Cond.passes c s.cpsr = true →
    let target := (s.pc + 8 + BitVec.ofInt 32 (imm24.toInt * 4)) &&& 0xFFFFFFFC
    exec (.b c imm24) s = .next { s with pc := target } ∧
    (∃ t, exec (.bl c imm24) s = .next t ∧ t.pc = target ∧ t.reg 8 14 = s.pc + 4 ∧ FrameRegs [physReg s.cpsr.mode 14] s t) ∧
    exec (.bx c rm) s = .next { s with
      cpsr := { s.cpsr with t := (s.reg 8 rm).getLsbD 0 }
      pc := if (s.reg 8 rm).getLsbD 0 then s.reg 8 rm &&& 0xFFFFFFFE else s.reg 8 rm &&& 0xFFFFFFFC }

/-- SWI and the undefined and coprocessor spaces take their exception (swi, undMulspace, undPsrspace, undA15, ldcStc, cdp,
mcrMrc, tSwi, tUndB, tUndDe, tUndE8; R710, R720, R1010, R1050, 60 R1200, R1201): the link is the next instruction, the old
CPSR is saved, and nothing else changes. -/
def Obligations.ExceptionInstructions : Prop :=
  ∀ (i : Instr) (c : Cond) (s : State), Cond.passes c s.cpsr = true →
    ((∃ imm24, i = .swi c imm24) → ∃ t, exec i s = .next t ∧ TookException s t .svc false 0x08 (s.pc + 4)) ∧
    ((∃ body, i = .undMulspace c body) ∨ (∃ body, i = .undPsrspace c body) ∨ (∃ hi lo, i = .undA15 c hi lo) ∨
      (∃ p u n w l rn crd cp off, i = .ldcStc c p u n w l rn crd cp off) ∨
      (∃ o1 crn crd cp o2 crm, i = .cdp c o1 crn crd cp o2 crm) ∨
      (∃ o1 l crn rd cp o2 crm, i = .mcrMrc c o1 l crn rd cp o2 crm) →
      ∃ t, exec i s = .next t ∧ TookException s t .und false 0x04 (s.pc + 4)) ∧
    ((∃ value8, i = .tSwi value8) → ∃ t, exec i s = .next t ∧ TookException s t .svc false 0x08 (s.pc + 2)) ∧
    ((∃ body, i = .tUndB body) ∨ (∃ body, i = .tUndDe body) ∨ (∃ body, i = .tUndE8 body) →
      ∃ t, exec i s = .next t ∧ TookException s t .und false 0x04 (s.pc + 2))

/-! ### Thumb (44_thumb_alu, 45_thumb_loadstore, 46_thumb_branch_system) -/

/-- The Thumb additions, subtractions and NEG (tAddReg, tSubReg, tAddImm3, tSubImm3, tAddImm8, tSubImm8, tAdc, tSbc, tNeg):
the result, the flags of the exact sum or difference, and nothing else (R811, R803 to R806, R809, R810, R825, R826, R829). -/
def Obligations.ThumbArithmetic : Prop :=
  ∀ (i : ThumbArith) (s : State), let (rd, op, a, b) := i.parts s
    ∃ t, exec i.instr s = .next t ∧ t.pc = s.pc + 2 ∧ t.reg 4 (lo rd) = op.result a b s.cpsr.c ∧
      ArithFlags op t.cpsr a b s.cpsr.c ∧ SameControl s t ∧ FrameFlags [physReg s.cpsr.mode (lo rd)] s t

/-- The Thumb logical instructions and shifts (tMovImm, tAnd, tEor, tOrr, tBic, tMvn, tLslImm, tLsrImm, tAsrImm, tLslReg,
tLsrReg, tAsrReg, tRor): the result, N and Z from it, C from the shifter or kept, V kept, and nothing else (R811, R812). -/
def Obligations.ThumbLogicAndShifts : Prop :=
  ∀ (i : ThumbLogic) (s : State), let (rd, out) := i.parts s
    ∃ t, exec i.instr s = .next t ∧ t.pc = s.pc + 2 ∧ t.reg 4 (lo rd) = out.value ∧
      LogicFlags s.cpsr t.cpsr out.value out.carry ∧ SameControl s t ∧ FrameFlags [physReg s.cpsr.mode (lo rd)] s t

/-- The Thumb comparisons (tCmpImm, tCmpReg, tCmpHi, tCmn, tTst): the flags only (R808, R811, R828, R830, R831, R841). -/
def Obligations.ThumbCompares : Prop :=
  ∀ (rs rd : LoReg) (imm8 : BitVec 8) (d m : Reg) (s : State),
    let a := s.reg 4 (lo rd)
    let b := s.reg 4 (lo rs)
    ∀ (i : Instr) (flags : Cpsr → Prop),
      (i, flags) ∈ [(Instr.tCmpImm rd imm8, fun p => ArithFlags .sub p a (imm8.setWidth 32) s.cpsr.c),
        (.tCmpReg rs rd, fun p => ArithFlags .sub p a b s.cpsr.c),
        (.tCmpHi d m, fun p => ArithFlags .sub p (s.reg 4 d) (s.reg 4 m) s.cpsr.c),
        (.tCmn rs rd, fun p => ArithFlags .add p a b s.cpsr.c),
        (.tTst rs rd, fun p => LogicFlags s.cpsr p (a &&& b) s.cpsr.c)] →
      ∃ t, exec i s = .next t ∧ t.pc = s.pc + 2 ∧ flags t.cpsr ∧ SameControl s t ∧ FrameFlags [] s t

/-- Thumb hi-register ADD, MOV and BX (tAddHi, tMovHi, tBx; R840, R842, R843): no flag changes; a write to R15 branches with
bit 0 cleared and stays in Thumb state; BX takes the state from bit 0; the ARMv5 BLX space (tBlxRegSpace) is refused on
every operand (30 R331). -/
def Obligations.ThumbHiRegisters : Prop :=
  ∀ (d m : Reg) (low : BitVec 3) (s : State), let v := s.reg 4 m
    (∀ (i : Instr) (r : Word), (i, r) ∈ [(Instr.tAddHi d m, s.reg 4 d + v), (.tMovHi d m, v)] →
      (d = 15 → exec i s = .next { s with pc := r &&& 0xFFFFFFFE }) ∧
      (d ≠ 15 → ∃ t, exec i s = .next t ∧ t.pc = s.pc + 2 ∧ t.reg 4 d = r ∧ FrameRegs [physReg s.cpsr.mode d] s t)) ∧
    exec (.tBx m low) s = .next { s with
      cpsr := { s.cpsr with t := v.getLsbD 0 }
      pc := if v.getLsbD 0 then v &&& 0xFFFFFFFE else v &&& 0xFFFFFFFC } ∧
    exec (.tBlxRegSpace m low) s = .refused (.unpredictable .blxSpace)

/-- The ten Thumb loads (tLdrPc, tLdrReg, tLdrbReg, tLdsb, tLdrhReg, tLdsh, tLdrImm, tLdrbImm, tLdrhImm, tLdrSp): Rd gets the
loaded value, and nothing else changes (R900, R903, R904, R906 to R908, R911, R913, R915, R917). -/
def Obligations.ThumbLoads : Prop :=
  ∀ (i : ThumbLoad) (s : State), let (rd, k, a) := i.parts s
    ∃ t, exec i.instr s = .next t ∧ t.pc = s.pc + 2 ∧ t.reg 4 (lo rd) = s.loadValue k a ∧
      FrameRegs [physReg s.cpsr.mode (lo rd)] s t

/-- The seven Thumb stores (tStrReg, tStrbReg, tStrhReg, tStrImm, tStrbImm, tStrhImm, tStrSp): the low bytes of Rd at the
aligned address, and nothing else (R901, R902, R905, R910, R912, R914, R916). A store that the device policy turns away is
refused (10_state R126); refusing the whole of it is the model's choice (log 16). -/
def Obligations.ThumbStores : Prop :=
  ∀ (i : ThumbStore) (s : State), let (rd, w, a) := i.parts s
    (s.refusesWrite a w = true → exec i.instr s = .refused .unmodelledDevice) ∧
    (s.refusesWrite a w = false → ∃ t, exec i.instr s = .next t ∧ t.pc = s.pc + 2 ∧ Wrote s t a w (s.reg 4 (lo rd)) ∧
      FrameStore [] (storePlaces s.romLen w a) s t)

/-- Thumb addresses (tAddPc, tAddSp, tAddSpimm, tSubSpimm; R920 to R923): the aligned pc + 4 or SP plus four times the
immediate in Rd, SP plus or minus four times the immediate in SP; no flag and nothing else changes. -/
def Obligations.ThumbAddresses : Prop :=
  ∀ (rd : LoReg) (word8 : BitVec 8) (sword7 : BitVec 7) (s : State),
    ∀ (i : Instr) (d : Reg) (v : Word),
      (i, d, v) ∈ [(Instr.tAddPc rd word8, lo rd, ((s.pc + 4) &&& 0xFFFFFFFC) + word8.setWidth 32 * 4),
        (.tAddSp rd word8, lo rd, s.reg 4 13 + word8.setWidth 32 * 4),
        (.tAddSpimm sword7, 13, s.reg 4 13 + sword7.setWidth 32 * 4),
        (.tSubSpimm sword7, 13, s.reg 4 13 - sword7.setWidth 32 * 4)] →
      ∃ t, exec i s = .next t ∧ t.pc = s.pc + 2 ∧ t.reg 4 d = v ∧ FrameRegs [physReg s.cpsr.mode d] s t

/-- PUSH and POP (tPush, tPop; R929 to R931): PUSH stores the listed registers, with R = 1 also R14, below SP, the lowest
register lowest, and SP moves down by four a register; POP loads them from SP up, with R = 1 also the pc with bit 0 cleared
(the state stays Thumb), and SP moves up; nothing else changes; an empty list is refused. A PUSH of which the device policy
turns a word away is refused (10_state R126); refusing the whole of it is the model's choice (log 16). -/
def Obligations.ThumbStack : Prop :=
  ∀ (r : Bool) (rlist : BitVec 8) (s : State),
    let push : BitVec 16 := rlist.setWidth 16 ||| (if r then 0x4000 else 0)
    let ws := blockWords (slotOf true false (s.reg 4 13) push) (s.reg 4) push
    let pop : BitVec 16 := rlist.setWidth 16 ||| (if r then 0x8000 else 0)
    let slot := slotOf false true (s.reg 4 13) pop
    (r = false → rlist = 0 → exec (.tPush r rlist) s = .refused (.unpredictable .thumbEmptyList) ∧
      exec (.tPop r rlist) s = .refused (.unpredictable .thumbEmptyList)) ∧
    ((r = false → rlist ≠ 0) →
      (Accepted s ws → ∃ t, exec (.tPush r rlist) s = .next t ∧ t.pc = s.pc + 2 ∧ WroteAll s t ws ∧
        t.reg 4 13 = s.reg 4 13 - BitVec.ofNat 32 (4 * listCount push) ∧
        FrameStore [physReg s.cpsr.mode 13] (wordPlaces s.romLen ws) s t) ∧
      (¬ Accepted s ws → exec (.tPush r rlist) s = .refused .unmodelledDevice) ∧
      ∃ t, exec (.tPop r rlist) s = .next t ∧
        (∀ q : LoReg, rlist.getLsbD q.toNat = true → t.reg 4 (lo q) = s.memRead .data (slot (lo q)) .word) ∧
        t.pc = (if r then s.memRead .data (slot 15) .word &&& 0xFFFFFFFE else s.pc + 2) ∧
        t.reg 4 13 = s.reg 4 13 + BitVec.ofNat 32 (4 * listCount pop) ∧
        FrameRegs (physReg s.cpsr.mode 13 :: listRegs s.cpsr.mode pop) s t)

/-- STMIA and LDMIA (tStmia, tLdmia; R929, R932, R933): the listed registers to the base up, a base that is not the lowest as its
new value, or from the base up; the base moves up by four a register, but a base that LDMIA lists keeps the loaded word;
nothing else changes; an empty list is refused. A STMIA of which the device policy turns a word away is refused (10_state R126);
refusing the whole of it is the model's choice (log 16). -/
def Obligations.ThumbBlocks : Prop :=
  ∀ (rb : LoReg) (rlist : BitVec 8) (s : State),
    let list : BitVec 16 := rlist.setWidth 16
    let b := s.reg 4 (lo rb)
    let back := b + BitVec.ofNat 32 (4 * listCount list)
    let ws := blockWords (slotOf false true b list) (fun r => if r = lo rb ∧ rankIn list r ≠ 0 then back else s.reg 4 r) list
    (rlist = 0 → exec (.tStmia rb rlist) s = .refused (.unpredictable .thumbEmptyList) ∧
      exec (.tLdmia rb rlist) s = .refused (.unpredictable .thumbEmptyList)) ∧
    (rlist ≠ 0 →
      (Accepted s ws → ∃ t, exec (.tStmia rb rlist) s = .next t ∧ t.pc = s.pc + 2 ∧ WroteAll s t ws ∧
        t.reg 4 (lo rb) = back ∧ FrameStore [physReg s.cpsr.mode (lo rb)] (wordPlaces s.romLen ws) s t) ∧
      (¬ Accepted s ws → exec (.tStmia rb rlist) s = .refused .unmodelledDevice) ∧
      ∃ t, exec (.tLdmia rb rlist) s = .next t ∧ t.pc = s.pc + 2 ∧
        (∀ q : LoReg, rlist.getLsbD q.toNat = true →
          t.reg 4 (lo q) = s.memRead .data (slotOf false true b list (lo q)) .word) ∧
        (rlist.getLsbD rb.toNat = false → t.reg 4 (lo rb) = back) ∧
        FrameRegs (physReg s.cpsr.mode (lo rb) :: listRegs s.cpsr.mode list) s t)

/-- Thumb branches (tBcond, tB, tBlHi, tBlLo; R1000, R1020, R1040, R1041): pc + 4 plus twice the signed offset, taken or not by
the condition; the BL prefix leaves pc + 4 plus the offset's high part in R14, the suffix goes to R14 plus twice its offset
and leaves the next address with bit 0 set in R14; nothing else changes. -/
def Obligations.ThumbBranches : Prop :=
  ∀ (c : Cond) (soffset8 : BitVec 8) (offset11 : BitVec 11) (s : State),
    (Cond.passes c s.cpsr = true → exec (.tBcond c soffset8) s =
      .next { s with pc := (s.pc + 4 + BitVec.ofInt 32 (soffset8.toInt * 2)) &&& 0xFFFFFFFE }) ∧
    (Cond.passes c s.cpsr = false → exec (.tBcond c soffset8) s = .next { s with pc := s.pc + 2 }) ∧
    exec (.tB offset11) s = .next { s with pc := (s.pc + 4 + BitVec.ofInt 32 (offset11.toInt * 2)) &&& 0xFFFFFFFE } ∧
    (∃ t, exec (.tBlHi offset11) s = .next t ∧ t.pc = s.pc + 2 ∧
      t.reg 4 14 = s.pc + 4 + BitVec.ofInt 32 (offset11.toInt * 4096) ∧ FrameRegs [physReg s.cpsr.mode 14] s t) ∧
    ∃ t, exec (.tBlLo offset11) s = .next t ∧ t.pc = (s.reg 4 14 + offset11.setWidth 32 * 2) &&& 0xFFFFFFFE ∧
      t.reg 4 14 = (s.pc + 2) ||| 1 ∧ FrameRegs [physReg s.cpsr.mode 14] s t
end

