-- ==== Sys2Proof/Laws/Memory.lean ====
section
/-! SUPPORT. Memory: a read after a write, and that every operation keeps the canonical form. -/

namespace Sys2Proof.Machine

open Sys2Proof

theorem Memory.read_cell (k : Nat) (b : Byte) (a : Nat) : (Memory.cell k b).read a = if k = a then b else 0 := by
  unfold Memory.cell
  split <;> simp_all [Memory.read]

theorem Memory.read_append (m n : Memory) (a : Nat) :
    Memory.read (m ++ n) a = if a ∈ m.map Prod.fst then m.read a else n.read a := by
  induction m with
  | nil => simp
  | cons c m ih =>
    by_cases h : c.1 = a
    · simp [Memory.read, h]
    · simp only [List.cons_append, Memory.read, if_neg h, ih, List.map_cons, List.mem_cons, Ne.symm h, false_or]

theorem Memory.read_of_not_mem (m : Memory) (a : Nat) (h : a ∉ m.map Prod.fst) : m.read a = 0 := by
  induction m with
  | nil => rfl
  | cons c m ih => simp only [List.map_cons, List.mem_cons, not_or] at h; simp [Memory.read, Ne.symm h.1, ih h.2]

/-- The second part holds no byte at the key. -/
theorem Memory.read_append_left (m n : Memory) (a : Nat) (h : a ∉ n.map Prod.fst) : Memory.read (m ++ n) a = m.read a := by
  rw [Memory.read_append]
  split
  · rfl
  · rename_i hm; rw [Memory.read_of_not_mem _ _ h, Memory.read_of_not_mem _ _ hm]

/-- The first part holds no byte at the key. -/
theorem Memory.read_append_right (m n : Memory) (a : Nat) (h : a ∉ m.map Prod.fst) : Memory.read (m ++ n) a = n.read a := by
  rw [Memory.read_append, if_neg h]

/-- A filter by key holds no byte at a key it does not keep. -/
theorem Memory.not_mem_filter (m : Memory) (p : Nat → Bool) (a : Nat) (h : p a = false) :
    a ∉ (m.filter fun c => p c.1).map Prod.fst := by
  rintro hm
  obtain ⟨x, hx, rfl⟩ := List.mem_map.1 hm
  have := (List.mem_filter.1 hx).2
  rw [h] at this; cases this

/-- A filter by key keeps the bytes whose keys it keeps. -/
theorem Memory.read_filter (m : Memory) (p : Nat → Bool) (a : Nat) :
    Memory.read (m.filter fun c => p c.1) a = if p a then m.read a else 0 := by
  induction m with
  | nil => simp [Memory.read]
  | cons c m ih =>
    by_cases h : c.1 = a
    · subst h; by_cases hp : p c.1 <;> simp [Memory.read, hp, ih]
    · by_cases hp : p c.1 <;> simp [Memory.read, hp, ih, h]

/-- The byte at a key after a write there is the byte written. Every other byte is as before. -/
@[simp] theorem Memory.read_write (m : Memory) (k : Nat) (b : Byte) (a : Nat) :
    (m.write k b).read a = if k = a then b else m.read a := by
  rw [Memory.write, List.append_assoc, Memory.read_append, Memory.read_append, Memory.read_cell,
    Memory.read_filter m (fun x => decide (x < k)), Memory.read_filter m (fun x => decide (k < x))]
  by_cases h1 : k = a
  · subst h1
    rw [if_neg (by simp)]
    by_cases hb : b = 0#8
    · subst hb; simp [Memory.cell]
    · simp [Memory.cell, Ne.symm hb]; exact hb
  · have hc : a ∉ (Memory.cell k b).map Prod.fst := by
      unfold Memory.cell; split <;> simp [Ne.symm h1]
    simp only [if_neg h1, if_neg hc]
    split
    · rename_i h
      obtain ⟨c, hm, rfl⟩ := List.mem_map.1 h
      rw [if_pos (List.mem_filter.1 hm).2]
    · rename_i h
      by_cases h2 : k < a
      · simp [h2]
      · have h3 : a < k := by omega
        simp only [h2, decide_false, Bool.false_eq_true, if_false]
        refine (Memory.read_of_not_mem m a fun hm => h ?_).symm
        obtain ⟨c, hq, rfl⟩ := List.mem_map.1 hm
        exact List.mem_map.2 ⟨c, List.mem_filter.2 ⟨hq, by simpa using h3⟩, rfl⟩

/-- A write keeps the canonical form. -/
theorem Memory.wf_write (m : Memory) (k : Nat) (b : Byte) (h : m.wf = true) : (m.write k b).wf = true := by
  simp only [Memory.wf, Bool.and_eq_true, decide_eq_true_eq, List.all_eq_true] at h ⊢
  obtain ⟨hp, ha⟩ := h
  have hcell : ∀ c ∈ Memory.cell k b, c.1 = k ∧ (c.2 != 0) = true := by
    unfold Memory.cell; split
    · simp
    · rename_i hb; simpa using hb
  constructor
  · rw [Memory.write, List.append_assoc, List.pairwise_append, List.pairwise_append]
    refine ⟨hp.filter _, ⟨?_, hp.filter _, ?_⟩, ?_⟩
    · unfold Memory.cell; split <;> simp
    · intro x hx y hy
      have := (List.mem_filter.1 hy).2
      rw [(hcell x hx).1]; simpa using this
    · intro x hx y hy
      have h1 : x.1 < k := by simpa using (List.mem_filter.1 hx).2
      rcases List.mem_append.1 hy with h | h
      · rw [(hcell y h).1]; exact h1
      · exact h1.trans (by simpa using (List.mem_filter.1 h).2)
  · intro c hc
    rw [Memory.write, List.append_assoc, List.mem_append, List.mem_append] at hc
    rcases hc with h | h | h
    · exact ha c (List.mem_filter.1 h).1
    · exact (hcell c h).2
    · exact ha c (List.mem_filter.1 h).1

theorem Memory.wf_writeList (bs : List Byte) : ∀ (m : Memory) (k : Nat), m.wf = true → (m.writeList k bs).wf = true := by
  induction bs with
  | nil => exact fun _ _ h => h
  | cons b bs ih => exact fun m k h => ih _ _ (m.wf_write k b h)

/-- A filter keeps the canonical form. -/
theorem Memory.wf_filter (m : Memory) (p : Host.Cell → Bool) (h : m.wf = true) : Memory.wf (m.filter p) = true := by
  simp only [Memory.wf, Bool.and_eq_true, decide_eq_true_eq, List.all_eq_true] at h ⊢
  exact ⟨h.1.filter _, fun c hc => h.2 c (List.mem_filter.1 hc).1⟩

/-- Two memories in canonical form, every key of the first below every key of the second, join to one. -/
theorem Memory.wf_append (m n : Memory) (hm : m.wf = true) (hn : n.wf = true) (h : ∀ x ∈ m, ∀ y ∈ n, x.1 < y.1) :
    Memory.wf (m ++ n) = true := by
  simp only [Memory.wf, Bool.and_eq_true, decide_eq_true_eq, List.all_eq_true] at hm hn ⊢
  exact ⟨List.pairwise_append.2 ⟨hm.1, hn.1, h⟩, fun c hc => (List.mem_append.1 hc).elim (hm.2 c) (hn.2 c)⟩

end Sys2Proof.Machine
end

