-- ==== Sys2Proof/Laws/State.lean ====
section
/-! SUPPORT. One lemma per field and update of State, so that no proof unfolds a record update. -/

namespace Sys2Proof.Machine

open Sys2Proof

variable (s : State)

/-! ### poke -/

@[simp] theorem State.poke_regs (p : Fin 30) (v : Word) : (s.poke p v).regs = s.regs.set p v := rfl
@[simp] theorem State.poke_pc (p : Fin 30) (v : Word) : (s.poke p v).pc = s.pc := rfl
@[simp] theorem State.poke_cpsr (p : Fin 30) (v : Word) : (s.poke p v).cpsr = s.cpsr := rfl
@[simp] theorem State.poke_spsr (p : Fin 30) (v : Word) : (s.poke p v).spsr = s.spsr := rfl
@[simp] theorem State.poke_mem (p : Fin 30) (v : Word) : (s.poke p v).mem = s.mem := rfl
@[simp] theorem State.poke_romLen (p : Fin 30) (v : Word) : (s.poke p v).romLen = s.romLen := rfl
@[simp] theorem State.poke_io (p : Fin 30) (v : Word) : (s.poke p v).io = s.io := rfl
@[simp] theorem State.poke_halt (p : Fin 30) (v : Word) : (s.poke p v).halt = s.halt := rfl
@[simp] theorem State.poke_fiqLine (p : Fin 30) (v : Word) : (s.poke p v).fiqLine = s.fiqLine := rfl
@[simp] theorem State.poke_params (p : Fin 30) (v : Word) : (s.poke p v).params = s.params := rfl
@[simp] theorem State.poke_debugger (p : Fin 30) (v : Word) : (s.poke p v).debugger = s.debugger := rfl
@[simp] theorem State.poke_host (p : Fin 30) (v : Word) : (s.poke p v).host = s.host := rfl
@[simp] theorem State.poke_draws (p : Fin 30) (v : Word) : (s.poke p v).draws = s.draws := rfl

/-! ### setPc -/

@[simp] theorem State.setPc_regs (a : Word) : (s.setPc a).regs = s.regs := rfl
@[simp] theorem State.setPc_pc (a : Word) : (s.setPc a).pc = a := rfl
@[simp] theorem State.setPc_cpsr (a : Word) : (s.setPc a).cpsr = s.cpsr := rfl
@[simp] theorem State.setPc_spsr (a : Word) : (s.setPc a).spsr = s.spsr := rfl
@[simp] theorem State.setPc_mem (a : Word) : (s.setPc a).mem = s.mem := rfl
@[simp] theorem State.setPc_romLen (a : Word) : (s.setPc a).romLen = s.romLen := rfl
@[simp] theorem State.setPc_io (a : Word) : (s.setPc a).io = s.io := rfl
@[simp] theorem State.setPc_halt (a : Word) : (s.setPc a).halt = s.halt := rfl
@[simp] theorem State.setPc_fiqLine (a : Word) : (s.setPc a).fiqLine = s.fiqLine := rfl
@[simp] theorem State.setPc_params (a : Word) : (s.setPc a).params = s.params := rfl
@[simp] theorem State.setPc_debugger (a : Word) : (s.setPc a).debugger = s.debugger := rfl
@[simp] theorem State.setPc_host (a : Word) : (s.setPc a).host = s.host := rfl
@[simp] theorem State.setPc_draws (a : Word) : (s.setPc a).draws = s.draws := rfl

/-! ### setCpsr -/

@[simp] theorem State.setCpsr_regs (p : Cpsr) : (s.setCpsr p).regs = s.regs := rfl
@[simp] theorem State.setCpsr_pc (p : Cpsr) : (s.setCpsr p).pc = s.pc := rfl
@[simp] theorem State.setCpsr_cpsr (p : Cpsr) : (s.setCpsr p).cpsr = p := rfl
@[simp] theorem State.setCpsr_spsr (p : Cpsr) : (s.setCpsr p).spsr = s.spsr := rfl
@[simp] theorem State.setCpsr_mem (p : Cpsr) : (s.setCpsr p).mem = s.mem := rfl
@[simp] theorem State.setCpsr_romLen (p : Cpsr) : (s.setCpsr p).romLen = s.romLen := rfl
@[simp] theorem State.setCpsr_io (p : Cpsr) : (s.setCpsr p).io = s.io := rfl
@[simp] theorem State.setCpsr_halt (p : Cpsr) : (s.setCpsr p).halt = s.halt := rfl
@[simp] theorem State.setCpsr_fiqLine (p : Cpsr) : (s.setCpsr p).fiqLine = s.fiqLine := rfl
@[simp] theorem State.setCpsr_params (p : Cpsr) : (s.setCpsr p).params = s.params := rfl
@[simp] theorem State.setCpsr_debugger (p : Cpsr) : (s.setCpsr p).debugger = s.debugger := rfl
@[simp] theorem State.setCpsr_host (p : Cpsr) : (s.setCpsr p).host = s.host := rfl
@[simp] theorem State.setCpsr_draws (p : Cpsr) : (s.setCpsr p).draws = s.draws := rfl

/-! ### setSpsr -/

@[simp] theorem State.setSpsr_regs (k : Fin 5) (p : Psr) : (s.setSpsr k p).regs = s.regs := rfl
@[simp] theorem State.setSpsr_pc (k : Fin 5) (p : Psr) : (s.setSpsr k p).pc = s.pc := rfl
@[simp] theorem State.setSpsr_cpsr (k : Fin 5) (p : Psr) : (s.setSpsr k p).cpsr = s.cpsr := rfl
@[simp] theorem State.setSpsr_spsr (k : Fin 5) (p : Psr) : (s.setSpsr k p).spsr = s.spsr.set k p := rfl
@[simp] theorem State.setSpsr_mem (k : Fin 5) (p : Psr) : (s.setSpsr k p).mem = s.mem := rfl
@[simp] theorem State.setSpsr_romLen (k : Fin 5) (p : Psr) : (s.setSpsr k p).romLen = s.romLen := rfl
@[simp] theorem State.setSpsr_io (k : Fin 5) (p : Psr) : (s.setSpsr k p).io = s.io := rfl
@[simp] theorem State.setSpsr_halt (k : Fin 5) (p : Psr) : (s.setSpsr k p).halt = s.halt := rfl
@[simp] theorem State.setSpsr_fiqLine (k : Fin 5) (p : Psr) : (s.setSpsr k p).fiqLine = s.fiqLine := rfl
@[simp] theorem State.setSpsr_params (k : Fin 5) (p : Psr) : (s.setSpsr k p).params = s.params := rfl
@[simp] theorem State.setSpsr_debugger (k : Fin 5) (p : Psr) : (s.setSpsr k p).debugger = s.debugger := rfl
@[simp] theorem State.setSpsr_host (k : Fin 5) (p : Psr) : (s.setSpsr k p).host = s.host := rfl
@[simp] theorem State.setSpsr_draws (k : Fin 5) (p : Psr) : (s.setSpsr k p).draws = s.draws := rfl

/-! ### setReg -/

@[simp] theorem State.setReg_regs (r : Reg) (v : Word) : (s.setReg r v).regs = s.regs.set (physReg s.cpsr.mode r) v := rfl
@[simp] theorem State.setReg_pc (r : Reg) (v : Word) : (s.setReg r v).pc = s.pc := rfl
@[simp] theorem State.setReg_cpsr (r : Reg) (v : Word) : (s.setReg r v).cpsr = s.cpsr := rfl
@[simp] theorem State.setReg_spsr (r : Reg) (v : Word) : (s.setReg r v).spsr = s.spsr := rfl
@[simp] theorem State.setReg_mem (r : Reg) (v : Word) : (s.setReg r v).mem = s.mem := rfl
@[simp] theorem State.setReg_romLen (r : Reg) (v : Word) : (s.setReg r v).romLen = s.romLen := rfl
@[simp] theorem State.setReg_io (r : Reg) (v : Word) : (s.setReg r v).io = s.io := rfl
@[simp] theorem State.setReg_halt (r : Reg) (v : Word) : (s.setReg r v).halt = s.halt := rfl
@[simp] theorem State.setReg_fiqLine (r : Reg) (v : Word) : (s.setReg r v).fiqLine = s.fiqLine := rfl
@[simp] theorem State.setReg_params (r : Reg) (v : Word) : (s.setReg r v).params = s.params := rfl
@[simp] theorem State.setReg_debugger (r : Reg) (v : Word) : (s.setReg r v).debugger = s.debugger := rfl
@[simp] theorem State.setReg_host (r : Reg) (v : Word) : (s.setReg r v).host = s.host := rfl
@[simp] theorem State.setReg_draws (r : Reg) (v : Word) : (s.setReg r v).draws = s.draws := rfl

/-! ### setUserReg -/

@[simp] theorem State.setUserReg_regs (r : Reg) (v : Word) : (s.setUserReg r v).regs = s.regs.set (physReg .usr r) v := rfl
@[simp] theorem State.setUserReg_pc (r : Reg) (v : Word) : (s.setUserReg r v).pc = s.pc := rfl
@[simp] theorem State.setUserReg_cpsr (r : Reg) (v : Word) : (s.setUserReg r v).cpsr = s.cpsr := rfl
@[simp] theorem State.setUserReg_spsr (r : Reg) (v : Word) : (s.setUserReg r v).spsr = s.spsr := rfl
@[simp] theorem State.setUserReg_mem (r : Reg) (v : Word) : (s.setUserReg r v).mem = s.mem := rfl
@[simp] theorem State.setUserReg_romLen (r : Reg) (v : Word) : (s.setUserReg r v).romLen = s.romLen := rfl
@[simp] theorem State.setUserReg_io (r : Reg) (v : Word) : (s.setUserReg r v).io = s.io := rfl
@[simp] theorem State.setUserReg_halt (r : Reg) (v : Word) : (s.setUserReg r v).halt = s.halt := rfl
@[simp] theorem State.setUserReg_fiqLine (r : Reg) (v : Word) : (s.setUserReg r v).fiqLine = s.fiqLine := rfl
@[simp] theorem State.setUserReg_params (r : Reg) (v : Word) : (s.setUserReg r v).params = s.params := rfl
@[simp] theorem State.setUserReg_debugger (r : Reg) (v : Word) : (s.setUserReg r v).debugger = s.debugger := rfl
@[simp] theorem State.setUserReg_host (r : Reg) (v : Word) : (s.setUserReg r v).host = s.host := rfl
@[simp] theorem State.setUserReg_draws (r : Reg) (v : Word) : (s.setUserReg r v).draws = s.draws := rfl

/-! ### advance -/

@[simp] theorem State.advance_regs (n : Word) : (s.advance n).regs = s.regs := rfl
@[simp] theorem State.advance_pc (n : Word) : (s.advance n).pc = s.pc + n := rfl
@[simp] theorem State.advance_cpsr (n : Word) : (s.advance n).cpsr = s.cpsr := rfl
@[simp] theorem State.advance_spsr (n : Word) : (s.advance n).spsr = s.spsr := rfl
@[simp] theorem State.advance_mem (n : Word) : (s.advance n).mem = s.mem := rfl
@[simp] theorem State.advance_romLen (n : Word) : (s.advance n).romLen = s.romLen := rfl
@[simp] theorem State.advance_io (n : Word) : (s.advance n).io = s.io := rfl
@[simp] theorem State.advance_halt (n : Word) : (s.advance n).halt = s.halt := rfl
@[simp] theorem State.advance_fiqLine (n : Word) : (s.advance n).fiqLine = s.fiqLine := rfl
@[simp] theorem State.advance_params (n : Word) : (s.advance n).params = s.params := rfl
@[simp] theorem State.advance_debugger (n : Word) : (s.advance n).debugger = s.debugger := rfl
@[simp] theorem State.advance_host (n : Word) : (s.advance n).host = s.host := rfl
@[simp] theorem State.advance_draws (n : Word) : (s.advance n).draws = s.draws := rfl

/-! ### branchArm -/

@[simp] theorem State.branchArm_regs (v : Word) : (s.branchArm v).regs = s.regs := rfl
@[simp] theorem State.branchArm_pc (v : Word) : (s.branchArm v).pc = alignPc false v := rfl
@[simp] theorem State.branchArm_cpsr (v : Word) : (s.branchArm v).cpsr = s.cpsr := rfl
@[simp] theorem State.branchArm_spsr (v : Word) : (s.branchArm v).spsr = s.spsr := rfl
@[simp] theorem State.branchArm_mem (v : Word) : (s.branchArm v).mem = s.mem := rfl
@[simp] theorem State.branchArm_romLen (v : Word) : (s.branchArm v).romLen = s.romLen := rfl
@[simp] theorem State.branchArm_io (v : Word) : (s.branchArm v).io = s.io := rfl
@[simp] theorem State.branchArm_halt (v : Word) : (s.branchArm v).halt = s.halt := rfl
@[simp] theorem State.branchArm_fiqLine (v : Word) : (s.branchArm v).fiqLine = s.fiqLine := rfl
@[simp] theorem State.branchArm_params (v : Word) : (s.branchArm v).params = s.params := rfl
@[simp] theorem State.branchArm_debugger (v : Word) : (s.branchArm v).debugger = s.debugger := rfl
@[simp] theorem State.branchArm_host (v : Word) : (s.branchArm v).host = s.host := rfl
@[simp] theorem State.branchArm_draws (v : Word) : (s.branchArm v).draws = s.draws := rfl

/-! ### branchThumb -/

@[simp] theorem State.branchThumb_regs (v : Word) : (s.branchThumb v).regs = s.regs := rfl
@[simp] theorem State.branchThumb_pc (v : Word) : (s.branchThumb v).pc = alignPc true v := rfl
@[simp] theorem State.branchThumb_cpsr (v : Word) : (s.branchThumb v).cpsr = s.cpsr := rfl
@[simp] theorem State.branchThumb_spsr (v : Word) : (s.branchThumb v).spsr = s.spsr := rfl
@[simp] theorem State.branchThumb_mem (v : Word) : (s.branchThumb v).mem = s.mem := rfl
@[simp] theorem State.branchThumb_romLen (v : Word) : (s.branchThumb v).romLen = s.romLen := rfl
@[simp] theorem State.branchThumb_io (v : Word) : (s.branchThumb v).io = s.io := rfl
@[simp] theorem State.branchThumb_halt (v : Word) : (s.branchThumb v).halt = s.halt := rfl
@[simp] theorem State.branchThumb_fiqLine (v : Word) : (s.branchThumb v).fiqLine = s.fiqLine := rfl
@[simp] theorem State.branchThumb_params (v : Word) : (s.branchThumb v).params = s.params := rfl
@[simp] theorem State.branchThumb_debugger (v : Word) : (s.branchThumb v).debugger = s.debugger := rfl
@[simp] theorem State.branchThumb_host (v : Word) : (s.branchThumb v).host = s.host := rfl
@[simp] theorem State.branchThumb_draws (v : Word) : (s.branchThumb v).draws = s.draws := rfl

/-! ### exchange -/

@[simp] theorem State.exchange_regs (v : Word) : (s.exchange v).regs = s.regs := rfl
@[simp] theorem State.exchange_pc (v : Word) : (s.exchange v).pc = alignPc (v.getLsbD 0) v := rfl
@[simp] theorem State.exchange_cpsr (v : Word) : (s.exchange v).cpsr = { s.cpsr with t := v.getLsbD 0 } := rfl
@[simp] theorem State.exchange_spsr (v : Word) : (s.exchange v).spsr = s.spsr := rfl
@[simp] theorem State.exchange_mem (v : Word) : (s.exchange v).mem = s.mem := rfl
@[simp] theorem State.exchange_romLen (v : Word) : (s.exchange v).romLen = s.romLen := rfl
@[simp] theorem State.exchange_io (v : Word) : (s.exchange v).io = s.io := rfl
@[simp] theorem State.exchange_halt (v : Word) : (s.exchange v).halt = s.halt := rfl
@[simp] theorem State.exchange_fiqLine (v : Word) : (s.exchange v).fiqLine = s.fiqLine := rfl
@[simp] theorem State.exchange_params (v : Word) : (s.exchange v).params = s.params := rfl
@[simp] theorem State.exchange_debugger (v : Word) : (s.exchange v).debugger = s.debugger := rfl
@[simp] theorem State.exchange_host (v : Word) : (s.exchange v).host = s.host := rfl
@[simp] theorem State.exchange_draws (v : Word) : (s.exchange v).draws = s.draws := rfl

/-! ### takeException -/

@[simp] theorem State.takeException_regs (kind : ExcKind) (link : Word) : (s.takeException kind link).regs = s.regs.set (physReg kind.mode 14) link := rfl
@[simp] theorem State.takeException_pc (kind : ExcKind) (link : Word) : (s.takeException kind link).pc = alignPc false kind.vector := rfl
@[simp] theorem State.takeException_cpsr (kind : ExcKind) (link : Word) : (s.takeException kind link).cpsr = 
    { s.cpsr with mode := kind.mode, t := false, i := true, f := s.cpsr.f || kind.setsF } := rfl
@[simp] theorem State.takeException_spsr (kind : ExcKind) (link : Word) : (s.takeException kind link).spsr = s.spsr.set kind.spsrIndex s.cpsr.toPsr := rfl
@[simp] theorem State.takeException_mem (kind : ExcKind) (link : Word) : (s.takeException kind link).mem = s.mem := rfl
@[simp] theorem State.takeException_romLen (kind : ExcKind) (link : Word) : (s.takeException kind link).romLen = s.romLen := rfl
@[simp] theorem State.takeException_io (kind : ExcKind) (link : Word) : (s.takeException kind link).io = s.io := rfl
@[simp] theorem State.takeException_halt (kind : ExcKind) (link : Word) : (s.takeException kind link).halt = s.halt := rfl
@[simp] theorem State.takeException_fiqLine (kind : ExcKind) (link : Word) : (s.takeException kind link).fiqLine = s.fiqLine := rfl
@[simp] theorem State.takeException_params (kind : ExcKind) (link : Word) : (s.takeException kind link).params = s.params := rfl
@[simp] theorem State.takeException_debugger (kind : ExcKind) (link : Word) : (s.takeException kind link).debugger = s.debugger := rfl
@[simp] theorem State.takeException_host (kind : ExcKind) (link : Word) : (s.takeException kind link).host = s.host := rfl
@[simp] theorem State.takeException_draws (kind : ExcKind) (link : Word) : (s.takeException kind link).draws = s.draws := rfl

/-! ### nextEpoch -/

@[simp] theorem State.nextEpoch_regs : (s.nextEpoch).regs = s.regs := rfl
@[simp] theorem State.nextEpoch_pc : (s.nextEpoch).pc = s.pc := rfl
@[simp] theorem State.nextEpoch_cpsr : (s.nextEpoch).cpsr = s.cpsr := rfl
@[simp] theorem State.nextEpoch_spsr : (s.nextEpoch).spsr = s.spsr := rfl
@[simp] theorem State.nextEpoch_mem : (s.nextEpoch).mem = s.mem := rfl
@[simp] theorem State.nextEpoch_romLen : (s.nextEpoch).romLen = s.romLen := rfl
@[simp] theorem State.nextEpoch_io : (s.nextEpoch).io = s.io := rfl
@[simp] theorem State.nextEpoch_halt : (s.nextEpoch).halt = s.halt := rfl
@[simp] theorem State.nextEpoch_fiqLine : (s.nextEpoch).fiqLine = s.fiqLine := rfl
@[simp] theorem State.nextEpoch_params : (s.nextEpoch).params = s.params := rfl
@[simp] theorem State.nextEpoch_debugger : (s.nextEpoch).debugger = s.debugger := rfl
@[simp] theorem State.nextEpoch_host : (s.nextEpoch).host = s.host := rfl
@[simp] theorem State.nextEpoch_draws : (s.nextEpoch).draws = s.draws + 1 := rfl

/-! ### record -/

@[simp] theorem State.record_regs (a : Word) : (s.record a).regs = s.regs := rfl
@[simp] theorem State.record_pc (a : Word) : (s.record a).pc = s.pc := rfl
@[simp] theorem State.record_cpsr (a : Word) : (s.record a).cpsr = s.cpsr := rfl
@[simp] theorem State.record_spsr (a : Word) : (s.record a).spsr = s.spsr := rfl
@[simp] theorem State.record_mem (a : Word) : (s.record a).mem = s.mem := rfl
@[simp] theorem State.record_romLen (a : Word) : (s.record a).romLen = s.romLen := rfl
@[simp] theorem State.record_io (a : Word) : (s.record a).io = s.io := rfl
@[simp] theorem State.record_halt (a : Word) : (s.record a).halt = s.halt := rfl
@[simp] theorem State.record_fiqLine (a : Word) : (s.record a).fiqLine = s.fiqLine := rfl
@[simp] theorem State.record_params (a : Word) : (s.record a).params = s.params := rfl
@[simp] theorem State.record_host (a : Word) : (s.record a).host = s.host := rfl
@[simp] theorem State.record_draws (a : Word) : (s.record a).draws = s.draws := rfl

/-! ### checkBreakpoint -/

@[simp] theorem State.checkBreakpoint_regs : (s.checkBreakpoint).regs = s.regs := by
  unfold State.checkBreakpoint; split <;> rfl
@[simp] theorem State.checkBreakpoint_pc : (s.checkBreakpoint).pc = s.pc := by
  unfold State.checkBreakpoint; split <;> rfl
@[simp] theorem State.checkBreakpoint_cpsr : (s.checkBreakpoint).cpsr = s.cpsr := by
  unfold State.checkBreakpoint; split <;> rfl
@[simp] theorem State.checkBreakpoint_spsr : (s.checkBreakpoint).spsr = s.spsr := by
  unfold State.checkBreakpoint; split <;> rfl
@[simp] theorem State.checkBreakpoint_mem : (s.checkBreakpoint).mem = s.mem := by
  unfold State.checkBreakpoint; split <;> rfl
@[simp] theorem State.checkBreakpoint_romLen : (s.checkBreakpoint).romLen = s.romLen := by
  unfold State.checkBreakpoint; split <;> rfl
@[simp] theorem State.checkBreakpoint_io : (s.checkBreakpoint).io = s.io := by
  unfold State.checkBreakpoint; split <;> rfl
@[simp] theorem State.checkBreakpoint_halt : (s.checkBreakpoint).halt = s.halt := by
  unfold State.checkBreakpoint; split <;> rfl
@[simp] theorem State.checkBreakpoint_fiqLine : (s.checkBreakpoint).fiqLine = s.fiqLine := by
  unfold State.checkBreakpoint; split <;> rfl
@[simp] theorem State.checkBreakpoint_params : (s.checkBreakpoint).params = s.params := by
  unfold State.checkBreakpoint; split <;> rfl
@[simp] theorem State.checkBreakpoint_host : (s.checkBreakpoint).host = s.host := by
  unfold State.checkBreakpoint; split <;> rfl
@[simp] theorem State.checkBreakpoint_draws : (s.checkBreakpoint).draws = s.draws := by
  unfold State.checkBreakpoint; split <;> rfl

/-! ### wake -/

@[simp] theorem State.wake_regs : (s.wake).regs = s.regs := by
  unfold State.wake; split <;> (try split) <;> rfl
@[simp] theorem State.wake_pc : (s.wake).pc = s.pc := by
  unfold State.wake; split <;> (try split) <;> rfl
@[simp] theorem State.wake_cpsr : (s.wake).cpsr = s.cpsr := by
  unfold State.wake; split <;> (try split) <;> rfl
@[simp] theorem State.wake_spsr : (s.wake).spsr = s.spsr := by
  unfold State.wake; split <;> (try split) <;> rfl
@[simp] theorem State.wake_mem : (s.wake).mem = s.mem := by
  unfold State.wake; split <;> (try split) <;> rfl
@[simp] theorem State.wake_romLen : (s.wake).romLen = s.romLen := by
  unfold State.wake; split <;> (try split) <;> rfl
@[simp] theorem State.wake_io : (s.wake).io = s.io := by
  unfold State.wake; split <;> (try split) <;> rfl
@[simp] theorem State.wake_fiqLine : (s.wake).fiqLine = s.fiqLine := by
  unfold State.wake; split <;> (try split) <;> rfl
@[simp] theorem State.wake_params : (s.wake).params = s.params := by
  unfold State.wake; split <;> (try split) <;> rfl
@[simp] theorem State.wake_debugger : (s.wake).debugger = s.debugger := by
  unfold State.wake; split <;> (try split) <;> rfl
@[simp] theorem State.wake_host : (s.wake).host = s.host := by
  unfold State.wake; split <;> (try split) <;> rfl
@[simp] theorem State.wake_draws : (s.wake).draws = s.draws := by
  unfold State.wake; split <;> (try split) <;> rfl

/-! ### retire -/

@[simp] theorem State.retire_regs (a : Word) : (s.retire a).regs = s.regs := by
  simp [State.retire]
@[simp] theorem State.retire_pc (a : Word) : (s.retire a).pc = s.pc := by
  simp [State.retire]
@[simp] theorem State.retire_cpsr (a : Word) : (s.retire a).cpsr = s.cpsr := by
  simp [State.retire]
@[simp] theorem State.retire_spsr (a : Word) : (s.retire a).spsr = s.spsr := by
  simp [State.retire]
@[simp] theorem State.retire_mem (a : Word) : (s.retire a).mem = s.mem := by
  simp [State.retire]
@[simp] theorem State.retire_romLen (a : Word) : (s.retire a).romLen = s.romLen := by
  simp [State.retire]
@[simp] theorem State.retire_io (a : Word) : (s.retire a).io = s.io := by
  simp [State.retire]
@[simp] theorem State.retire_halt (a : Word) : (s.retire a).halt = s.halt := by
  simp [State.retire]
@[simp] theorem State.retire_fiqLine (a : Word) : (s.retire a).fiqLine = s.fiqLine := by
  simp [State.retire]
@[simp] theorem State.retire_params (a : Word) : (s.retire a).params = s.params := by
  simp [State.retire]
@[simp] theorem State.retire_host (a : Word) : (s.retire a).host = s.host := by
  simp [State.retire]
@[simp] theorem State.retire_draws (a : Word) : (s.retire a).draws = s.draws + 1 := by
  simp [State.retire]

/-! ### Reading registers -/

theorem State.peek_def (p : Fin 30) : s.peek p = s.regs[p] := rfl

@[simp] theorem State.peek_poke (p q : Fin 30) (v : Word) : (s.poke p v).peek q = if p = q then v else s.peek q := by
  simp [State.peek, Vector.getElem_set, Fin.ext_iff]

@[simp] theorem State.peek_setPc (a : Word) (p : Fin 30) : (s.setPc a).peek p = s.peek p := rfl
@[simp] theorem State.peek_setCpsr (c : Cpsr) (p : Fin 30) : (s.setCpsr c).peek p = s.peek p := rfl
@[simp] theorem State.peek_setSpsr (k : Fin 5) (c : Psr) (p : Fin 30) : (s.setSpsr k c).peek p = s.peek p := rfl
@[simp] theorem State.peek_advance (n : Word) (p : Fin 30) : (s.advance n).peek p = s.peek p := rfl
@[simp] theorem State.peek_branchArm (v : Word) (p : Fin 30) : (s.branchArm v).peek p = s.peek p := rfl
@[simp] theorem State.peek_branchThumb (v : Word) (p : Fin 30) : (s.branchThumb v).peek p = s.peek p := rfl
@[simp] theorem State.peek_exchange (v : Word) (p : Fin 30) : (s.exchange v).peek p = s.peek p := rfl

@[simp] theorem State.peek_setReg (r : Reg) (v : Word) (p : Fin 30) :
    (s.setReg r v).peek p = if physReg s.cpsr.mode r = p then v else s.peek p := s.peek_poke _ p v

@[simp] theorem State.peek_setUserReg (r : Reg) (v : Word) (p : Fin 30) :
    (s.setUserReg r v).peek p = if physReg .usr r = p then v else s.peek p := s.peek_poke _ p v

@[simp] theorem State.peek_takeException (kind : ExcKind) (link : Word) (p : Fin 30) :
    (s.takeException kind link).peek p = if physReg kind.mode 14 = p then link else s.peek p := s.peek_poke _ p link

theorem State.reg_of_ne (off : Word) {r : Reg} (h : r ≠ 15) : s.reg off r = s.peek (physReg s.cpsr.mode r) := if_neg h

@[simp] theorem State.reg_pc (off : Word) : s.reg off 15 = s.pc + off := if_pos rfl

/-- Two names of one mode name the same physical register only if they are the same name (10_state R102). -/
theorem physReg_inj (m : Mode) : ∀ r q : Reg, r ≠ 15 → q ≠ 15 → physReg m r = physReg m q → r = q := by
  cases m <;> decide

/-- The number of a low register names no banked register and is not 15. -/
theorem lo_ne_pc : ∀ r : LoReg, lo r ≠ 15 := by decide

theorem lo_inj : ∀ r q : LoReg, lo r = lo q → r = q := by decide

end Sys2Proof.Machine
end

