-- ==== Sys2Proof/Laws/Bus.lean ====
section
/-! SUPPORT. The bus: what a store leaves unchanged, which bytes it can change, and that it keeps memory in canonical form. -/

namespace Sys2Proof.Machine

open Sys2Proof

/-! ### What no store changes -/

@[simp] theorem State.writeIo_regs (s : State) (o : Nat) (b : Byte) : (s.writeIo o b).regs = s.regs := by
  unfold State.writeIo; split <;> rfl

@[simp] theorem State.writePlain_regs (s : State) (a : Word) (b : Byte) : (s.writePlain a b).regs = s.regs := by
  unfold State.writePlain; split <;> simp

@[simp] theorem State.writeByte_regs (s : State) (a : Word) (b : Byte) : (s.writeByte a b).regs = s.regs := by
  unfold State.writeByte State.writeBoth; split <;> (try split) <;> simp

@[simp] theorem State.memWrite_regs (s : State) (a : Word) (w : Width) (v : Word) : (s.memWrite a w v).regs = s.regs := by
  cases w <;> simp [State.memWrite]

@[simp] theorem State.writeWords_regs (ws : List (Word × Word)) : ∀ s : State, (s.writeWords ws).regs = s.regs := by
  induction ws with
  | nil => exact fun _ => rfl
  | cons x ws ih => exact fun s => by rw [State.writeWords, ih, State.memWrite_regs]

@[simp] theorem State.writeIo_pc (s : State) (o : Nat) (b : Byte) : (s.writeIo o b).pc = s.pc := by
  unfold State.writeIo; split <;> rfl

@[simp] theorem State.writePlain_pc (s : State) (a : Word) (b : Byte) : (s.writePlain a b).pc = s.pc := by
  unfold State.writePlain; split <;> simp

@[simp] theorem State.writeByte_pc (s : State) (a : Word) (b : Byte) : (s.writeByte a b).pc = s.pc := by
  unfold State.writeByte State.writeBoth; split <;> (try split) <;> simp

@[simp] theorem State.memWrite_pc (s : State) (a : Word) (w : Width) (v : Word) : (s.memWrite a w v).pc = s.pc := by
  cases w <;> simp [State.memWrite]

@[simp] theorem State.writeWords_pc (ws : List (Word × Word)) : ∀ s : State, (s.writeWords ws).pc = s.pc := by
  induction ws with
  | nil => exact fun _ => rfl
  | cons x ws ih => exact fun s => by rw [State.writeWords, ih, State.memWrite_pc]

@[simp] theorem State.writeIo_cpsr (s : State) (o : Nat) (b : Byte) : (s.writeIo o b).cpsr = s.cpsr := by
  unfold State.writeIo; split <;> rfl

@[simp] theorem State.writePlain_cpsr (s : State) (a : Word) (b : Byte) : (s.writePlain a b).cpsr = s.cpsr := by
  unfold State.writePlain; split <;> simp

@[simp] theorem State.writeByte_cpsr (s : State) (a : Word) (b : Byte) : (s.writeByte a b).cpsr = s.cpsr := by
  unfold State.writeByte State.writeBoth; split <;> (try split) <;> simp

@[simp] theorem State.memWrite_cpsr (s : State) (a : Word) (w : Width) (v : Word) : (s.memWrite a w v).cpsr = s.cpsr := by
  cases w <;> simp [State.memWrite]

@[simp] theorem State.writeWords_cpsr (ws : List (Word × Word)) : ∀ s : State, (s.writeWords ws).cpsr = s.cpsr := by
  induction ws with
  | nil => exact fun _ => rfl
  | cons x ws ih => exact fun s => by rw [State.writeWords, ih, State.memWrite_cpsr]

@[simp] theorem State.writeIo_spsr (s : State) (o : Nat) (b : Byte) : (s.writeIo o b).spsr = s.spsr := by
  unfold State.writeIo; split <;> rfl

@[simp] theorem State.writePlain_spsr (s : State) (a : Word) (b : Byte) : (s.writePlain a b).spsr = s.spsr := by
  unfold State.writePlain; split <;> simp

@[simp] theorem State.writeByte_spsr (s : State) (a : Word) (b : Byte) : (s.writeByte a b).spsr = s.spsr := by
  unfold State.writeByte State.writeBoth; split <;> (try split) <;> simp

@[simp] theorem State.memWrite_spsr (s : State) (a : Word) (w : Width) (v : Word) : (s.memWrite a w v).spsr = s.spsr := by
  cases w <;> simp [State.memWrite]

@[simp] theorem State.writeWords_spsr (ws : List (Word × Word)) : ∀ s : State, (s.writeWords ws).spsr = s.spsr := by
  induction ws with
  | nil => exact fun _ => rfl
  | cons x ws ih => exact fun s => by rw [State.writeWords, ih, State.memWrite_spsr]

@[simp] theorem State.writeIo_romLen (s : State) (o : Nat) (b : Byte) : (s.writeIo o b).romLen = s.romLen := by
  unfold State.writeIo; split <;> rfl

@[simp] theorem State.writePlain_romLen (s : State) (a : Word) (b : Byte) : (s.writePlain a b).romLen = s.romLen := by
  unfold State.writePlain; split <;> simp

@[simp] theorem State.writeByte_romLen (s : State) (a : Word) (b : Byte) : (s.writeByte a b).romLen = s.romLen := by
  unfold State.writeByte State.writeBoth; split <;> (try split) <;> simp

@[simp] theorem State.memWrite_romLen (s : State) (a : Word) (w : Width) (v : Word) : (s.memWrite a w v).romLen = s.romLen := by
  cases w <;> simp [State.memWrite]

@[simp] theorem State.writeWords_romLen (ws : List (Word × Word)) : ∀ s : State, (s.writeWords ws).romLen = s.romLen := by
  induction ws with
  | nil => exact fun _ => rfl
  | cons x ws ih => exact fun s => by rw [State.writeWords, ih, State.memWrite_romLen]

@[simp] theorem State.writeIo_fiqLine (s : State) (o : Nat) (b : Byte) : (s.writeIo o b).fiqLine = s.fiqLine := by
  unfold State.writeIo; split <;> rfl

@[simp] theorem State.writePlain_fiqLine (s : State) (a : Word) (b : Byte) : (s.writePlain a b).fiqLine = s.fiqLine := by
  unfold State.writePlain; split <;> simp

@[simp] theorem State.writeByte_fiqLine (s : State) (a : Word) (b : Byte) : (s.writeByte a b).fiqLine = s.fiqLine := by
  unfold State.writeByte State.writeBoth; split <;> (try split) <;> simp

@[simp] theorem State.memWrite_fiqLine (s : State) (a : Word) (w : Width) (v : Word) : (s.memWrite a w v).fiqLine = s.fiqLine := by
  cases w <;> simp [State.memWrite]

@[simp] theorem State.writeWords_fiqLine (ws : List (Word × Word)) : ∀ s : State, (s.writeWords ws).fiqLine = s.fiqLine := by
  induction ws with
  | nil => exact fun _ => rfl
  | cons x ws ih => exact fun s => by rw [State.writeWords, ih, State.memWrite_fiqLine]

@[simp] theorem State.writeIo_params (s : State) (o : Nat) (b : Byte) : (s.writeIo o b).params = s.params := by
  unfold State.writeIo; split <;> rfl

@[simp] theorem State.writePlain_params (s : State) (a : Word) (b : Byte) : (s.writePlain a b).params = s.params := by
  unfold State.writePlain; split <;> simp

@[simp] theorem State.writeByte_params (s : State) (a : Word) (b : Byte) : (s.writeByte a b).params = s.params := by
  unfold State.writeByte State.writeBoth; split <;> (try split) <;> simp

@[simp] theorem State.memWrite_params (s : State) (a : Word) (w : Width) (v : Word) : (s.memWrite a w v).params = s.params := by
  cases w <;> simp [State.memWrite]

@[simp] theorem State.writeWords_params (ws : List (Word × Word)) : ∀ s : State, (s.writeWords ws).params = s.params := by
  induction ws with
  | nil => exact fun _ => rfl
  | cons x ws ih => exact fun s => by rw [State.writeWords, ih, State.memWrite_params]

@[simp] theorem State.writeIo_debugger (s : State) (o : Nat) (b : Byte) : (s.writeIo o b).debugger = s.debugger := by
  unfold State.writeIo; split <;> rfl

@[simp] theorem State.writePlain_debugger (s : State) (a : Word) (b : Byte) : (s.writePlain a b).debugger = s.debugger := by
  unfold State.writePlain; split <;> simp

@[simp] theorem State.writeByte_debugger (s : State) (a : Word) (b : Byte) : (s.writeByte a b).debugger = s.debugger := by
  unfold State.writeByte State.writeBoth; split <;> (try split) <;> simp

@[simp] theorem State.memWrite_debugger (s : State) (a : Word) (w : Width) (v : Word) : (s.memWrite a w v).debugger = s.debugger := by
  cases w <;> simp [State.memWrite]

@[simp] theorem State.writeWords_debugger (ws : List (Word × Word)) : ∀ s : State, (s.writeWords ws).debugger = s.debugger := by
  induction ws with
  | nil => exact fun _ => rfl
  | cons x ws ih => exact fun s => by rw [State.writeWords, ih, State.memWrite_debugger]

@[simp] theorem State.writeIo_host (s : State) (o : Nat) (b : Byte) : (s.writeIo o b).host = s.host := by
  unfold State.writeIo; split <;> rfl

@[simp] theorem State.writePlain_host (s : State) (a : Word) (b : Byte) : (s.writePlain a b).host = s.host := by
  unfold State.writePlain; split <;> simp

@[simp] theorem State.writeByte_host (s : State) (a : Word) (b : Byte) : (s.writeByte a b).host = s.host := by
  unfold State.writeByte State.writeBoth; split <;> (try split) <;> simp

@[simp] theorem State.memWrite_host (s : State) (a : Word) (w : Width) (v : Word) : (s.memWrite a w v).host = s.host := by
  cases w <;> simp [State.memWrite]

@[simp] theorem State.writeWords_host (ws : List (Word × Word)) : ∀ s : State, (s.writeWords ws).host = s.host := by
  induction ws with
  | nil => exact fun _ => rfl
  | cons x ws ih => exact fun s => by rw [State.writeWords, ih, State.memWrite_host]

@[simp] theorem State.writeIo_draws (s : State) (o : Nat) (b : Byte) : (s.writeIo o b).draws = s.draws := by
  unfold State.writeIo; split <;> rfl

@[simp] theorem State.writePlain_draws (s : State) (a : Word) (b : Byte) : (s.writePlain a b).draws = s.draws := by
  unfold State.writePlain; split <;> simp

@[simp] theorem State.writeByte_draws (s : State) (a : Word) (b : Byte) : (s.writeByte a b).draws = s.draws := by
  unfold State.writeByte State.writeBoth; split <;> (try split) <;> simp

@[simp] theorem State.memWrite_draws (s : State) (a : Word) (w : Width) (v : Word) : (s.memWrite a w v).draws = s.draws := by
  cases w <;> simp [State.memWrite]

@[simp] theorem State.writeWords_draws (ws : List (Word × Word)) : ∀ s : State, (s.writeWords ws).draws = s.draws := by
  induction ws with
  | nil => exact fun _ => rfl
  | cons x ws ih => exact fun s => by rw [State.writeWords, ih, State.memWrite_draws]

@[simp] theorem State.memWrite_peek (s : State) (a : Word) (w : Width) (v : Word) (p : Fin 30) :
    (s.memWrite a w v).peek p = s.peek p := by simp [State.peek]

@[simp] theorem State.writeWords_peek (s : State) (ws : List (Word × Word)) (p : Fin 30) :
    (s.writeWords ws).peek p = s.peek p := by simp [State.peek]

/-! ### Canonical form -/

theorem State.wf_writeIo (s : State) (o : Nat) (b : Byte) (h : s.mem.wf = true) : (s.writeIo o b).mem.wf = true := by
  unfold State.writeIo; split
  · exact h
  · exact h
  · exact Memory.wf_write _ _ _ h

theorem State.wf_writePlain (s : State) (a : Word) (b : Byte) (h : s.mem.wf = true) : (s.writePlain a b).mem.wf = true := by
  unfold State.writePlain; split
  · exact h
  · exact h
  · exact h
  · exact State.wf_writeIo _ _ _ h
  · exact Memory.wf_write _ _ _ h

theorem State.wf_writeByte (s : State) (a : Word) (b : Byte) (h : s.mem.wf = true) : (s.writeByte a b).mem.wf = true := by
  unfold State.writeByte State.writeBoth; split
  · exact Memory.wf_write _ _ _ (Memory.wf_write _ _ _ h)
  · split
    · exact Memory.wf_write _ _ _ (Memory.wf_write _ _ _ h)
    · exact h
  · exact h
  · exact State.wf_writePlain _ _ _ h

theorem State.wf_memWrite (s : State) (a : Word) (w : Width) (v : Word) (h : s.mem.wf = true) :
    (s.memWrite a w v).mem.wf = true := by
  cases w
  · exact State.wf_writeByte _ _ _ h
  · exact State.wf_writePlain _ _ _ (State.wf_writePlain _ _ _ h)
  · exact State.wf_writePlain _ _ _ (State.wf_writePlain _ _ _ (State.wf_writePlain _ _ _ (State.wf_writePlain _ _ _ h)))

theorem State.wf_writeWords (ws : List (Word × Word)) :
    ∀ s : State, s.mem.wf = true → (s.writeWords ws).mem.wf = true := by
  induction ws with
  | nil => exact fun _ h => h
  | cons x ws ih => exact fun s h => ih _ (State.wf_memWrite _ _ _ _ h)

/-! ### Places -/

/-- The offset of a place is below the region's size; sizes leave the keys of two regions apart (20 R202, R203). -/
theorem decodeAddr_bound (n : Nat) (a : Word) :
    (decodeAddr n a).2 < if (decodeAddr n a).1 = .rom then 0x2000000 else 0x1000000 := by
  have h1 := (a.extractLsb' 0 14).isLt
  have h2 := (a.extractLsb' 0 18).isLt
  have h3 := (a.extractLsb' 0 15).isLt
  have h4 := (a.extractLsb' 0 10).isLt
  have h5 := (a.extractLsb' 0 17).isLt
  have h6 := (a.extractLsb' 0 25).isLt
  unfold decodeAddr
  split
  · simp
  · split <;> (try split) <;> simp only [] <;> (try split) <;> simp_all <;> omega

theorem extract_zero_iff (a : Word) (k len : Nat) : a.extractLsb' k len = 0 ↔ a.toNat / 2 ^ k % 2 ^ len = 0 := by
  rw [← BitVec.toNat_inj, BitVec.extractLsb'_toNat, Nat.shiftRight_eq_div_pow]; simp

/-- The decode of an address in arithmetic (20 R203). -/
theorem decodeAddr_nat (n : Nat) (a : Word) : decodeAddr n a =
    match a.toNat / 0x1000000 with
    | 0x0 => if a.toNat < 0x4000 then (.bios, a.toNat) else (.unmapped, 0)
    | 0x2 => (.ewram, a.toNat % 0x40000)
    | 0x3 => (.iwram, a.toNat % 0x8000)
    | 0x4 => if a.toNat < 0x04000400 then (.io, a.toNat % 0x400) else (.unmapped, 0)
    | 0x5 => (.pal, a.toNat % 0x400)
    | 0x6 => (.vram, if 0x18000 ≤ a.toNat % 0x20000 then a.toNat % 0x20000 - 0x8000 else a.toNat % 0x20000)
    | 0x7 => (.oam, a.toNat % 0x400)
    | 0x8 | 0x9 | 0xA | 0xB | 0xC | 0xD =>
      if a.toNat % 0x2000000 < n then (.rom, a.toNat % 0x2000000) else (.unmapped, 0)
    | _ => (.unmapped, 0) := by
  have ha := a.isLt
  have e1 : (a.extractLsb' 28 4).toNat = a.toNat / 0x10000000 := by
    rw [BitVec.extractLsb'_toNat, Nat.shiftRight_eq_div_pow]; omega
  have e2 : (a.extractLsb' 24 4).toNat = a.toNat / 0x1000000 % 16 := by
    rw [BitVec.extractLsb'_toNat, Nat.shiftRight_eq_div_pow]
  have e3 : a.extractLsb' 10 14 = 0#14 ↔ a.toNat / 0x400 % 0x4000 = 0 := extract_zero_iff a 10 14
  have e4 : ∀ len, (a.extractLsb' 0 len).toNat = a.toNat % 2 ^ len := by
    intro len; rw [BitVec.extractLsb'_toNat, Nat.shiftRight_zero]
  unfold decodeAddr
  by_cases h : a.toNat / 0x10000000 = 0
  · have h0 : a.extractLsb' 28 4 = 0#4 := by rw [← BitVec.toNat_inj, e1]; simpa using h
    rw [if_neg (fun hn => hn h0), e2]
    have h16 : a.toNat / 0x1000000 % 16 = a.toNat / 0x1000000 := by omega
    rw [h16]
    have hlt : a.toNat / 0x1000000 < 16 := by omega
    have e5 : a.toNat / 0x1000000 = 4 → ((a.toNat / 0x400 % 0x4000 = 0) ↔ a.toNat < 0x04000400) := by omega
    have e6 : a.toNat < 0x4000 → a.toNat % 2 ^ 14 = a.toNat := by omega
    generalize hq : a.toNat / 0x1000000 = q at *
    interval_cases q <;> simp only [e3, e4] <;> try rfl
    · split
      · rw [e6 ‹_›]
      · rfl
    · rw [if_congr (e5 rfl) rfl rfl]; rfl
  · have h0 : a.extractLsb' 28 4 ≠ 0#4 := by
      intro e; rw [← BitVec.toNat_inj, e1] at e; exact h (by simpa using e)
    rw [if_pos h0]
    split <;> first | rfl | omega

/-- Aligning down to a word. -/
theorem align4_toNat (b : Word) : (b &&& 0xFFFFFFFC).toNat = b.toNat - b.toNat % 4 := by
  have : b &&& (0xFFFFFFFC : Word) = (b >>> 2) <<< 2 := by
    apply BitVec.eq_of_getLsbD_eq
    intro i hi
    simp only [BitVec.getLsbD_and, BitVec.getLsbD_shiftLeft, BitVec.getLsbD_ushiftRight, hi, decide_true, Bool.true_and]
    by_cases h : i < 2
    · have : (0xFFFFFFFC : Word).getLsbD i = false := by interval_cases i <;> rfl
      rw [this]; simp [h]
    · have : (0xFFFFFFFC : Word).getLsbD i = true := by
        exact (show ∀ j : Fin 32, 2 ≤ j.val → (0xFFFFFFFC : Word).getLsbD j = true by decide) ⟨i, hi⟩ (show 2 ≤ i by omega)
      rw [this, show 2 + (i - 2) = i by omega]; simp [h]
  rw [this, BitVec.toNat_shiftLeft, BitVec.toNat_ushiftRight, Nat.shiftRight_eq_div_pow, Nat.shiftLeft_eq]
  have := b.isLt
  omega

/-- Aligning down to a halfword. -/
theorem align2_toNat (b : Word) : (b &&& 0xFFFFFFFE).toNat = b.toNat - b.toNat % 2 := by
  have : b &&& (0xFFFFFFFE : Word) = (b >>> 1) <<< 1 := by
    apply BitVec.eq_of_getLsbD_eq
    intro i hi
    simp only [BitVec.getLsbD_and, BitVec.getLsbD_shiftLeft, BitVec.getLsbD_ushiftRight, hi, decide_true, Bool.true_and]
    by_cases h : i < 1
    · have : (0xFFFFFFFE : Word).getLsbD i = false := by interval_cases i; rfl
      rw [this]; simp [h]
    · have : (0xFFFFFFFE : Word).getLsbD i = true := by
        exact (show ∀ j : Fin 32, 1 ≤ j.val → (0xFFFFFFFE : Word).getLsbD j = true by decide) ⟨i, hi⟩ (show 1 ≤ i by omega)
      rw [this, show 1 + (i - 1) = i by omega]; simp [h]
  rw [this, BitVec.toNat_shiftLeft, BitVec.toNat_ushiftRight, Nat.shiftRight_eq_div_pow, Nat.shiftLeft_eq]
  have := b.isLt
  omega

theorem add_toNat (a : Word) (k : Nat) (h : a.toNat + k < 2 ^ 32) : (a + BitVec.ofNat 32 k).toNat = a.toNat + k := by
  rw [BitVec.toNat_add, BitVec.toNat_ofNat]; omega

/-- Two places with the same key are one place. -/
theorem key_inj {r r' : Region} {o o' : Nat} (h : o < if r = .rom then 0x2000000 else 0x1000000)
    (h' : o' < if r' = .rom then 0x2000000 else 0x1000000) (hk : r.base + o = r'.base + o') : (r, o) = (r', o') := by
  cases r <;> cases r' <;> simp only [Region.base, reduceCtorEq, if_false, if_true] at * <;>
    first
    | (have : o = o' := by omega); subst this; rfl
    | (exfalso; omega)

/-! ### I/O registers, byte by byte -/

/-- The I/O offset of a register's byte (10_state R127). -/
def ioOffset : IoReg × Nat → Nat
  | (.dispcnt, k) => 0x000 + k
  | (.dispstat, k) => 0x004 + k
  | (.vcount, k) => 0x006 + k
  | (.bgCnt n, k) => 0x008 + 2 * n.val + k
  | (.bgHofs n, k) => 0x010 + 4 * n.val + k
  | (.bgVofs n, k) => 0x012 + 4 * n.val + k
  | (.affA m, k) => 0x020 + 16 * m.val + k
  | (.affB m, k) => 0x022 + 16 * m.val + k
  | (.affC m, k) => 0x024 + 16 * m.val + k
  | (.affD m, k) => 0x026 + 16 * m.val + k
  | (.affX m, k) => 0x028 + 16 * m.val + k
  | (.affY m, k) => 0x02C + 16 * m.val + k
  | (.mosaic, k) => 0x04C + k
  | (.keyinput, k) => 0x130 + k
  | (.keycnt, k) => 0x132 + k
  | (.ie, k) => 0x200 + k
  | (.ifr, k) => 0x202 + k
  | (.ime, k) => 0x208 + k
  | (.postflg, k) => 0x300 + k
  | (.haltcnt, k) => 0x301 + k

theorem ioReg_offset (o : Nat) (p : IoReg × Nat) (h : ioReg o = some p) : ioOffset p = o := by
  unfold ioReg at h
  have hm : o % 2 < 2 := Nat.mod_lt _ (by decide)
  split at h
  · rename_i heq
    unfold ioHalf at heq
    split at heq <;> simp at heq
    simp only [Option.some.injEq] at h
    subst h
    split <;> simp only [ioOffset] <;> omega
  · rename_i r k hne heq
    unfold ioHalf at heq
    simp only [Option.some.injEq] at h
    split at heq <;> (try cases heq) <;> subst h <;> simp only [ioOffset] <;> (try simp) <;> omega
  · cases h

theorem getLsbD_getByte {n : Nat} (v : BitVec n) (k i : Nat) : (getByte v k).getLsbD i = (decide (i < 8) && v.getLsbD (8 * k + i)) := by
  simp only [getByte, BitVec.getLsbD_extractLsb']

/-- Bit i of a register with its byte k replaced. -/
theorem getLsbD_setByte {n : Nat} (v : BitVec n) (k : Nat) (b : Byte) (i : Nat) (hi : i < n) :
    (setByte v k b).getLsbD i = if 8 * k ≤ i ∧ i < 8 * k + 8 then b.getLsbD (i - 8 * k) else v.getLsbD i := by
  simp only [setByte, BitVec.getLsbD_or, BitVec.getLsbD_and, BitVec.getLsbD_not, BitVec.getLsbD_shiftLeft,
    BitVec.getLsbD_setWidth, hi, decide_true, Bool.true_and]
  by_cases h1 : 8 * k ≤ i
  · have e1 : ¬ i < 8 * k := by omega
    have e2 : i - 8 * k < n := by omega
    simp only [e1, decide_false, Bool.not_false, Bool.true_and, e2, decide_true, h1, true_and]
    by_cases h2 : i < 8 * k + 8
    · have e3 : (0xFF : Byte).getLsbD (i - 8 * k) = true := by
        have : i - 8 * k < 8 := by omega
        generalize i - 8 * k = j at *
        interval_cases j <;> rfl
      rw [e3, if_pos h2]; simp
    · rw [if_neg h2, BitVec.getLsbD_of_ge (0xFF : Byte) _ (by omega), BitVec.getLsbD_of_ge b _ (by omega)]; simp
  · have e1 : i < 8 * k := by omega
    rw [if_neg (fun h => h1 h.1)]; simp [e1]


/-- Byte k' of a register after byte k was replaced. -/
theorem getByte_setByte {n : Nat} (v : BitVec n) (k k' : Nat) (b : Byte) (h : k ≠ k') :
    getByte (setByte v k b) k' = getByte v k' := by
  apply BitVec.eq_of_getLsbD_eq
  intro i hi
  simp only [getByte, setByte, BitVec.getLsbD_extractLsb', hi, decide_true, Bool.true_and, BitVec.getLsbD_or,
    BitVec.getLsbD_and, BitVec.getLsbD_not, BitVec.getLsbD_shiftLeft, BitVec.getLsbD_setWidth]
  rcases Nat.lt_or_gt_of_ne h with h1 | h1
  · have e1 : (0xFF : Byte).getLsbD (8 * k' + i - 8 * k) = false := BitVec.getLsbD_of_ge _ _ (by omega)
    have e2 : b.getLsbD (8 * k' + i - 8 * k) = false := BitVec.getLsbD_of_ge _ _ (by omega)
    simp only [e1, e2, Bool.and_false, Bool.not_false, Bool.and_true, Bool.or_false]
    by_cases h2 : 8 * k' + i < n
    · simp [h2]
    · simp [h2, BitVec.getLsbD_of_ge v (8 * k' + i) (by omega)]
  · have e1 : decide (8 * k' + i < 8 * k) = true := by simp; omega
    simp only [e1, Bool.not_true, Bool.and_false, Bool.false_and, Bool.not_false, Bool.and_true, Bool.or_false]
    by_cases h2 : 8 * k' + i < n
    · simp [h2]
    · simp [h2, BitVec.getLsbD_of_ge v (8 * k' + i) (by omega)]

theorem getByte_setByte_self {n : Nat} (v : BitVec n) (k : Nat) (b : Byte) (h : 8 * k + 8 ≤ n) :
    getByte (setByte v k b) k = b := by
  apply BitVec.eq_of_getLsbD_eq
  intro i hi
  simp only [getByte, setByte, BitVec.getLsbD_extractLsb', hi, decide_true, Bool.true_and, BitVec.getLsbD_or,
    BitVec.getLsbD_and, BitVec.getLsbD_not, BitVec.getLsbD_shiftLeft, BitVec.getLsbD_setWidth]
  have e1 : ¬ (8 * k + i < 8 * k) := by omega
  have e2 : 8 * k + i < n := by omega
  have e4 : i < n := by omega
  have e5 : (255#8).getLsbD i = true := by
    have : ∀ j : Fin 8, (255#8).getLsbD j.val = true := by decide
    exact this ⟨i, hi⟩
  simp [e2, e4, e5]

/-- A byte that exists: DISPSTAT has two, POSTFLG one. -/
def byteOk : IoReg × Nat → Prop
  | (.dispstat, k) => k < 2
  | (.postflg, k) => k = 0
  | _ => True

theorem ioReg_byteOk (o : Nat) (p : IoReg × Nat) (h : ioReg o = some p) : byteOk p := by
  unfold ioReg at h
  have hm : o % 2 < 2 := Nat.mod_lt _ (by decide)
  split at h
  · simp only [Option.some.injEq] at h
    subst h
    split <;> simp [byteOk]
  · rename_i r k hne heq
    simp only [Option.some.injEq] at h
    subst h
    unfold ioHalf at heq
    split at heq <;> (try cases heq) <;> (try exact trivial)
    · simp only [byteOk]; omega
    · simp at hne
  · cases h

/-- A CPU write of a byte of one I/O register leaves every other byte of every register as it reads. -/
theorem Io.readReg_writeReg (io : Io) (r r' : IoReg) (k k' : Nat) (b : Byte) (d : Word) (h : (r, k) ≠ (r', k'))
    (hk : byteOk (r, k)) (hk' : byteOk (r', k')) :
    (io.writeReg r k b).readReg r' k' d = io.readReg r' k' d := by
  cases r' <;> try rfl
  all_goals cases r
  all_goals try rfl
  all_goals simp only [ne_eq, Prod.mk.injEq, not_and, true_and] at h
  all_goals simp only [Io.writeReg, Io.readReg]
  all_goals try (by_cases hq : k = 0 <;> simp only [hq, if_true, if_false]; done)
  all_goals simp only [byteOk] at hk hk'
  case dispcnt.dispcnt => exact getByte_setByte _ _ _ _ h
  case dispstat.dispstat =>
    by_cases h1 : k = 0
    · have h2 : k' ≠ 0 := by omega
      simp [h1, h2]
    · have h2 : k' = 0 := by omega
      simp [h1, h2]
  case bgCnt.bgCnt m n =>
    simp only [Io.onBg, Fin.getElem_fin, Vector.getElem_set]
    split
    · rename_i e
      have e' : n = m := Fin.ext e
      subst e'
      exact getByte_setByte _ _ _ _ (h rfl)
    · rfl
  case bgCnt.bgHofs m n =>
    simp only [Io.onBg, Fin.getElem_fin, Vector.getElem_set]
    split
    · rename_i e; simp [e]
    · rfl
  case bgCnt.bgVofs m n =>
    simp only [Io.onBg, Fin.getElem_fin, Vector.getElem_set]
    split
    · rename_i e; simp [e]
    · rfl
  case keycnt.keycnt => exact getByte_setByte _ _ _ _ h
  case ie.ie => exact getByte_setByte _ _ _ _ h
  case ifr.ifr =>
    apply BitVec.eq_of_getLsbD_eq
    intro i hi
    have e := congrArg (fun x => x.getLsbD i) (getByte_setByte (0 : Half) k k' b h)
    simp only [getByte, BitVec.getLsbD_extractLsb', hi, decide_true, Bool.true_and, BitVec.getLsbD_and,
      BitVec.getLsbD_not] at e ⊢
    rw [e]
    by_cases h2 : 8 * k' + i < 16
    · simp [h2]
    · simp [h2, BitVec.getLsbD_of_ge io.ifReg (8 * k' + i) (by omega)]
  case ime.ime =>
    by_cases h1 : k = 0
    · have h2 : k' ≠ 0 := by omega
      simp [h2]
    · simp [h1]
  case postflg.postflg => omega

/-! ### Bytes a store leaves unchanged -/

theorem readIo_writeIo (s : State) (acc : Access) (o o' : Nat) (b : Byte) (h : o ≠ o') :
    (s.writeIo o b).readIo acc o' = s.readIo acc o' := by
  unfold State.readIo
  cases h2 : ioReg o' with
  | none =>
    unfold State.writeIo
    cases h1 : ioReg o with
    | none => simp [h]
    | some p => obtain ⟨r, k⟩ := p; cases r <;> simp
  | some p' =>
    obtain ⟨r', k'⟩ := p'
    unfold State.writeIo
    cases h1 : ioReg o with
    | none => simp
    | some p =>
      obtain ⟨r, k⟩ := p
      have hne : (r, k) ≠ (r', k') := fun e => h (by rw [← ioReg_offset o _ h1, ← ioReg_offset o' _ h2, e])
      have := fun d => Io.readReg_writeReg s.io r r' k k' b d hne (ioReg_byteOk _ _ h1) (ioReg_byteOk _ _ h2)
      cases r <;> simp only [] <;> exact this _

theorem writeIo_mem_read (s : State) (o : Nat) (b : Byte) (k : Nat) (h : Region.io.base + o ≠ k) :
    (s.writeIo o b).mem.read k = s.mem.read k := by
  unfold State.writeIo
  split
  · rfl
  · rfl
  · simp [h]

/-- What a byte reads as rests on its place alone. -/
theorem readByte_congr (s t : State) (acc : Access) (a : Word) (hl : t.romLen = s.romLen)
    (hio : ∀ o, decodeAddr s.romLen a = (.io, o) → t.readIo acc o = s.readIo acc o)
    (hm : t.mem.read ((decodeAddr s.romLen a).1.base + (decodeAddr s.romLen a).2) =
      s.mem.read ((decodeAddr s.romLen a).1.base + (decodeAddr s.romLen a).2)) :
    t.readByte acc a = s.readByte acc a := by
  unfold State.readByte
  rw [hl]
  rcases hd : decodeAddr s.romLen a with ⟨r, o⟩
  rw [hd] at hm
  cases r <;> simp only [] <;> first | exact hm | exact hio o hd

theorem readIo_mem (s : State) (acc : Access) (o : Nat) (m : Memory)
    (h : m.read (Region.io.base + o) = s.mem.read (Region.io.base + o)) :
    State.readIo { s with mem := m } acc o = s.readIo acc o := by
  unfold State.readIo
  split
  · rfl
  · exact h

/-- A byte of a halfword or word store leaves every byte of every other place as it reads. -/
theorem readByte_writePlain (s : State) (acc : Access) (a a' : Word) (b : Byte)
    (h : decodeAddr s.romLen a' ≠ decodeAddr s.romLen a) : (s.writePlain a b).readByte acc a' = s.readByte acc a' := by
  have key : (decodeAddr s.romLen a).1.base + (decodeAddr s.romLen a).2 ≠
      (decodeAddr s.romLen a').1.base + (decodeAddr s.romLen a').2 :=
    fun e => h (key_inj (decodeAddr_bound _ _) (decodeAddr_bound _ _) e.symm)
  apply readByte_congr _ _ _ _ (by simp)
  · intro o' hd'
    rw [hd'] at key h
    unfold State.writePlain
    split
    · rfl
    · rfl
    · rfl
    · rename_i o hd
      rw [hd] at h
      exact readIo_writeIo _ _ _ _ _ fun e => h (by rw [e])
    · rename_i r o h1 h2 h3 h4 hd
      rw [hd] at key
      exact readIo_mem _ _ _ _ (by simp [key])
  · unfold State.writePlain
    split
    · rfl
    · rfl
    · rfl
    · rename_i o hd
      rw [hd] at key
      exact writeIo_mem_read _ _ _ _ key
    · rename_i r o h1 h2 h3 h4 hd
      rw [hd] at key
      simp [key]

theorem readByte_writeBoth (s : State) (acc : Access) (r : Region) (o : Nat) (a' : Word) (b : Byte) (ho : o < 0x1000000)
    (hrom : r ≠ .rom) (h1 : decodeAddr s.romLen a' ≠ (r, o - o % 2)) (h2 : decodeAddr s.romLen a' ≠ (r, o - o % 2 + 1)) :
    (s.writeBoth r o b).readByte acc a' = s.readByte acc a' := by
  have hb := decodeAddr_bound s.romLen a'
  have k1 : r.base + (o - o % 2) ≠ (decodeAddr s.romLen a').1.base + (decodeAddr s.romLen a').2 :=
    fun e => h1 (key_inj hb (by rw [if_neg hrom]; omega) e.symm)
  have k2 : r.base + (o - o % 2) + 1 ≠ (decodeAddr s.romLen a').1.base + (decodeAddr s.romLen a').2 :=
    fun e => h2 (key_inj hb (by rw [if_neg hrom]; omega) (e.symm.trans (by omega)))
  refine readByte_congr s (s.writeBoth r o b) _ _ rfl (fun o' hd' => ?_) (by simp [State.writeBoth, k1, k2])
  rw [hd'] at k1 k2
  exact readIo_mem _ _ _ _ (by simp [k1, k2])

theorem readByte_writeByte (s : State) (acc : Access) (a a' : Word) (b : Byte)
    (h : decodeAddr s.romLen a' ∉ storePlaces s.romLen .byte a) : (s.writeByte a b).readByte acc a' = s.readByte acc a' := by
  have hb := decodeAddr_bound s.romLen a
  have hplain : decodeAddr s.romLen a ∈ storePlaces s.romLen .byte a ∨ (decodeAddr s.romLen a).1 = .pal ∨
      (decodeAddr s.romLen a).1 = .vram := by
    simp only [storePlaces]; split <;> simp_all
  unfold State.writeByte
  split
  · rename_i o hd
    simp only [storePlaces, hd, List.mem_cons, List.not_mem_nil, or_false, not_or] at h
    rw [hd] at hb
    exact readByte_writeBoth _ _ _ _ _ _ (by simpa using hb) (by simp) h.1 h.2
  · rename_i o hd
    simp only [storePlaces, hd, List.mem_cons, List.not_mem_nil, or_false, not_or] at h
    rw [hd] at hb
    split
    · exact readByte_writeBoth _ _ _ _ _ _ (by simpa using hb) (by simp) h.1 h.2
    · rfl
  · rfl
  · rename_i h1 h2 h3
    refine readByte_writePlain _ _ _ _ _ fun e => ?_
    rcases hplain with hp | hp | hp
    · exact h (e ▸ hp)
    · exact h1 (decodeAddr s.romLen a).2 (by rw [← hp])
    · exact h2 (decodeAddr s.romLen a).2 (by rw [← hp])

/-- A store leaves every byte of every place it does not write as it reads (20 R208 to R212). -/
theorem readByte_memWrite (s : State) (acc : Access) (a a' : Word) (w : Width) (v : Word)
    (h : decodeAddr s.romLen a' ∉ storePlaces s.romLen w a) : (s.memWrite a w v).readByte acc a' = s.readByte acc a' := by
  cases w
  · exact readByte_writeByte _ _ _ _ _ h
  · simp only [storePlaces, List.mem_cons, List.not_mem_nil, or_false, not_or] at h
    unfold State.memWrite
    rw [readByte_writePlain _ _ _ _ _ (by simpa using h.2), readByte_writePlain _ _ _ _ _ (by simpa using h.1)]
  · simp only [storePlaces, List.mem_cons, List.not_mem_nil, or_false, not_or] at h
    unfold State.memWrite
    rw [readByte_writePlain _ _ _ _ _ (by simpa using h.2.2.2), readByte_writePlain _ _ _ _ _ (by simpa using h.2.2.1),
      readByte_writePlain _ _ _ _ _ (by simpa using h.2.1), readByte_writePlain _ _ _ _ _ (by simpa using h.1)]

/-- A store to no I/O register leaves the I/O registers and the halt state alone. -/
theorem sameIo_memWrite (s : State) (a : Word) (w : Width) (v : Word) (h : ∀ o, (.io, o) ∉ storePlaces s.romLen w a) :
    SameIo s (s.memWrite a w v) := by
  have plain : ∀ (s : State) (a : Word) (b : Byte), (∀ o, (.io, o) ≠ decodeAddr s.romLen a) → SameIo s (s.writePlain a b) := by
    intro s a b h
    unfold State.writePlain
    split
    · exact ⟨rfl, rfl⟩
    · exact ⟨rfl, rfl⟩
    · exact ⟨rfl, rfl⟩
    · rename_i o hd; exact (h o hd.symm).elim
    · exact ⟨rfl, rfl⟩
  have trans : ∀ {s t u : State}, SameIo s t → SameIo t u → SameIo s u :=
    fun h h' => ⟨h'.1.trans h.1, h'.2.trans h.2⟩
  cases w
  · change SameIo s (s.writeByte a (getByte v 0))
    unfold State.writeByte
    split
    · exact ⟨rfl, rfl⟩
    · split <;> exact ⟨rfl, rfl⟩
    · exact ⟨rfl, rfl⟩
    · refine plain _ _ _ fun o e => h o ?_
      rw [storePlaces]
      simp only [← e, List.mem_singleton]
  · simp only [storePlaces, List.mem_cons, List.not_mem_nil, or_false, not_or] at h
    exact trans (plain _ _ _ fun o => (h o).1) (plain _ _ _ (by simpa using fun o => (h o).2))
  · simp only [storePlaces, List.mem_cons, List.not_mem_nil, or_false, not_or] at h
    exact trans (trans (trans (plain _ _ _ fun o => (h o).1) (plain _ _ _ (by simpa using fun o => (h o).2.1)))
      (plain _ _ _ (by simpa using fun o => (h o).2.2.1))) (plain _ _ _ (by simpa using fun o => (h o).2.2.2))

/-- What one store can do (20 R208 to R212): the frame of its places. -/
theorem sameMemoryBut_memWrite (s : State) (a : Word) (w : Width) (v : Word) :
    SameMemoryBut (storePlaces s.romLen w a) s (s.memWrite a w v) :=
  ⟨fun _ _ h => readByte_memWrite _ _ _ _ _ _ h, fun h => sameIo_memWrite _ _ _ _ h⟩

/-- What a block store can do: the frame of the places of all its words. -/
theorem sameMemoryBut_writeWords (ws : List (Word × Word)) : ∀ s : State,
    SameMemoryBut (ws.flatMap fun x => storePlaces s.romLen .word (x.1 &&& 0xFFFFFFFC)) s (s.writeWords ws) := by
  induction ws with
  | nil => exact fun s => ⟨fun _ _ _ => rfl, fun _ => ⟨rfl, rfl⟩⟩
  | cons x ws ih =>
    intro s
    have h1 := sameMemoryBut_memWrite s (x.1 &&& 0xFFFFFFFC) .word x.2
    have h2 := ih (s.memWrite (x.1 &&& 0xFFFFFFFC) .word x.2)
    simp only [State.memWrite_romLen] at h2
    simp only [List.flatMap_cons, State.writeWords]
    refine ⟨fun acc a h => ?_, fun h => ?_⟩
    · rw [List.mem_append, not_or] at h
      rw [h2.1 acc a (by simpa using h.2), h1.1 acc a h.1]
    · have e1 := h1.2 fun o ho => h o (List.mem_append_left _ ho)
      have e2 := h2.2 fun o ho => h o (List.mem_append_right _ ho)
      exact ⟨e2.1.trans e1.1, e2.2.trans e1.2⟩

/-- An aligned word written to plain cells. -/
theorem memWrite_word_mem (s : State) (a v : Word) (r : Region) (o : Nat) (hr : r = .ewram ∨ r = .iwram)
    (h : ∀ j, j < 4 → decodeAddr s.romLen (a + BitVec.ofNat 32 j) = (r, o + j)) :
    (s.memWrite a .word v).mem = ((((s.mem.write (r.base + o) (getByte v 0)).write (r.base + (o + 1)) (getByte v 1)).write
      (r.base + (o + 2)) (getByte v 2)).write (r.base + (o + 3)) (getByte v 3)) := by
  have hp : ∀ (x : Word) (b : Byte) (q : Nat), decodeAddr s.romLen x = (r, q) → ∀ s' : State, s'.romLen = s.romLen →
      s'.writePlain x b = { s' with mem := s'.mem.write (r.base + q) b } := by
    intro x b q hx s' hs'; unfold State.writePlain; rw [hs', hx]; rcases hr with rfl | rfl <;> rfl
  have h0 := h 0 (by omega)
  rw [show a + BitVec.ofNat 32 0 = a from BitVec.add_zero a] at h0
  have e0 := hp a (getByte v 0) _ h0
  have e1 := hp (a + 1) (getByte v 1) _ (h 1 (by omega))
  have e2 := hp (a + 2) (getByte v 2) _ (h 2 (by omega))
  have e3 := hp (a + 3) (getByte v 3) _ (h 3 (by omega))
  simp only [State.memWrite, e0, e1, e2, e3, Nat.add_zero]

end Sys2Proof.Machine
end

