-- ==== Sys2Proof/Laws/Encoding.lean ====
section
/-! SUPPORT. Fields of joined bit vectors, and the round trips of the small codes: what the proofs about decoding and encoding
rest on. -/

namespace Sys2Proof

theorem Cond.ofBits_bits (c : Cond) : Cond.ofBits c.bits = some c := by cases c <;> rfl

theorem ShiftKind.ofBits_bits (k : ShiftKind) : ShiftKind.ofBits k.bits = k := by cases k <;> rfl

theorem ShiftKind.bits_ofBits : ∀ b : BitVec 2, (ShiftKind.ofBits b).bits = b := by decide

theorem Cond.bits_ofBits : ∀ (b : BitVec 4) (c : Cond), Cond.ofBits b = some c → c.bits = b := by
  intro b c; revert b; cases c <;> decide

theorem Cond.ofBits_none : ∀ b : BitVec 4, Cond.ofBits b = none → b = 15 := by decide

/-- Bit i of `hi : lo`. -/
theorem getLsbD_join {n m k : Nat} (x : BitVec n) (y : BitVec m) (i : Nat) (h : i < k) :
    (join k x y).getLsbD i = if i < m then y.getLsbD i else x.getLsbD (i - m) := by
  by_cases h1 : i < m
  · simp [join, h, h1]
  · simp [join, h, h1, BitVec.getLsbD_of_ge y i (by omega)]

/-- A field of the low part. -/
theorem extract_join_lo {n m k : Nat} (x : BitVec n) (y : BitVec m) (lo len : Nat) (h : lo + len ≤ m) (hk : m ≤ k) :
    (join k x y).extractLsb' lo len = y.extractLsb' lo len := by
  apply BitVec.eq_of_getLsbD_eq
  intro i hi
  rw [BitVec.getLsbD_extractLsb', getLsbD_join _ _ _ (by omega), if_pos (by omega), BitVec.getLsbD_extractLsb']

/-- A field of the high part. -/
theorem extract_join_hi {n m k : Nat} (x : BitVec n) (y : BitVec m) (lo len : Nat) (h : m ≤ lo) (hk : lo + len ≤ k) :
    (join k x y).extractLsb' lo len = x.extractLsb' (lo - m) len := by
  apply BitVec.eq_of_getLsbD_eq
  intro i hi
  rw [BitVec.getLsbD_extractLsb', getLsbD_join _ _ _ (by omega), if_neg (by omega), BitVec.getLsbD_extractLsb',
    show lo + i - m = lo - m + i by omega]

/-- A field that spans both parts. -/
theorem extract_join_mid {n m k : Nat} (x : BitVec n) (y : BitVec m) (lo len : Nat) (h : lo < m) (h2 : m < lo + len)
    (hk : lo + len ≤ k) :
    (join k x y).extractLsb' lo len = join len (x.extractLsb' 0 (lo + len - m)) (y.extractLsb' lo (m - lo)) := by
  apply BitVec.eq_of_getLsbD_eq
  intro i hi
  rw [BitVec.getLsbD_extractLsb', getLsbD_join _ _ _ (by omega), getLsbD_join _ _ _ hi]
  by_cases h3 : lo + i < m
  · have h4 : i < m - lo := by omega
    rw [if_pos h3, if_pos h4]; simp [hi, h4]
  · have h4 : i - (m - lo) < lo + len - m := by omega
    rw [if_neg h3, if_neg (by omega)]
    simp [hi, show i - (m - lo) = lo + i - m by omega]; omega

theorem extract_full {n : Nat} (x : BitVec n) : x.extractLsb' 0 n = x := by
  apply BitVec.eq_of_getLsbD_eq; intro i hi; simp [hi]

/-- A word is `hi : lo` exactly when its fields are. -/
theorem join_eq {n m k : Nat} (x : BitVec n) (y : BitVec m) (z : BitVec k) (h : n + m = k) :
    join k x y = z ↔ x = z.extractLsb' m n ∧ y = z.extractLsb' 0 m := by
  constructor
  · rintro rfl
    rw [extract_join_hi _ _ _ _ le_rfl (by omega), extract_join_lo _ _ _ _ (by omega) (by omega)]
    simp
  · rintro ⟨rfl, rfl⟩
    apply BitVec.eq_of_getLsbD_eq
    intro i hi
    rw [getLsbD_join _ _ _ hi]
    by_cases h3 : i < m
    · rw [if_pos h3]; simp [h3]
    · have h4 : i - m < n := by omega
      rw [if_neg h3]; simp [h4, show m + (i - m) = i by omega]

/-- The fields of a word joined back. -/
theorem join_extract {k : Nat} (z : BitVec k) (a n m : Nat) :
    join (n + m) (z.extractLsb' (a + m) n) (z.extractLsb' a m) = z.extractLsb' a (n + m) := by
  rw [join_eq _ _ _ rfl]
  constructor
  · apply BitVec.eq_of_getLsbD_eq
    intro i hi
    have h1 : m + i < n + m := by omega
    simp [hi, h1, Nat.add_assoc]
  · apply BitVec.eq_of_getLsbD_eq
    intro i hi
    have h1 : i < n + m := by omega
    simp [hi, h1]

/-- A field of a field. -/
theorem extract_extract {k : Nat} (x : BitVec k) (a n b m : Nat) (h : b + m ≤ n) :
    (x.extractLsb' a n).extractLsb' b m = x.extractLsb' (a + b) m := by
  apply BitVec.eq_of_getLsbD_eq
  intro i hi
  have h1 : b + i < n := by omega
  simp [hi, h1, Nat.add_assoc]

theorem getLsbD_of_extract {k : Nat} {x : BitVec k} {a n : Nat} {v : BitVec n} (h : x.extractLsb' a n = v) (i : Nat)
    (hi : i < n) : x.getLsbD (a + i) = v.getLsbD i := by rw [← h]; simp [hi]

theorem extract_of_extract {k : Nat} {x : BitVec k} {a n : Nat} {v : BitVec n} (h : x.extractLsb' a n = v) (b m : Nat)
    (hb : b + m ≤ n) : x.extractLsb' (a + b) m = v.extractLsb' b m := by rw [← h, extract_extract _ _ _ _ _ hb]

/-- An ARM word with a condition decodes by the rows of the rest. -/
theorem decode_cond (c : Cond) (body : BitVec 28) :
    decode (.arm (join 32 c.bits body)) = decodeArmRows c (join 32 c.bits body) := by
  simp only [decode, decodeArm]
  rw [extract_join_hi _ _ _ _ (by decide) (by decide), extract_full, Cond.ofBits_bits]

theorem Cond.ofBits_nv : Cond.ofBits 15#4 = none := rfl

theorem Cond.ofBits_al : Cond.ofBits 14#4 = some .al := rfl

/-- Joined literals of the Thumb formats: the five bits 15:11. -/
theorem join_literals : join 5 5#4 0#1 = 10#5 ∧ join 5 5#4 1#1 = 11#5 ∧ join 5 3#3 0#2 = 12#5 ∧ join 5 3#3 1#2 = 13#5 ∧
    join 5 3#3 2#2 = 14#5 ∧ join 5 3#3 3#2 = 15#5 ∧ join 5 11#4 0#1 = 22#5 ∧ join 5 11#4 1#1 = 23#5 ∧
    join 5 13#4 0#1 = 26#5 ∧ join 5 13#4 1#1 = 27#5 := by decide

end Sys2Proof
end

