-- ==== Sys2Proof/Laws/Ops.lean ====
section
/-! SUPPORT. What each shared operation does, said once: registers, flags, conditions, refusals, stores, loads of a block,
exceptions and returns, and the frames. Later proofs cite these and unfold no operation. -/

namespace Sys2Proof.Machine

open Sys2Proof

/-! ### Registers -/

theorem lo_ne (r : LoReg) : lo r ≠ 15 ∧ lo r ≠ 14 ∧ lo r ≠ 13 := by revert r; decide

/-- A low register as an operand. -/
theorem State.reg_lo (s : State) (off : Word) (r : LoReg) : s.reg off (lo r) = s.peek (physReg s.cpsr.mode (lo r)) :=
  s.reg_of_ne off (lo_ne_pc r)

/-! ### Alignment of the pc -/

theorem alignPc_true (v : Word) : alignPc true v &&& 1 = 0 := by
  apply BitVec.eq_of_getLsbD_eq
  intro i hi
  simp only [alignPc, if_true, BitVec.getLsbD_and]
  rcases i with _ | i
  · simp
  · rw [show (1 : Word).getLsbD (i + 1) = false by simp [BitVec.getLsbD_one], Bool.and_false]
    exact BitVec.getLsbD_zero.symm

theorem alignPc_false (v : Word) : alignPc false v &&& 3 = 0 := by
  rw [alignPc, if_neg (by decide), BitVec.and_assoc]
  exact BitVec.and_zero

/-- A multiple of four is even. -/
theorem even_of_aligned {a : Word} (h : a &&& 3 = 0) : a &&& 1 = 0 := by
  rw [show (1 : Word) = 3 &&& 1 from rfl, ← BitVec.and_assoc, h]
  rfl

theorem and_one_eq (a : Word) : a &&& 1 = 0 ↔ a.toNat % 2 = 0 := by
  rw [← BitVec.toNat_inj, BitVec.toNat_and]
  exact iff_of_eq (congrArg (· = 0) (Nat.and_two_pow_sub_one_eq_mod a.toNat 1))

theorem and_three_eq (a : Word) : a &&& 3 = 0 ↔ a.toNat % 4 = 0 := by
  rw [← BitVec.toNat_inj, BitVec.toNat_and]
  exact iff_of_eq (congrArg (· = 0) (Nat.and_two_pow_sub_one_eq_mod a.toNat 2))

theorem State.pcAligned_iff (s : State) : s.pcAligned ↔ if s.cpsr.t then s.pc.toNat % 2 = 0 else s.pc.toNat % 4 = 0 := by
  unfold State.pcAligned; split
  · exact and_one_eq _
  · exact and_three_eq _

/-- A pc written as an address of the instruction state is aligned (10_state R111). -/
theorem State.pcAligned_of {s : State} {v : Word} (h : s.pc = alignPc s.cpsr.t v) : s.pcAligned := by
  unfold State.pcAligned
  rw [h]
  by_cases ht : s.cpsr.t = true
  · rw [if_pos ht, ht]; exact alignPc_true v
  · rw [if_neg ht, eq_false_of_ne_true ht]; exact alignPc_false v

/-! ### Conditions and refusals -/

@[simp] theorem State.whenPassed_pass {s : State} {c : Cond} (h : Cond.passes c s.cpsr = true) (k : Result) :
    s.whenPassed c k = k := by rw [State.whenPassed, if_pos h]

@[simp] theorem State.whenPassed_fail {s : State} {c : Cond} (h : Cond.passes c s.cpsr = false) (k : Result) :
    s.whenPassed c k = .next (s.advance 4) := by rw [State.whenPassed, if_neg (by rw [h]; decide)]

@[simp] theorem refuseIf_true (why : Why) (k : Result) : refuseIf true why k = .refused (.unpredictable why) := rfl

@[simp] theorem refuseIf_false (why : Why) (k : Result) : refuseIf false why k = k := rfl

theorem refuseIf_of {b : Bool} (h : b = true) (why : Why) (k : Result) : refuseIf b why k = .refused (.unpredictable why) := by
  rw [h]; rfl

theorem refuseIf_not {b : Bool} (h : b = false) (why : Why) (k : Result) : refuseIf b why k = k := by rw [h]; rfl

/-- A conditional instruction has a next state by its condition failing, or by its effect. -/
theorem State.whenPassed_next {s t : State} {c : Cond} {k : Result} (h : s.whenPassed c k = .next t) :
    t = s.advance 4 ∨ k = .next t := by
  unfold State.whenPassed at h
  split at h
  · exact .inr h
  · exact .inl (by injection h with h; exact h.symm)

/-- A form with a next state is not refused. -/
theorem refuseIf_next {b : Bool} {why : Why} {k : Result} {t : State} (h : refuseIf b why k = .next t) :
    b = false ∧ k = .next t := by
  cases b
  · exact ⟨rfl, h⟩
  · cases h

/-! ### Stores -/

theorem State.store_next {s t : State} {w : Width} {a v : Word} {k : State → Result} (h : s.store w a v k = .next t) :
    s.refusesWrite (w.align a) w = false ∧ k (s.memWrite (w.align a) w v) = .next t := by
  unfold State.store at h
  split at h
  · cases h
  · rename_i hr
    exact ⟨by simpa using hr, h⟩

theorem State.store_accepted {s : State} {w : Width} {a : Word} (h : s.refusesWrite (w.align a) w = false) (v : Word)
    (k : State → Result) : s.store w a v k = k (s.memWrite (w.align a) w v) := by
  unfold State.store; rw [if_neg (by rw [h]; decide)]

theorem State.store_refused {s : State} {w : Width} {a : Word} (h : s.refusesWrite (w.align a) w = true) (v : Word)
    (k : State → Result) : s.store w a v k = .refused .unmodelledDevice := by
  unfold State.store; rw [if_pos h]

theorem State.storeWords_next {s t : State} {ws : List (Word × Word)} {k : State → Result}
    (h : s.storeWords ws k = .next t) : k (s.writeWords ws) = .next t := by
  unfold State.storeWords at h
  split at h
  · cases h
  · exact h

theorem State.storeWords_accepted {s : State} {ws : List (Word × Word)}
    (h : ∀ x ∈ ws, s.refusesWrite (x.1 &&& 0xFFFFFFFC) .word = false) (k : State → Result) :
    s.storeWords ws k = k (s.writeWords ws) := by
  unfold State.storeWords
  rw [if_neg]
  simpa using fun a b hx => h (a, b) hx

/-! ### Flags -/

@[simp] theorem nzOf_iff (p : Cpsr) (r : Word) : NzOf { p with n := r.msb, z := r == 0 } r := by
  refine ⟨?_, by simp⟩
  show r.msb = true ↔ _
  rw [BitVec.toInt_neg_iff, BitVec.msb_eq_decide, decide_eq_true_eq]
  omega

theorem addWithCarry_value (a b : Word) (cin : Bool) : (addWithCarry a b cin).value = a + b + if cin then 1 else 0 := by
  apply BitVec.eq_of_toNat_eq
  cases cin <;> simp [addWithCarry]

/-- What the adder computes for an arithmetic operation. -/
def ArithOp.out : ArithOp → Word → Word → Bool → AluOut
  | .sub, a, b, _ => addWithCarry a (~~~b) true
  | .rsb, a, b, _ => addWithCarry b (~~~a) true
  | .add, a, b, _ => addWithCarry a b false
  | .adc, a, b, cin => addWithCarry a b cin
  | .sbc, a, b, cin => addWithCarry a (~~~b) cin
  | .rsc, a, b, cin => addWithCarry b (~~~a) cin

theorem addWithCarry_not (a b : Word) (cin : Bool) :
    (addWithCarry a (~~~b) cin).value = (a - b - if cin then 0 else 1) ∧
    ((addWithCarry a (~~~b) cin).carry = true ↔ b.toNat + (!cin).toNat ≤ a.toNat) ∧
    ((addWithCarry a (~~~b) cin).overflow = true ↔ Overflows (a.toInt - b.toInt - (!cin).toNat)) := by
  have hn : (~~~b).toNat = 2 ^ 32 - 1 - b.toNat := BitVec.toNat_not
  have hi : (~~~b).toInt = -b.toInt - 1 := by
    have := b.isLt
    rw [BitVec.toInt_eq_toNat_cond, BitVec.toInt_eq_toNat_cond, BitVec.toNat_not]
    split <;> split <;> omega
  have hb := b.isLt
  have ha := a.isLt
  refine ⟨?_, ?_, ?_⟩
  · rw [addWithCarry_value]
    apply BitVec.eq_of_toNat_eq
    cases cin <;> simp [BitVec.toNat_add, BitVec.toNat_sub] <;> omega
  · simp only [addWithCarry, decide_eq_true_eq, hn]
    cases cin <;> simp <;> omega
  · simp only [addWithCarry, decide_eq_true_eq, hi, Overflows]
    cases cin <;> simp <;> omega

/-- The adder gives each arithmetic operation its result and its flags in exact arithmetic (00_scope R14). -/
theorem ArithOp.out_spec (op : ArithOp) (p : Cpsr) (a b : Word) (cin : Bool) :
    (op.out a b cin).value = op.result a b cin ∧ ArithFlags op (p.withFlags (op.out a b cin)) a b cin := by
  have main : (op.out a b cin).value = op.result a b cin ∧
      ((op.out a b cin).carry = true ↔ op.carry a b cin) ∧
      ((op.out a b cin).overflow = true ↔ Overflows (op.exact a b cin)) := by
    have s1 := addWithCarry_not a b
    have s2 := addWithCarry_not b a
    cases op
    · simpa [ArithOp.out, ArithOp.result, ArithOp.carry, ArithOp.exact] using s1 true
    · simpa [ArithOp.out, ArithOp.result, ArithOp.carry, ArithOp.exact] using s2 true
    · refine ⟨by simp [ArithOp.out, ArithOp.result, addWithCarry_value], ?_, ?_⟩ <;>
        simp [ArithOp.out, addWithCarry, ArithOp.carry, ArithOp.exact, Overflows]
    · refine ⟨by simp [ArithOp.out, ArithOp.result, addWithCarry_value], ?_, ?_⟩ <;>
        simp [ArithOp.out, addWithCarry, ArithOp.carry, ArithOp.exact, Overflows]
    · exact s1 cin
    · exact s2 cin
  refine ⟨main.1, ?_, main.2.1, main.2.2⟩
  rw [← main.1]
  exact nzOf_iff p _

/-- The flags of a logical result (40 R414, 44 R811). -/
theorem logicFlags_withFlags (p : Cpsr) (r : Word) (sc : Bool) : LogicFlags p (p.withFlags (logical p r sc)) r sc :=
  ⟨nzOf_iff p _, rfl, rfl⟩

@[simp] theorem Cpsr.withFlags_mode (p : Cpsr) (o : AluOut) : (p.withFlags o).mode = p.mode := rfl
@[simp] theorem Cpsr.withFlags_i (p : Cpsr) (o : AluOut) : (p.withFlags o).i = p.i := rfl
@[simp] theorem Cpsr.withFlags_f (p : Cpsr) (o : AluOut) : (p.withFlags o).f = p.f := rfl
@[simp] theorem Cpsr.withFlags_t (p : Cpsr) (o : AluOut) : (p.withFlags o).t = p.t := rfl
@[simp] theorem Cpsr.withFlagsIf_true (p : Cpsr) (o : AluOut) : p.withFlagsIf true o = p.withFlags o := rfl
@[simp] theorem Cpsr.withFlagsIf_false (p : Cpsr) (o : AluOut) : p.withFlagsIf false o = p := rfl
@[simp] theorem Cpsr.withFlagsIf_mode (p : Cpsr) (sf : Bool) (o : AluOut) : (p.withFlagsIf sf o).mode = p.mode := by cases sf <;> rfl
@[simp] theorem Cpsr.withFlagsIf_i (p : Cpsr) (sf : Bool) (o : AluOut) : (p.withFlagsIf sf o).i = p.i := by cases sf <;> rfl
@[simp] theorem Cpsr.withFlagsIf_f (p : Cpsr) (sf : Bool) (o : AluOut) : (p.withFlagsIf sf o).f = p.f := by cases sf <;> rfl
@[simp] theorem Cpsr.withFlagsIf_t (p : Cpsr) (sf : Bool) (o : AluOut) : (p.withFlagsIf sf o).t = p.t := by cases sf <;> rfl

/-! ### Frames -/

/-- Every byte reads the same where memory, the I/O registers, the cartridge's length and the epoch are the same. -/
theorem sameMemory_of {s t : State} (h1 : t.mem = s.mem) (h2 : t.io = s.io) (h3 : t.romLen = s.romLen)
    (h4 : t.draws = s.draws) : SameMemory s t := by
  refine ⟨h1, fun acc a => ?_⟩
  have hio : ∀ o, t.readIo acc o = s.readIo acc o := fun o => by unfold State.readIo; rw [h1, h2, h4]
  unfold State.readByte
  rw [h3, h1]
  split <;> first | rfl | exact hio _

/-- A read of any width is the same where every byte is. -/
theorem SameMemory.memRead {s t : State} (h : SameMemory s t) (acc : Access) (a : Word) (w : Width) :
    t.memRead acc a w = s.memRead acc a w := by
  cases w <;> simp only [State.memRead, h.2]

theorem SameMemory.loadValue {s t : State} (h : SameMemory s t) (k : LoadKind) (a : Word) :
    t.loadValue k a = s.loadValue k a := by
  cases k <;> simp only [State.loadValue, h.memRead]

/-- The frame of a state that keeps every field but the registers, the pc and the CPSR. -/
theorem frameFlags_of {ps : List (Fin 30)} {s t : State} (hr : SameRegsBut ps s t) (h0 : t.spsr = s.spsr) (h1 : t.mem = s.mem)
    (h2 : t.io = s.io) (h3 : t.halt = s.halt) (h4 : SameOutside s t) : FrameFlags ps s t :=
  ⟨hr, h0, sameMemory_of h1 h2 h4.1 h4.2.2.2.2.2, ⟨h2, h3⟩, h4⟩

@[simp] theorem sameControl_rfl (s : State) : SameControl s s := ⟨rfl, rfl, rfl, rfl⟩
@[simp] theorem sameOutside_rfl (s : State) : SameOutside s s := ⟨rfl, rfl, rfl, rfl, rfl, rfl⟩
@[simp] theorem sameMemory_rfl (s : State) : SameMemory s s := ⟨rfl, fun _ _ => rfl⟩
@[simp] theorem sameIo_rfl (s : State) : SameIo s s := ⟨rfl, rfl⟩

/-- The frame of a register write, the CPSR replaced and the pc set. -/
theorem frameFlags_setReg (s : State) (r : Reg) (v a : Word) (p : Cpsr) :
    FrameFlags [physReg s.cpsr.mode r] s (((s.setReg r v).setCpsr p).setPc a) := by
  refine frameFlags_of (fun q hq => ?_) rfl rfl rfl rfl ⟨rfl, rfl, rfl, rfl, rfl, rfl⟩
  simp only [List.mem_singleton] at hq
  simp [Ne.symm hq]

/-- The frame of a register write and the pc set. -/
theorem frameRegs_setReg (s : State) (r : Reg) (v a : Word) :
    FrameRegs [physReg s.cpsr.mode r] s ((s.setReg r v).setPc a) := ⟨rfl, frameFlags_setReg s r v a s.cpsr⟩

/-! ### Status registers -/

theorem Mode.ofBits_bits (m : Mode) : Mode.ofBits m.bits = some m := by cases m <;> rfl

theorem Mode.bits_inj (m m' : Mode) : m.bits = m'.bits ↔ m = m' := by cases m <;> cases m' <;> decide

theorem Mode.ofBits_eq (b : BitVec 5) (m : Mode) : Mode.ofBits b = some m ↔ b = m.bits := by
  constructor
  · revert b; cases m <;> decide
  · rintro rfl; exact m.ofBits_bits

theorem Mode.ofBits_none (b : BitVec 5) : Mode.ofBits b = none ↔ ∀ m : Mode, b ≠ m.bits := by
  constructor
  · intro h m hm; rw [hm, m.ofBits_bits] at h; cases h
  · intro h
    cases hb : Mode.ofBits b with
    | none => rfl
    | some m => exact absurd ((Mode.ofBits_eq b m).1 hb) (h m)

/-- A status register makes a CPSR exactly where its M names a mode, and then the two have the same fields. -/
theorem Psr.toCpsr_eq (p : Psr) (c : Cpsr) : p.toCpsr = some c ↔ p = c.toPsr := by
  unfold Psr.toCpsr Cpsr.toPsr
  rw [Option.map_eq_some_iff]
  constructor
  · rintro ⟨m, hm, rfl⟩
    rw [← (Mode.ofBits_eq _ _).1 hm]
  · rintro rfl
    exact ⟨c.mode, Mode.ofBits_bits _, rfl⟩

theorem Psr.toCpsr_none (p : Psr) : p.toCpsr = none ↔ ∀ m : Mode, p.m ≠ m.bits := by
  unfold Psr.toCpsr; rw [Option.map_eq_none_iff, Mode.ofBits_none]

/-- Bit i of the value of a status register (10_state R107). -/
theorem Psr.getLsbD_word (p : Psr) (i : Nat) : p.word.getLsbD i =
    if i < 5 then p.m.getLsbD i else if i = 5 then p.t else if i = 6 then p.f else if i = 7 then p.i
    else if i = 28 then p.v else if i = 29 then p.c else if i = 30 then p.z else if i = 31 then p.n else false := by
  by_cases h : i < 32
  · unfold Psr.word
    interval_cases i <;> simp (disch := decide) [getLsbD_join, bit, -BitVec.getLsbD_eq_getElem]
  · rw [BitVec.getLsbD_of_ge _ _ (by omega)]
    simp only [show ¬ i < 5 by omega, show i ≠ 5 by omega, show i ≠ 6 by omega, show i ≠ 7 by omega, show i ≠ 28 by omega,
      show i ≠ 29 by omega, show i ≠ 30 by omega, show i ≠ 31 by omega, if_false]

/-- A status register is what its value says. -/
theorem Psr.ofWord_word (p : Psr) : Psr.ofWord p.word = p := by
  cases p
  simp only [Psr.ofWord, Psr.getLsbD_word, Psr.mk.injEq]
  refine ⟨rfl, rfl, rfl, rfl, rfl, rfl, rfl, ?_⟩
  apply BitVec.eq_of_getLsbD_eq
  intro i hi
  rw [BitVec.getLsbD_extractLsb', Psr.getLsbD_word]
  simp [hi]

/-- The value of a status register made from a word: bits 27:8 are 0 (D50). -/
theorem Psr.getLsbD_word_ofWord (w : Word) (i : Nat) (h : i < 32) :
    (Psr.ofWord w).word.getLsbD i = (decide (28 ≤ i ∨ i < 8) && w.getLsbD i) := by
  rw [Psr.getLsbD_word]
  interval_cases i <;> simp [Psr.ofWord]

theorem getLsbD_mergeBits (old v m : Word) (i : Nat) :
    (mergeBits old v m).getLsbD i = if m.getLsbD i then v.getLsbD i else old.getLsbD i := by
  by_cases h : i < 32
  · simp only [mergeBits, BitVec.getLsbD_or, BitVec.getLsbD_and, BitVec.getLsbD_not, h, decide_true, Bool.true_and]
    cases m.getLsbD i <;> simp
  · rw [BitVec.getLsbD_of_ge _ _ (by omega), BitVec.getLsbD_of_ge v _ (by omega), BitVec.getLsbD_of_ge old _ (by omega)]
    simp

/-- The bits a field mask names (41 R521, D50). -/
theorem getLsbD_fieldBits : ∀ (mask : BitVec 4) (i : Fin 32),
    (fieldBits mask).getLsbD i = (mask.getLsbD (i / 8) && decide (28 ≤ i.val ∨ i.val < 8)) := by decide

theorem getLsbD_flagBits : ∀ i : Fin 32, (0xF0000000 : Word).getLsbD i = decide (28 ≤ i.val) := by decide

/-- The copy of MODE_CHANGE_SPSR_COPY touches an SPSR only. -/
theorem State.copyOnModeChange_eq (u : State) (old new : Cpsr) :
    u.copyOnModeChange old new = { u with spsr := (u.copyOnModeChange old new).spsr } := by
  unfold State.copyOnModeChange; split
  · split <;> rfl
  · rfl

/-! ### Exceptions and returns -/

theorem ExcKind.spsr_of_mode (kind : ExcKind) : kind.mode.spsrIndex = some kind.spsrIndex := by cases kind <;> rfl

/-- What taking an exception leaves (60 R1200, R1201). -/
theorem tookException (s : State) (kind : ExcKind) (link : Word) :
    TookException s (s.takeException kind link) kind.mode kind.setsF (alignPc false kind.vector) link := by
  refine ⟨?_, ⟨kind.spsrIndex, kind.spsr_of_mode, rfl⟩, rfl, rfl, fun q hq => ?_, sameMemory_of rfl rfl rfl rfl, ⟨rfl, rfl⟩,
    ⟨rfl, rfl, rfl, rfl, rfl, rfl⟩⟩
  · exact (s.peek_poke _ _ _).trans (if_pos rfl)
  · simp only [List.mem_singleton] at hq
    exact (s.peek_poke _ _ _).trans (if_neg (Ne.symm hq))

/-- A return has a next state where the mode has an SPSR that names a mode, and then it is this one. -/
theorem State.exceptionReturn_next {s t : State} {v : Word} :
    s.exceptionReturn v = .next t ↔ ∃ k c, s.cpsr.mode.spsrIndex = some k ∧ s.spsr[k] = c.toPsr ∧
      t = (s.setCpsr c).setPc (alignPc c.t v) := by
  unfold State.exceptionReturn State.curSpsr
  constructor
  · intro h
    cases hk : s.cpsr.mode.spsrIndex with
    | none => rw [hk] at h; cases h
    | some k =>
      rw [hk] at h
      simp only [Option.map_some] at h
      cases hc : (s.spsr[k]).toCpsr with
      | none => rw [hc] at h; cases h
      | some c =>
        rw [hc] at h
        exact ⟨k, c, rfl, (Psr.toCpsr_eq _ _).1 hc, by injection h with h; exact h.symm⟩
  · rintro ⟨k, c, hk, hc, rfl⟩
    rw [hk]
    simp only [Option.map_some, (Psr.toCpsr_eq _ _).2 hc]

theorem State.exceptionReturn_noSpsr {s : State} (h : s.cpsr.mode.spsrIndex = none) (v : Word) :
    s.exceptionReturn v = .refused (.unpredictable .noSpsr) := by
  unfold State.exceptionReturn State.curSpsr; rw [h]; rfl

theorem State.exceptionReturn_invalid {s : State} {k : Fin 5} (h : s.cpsr.mode.spsrIndex = some k)
    (hm : ∀ m : Mode, s.spsr[k].m ≠ m.bits) (v : Word) : s.exceptionReturn v = .refused .invalidMode := by
  unfold State.exceptionReturn State.curSpsr
  rw [h]
  simp only [Option.map_some, (Psr.toCpsr_none _).2 hm]

theorem Mode.spsrIndex_none (m : Mode) : m.spsrIndex = none ↔ m = .usr ∨ m = .sys := by cases m <;> decide

/-! ### Block transfers -/

theorem mem_regsOf (list : BitVec 16) (r : Reg) : r ∈ regsOf list ↔ list.getLsbD r.toNat = true := by
  unfold regsOf
  rw [List.mem_filter]
  refine ⟨fun h => h.2, fun h => ⟨?_, h⟩⟩
  clear h; revert r; decide

theorem regsOf_nodup (list : BitVec 16) : (regsOf list).Nodup := List.Nodup.filter _ (by decide)

/-- A register not among the slots is not changed by the loads. -/
theorem State.loadSlots_peek_of_not_mem (src : State) (m : Mode) (q : Fin 30) (l : List (Reg × Word)) :
    ∀ s : State, (∀ x ∈ l, x.1 ≠ 15 → physReg m x.1 ≠ q) → (s.loadSlots src m l).peek q = s.peek q := by
  induction l with
  | nil => exact fun _ _ => rfl
  | cons x l ih =>
    intro s h
    rw [State.loadSlots, ih _ fun y hy => h y (List.mem_cons_of_mem _ hy)]
    split
    · rfl
    · rw [State.peek_poke, if_neg (h x List.mem_cons_self ‹_›)]

/-- A register other than R15 that has one slot gets the word of it. -/
theorem State.loadSlots_peek (src : State) (m : Mode) (r : Reg) (a : Word) (hr : r ≠ 15) (l : List (Reg × Word)) :
    ∀ s : State, (l.map Prod.fst).Nodup → (r, a) ∈ l → (s.loadSlots src m l).peek (physReg m r) = src.slotWord a := by
  induction l with
  | nil => exact fun _ _ h => absurd h List.not_mem_nil
  | cons x l ih =>
    intro s hn h
    rw [List.map_cons, List.nodup_cons] at hn
    rw [State.loadSlots]
    rcases List.mem_cons.1 h with h | h
    · subst h
      rw [State.loadSlots_peek_of_not_mem]
      · rw [if_neg hr, State.peek_poke, if_pos rfl]
      · intro y hy hy15 e
        exact hn.1 (List.mem_map.2 ⟨y, hy, physReg_inj m _ _ hy15 hr e⟩)
    · exact ih _ hn.2 h

/-- The loads change registers only. -/
theorem State.loadSlots_eq (src : State) (m : Mode) (l : List (Reg × Word)) : ∀ s : State,
    s.loadSlots src m l = { s with regs := (s.loadSlots src m l).regs } := by
  induction l with
  | nil => exact fun _ => rfl
  | cons x l ih =>
    intro s
    rw [State.loadSlots]
    split
    · exact ih s
    · exact ih (s.poke (physReg m x.1) (src.slotWord x.2))

/-- R15's slot, where it has one. -/
theorem State.loadedPc_eq (s : State) (l : List (Reg × Word)) (hn : (l.map Prod.fst).Nodup) :
    (∀ a, (15, a) ∈ l → s.loadedPc l = some (s.slotWord a)) ∧ (15 ∉ l.map Prod.fst → s.loadedPc l = none) := by
  induction l with
  | nil => exact ⟨fun _ h => absurd h List.not_mem_nil, fun _ => rfl⟩
  | cons x l ih =>
    rw [List.map_cons, List.nodup_cons] at hn
    obtain ⟨h1, h2⟩ := ih hn.2
    rw [State.loadedPc]
    constructor
    · intro a h
      rcases List.mem_cons.1 h with h | h
      · subst h; rw [if_pos rfl]
      · rw [if_neg, h1 a h]
        intro e
        exact hn.1 (List.mem_map.2 ⟨_, h, e.symm⟩)
    · intro h
      rw [List.map_cons, List.mem_cons, not_or] at h
      rw [if_neg (Ne.symm h.1), h2 h.2]

theorem slots_fst (l : List Reg) : ∀ a : Word, (slots l a).map Prod.fst = l := by
  induction l with
  | nil => exact fun _ => rfl
  | cons r l ih => exact fun a => by rw [slots, List.map_cons, ih]

end Sys2Proof.Machine
end

