-- ==== Sys2Proof/Laws/Families.lean ====
section
/-! SUPPORT. What the families of instructions do, in the terms of Views: the meaning a family's instruction reduces to where its
condition passes, and everything loads, stores, block transfers and returns do. -/

namespace Sys2Proof.Machine

open Sys2Proof

set_option Elab.async false

/-! ### Registers -/

/-- A register written is what it was set to. -/
theorem reg_setReg (s : State) (r : Reg) (h : r ≠ 15) (v a : Word) (p : Cpsr) (hp : p.mode = s.cpsr.mode) (off : Word):
    (((s.setReg r v).setCpsr p).setPc a).reg off r = v := by
  rw [State.reg_of_ne _ _ h]; simp [hp]

/-- R15 reads 12 bytes on where a rule says so; other registers read the same. -/
theorem reg12 (s : State) (r : Reg) : s.reg 12 r = if r = 15 then s.pc + 12 else s.reg 8 r := by
  unfold State.reg; split <;> rfl

/-! ### Data processing -/

/-- A logical data-processing instruction whose condition passes ends as `State.dpWrite` says (40 R414 to R416). -/
theorem exec_logic (op : LogicOp) (o : DpOperand) (c : Cond) (sf : Bool) (rn rd : Reg) (s : State)
    (hc : Cond.passes c s.cpsr = true) (ho : o.defined) :
    exec (op.instr o c sf rn rd) s = s.dpWrite sf rd (logical s.cpsr (op.result (o.first s rn) (o.out s).value) (o.out s).carry) := by
  cases o with
  | imm rot imm8 => cases op <;> exact State.whenPassed_pass hc _
  | ishift amt sh rm => cases op <;> exact State.whenPassed_pass hc _
  | rshift rs sh rm =>
    have h : (rs == (15 : Reg)) = false := beq_false_of_ne ho
    cases op <;> exact (State.whenPassed_pass hc _).trans (refuseIf_not h _ _)

/-- An arithmetic data-processing instruction whose condition passes ends as `State.dpWrite` says (40 R414 to R416). -/
theorem exec_arith (op : ArithOp) (o : DpOperand) (c : Cond) (sf : Bool) (rn rd : Reg) (s : State)
    (hc : Cond.passes c s.cpsr = true) (ho : o.defined) :
    exec (op.instr o c sf rn rd) s = s.dpWrite sf rd (op.out (o.first s rn) (o.out s).value s.cpsr.c) := by
  cases o with
  | imm rot imm8 => cases op <;> exact State.whenPassed_pass hc _
  | ishift amt sh rm => cases op <;> exact State.whenPassed_pass hc _
  | rshift rs sh rm =>
    have h : (rs == (15 : Reg)) = false := beq_false_of_ne ho
    cases op <;> exact (State.whenPassed_pass hc _).trans (refuseIf_not h _ _)

/-- A comparison whose condition passes ends as `State.dpCompare` says (40 R428 to R431). -/
theorem exec_compare (op : CompareOp) (o : DpOperand) (c : Cond) (rn rd : Reg) (s : State)
    (hc : Cond.passes c s.cpsr = true) (ho : o.defined) :
    exec (op.instr o c rn rd) s = s.dpCompare rd (match op with
      | .tst => logical s.cpsr (o.first s rn &&& (o.out s).value) (o.out s).carry
      | .teq => logical s.cpsr (o.first s rn ^^^ (o.out s).value) (o.out s).carry
      | .cmp => ArithOp.sub.out (o.first s rn) (o.out s).value s.cpsr.c
      | .cmn => ArithOp.add.out (o.first s rn) (o.out s).value s.cpsr.c) := by
  cases o with
  | imm rot imm8 => cases op <;> exact State.whenPassed_pass hc _
  | ishift amt sh rm => cases op <;> exact State.whenPassed_pass hc _
  | rshift rs sh rm =>
    have h : (rs == (15 : Reg)) = false := beq_false_of_ne ho
    cases op <;> exact (State.whenPassed_pass hc _).trans (refuseIf_not h _ _)

/-- Everything a return can do (40 R416, 42 R642): refused where the mode has no SPSR or the SPSR names no mode, or the CPSR and the pc. -/
theorem exceptionReturn_spec (s : State) (v : Word) :
  (s.cpsr.mode = .usr ∨ s.cpsr.mode = .sys → s.exceptionReturn v = .refused (.unpredictable .noSpsr)) ∧
    ∀ k, s.cpsr.mode.spsrIndex = some k →
      (∀ m : Mode, s.spsr[k].m = m.bits → ∃ t, s.exceptionReturn v = .next t ∧ t.cpsr.word = s.spsr[k].word ∧
        t.pc = (if s.spsr[k].t then v &&& 0xFFFFFFFE else v &&& 0xFFFFFFFC) ∧ FrameFlags [] s t) ∧
      ((∀ m : Mode, s.spsr[k].m ≠ m.bits) → s.exceptionReturn v = .refused .invalidMode) := by
  refine ⟨fun h => State.exceptionReturn_noSpsr ((Mode.spsrIndex_none _).2 h) v, 
    fun k hk => ⟨fun m hm => ?_, fun h => State.exceptionReturn_invalid hk h v⟩⟩
  have ⟨p, hp⟩ : ∃ p, s.spsr[k].toCpsr = some p := by
    cases h : s.spsr[k].toCpsr with
    | some p => exact ⟨p, rfl⟩
    | none => exact absurd hm ((Psr.toCpsr_none _).1 h m)
  rw [Psr.toCpsr_eq] at hp
  refine ⟨_, State.exceptionReturn_next.2 ⟨k, p, hk, hp, rfl⟩, ?_, ?_, ?_⟩
  · rw [hp]; rfl
  · rw [hp]; rfl
  · exact frameFlags_of (fun _ _ => rfl) rfl rfl rfl rfl ⟨rfl, rfl, rfl, rfl, rfl, rfl⟩

/-! ### Single transfers -/

/-- The index of the meanings that a form stands for. -/
def XferForm.index : XferForm → Index
  | .pre w => preIndex w
  | .post | .user => .post

/-- The address of a form. -/
theorem XferForm.index_addr (f : XferForm) (s : State) (u : Bool) (rn : Reg) (o : Word) :
    s.xferAddr f.index u rn o = f.addr s u rn o := by
  cases f with
  | pre w => cases w <;> rfl
  | post => rfl
  | user => rfl

/-- The writeback of a form. -/
theorem XferForm.index_wb (f : XferForm) (s : State) (rn : Reg) (t : Word) :
    s.writeback f.index rn t = if f.writesBase then s.setReg rn t else s := by
  cases f with
  | pre w => cases w <;> rfl
  | post => rfl
  | user => rfl

/-- The forms that write back. -/
theorem XferForm.index_ne (f : XferForm) : (f.index != Index.offset) = f.writesBase := by
  cases f with
  | pre w => cases w <;> rfl
  | post => rfl
  | user => rfl

/-- No refusal for a base the form allows. -/
theorem XferForm.baseRefused (f : XferForm) (rn : Reg) (h : f.writesBase = true → rn ≠ 15) :
    Machine.baseRefused f.index rn = false := by
  unfold Machine.baseRefused
  rw [f.index_ne]
  cases hw : f.writesBase
  · rfl
  · exact beq_false_of_ne (h hw)

/-- No refusal for an offset register the form allows. -/
theorem XferForm.offsetRefused (f : XferForm) (rn rm : Reg) (h : f.writesBase = true → rm ≠ rn) :
    Machine.offsetRefused f.index rn rm = false := by
  unfold Machine.offsetRefused
  rw [f.index_ne]
  cases hw : f.writesBase
  · rfl
  · exact beq_false_of_ne (h hw)

/-- The index of the P and W bits. -/
theorem halfForm_index (p w : Bool) : (halfForm p w).index = halfIndex p w := by cases p <;> rfl

/-- A word or byte load with defined fields whose condition passes is `State.load` (42 R600). -/
theorem exec_load (byte : Bool) (f : XferForm) (o : XferOffset) (c : Cond) (u : Bool) (rn rd : Reg) (s : State)
    (hc : Cond.passes c s.cpsr = true) (hd : f.defined o rn) :
    exec (loadInstr byte f o c u rn rd) s = refuseIf (byte && rd == 15) .narrowLoadPc
      (.next (s.load (if byte then .byte else .word) f.index u rn rd (o.value s))) := by
  cases o with
  | imm i =>
    have : exec (loadInstr byte f (.imm i) c u rn rd) s = s.loadImm c (if byte then .byte else .word) f.index u rn rd i := by
      cases byte <;> cases f <;> rfl
    rw [this]
    refine (State.whenPassed_pass hc _).trans ((refuseIf_not (f.baseRefused rn hd.1) _ _).trans ?_)
    cases byte <;> rfl
  | reg amt sh rm =>
    have : exec (loadInstr byte f (.reg amt sh rm) c u rn rd) s =
        s.loadShift c (if byte then .byte else .word) f.index u rn rd amt sh rm := by
      cases byte <;> cases f <;> rfl
    rw [this]
    refine (State.whenPassed_pass hc _).trans ((refuseIf_not (f.baseRefused rn hd.1) _ _).trans ?_)
    rw [refuseIf_not (beq_false_of_ne hd.2.1), refuseIf_not (f.offsetRefused rn rm hd.2.2)]
    cases byte <;> rfl

/-- A word or byte store with defined fields whose condition passes is `State.storeReg` (42 R600). -/
theorem exec_store (byte : Bool) (f : XferForm) (o : XferOffset) (c : Cond) (u : Bool) (rn rd : Reg) (s : State)
    (hc : Cond.passes c s.cpsr = true) (hd : f.defined o rn) :
    exec (storeInstr byte f o c u rn rd) s = refuseIf (byte && rd == 15) .narrowStorePc
      (s.storeReg (if byte then .byte else .word) f.index u rn rd (o.value s)) := by
  cases o with
  | imm i =>
    have : exec (storeInstr byte f (.imm i) c u rn rd) s = s.storeImm c (if byte then .byte else .word) f.index u rn rd i := by
      cases byte <;> cases f <;> rfl
    rw [this]
    refine (State.whenPassed_pass hc _).trans ((refuseIf_not (f.baseRefused rn hd.1) _ _).trans ?_)
    cases byte <;> rfl
  | reg amt sh rm =>
    have : exec (storeInstr byte f (.reg amt sh rm) c u rn rd) s =
        s.storeShift c (if byte then .byte else .word) f.index u rn rd amt sh rm := by
      cases byte <;> cases f <;> rfl
    rw [this]
    refine (State.whenPassed_pass hc _).trans ((refuseIf_not (f.baseRefused rn hd.1) _ _).trans ?_)
    rw [refuseIf_not (beq_false_of_ne hd.2.1), refuseIf_not (f.offsetRefused rn rm hd.2.2)]
    cases byte <;> rfl

/-- A halfword or signed load with defined fields whose condition passes is `State.load` (42 R604). -/
theorem exec_halfLoad (k : HalfKind) (o : HalfOffset) (c : Cond) (p u w : Bool) (rn rd : Reg) (s : State)
    (hc : Cond.passes c s.cpsr = true) (hd : o.defined p w rn) :
    exec (k.instr o c p u w rn rd) s = refuseIf (rd == 15) .narrowLoadPc
      (.next (s.load k.load (halfForm p w).index u rn rd (o.value s))) := by
  obtain ⟨h1, h2, h3⟩ := hd
  have hb := (halfForm p w).baseRefused rn h2
  have hpw : (!p && w) = false := by cases p <;> cases w <;> simp_all
  rw [halfForm_index] at hb
  cases o with
  | imm i =>
    have : exec (k.instr (.imm i) c p u w rn rd) s = s.loadHalfImm c k.load p u w rn rd i := by cases k <;> rfl
    rw [this]
    refine (State.whenPassed_pass hc _).trans ((refuseIf_not hpw _ _).trans ((refuseIf_not hb _ _).trans ?_))
    rw [halfForm_index]; rfl
  | reg sbz rm =>
    have : exec (k.instr (.reg sbz rm) c p u w rn rd) s = s.loadHalfReg c k.load p u w rn rd sbz rm := by cases k <;> rfl
    rw [this]
    have h4 := (halfForm p w).offsetRefused rn rm h3.2.2
    rw [halfForm_index] at h4
    refine (State.whenPassed_pass hc _).trans ((refuseIf_not (by simp [h3.1]) _ _).trans ((refuseIf_not hpw _ _).trans
      ((refuseIf_not hb _ _).trans ?_)))
    rw [refuseIf_not (beq_false_of_ne h3.2.1), refuseIf_not h4, halfForm_index]; rfl

/-- STRH with defined fields whose condition passes is `State.storeReg` (42 R604). -/
theorem exec_halfStore (o : HalfOffset) (c : Cond) (p u w : Bool) (rn rd : Reg) (s : State)
    (hc : Cond.passes c s.cpsr = true) (hd : o.defined p w rn) :
    exec (strhInstr o c p u w rn rd) s = refuseIf (rd == 15) .narrowStorePc
      (s.storeReg .half (halfForm p w).index u rn rd (o.value s)) := by
  obtain ⟨h1, h2, h3⟩ := hd
  have hb := (halfForm p w).baseRefused rn h2
  have hpw : (!p && w) = false := by cases p <;> cases w <;> simp_all
  rw [halfForm_index] at hb
  cases o with
  | imm i =>
    have : exec (strhInstr (.imm i) c p u w rn rd) s = s.storeHalfImm c p u w rn rd i := by rfl
    rw [this]
    refine (State.whenPassed_pass hc _).trans ((refuseIf_not hpw _ _).trans ((refuseIf_not hb _ _).trans ?_))
    rw [halfForm_index]; rfl
  | reg sbz rm =>
    have : exec (strhInstr (.reg sbz rm) c p u w rn rd) s = s.storeHalfReg c p u w rn rd sbz rm := by rfl
    rw [this]
    have h4 := (halfForm p w).offsetRefused rn rm h3.2.2
    rw [halfForm_index] at h4
    refine (State.whenPassed_pass hc _).trans ((refuseIf_not (by simp [h3.1]) _ _).trans ((refuseIf_not hpw _ _).trans
      ((refuseIf_not hb _ _).trans ?_)))
    rw [refuseIf_not (beq_false_of_ne h3.2.1), refuseIf_not h4, halfForm_index]; rfl

/-- Everything a load can do (42 R600, R602). -/
theorem load_spec (s : State) (k : LoadKind) (f : XferForm) (u : Bool) (rn rd : Reg) (o : Word) (hb : f.writesBase = true → rn ≠ 15) :
    let t := s.load k f.index u rn rd o
    (rd ≠ 15 → t.pc = s.pc + 4 ∧ t.reg 8 rd = s.loadValue k (f.addr s u rn o)) ∧ (rd = 15 → t.pc = s.loadValue k (f.addr s u rn o) &&& 0xFFFFFFFC) ∧
      (f.writesBase = true → rn ≠ rd → t.reg 8 rn = indexedAddr s u rn o) ∧
      FrameRegs ((if rd = 15 then [] else [physReg s.cpsr.mode rd]) ++ if f.writesBase then [physReg s.cpsr.mode rn] else [])
        s t := by
  intro t
  have ht : t = (if f.writesBase then s.setReg rn (indexedAddr s u rn o) else s).writeRd rd (s.loadValue k (f.addr s u rn o)) := by
    show State.writeRd _ _ _ = _
    rw [f.index_wb, f.index_addr]; rfl
  clear_value t
  unfold State.writeRd at ht
  subst ht
  refine ⟨fun h => ?_, fun h => ?_, fun hw hn => ?_, ?_, frameFlags_of (fun q hq => ?_) ?_ ?_ ?_ ?_ ?_⟩
  · rw [if_neg h]
    refine ⟨by split <;> rfl, ?_⟩
    rw [State.reg_of_ne _ _ h]
    cases f.writesBase <;> simp
  · rw [if_pos h]; rfl
  · rw [State.reg_of_ne _ _ (hb hw), hw, if_pos rfl]
    split
    · simp
    · rename_i h
      have : physReg s.cpsr.mode rd ≠ physReg s.cpsr.mode rn := fun e => hn (physReg_inj _ _ _ (hb hw) h e.symm)
      simp [this]
  · cases f.writesBase <;> split <;> rfl
  · cases hw : f.writesBase <;> rw [hw] at hq <;> split at hq <;> rename_i h <;> (first | rw [if_pos h] | rw [if_neg h]) <;> simp_all [eq_comm (a := q)]
  · cases f.writesBase <;> split <;> rfl
  · cases f.writesBase <;> split <;> rfl
  · cases f.writesBase <;> split <;> rfl
  · cases f.writesBase <;> split <;> rfl
  · cases f.writesBase <;> split <;> exact ⟨rfl, rfl, rfl, rfl, rfl, rfl⟩

/-- The frame of a state that has what one store leaves. -/
theorem frameStore_of {ps : List (Fin 30)} {s t : State} (a : Word) (w : Width) (v : Word) (hp : t.cpsr = s.cpsr)
    (hr : SameRegsBut ps s t) (hs : t.spsr = s.spsr) (h : Wrote s t a w v) (ho : SameOutside s t) :
    Wrote s t a w v ∧ FrameStore ps (storePlaces s.romLen w a) s t := by
  refine ⟨h, hp, hr, hs, ?_, ho⟩
  have hm := sameMemoryBut_memWrite s a w v
  refine ⟨fun acc b hb => ?_, fun hb => ⟨h.2.1.trans (hm.2 hb).1, h.2.2.trans (hm.2 hb).2⟩⟩
  rw [← hm.1 acc b hb]
  exact (sameMemory_of (s := s.memWrite a w v) (t := t) h.1 h.2.1 (by rw [ho.1]; simp) (by rw [ho.2.2.2.2.2]; simp)).2 acc b

/-- Everything a store can do (42 R600, R601). -/
theorem store_spec (s : State) (w : Width) (f : XferForm) (u : Bool) (rn rd : Reg) (o : Word) (hb : f.writesBase = true → rn ≠ 15) :
    let a := w.align (f.addr s u rn o)
    (s.refusesWrite a w = true → s.storeReg w f.index u rn rd o = .refused .unmodelledDevice) ∧
    (s.refusesWrite a w = false → ∃ t, s.storeReg w f.index u rn rd o = .next t ∧ t.pc = s.pc + 4 ∧
      Wrote s t a w (s.reg 12 rd) ∧ (f.writesBase = true → t.reg 8 rn = indexedAddr s u rn o) ∧
      FrameStore (if f.writesBase then [physReg s.cpsr.mode rn] else []) (storePlaces s.romLen w a) s t) := by
  intro a
  have ha : w.align (s.xferAddr f.index u rn o) = a := by rw [f.index_addr]
  unfold State.storeReg
  refine ⟨fun h => State.store_refused (ha ▸ h) _ _, fun h => ⟨_, State.store_accepted (ha ▸ h) _ _, ?_⟩⟩
  rw [ha, f.index_wb]
  generalize s.reg 12 rd = v
  have hx : s.indexed u rn o = indexedAddr s u rn o := rfl
  rw [hx]
  have hw : Wrote s ((if f.writesBase = true then (s.memWrite a w v).setReg rn (indexedAddr s u rn o)
      else s.memWrite a w v).advance 4) a w v := by
    cases f.writesBase <;> exact ⟨rfl, rfl, rfl⟩
  have hfr := frameStore_of (ps := if f.writesBase then [physReg s.cpsr.mode rn] else []) a w v 
    (t := (if f.writesBase = true then (s.memWrite a w v).setReg rn (indexedAddr s u rn o) else s.memWrite a w v).advance 4)
    (by cases f.writesBase <;> simp)
    (fun q hq => by cases hh : f.writesBase <;> simp [hh] at hq ⊢; exact fun e => absurd e.symm hq)
    (by cases f.writesBase <;> simp) hw (by cases f.writesBase <;> simp [SameOutside])
  refine ⟨by cases f.writesBase <;> simp, hw, fun h => ?_, hfr.2⟩
  rw [h, if_pos rfl, State.reg_of_ne _ _ (hb h)]
  simp

/-! ### Block transfers -/

/-- How many bits of a list are set below bit k. -/
def countBelow (list : BitVec 16) (k : Nat) : Nat := (List.range k).countP fun i => list.getLsbD i

/-- One more bit. -/
theorem countBelow_succ (list : BitVec 16) (k : Nat) :
    countBelow list (k + 1) = countBelow list k + (list.getLsbD k).toNat := by
  unfold countBelow
  rw [List.range_succ, List.countP_append]
  cases h : list.getLsbD k <;> simp [h]

/-- The slots from register k on. -/
theorem slots_from (list : BitVec 16) (a : Word) : ∀ (n k : Nat), k + n = 16 →
    slots (((List.range' k n).map (BitVec.ofNat 4)).filter fun r => list.getLsbD r.toNat)
        (a + BitVec.ofNat 32 (4 * countBelow list k)) =
      (((List.range' k n).map (BitVec.ofNat 4)).filter fun r => list.getLsbD r.toNat).map fun r =>
        (r, a + BitVec.ofNat 32 (4 * rankIn list r)) := by
  intro n
  induction n with
  | zero => exact fun _ _ => rfl
  | succ n ih =>
    intro k hk
    have hkn : (BitVec.ofNat 4 k).toNat = k := by simp; omega
    have := ih (k + 1) (by omega)
    rw [countBelow_succ] at this
    rw [List.range'_succ, List.map_cons, List.filter_cons, hkn]
    cases hb : list.getLsbD k
    · rw [hb] at this
      simpa using this
    · rw [hb] at this
      rw [if_pos rfl, slots, List.map_cons, ← this]
      congr 2
      · show _ = a + BitVec.ofNat 32 (4 * countBelow list (BitVec.ofNat 4 k).toNat)
        rw [hkn]
      · rw [BitVec.add_assoc]
        show _ + (_ + BitVec.ofNat 32 4) = _
        rw [← BitVec.ofNat_add]; rfl

/-- Each register of a list has its slot at four times its rank. -/
theorem slots_regsOf (list : BitVec 16) (a : Word) :
    slots (regsOf list) a = (regsOf list).map fun r => (r, a + BitVec.ofNat 32 (4 * rankIn list r)) := by
  have := slots_from list a 16 0 rfl
  have h0 : a + BitVec.ofNat 32 (4 * countBelow list 0) = a := by
    show a + 0 = a
    simp
  rw [h0] at this
  exact this

/-- The length of a register list. -/
theorem regsOf_length (list : BitVec 16) : (regsOf list).length = listCount list := by
  show List.length (List.filter _ ((List.range 16).map (BitVec.ofNat 4))) = _
  rw [← List.countP_eq_length_filter, List.countP_map]
  refine List.countP_congr fun x hx => ?_
  have := List.mem_range.1 hx
  simp; rw [Nat.mod_eq_of_lt this]

/-- The lowest register of a list is the one of rank 0. -/
theorem head_regsOf (list : BitVec 16) (r : Reg) (h : list.getLsbD r.toNat = true) :
    (regsOf list).head? = some r ↔ rankIn list r = 0 := by
  have hl : ∀ (i : Nat) (hi : i < 16), ([0, 1, 2, 3, 4, 5, 6, 7, 8, 9, 10, 11, 12, 13, 14, 15] : List Reg)[i] = BitVec.ofNat 4 i := by
    decide
  have ht : ∀ i, i < 16 → (BitVec.ofNat 4 i).toNat = i := fun i hi => Nat.mod_eq_of_lt hi
  unfold regsOf rankIn
  rw [List.head?_filter, List.find?_eq_some_iff_getElem, List.countP_eq_zero]
  constructor
  · rintro ⟨_, i, hi, he, hlt⟩ j hj
    have hi16 : i < 16 := hi
    rw [hl i hi] at he
    rw [← he, ht i hi, List.mem_range] at hj
    have := hlt j hj
    rw [hl j (by omega), ht j (by omega)] at this
    simpa using this
  · intro hz
    refine ⟨h, r.toNat, r.isLt, by rw [hl _ r.isLt]; exact BitVec.ofNat_toNat .., fun j hj => ?_⟩
    have hr := r.isLt
    rw [hl j (by omega), ht j (by omega)]
    simpa using hz j (List.mem_range.2 hj)

/-- The registers of a list that is not empty. -/
theorem blockRegs_ne {list : BitVec 16} (h : list ≠ 0) : blockRegs list = regsOf list := if_neg h

/-- The size of a list that is not empty. -/
theorem blockSize_ne {list : BitVec 16} (h : list ≠ 0) : blockSize list = BitVec.ofNat 32 (4 * listCount list) := by
  unfold blockSize; rw [if_neg h, regsOf_length]

/-- The start address in the terms of the statements. -/
theorem blockStart_eq (p u : Bool) (b : Word) (n : Nat) : blockStart p u b (BitVec.ofNat 32 (4 * n)) = blockBaseAddr p u b n := by
  cases p <;> cases u <;> rfl

/-- The writeback value in the terms of the statements. -/
theorem blockEnd_eq (u : Bool) (b : Word) (n : Nat) : blockEnd u b (BitVec.ofNat 32 (4 * n)) = blockBack u b n := rfl

/-- The slots of an ARM block transfer whose list is not empty (42 R630). -/
theorem State.blockSlots_ne (s : State) (p u : Bool) (rn : Reg) {list : BitVec 16} (h : list ≠ 0) :
    s.blockSlots p u rn list = (regsOf list).map fun r =>
      (r, blockBaseAddr p u (s.reg 8 rn) (listCount list) + BitVec.ofNat 32 (4 * rankIn list r)) := by
  unfold State.blockSlots
  rw [blockRegs_ne h, blockSize_ne h, blockStart_eq, slots_regsOf]; rfl

/-- The one slot of an empty list (42 R631). -/
theorem State.blockSlots_empty (s : State) (p u : Bool) (rn : Reg) :
    s.blockSlots p u rn 0 = [(15, blockBaseAddr p u (s.reg 8 rn) 16)] := by
  unfold State.blockSlots; rw [← blockStart_eq]; rfl

/-- An LDM with an empty list changes the base only. -/
theorem State.ldmRegs_empty (s : State) (p u w : Bool) {rn : Reg} (h : rn ≠ 15) :
    s.ldmRegs p u w rn 0 = if w then s.setReg rn (blockBack u (s.reg 8 rn) 16) else s := by
  have h' : ¬ rn = 15#4 := h
  unfold State.ldmRegs
  rw [State.blockSlots_empty]
  cases w <;> simp [State.ldmWriteback, blockRegs, State.loadSlots, h']
  rfl

/-- The registers of slots. -/
theorem map_fst (l : List Reg) (f : Reg → Word) : (l.map fun r => (r, f r)).map Prod.fst = l := by
  rw [List.map_map]; exact List.map_id l

/-- Everything the loads of a list do: each register its word, no other register. -/
theorem loadSlots_spec (s src : State) (m : Mode) (list : BitVec 16) (f : Reg → Word) :
    let t := s.loadSlots src m ((regsOf list).map fun r => (r, f r))
    (∀ r : Reg, list.getLsbD r.toNat = true → r ≠ 15 → t.peek (physReg m r) = src.memRead .data (f r &&& 0xFFFFFFFC) .word) ∧
    SameRegsBut (listRegs m list) s t := by
  intro t
  refine ⟨fun r hr h15 => ?_, fun q hq => ?_⟩
  · refine State.loadSlots_peek src m r (f r) h15 _ s ?_ ?_
    · rw [map_fst]; exact regsOf_nodup list
    · exact List.mem_map.2 ⟨r, (mem_regsOf list r).2 hr, rfl⟩
  · refine State.loadSlots_peek_of_not_mem src m q _ s ?_
    rintro x hx h15 rfl
    obtain ⟨r, hr, rfl⟩ := List.mem_map.1 hx
    apply hq
    refine List.mem_map.2 ⟨r, List.mem_filter.2 ⟨?_, (mem_regsOf list r).1 hr⟩, rfl⟩
    exact (show ∀ r : Reg, r ≠ 15 → r ∈ ([0, 1, 2, 3, 4, 5, 6, 7, 8, 9, 10, 11, 12, 13, 14] : List Reg) by decide) r h15

/-- R15's word, where the list has R15. -/
theorem loadedPc_spec (s : State) (list : BitVec 16) (f : Reg → Word) :
    s.loadedPc ((regsOf list).map fun r => (r, f r)) = if list.getLsbD 15 then some (s.memRead .data (f 15 &&& 0xFFFFFFFC) .word) else none := by
  have h := s.loadedPc_eq ((regsOf list).map fun r => (r, f r)) (by rw [map_fst]; exact regsOf_nodup list)
  cases hb : list.getLsbD 15
  · exact h.2 (by rw [map_fst, mem_regsOf]; intro e; rw [show (15 : Reg).toNat = 15 from rfl, hb] at e; cases e)
  · exact h.1 _ (List.mem_map.2 ⟨15, (mem_regsOf list 15).2 hb, rfl⟩)

/-- Everything an LDM does before the pc (42 R630, R632, R640). -/
theorem ldmRegs_spec (s : State) (p u w : Bool) (rn : Reg) (list : BitVec 16) (h15 : rn ≠ 15) (h0 : list ≠ 0) :
    let t := s.ldmRegs p u w rn list
    let b := s.reg 8 rn
    (∀ r : Reg, list.getLsbD r.toNat = true → r ≠ 15 → t.peek (physReg s.cpsr.mode r) = s.memRead .data (slotOf p u b list r) .word) ∧
    (w = true → list.getLsbD rn.toNat = false → t.peek (physReg s.cpsr.mode rn) = blockBack u b (listCount list)) ∧
    SameRegsBut (listRegs s.cpsr.mode list ++ if w then [physReg s.cpsr.mode rn] else []) s t ∧
    t = { s with regs := t.regs } := by
  intro t b
  have ht : t = if w && !list.getLsbD rn.toNat then
      (s.loadSlots s s.cpsr.mode (s.blockSlots p u rn list)).setReg rn (blockBack u b (listCount list))
      else s.loadSlots s s.cpsr.mode (s.blockSlots p u rn list) := by
    show State.ldmWriteback _ _ _ _ _ = _
    unfold State.ldmWriteback State.blockWb
    rw [blockRegs_ne h0, blockSize_ne h0, blockEnd_eq]
    have : (regsOf list).contains rn = list.getLsbD rn.toNat := by
      rw [Bool.eq_iff_iff, List.contains_iff_mem, mem_regsOf]
    rw [this]; rfl
  rw [s.blockSlots_ne p u rn h0] at ht
  obtain ⟨h1, h2⟩ := loadSlots_spec s s s.cpsr.mode list (fun r => blockBaseAddr p u b (listCount list) + BitVec.ofNat 32 (4 * rankIn list r))
  have hmode : (s.loadSlots s s.cpsr.mode ((regsOf list).map fun r =>
      (r, blockBaseAddr p u (s.reg 8 rn) (listCount list) + BitVec.ofNat 32 (4 * rankIn list r)))).cpsr.mode = s.cpsr.mode := by
    rw [State.loadSlots_eq]
  clear_value t
  subst ht
  refine ⟨fun r hr hr15 => ?_, fun hw hl => ?_, fun q hq => ?_, ?_⟩
  · split
    · rename_i hc
      rw [State.peek_setReg, hmode, if_neg]
      · exact h1 r hr hr15
      · intro e
        have := physReg_inj _ _ _ h15 hr15 e
        subst this
        simp only [Bool.and_eq_true, Bool.not_eq_true'] at hc
        rw [hr] at hc; exact absurd hc.2 (by decide)
    · exact h1 r hr hr15
  · rw [if_pos (by rw [hw, hl]; rfl), State.peek_setReg, hmode, if_pos rfl]
  · rw [List.mem_append, not_or] at hq
    split
    · rename_i hc
      rw [Bool.and_eq_true] at hc
      rw [hc.1, if_pos rfl, List.mem_singleton] at hq
      rw [State.peek_setReg, hmode, if_neg (Ne.symm hq.2)]
      exact h2 q hq.1
    · exact h2 q hq.1
  · split
    · unfold State.setReg State.poke
      rw [State.loadSlots_eq]
    · exact State.loadSlots_eq _ _ _ _

/-- The words of a block store go to aligned addresses. -/
theorem writeWords_eq (ws : List (Word × Word)) : ∀ s : State,
    s.writeWords ws = writeAll s (ws.map fun x => (x.1 &&& 0xFFFFFFFC, x.2)) := by
  induction ws with
  | nil => exact fun _ => rfl
  | cons x ws ih => exact fun s => ih _

/-- Aligning twice. -/
theorem and_mask (a : Word) : a &&& 0xFFFFFFFC &&& 0xFFFFFFFC = a &&& 0xFFFFFFFC := by
  rw [BitVec.and_assoc]; rfl

/-- The slots are aligned. -/
theorem blockWords_aligned (f v : Reg → Word) (list : BitVec 16) : ∀ x ∈ blockWords (fun r => f r &&& 0xFFFFFFFC) v list, x.1 &&& 0xFFFFFFFC = x.1 := by
  intro x hx
  obtain ⟨r, _, rfl⟩ := List.mem_map.1 hx
  exact and_mask _

/-- The words of the statements are the words of the meanings. -/
theorem writeAll_eq (s : State) (ws : List (Word × Word)) (h : ∀ x ∈ ws, x.1 &&& 0xFFFFFFFC = x.1) : writeAll s ws = s.writeWords ws := by
  rw [writeWords_eq]
  congr 1
  symm
  conv_rhs => rw [← List.map_id ws]
  exact List.map_congr_left fun x hx => by simp only [h x hx]; rfl

/-- Writing words changes neither registers nor the pc nor the status registers. -/
theorem writeAll_frame (s : State) (ws : List (Word × Word)) : (writeAll s ws).regs = s.regs ∧ (writeAll s ws).pc = s.pc ∧
    (writeAll s ws).cpsr = s.cpsr ∧ (writeAll s ws).spsr = s.spsr ∧ SameOutside s (writeAll s ws) := by
  induction ws generalizing s with
  | nil => exact ⟨rfl, rfl, rfl, rfl, rfl, rfl, rfl, rfl, rfl, rfl⟩
  | cons x ws ih =>
    obtain ⟨h1, h2, h3, h4, h5, h6, h7, h8, h9, h10⟩ := ih (s.memWrite x.1 .word x.2)
    refine ⟨h1.trans ?_, h2.trans ?_, h3.trans ?_, h4.trans ?_, h5.trans ?_, h6.trans ?_,
      h7.trans ?_, h8.trans ?_, h9.trans ?_, h10.trans ?_⟩ <;> simp

/-- A block store that the device policy accepts writes all its words. -/
theorem storeWords_spec (s : State) (l : List Reg) (f v : Reg → Word) (k : State → Result) (list : BitVec 16) (hl : l = regsOf list) :
    let ws := blockWords (fun r => f r &&& 0xFFFFFFFC) v list
    (Accepted s ws → s.storeWords (l.map fun r => (f r, v r)) k = k (writeAll s ws)) := by
  intro ws ha
  have e : (l.map fun r => (f r, v r)).map (fun x => (x.1 &&& 0xFFFFFFFC, x.2)) = ws := by
    rw [List.map_map, hl]; rfl
  rw [State.storeWords_accepted, writeWords_eq, e]
  intro x hx
  have := ha (x.1 &&& 0xFFFFFFFC, x.2) (by rw [← e]; exact List.mem_map.2 ⟨x, hx, rfl⟩)
  exact this

/-- The frame of a state that has what a block store leaves. -/
theorem storeFrame {ps : List (Fin 30)} {s t : State} (ws : List (Word × Word)) (h : ∀ x ∈ ws, x.1 &&& 0xFFFFFFFC = x.1)
    (hp : t.cpsr = s.cpsr)
    (hr : SameRegsBut ps s t) (hs : t.spsr = s.spsr) (hw : WroteAll s t ws) (ho : SameOutside s t) :
    FrameStore ps (wordPlaces s.romLen ws) s t := by
  have hm := sameMemoryBut_writeWords ws s
  have e : (ws.flatMap fun x => storePlaces s.romLen .word (x.1 &&& 0xFFFFFFFC)) = wordPlaces s.romLen ws := by
    unfold wordPlaces
    rw [List.flatMap_def, List.flatMap_def, List.map_congr_left (fun x hx => by rw [h x hx])]
  rw [e] at hm
  rw [WroteAll, writeAll_eq _ _ h] at hw
  refine ⟨hp, hr, hs, ?_, ho⟩
  refine ⟨fun acc b hb => ?_, fun hb => ⟨hw.2.1.trans (hm.2 hb).1, hw.2.2.trans (hm.2 hb).2⟩⟩
  rw [← hm.1 acc b hb]
  exact (sameMemory_of (s := s.writeWords ws) (t := t) hw.1 hw.2.1 (by rw [ho.1]; simp) (by rw [ho.2.2.2.2.2]; simp)).2 acc b

/-! ### Shifts as products -/

/-- A shift by one. -/
theorem shl1 (x : Word) : x <<< 1 = x * 2 := by
  apply BitVec.eq_of_toNat_eq; simp [Nat.shiftLeft_eq]

/-- A shift by two. -/
theorem shl2 (x : Word) : x <<< 2 = x * 4 := by
  apply BitVec.eq_of_toNat_eq; simp [Nat.shiftLeft_eq]

end Sys2Proof.Machine
end

