-- ==== Sys2Proof/Laws/Outcome.lean ====
section
/-! SUPPORT. What an instruction can do, said once for all of them: `exec_outcome` takes a next state apart into one of six
shapes, and names the class of instructions each shape belongs to. -/

namespace Sys2Proof.Machine

open Sys2Proof

/-- The pc after an instruction that is not BX, an exception or a return: the next instruction's address, or an aligned
target. -/
def NextPc (thumb : Bool) (s t : State) : Prop :=
  t.pc = s.pc + (if thumb then 2 else 4) ∨ ∃ v, t.pc = alignPc thumb v

/-- What an instruction of registers, flags and the pc leaves. -/
structure Kept (thumb : Bool) (s t : State) : Prop where
  mem : t.mem = s.mem
  io : SameIo s t
  spsr : t.spsr = s.spsr
  control : SameControl s t
  outside : SameOutside s t
  pc : NextPc thumb s t

/-- What a store leaves. -/
structure Stored (thumb : Bool) (s t : State) : Prop where
  wf : s.mem.wf = true → t.mem.wf = true
  spsr : t.spsr = s.spsr
  control : SameControl s t
  outside : SameOutside s t
  pc : NextPc thumb s t

/-- What MSR leaves. -/
structure PsrWritten (s t : State) : Prop where
  mem : t.mem = s.mem
  io : SameIo s t
  outside : SameOutside s t
  state : t.cpsr.t = s.cpsr.t
  pc : t.pc = s.pc + 4
  user : s.cpsr.mode = .usr → SameControl s t ∧ t.spsr = s.spsr

/-- The next states of an instruction. -/
inductive Outcome (i : Instr) (s : State) : State → Prop where
  | kept {t : State} : Kept i.isThumb s t → Outcome i s t
  | stored {t : State} : i.stores = true → Stored i.isThumb s t → Outcome i s t
  | exchanged (v : Word) : i.exchanges = true → Outcome i s (s.exchange v)
  | took (kind : ExcKind) (link : Word) : i.traps = true → kind = .undefined ∨ kind = .softwareInterrupt →
      Outcome i s (s.takeException kind link)
  | returned (u : State) (k : Fin 5) (c : Cpsr) (v : Word) : i.restores = true → Kept i.isThumb s (u.setPc (s.pc + 4)) →
      s.cpsr.mode.spsrIndex = some k → s.spsr[k] = c.toPsr → Outcome i s ((u.setCpsr c).setPc (alignPc c.t v))
  | psr {t : State} : i.writesPsr = true → PsrWritten s t → Outcome i s t

/-! ### Shapes of the shared operations -/

/-- The two ways the next pc is written. -/
def NextAddr (thumb : Bool) (s : State) (a : Word) : Prop :=
  a = s.pc + (if thumb then 2 else 4) ∨ ∃ v, a = alignPc thumb v

theorem kept_setReg (s : State) (r : Reg) (v : Word) (p : Cpsr) (hc : SameControl s (s.setCpsr p)) (thumb : Bool) (a : Word)
    (h : NextAddr thumb s a) : Kept thumb s (((s.setReg r v).setCpsr p).setPc a) :=
  ⟨rfl, ⟨rfl, rfl⟩, rfl, hc, ⟨rfl, rfl, rfl, rfl, rfl, rfl⟩, h⟩

theorem kept_setCpsr (s : State) (p : Cpsr) (hc : SameControl s (s.setCpsr p)) (thumb : Bool) (a : Word)
    (h : NextAddr thumb s a) : Kept thumb s ((s.setCpsr p).setPc a) :=
  ⟨rfl, ⟨rfl, rfl⟩, rfl, hc, ⟨rfl, rfl, rfl, rfl, rfl, rfl⟩, h⟩

theorem kept_setPc (s : State) (thumb : Bool) (a : Word) (h : NextAddr thumb s a) : Kept thumb s (s.setPc a) :=
  kept_setCpsr s s.cpsr ⟨rfl, rfl, rfl, rfl⟩ thumb a h

/-- A conditional instruction that is not refused has the shape of a failed condition or of its effect. -/
theorem Outcome.ofPassed {i : Instr} {s t : State} {c : Cond} {k : Result} (hi : i.isThumb = false)
    (h : s.whenPassed c k = .next t) (hk : k = .next t → Outcome i s t) : Outcome i s t := by
  rcases State.whenPassed_next h with rfl | h
  · exact .kept (hi ▸ kept_setPc s false _ (.inl rfl))
  · exact hk h

theorem Outcome.ofReturn {i : Instr} {s u t : State} {v : Word} (hr : i.restores = true)
    (hu : Kept i.isThumb s (u.setPc (s.pc + 4))) (h : u.exceptionReturn v = .next t) : Outcome i s t := by
  obtain ⟨k, c, hk, hc, rfl⟩ := State.exceptionReturn_next.1 h
  exact .returned u k c v hr hu (hu.control.1 ▸ hk) (by have := hu.spsr; simp only [State.setPc_spsr] at this; rw [← this]; exact hc)

theorem Outcome.ofDpWrite {i : Instr} {s t : State} {sf : Bool} {rd : Reg} {o : AluOut} (hi : i.isThumb = false)
    (hr : i.restores = (sf && rd == 15)) (h : s.dpWrite sf rd o = .next t) : Outcome i s t := by
  unfold State.dpWrite at h
  split at h
  · rename_i h15
    cases sf
    · simp only [Bool.false_eq_true, if_false] at h
      injection h with h; subst h
      exact .kept (hi ▸ kept_setPc s false _ (.inr ⟨_, rfl⟩))
    · simp only [if_true] at h
      exact .ofReturn (by rw [hr, h15]; rfl) (hi ▸ kept_setPc s false _ (.inl rfl)) h
  · injection h with h; subst h
    exact .kept (hi ▸ kept_setReg s rd _ _ (by simp [SameControl]) false _ (.inl rfl))

theorem Outcome.ofDpCompare {i : Instr} {s t : State} {rd : Reg} {o : AluOut} (hi : i.isThumb = false)
    (h : s.dpCompare rd o = .next t) : Outcome i s t := by
  obtain ⟨-, h⟩ := refuseIf_next h
  injection h with h; subst h
  exact .kept (hi ▸ kept_setCpsr s _ (by simp [SameControl]) false _ (.inl rfl))

theorem Outcome.ofRegWrite {i : Instr} {s t : State} (r : Reg) (v : Word) (p : Cpsr) (a : Word)
    (hc : SameControl s (s.setCpsr p)) (ha : NextAddr i.isThumb s a)
    (h : (.next (((s.setReg r v).setCpsr p).setPc a) : Result) = .next t) : Outcome i s t := by
  injection h with h; subst h
  exact .kept (kept_setReg s r v p hc _ a ha)

/-- A load in its addressing forms. -/
theorem kept_load (s : State) (k : LoadKind) (ix : Index) (u : Bool) (rn rd : Reg) (offset : Word) :
    Kept false s (s.load k ix u rn rd offset) := by
  unfold State.load State.writeRd State.writeback
  split <;> split <;>
    refine ⟨rfl, ⟨rfl, rfl⟩, rfl, ⟨rfl, rfl, rfl, rfl⟩, ⟨rfl, rfl, rfl, rfl, rfl, rfl⟩, ?_⟩ <;>
    first | exact .inr ⟨_, rfl⟩ | exact .inl rfl

theorem Outcome.ofLoad {i : Instr} {s t : State} {k : LoadKind} {ix : Index} {u : Bool} {rn rd : Reg} {offset : Word}
    (hi : i.isThumb = false) (h : (.next (s.load k ix u rn rd offset) : Result) = .next t) : Outcome i s t := by
  injection h with h; subst h
  exact .kept (hi ▸ kept_load s k ix u rn rd offset)

/-- What a store of one access leaves, with the pc set and registers written after it. -/
theorem stored_memWrite (s : State) (a : Word) (w : Width) (v : Word) (thumb : Bool) (regs : Vector Word 30) (pc : Word)
    (h : NextAddr thumb s pc) : Stored thumb s (({ s.memWrite a w v with regs := regs }).setPc pc) :=
  ⟨fun hw => State.wf_memWrite s a w v hw, by simp, by simp [SameControl], by simp [SameOutside], h⟩

theorem stored_writeWords (s : State) (ws : List (Word × Word)) (thumb : Bool) (regs : Vector Word 30) (pc : Word)
    (h : NextAddr thumb s pc) : Stored thumb s (({ s.writeWords ws with regs := regs }).setPc pc) :=
  ⟨fun hw => State.wf_writeWords ws s hw, by simp, by simp [SameControl], by simp [SameOutside], h⟩

theorem Outcome.ofStoreReg {i : Instr} {s t : State} {w : Width} {ix : Index} {u : Bool} {rn rd : Reg} {offset : Word}
    (hi : i.isThumb = false) (hs : i.stores = true) (h : s.storeReg w ix u rn rd offset = .next t) : Outcome i s t := by
  obtain ⟨-, h⟩ := State.store_next h
  injection h with h; subst h
  refine .stored hs (hi ▸ ?_)
  unfold State.writeback
  split
  · exact stored_memWrite s _ w _ false (s.memWrite _ w _).regs _ (.inl (by simp))
  · exact stored_memWrite s _ w _ false _ _ (.inl (by simp))
  · exact stored_memWrite s _ w _ false _ _ (.inl (by simp))

theorem Outcome.ofSwap {i : Instr} {s t : State} {c : Cond} {k : LoadKind} {w : Width} {rn rd rm : Reg}
    (hi : i.isThumb = false) (hs : i.stores = true) (h : s.swap c k w rn rd rm = .next t) : Outcome i s t := by
  refine .ofPassed hi h fun h => ?_
  obtain ⟨-, h⟩ := State.store_next (refuseIf_next h).2
  injection h with h; subst h
  exact .stored hs (hi ▸ stored_memWrite s _ w _ false _ _ (.inl (by simp)))

theorem Outcome.ofThumbWrite {i : Instr} {s t : State} {rd : LoReg} {o : AluOut} (hi : i.isThumb = true)
    (h : s.thumbWrite rd o = .next t) : Outcome i s t :=
  .ofRegWrite (lo rd) o.value _ _ (by simp [SameControl]) (hi ▸ .inl rfl) h

theorem Outcome.ofThumbFlags {i : Instr} {s t : State} {o : AluOut} (hi : i.isThumb = true)
    (h : s.thumbFlags o = .next t) : Outcome i s t := by
  injection h with h; subst h
  exact .kept (hi ▸ kept_setCpsr s _ (by simp [SameControl]) true _ (.inl rfl))

theorem Outcome.ofHiWrite {i : Instr} {s t : State} {d : Reg} {v : Word} (hi : i.isThumb = true)
    (h : s.hiWrite d v = .next t) : Outcome i s t := by
  unfold State.hiWrite at h
  split at h
  · injection h with h; subst h
    exact .kept (hi ▸ kept_setPc s true _ (.inr ⟨_, rfl⟩))
  · exact .ofRegWrite d v s.cpsr _ ⟨rfl, rfl, rfl, rfl⟩ (hi ▸ .inl rfl) h

theorem Outcome.ofThumbLoad {i : Instr} {s t : State} {k : LoadKind} {rd : LoReg} {a : Word} (hi : i.isThumb = true)
    (h : s.thumbLoad k rd a = .next t) : Outcome i s t :=
  .ofRegWrite (lo rd) _ s.cpsr _ ⟨rfl, rfl, rfl, rfl⟩ (hi ▸ .inl rfl) h

theorem Outcome.ofThumbStore {i : Instr} {s t : State} {w : Width} {rd : LoReg} {a : Word} (hi : i.isThumb = true)
    (hs : i.stores = true) (h : s.thumbStore w rd a = .next t) : Outcome i s t := by
  obtain ⟨-, h⟩ := State.store_next h
  injection h with h; subst h
  exact .stored hs (hi ▸ stored_memWrite s _ w _ true (s.memWrite _ w _).regs _ (.inl (by simp)))

theorem kept_loadSlots (s : State) (m : Mode) (l : List (Reg × Word)) (thumb : Bool) (a : Word) (h : NextAddr thumb s a) :
    Kept thumb s ((s.loadSlots s m l).setPc a) := by
  rw [State.loadSlots_eq]
  exact ⟨rfl, ⟨rfl, rfl⟩, rfl, ⟨rfl, rfl, rfl, rfl⟩, ⟨rfl, rfl, rfl, rfl, rfl, rfl⟩, h⟩

theorem kept_ldmWriteback (s : State) (w : Bool) (rn : Reg) (regs : List Reg) (wb : Word) (m : Mode) (l : List (Reg × Word))
    (thumb : Bool) (a : Word) (h : NextAddr thumb s a) :
    Kept thumb s (((s.loadSlots s m l).ldmWriteback w rn regs wb).setPc a) := by
  unfold State.ldmWriteback
  split
  · rw [State.loadSlots_eq]
    exact ⟨rfl, ⟨rfl, rfl⟩, rfl, ⟨rfl, rfl, rfl, rfl⟩, ⟨rfl, rfl, rfl, rfl, rfl, rfl⟩, h⟩
  · exact kept_loadSlots s m l thumb a h

theorem Outcome.ofNext {i : Instr} {s t u : State} (hk : Kept i.isThumb s u) (h : (.next u : Result) = .next t) :
    Outcome i s t := by
  injection h with h; subst h; exact .kept hk

theorem Outcome.ofTook {i : Instr} {s t : State} {kind : ExcKind} {link : Word} (hi : i.traps = true)
    (hk : kind = .undefined ∨ kind = .softwareInterrupt) (h : (.next (s.takeException kind link) : Result) = .next t) :
    Outcome i s t := by
  injection h with h; subst h; exact .took kind link hi hk

theorem Outcome.ofUndefined {i : Instr} {s t : State} {c : Cond} (hi : i.isThumb = false) (ht : i.traps = true)
    (h : s.undefinedArm c = .next t) : Outcome i s t :=
  .ofPassed hi h (.ofTook ht (.inl rfl))

/-! ### MSR -/

theorem Outcome.ofMsr {i : Instr} {s t : State} {r : Bool} {mask : BitVec 4} {v : Word} (hi : i.writesPsr = true)
    (h : s.msr r mask v = .next t) : Outcome i s t := by
  refine .psr hi ?_
  unfold State.msr at h
  split at h
  · injection h with h; subst h
    unfold State.msrSpsr
    split
    · exact ⟨rfl, ⟨rfl, rfl⟩, ⟨rfl, rfl, rfl, rfl, rfl, rfl⟩, rfl, rfl, fun _ => ⟨⟨rfl, rfl, rfl, rfl⟩, rfl⟩⟩
    · rename_i k hk
      refine ⟨rfl, ⟨rfl, rfl⟩, ⟨rfl, rfl, rfl, rfl, rfl, rfl⟩, rfl, rfl, fun hu => ?_⟩
      rw [hu] at hk; cases hk
  · unfold State.msrCpsr at h
    split at h
    · cases h
    · rename_i new hnew
      obtain ⟨ht, h⟩ := refuseIf_next h
      injection h with h; subst h
      have ht : new.t = s.cpsr.t := by simpa using ht
      have hs : s.cpsr.mode = .usr → new.mode = s.cpsr.mode → (s.setCpsr new).copyOnModeChange s.cpsr new = s.setCpsr new := by
        intro hu hm
        unfold State.copyOnModeChange
        rw [hm, hu]; rfl
      refine ⟨?_, ?_, ?_, ?_, ?_, fun hu => ?_⟩
      · rw [State.copyOnModeChange_eq]; rfl
      · rw [State.copyOnModeChange_eq]; exact ⟨rfl, rfl⟩
      · rw [State.copyOnModeChange_eq]; exact ⟨rfl, rfl, rfl, rfl, rfl, rfl⟩
      · rw [State.copyOnModeChange_eq]; exact ht
      · rw [State.copyOnModeChange_eq]; rfl
      rw [Psr.toCpsr_eq] at hnew
      have low : ∀ j, j < 28 → (mergeBits s.cpsr.word v (s.cpsrFieldBits mask)).getLsbD j = s.cpsr.word.getLsbD j := by
        intro j hj
        rw [getLsbD_mergeBits, if_neg]
        rw [State.cpsrFieldBits, if_pos hu, BitVec.getLsbD_and, getLsbD_flagBits ⟨j, by omega⟩]
        simp; omega
      have hm : new.mode = s.cpsr.mode := by
        rw [← Mode.bits_inj]
        have h1 := congrArg Psr.m hnew
        simp only [Psr.ofWord, Cpsr.toPsr] at h1
        rw [← h1]
        apply BitVec.eq_of_getLsbD_eq
        intro j hj
        rw [BitVec.getLsbD_extractLsb', Nat.zero_add, low j (by omega), Cpsr.word, Psr.getLsbD_word, if_pos hj]
        simp [hj, Cpsr.toPsr]
      have hI : new.i = s.cpsr.i := by
        have h1 := congrArg Psr.i hnew
        simp only [Psr.ofWord, Cpsr.toPsr] at h1
        rw [← h1, low 7 (by omega), Cpsr.word, Psr.getLsbD_word]; rfl
      have hF : new.f = s.cpsr.f := by
        have h1 := congrArg Psr.f hnew
        simp only [Psr.ofWord, Cpsr.toPsr] at h1
        rw [← h1, low 6 (by omega), Cpsr.word, Psr.getLsbD_word]; rfl
      rw [hs hu hm]
      exact ⟨⟨hm, hI, hF, ht⟩, rfl⟩

/-! ### The instructions that need more than one step -/

theorem mulControl (s : State) (sf : Bool) (r : Word) : SameControl s (s.setCpsr (if sf then s.mulFlags r else s.cpsr)) := by
  cases sf <;> exact ⟨rfl, rfl, rfl, rfl⟩

theorem Outcome.ofMulLong {i : Instr} {s t : State} {sf : Bool} {hi lo : Reg} {r : Dword} (h0 : i.isThumb = false)
    (h : (.next (s.mulLongWrite sf hi lo r) : Result) = .next t) : Outcome i s t := by
  injection h with h; subst h
  refine .kept (h0 ▸ ⟨rfl, ⟨rfl, rfl⟩, rfl, ?_, ⟨rfl, rfl, rfl, rfl, rfl, rfl⟩, .inl rfl⟩)
  cases sf <;> exact ⟨rfl, rfl, rfl, rfl⟩

theorem refuseIf_next4 {b1 b2 b3 b4 : Bool} {w1 w2 w3 w4 : Why} {k : Result} {t : State}
    (h : refuseIf b1 w1 (refuseIf b2 w2 (refuseIf b3 w3 (refuseIf b4 w4 k))) = .next t) : k = .next t :=
  (refuseIf_next (refuseIf_next (refuseIf_next (refuseIf_next h).2).2).2).2

theorem refuseIf_next6 {b1 b2 b3 b4 b5 b6 : Bool} {w1 w2 w3 w4 w5 w6 : Why} {k : Result} {t : State}
    (h : refuseIf b1 w1 (refuseIf b2 w2 (refuseIf b3 w3 (refuseIf b4 w4 (refuseIf b5 w5 (refuseIf b6 w6 k))))) = .next t) :
    k = .next t := (refuseIf_next (refuseIf_next (refuseIf_next4 h)).2).2

theorem outcome_ldm {c : Cond} {p u w : Bool} {rn : Reg} {list : BitVec 16} {s t : State}
    (h : exec (.ldm c p u w rn list) s = .next t) : Outcome (.ldm c p u w rn list) s t := by
  refine .ofPassed rfl h fun h => ?_
  have h := (refuseIf_next h).2
  split at h
  · exact .ofNext (kept_ldmWriteback s w rn _ _ _ _ false _ (.inr ⟨_, rfl⟩)) h
  · refine .ofNext (kept_ldmWriteback s w rn _ _ _ _ false _ (.inl ?_)) h
    unfold State.ldmRegs State.ldmWriteback; split <;> rw [State.loadSlots_eq] <;> rfl

theorem outcome_ldmUser {c : Cond} {p u w : Bool} {rn : Reg} {list : BitVec 15} {s t : State}
    (h : exec (.ldmUser c p u w rn list) s = .next t) : Outcome (.ldmUser c p u w rn list) s t := by
  refine .ofPassed rfl h fun h => ?_
  refine .ofNext (kept_loadSlots s .usr _ false _ (.inl ?_)) (refuseIf_next4 h)
  rw [State.loadSlots_eq]; rfl

theorem outcome_ldmRet {c : Cond} {p u w : Bool} {rn : Reg} {list : BitVec 15} {s t : State}
    (h : exec (.ldmRet c p u w rn list) s = .next t) : Outcome (.ldmRet c p u w rn list) s t := by
  refine .ofPassed rfl h fun h => ?_
  have h := (refuseIf_next h).2
  split at h <;> exact .ofReturn rfl (kept_ldmWriteback s w rn _ _ _ _ false _ (.inl rfl)) h

theorem outcome_stm {c : Cond} {p u w : Bool} {rn : Reg} {list : BitVec 16} {s t : State}
    (h : exec (.stm c p u w rn list) s = .next t) : Outcome (.stm c p u w rn list) s t := by
  refine .ofPassed rfl h fun h => ?_
  have h := State.storeWords_next (refuseIf_next h).2
  injection h with h; subst h
  split
  · exact .stored rfl (stored_writeWords s _ false _ _ (.inl (by simp)))
  · exact .stored rfl (stored_writeWords s _ false (s.writeWords _).regs _ (.inl (by simp)))

theorem outcome_stmUser {c : Cond} {p u w : Bool} {rn : Reg} {list : BitVec 16} {s t : State}
    (h : exec (.stmUser c p u w rn list) s = .next t) : Outcome (.stmUser c p u w rn list) s t := by
  refine .ofPassed rfl h fun h => ?_
  have h := State.storeWords_next (refuseIf_next4 h)
  injection h with h; subst h
  exact .stored rfl (stored_writeWords s _ false (s.writeWords _).regs _ (.inl (by simp)))

theorem outcome_tPush {r : Bool} {rlist : BitVec 8} {s t : State} (h : exec (.tPush r rlist) s = .next t) :
    Outcome (.tPush r rlist) s t := by
  have h := State.storeWords_next (refuseIf_next h).2
  injection h with h; subst h
  exact .stored rfl (stored_writeWords s _ true _ _ (.inl (by simp)))

theorem outcome_tPop {r : Bool} {rlist : BitVec 8} {s t : State} (h : exec (.tPop r rlist) s = .next t) :
    Outcome (.tPop r rlist) s t := by
  have h := (refuseIf_next h).2
  have hk : ∀ a, NextAddr true s a → Kept true s ((s.popRegs (popList r rlist)).setPc a) := by
    intro a ha
    unfold State.popRegs
    rw [State.loadSlots_eq]
    exact ⟨rfl, ⟨rfl, rfl⟩, rfl, ⟨rfl, rfl, rfl, rfl⟩, ⟨rfl, rfl, rfl, rfl, rfl, rfl⟩, ha⟩
  split at h
  · exact .ofNext (hk _ (.inr ⟨_, rfl⟩)) h
  · refine .ofNext (hk _ (.inl ?_)) h
    unfold State.popRegs; rw [State.loadSlots_eq]; rfl

theorem outcome_tStmia {rb : LoReg} {rlist : BitVec 8} {s t : State} (h : exec (.tStmia rb rlist) s = .next t) :
    Outcome (.tStmia rb rlist) s t := by
  have h := State.storeWords_next (refuseIf_next h).2
  injection h with h; subst h
  exact .stored rfl (stored_writeWords s _ true _ _ (.inl (by simp)))

theorem outcome_tLdmia {rb : LoReg} {rlist : BitVec 8} {s t : State} (h : exec (.tLdmia rb rlist) s = .next t) :
    Outcome (.tLdmia rb rlist) s t := by
  refine .ofNext (kept_ldmWriteback s true _ _ _ _ _ true _ (.inl ?_)) (refuseIf_next h).2
  unfold State.ldmWriteback; split <;> rw [State.loadSlots_eq] <;> rfl

theorem outcome_tBcond {c : Cond} {soffset8 : BitVec 8} {s t : State} (h : exec (.tBcond c soffset8) s = .next t) :
    Outcome (.tBcond c soffset8) s t := by
  simp only [exec, execTBcond] at h
  split at h
  · exact .ofNext (kept_setPc s true _ (.inr ⟨_, rfl⟩)) h
  · exact .ofNext (kept_setPc s true _ (.inl rfl)) h

/-! ### Every instruction -/

/-- A next state of an instruction has one of the six shapes. -/
theorem exec_outcome (i : Instr) (s t : State) (h : exec i s = .next t) : Outcome i s t := by
  cases i with
  | nv => exact .ofNext (kept_setPc s false _ (.inl rfl)) h
  | bx => exact .ofPassed rfl h fun h => by injection h with h; subst h; exact .exchanged _ rfl
  | mul _ sf rd => exact .ofPassed rfl h fun h => .ofRegWrite rd _ _ _ (mulControl s sf _) (.inl rfl) (refuseIf_next h).2
  | mla _ sf rd => exact .ofPassed rfl h fun h => .ofRegWrite rd _ _ _ (mulControl s sf _) (.inl rfl) (refuseIf_next h).2
  | umull => exact .ofPassed rfl h fun h => .ofMulLong rfl (refuseIf_next h).2
  | umlal => exact .ofPassed rfl h fun h => .ofMulLong rfl (refuseIf_next h).2
  | smull => exact .ofPassed rfl h fun h => .ofMulLong rfl (refuseIf_next h).2
  | smlal => exact .ofPassed rfl h fun h => .ofMulLong rfl (refuseIf_next h).2
  | swp => exact .ofSwap rfl rfl h
  | swpb => exact .ofSwap rfl rfl h
  | strhImm => exact .ofPassed rfl h fun h => .ofStoreReg rfl rfl (refuseIf_next (refuseIf_next (refuseIf_next h).2).2).2
  | strhReg => exact .ofPassed rfl h fun h => .ofStoreReg rfl rfl (refuseIf_next6 h)
  | ldrhImm => exact .ofPassed rfl h fun h => .ofLoad rfl (refuseIf_next (refuseIf_next (refuseIf_next h).2).2).2
  | ldrhReg => exact .ofPassed rfl h fun h => .ofLoad rfl (refuseIf_next6 h)
  | ldrsbImm => exact .ofPassed rfl h fun h => .ofLoad rfl (refuseIf_next (refuseIf_next (refuseIf_next h).2).2).2
  | ldrsbReg => exact .ofPassed rfl h fun h => .ofLoad rfl (refuseIf_next6 h)
  | ldrshImm => exact .ofPassed rfl h fun h => .ofLoad rfl (refuseIf_next (refuseIf_next (refuseIf_next h).2).2).2
  | ldrshReg => exact .ofPassed rfl h fun h => .ofLoad rfl (refuseIf_next6 h)
  | ldrdSpace => exact .ofPassed rfl h fun h => by cases h
  | strdSpace => exact .ofPassed rfl h fun h => by cases h
  | undMulspace => exact .ofUndefined rfl rfl h
  | mrs _ _ rd => exact .ofPassed rfl h fun h => .ofRegWrite rd _ s.cpsr _ ⟨rfl, rfl, rfl, rfl⟩ (.inl rfl) (refuseIf_next h).2
  | msrReg => exact .ofPassed rfl h fun h => .ofMsr rfl (refuseIf_next h).2
  | msrImm => exact .ofPassed rfl h (.ofMsr rfl)
  | undPsrspace => exact .ofUndefined rfl rfl h
  | andImm => exact .ofPassed rfl h (.ofDpWrite rfl rfl)
  | andIshift => exact .ofPassed rfl h (.ofDpWrite rfl rfl)
  | andRshift => exact .ofPassed rfl h fun h => .ofDpWrite rfl rfl (refuseIf_next h).2
  | eorImm => exact .ofPassed rfl h (.ofDpWrite rfl rfl)
  | eorIshift => exact .ofPassed rfl h (.ofDpWrite rfl rfl)
  | eorRshift => exact .ofPassed rfl h fun h => .ofDpWrite rfl rfl (refuseIf_next h).2
  | subImm => exact .ofPassed rfl h (.ofDpWrite rfl rfl)
  | subIshift => exact .ofPassed rfl h (.ofDpWrite rfl rfl)
  | subRshift => exact .ofPassed rfl h fun h => .ofDpWrite rfl rfl (refuseIf_next h).2
  | rsbImm => exact .ofPassed rfl h (.ofDpWrite rfl rfl)
  | rsbIshift => exact .ofPassed rfl h (.ofDpWrite rfl rfl)
  | rsbRshift => exact .ofPassed rfl h fun h => .ofDpWrite rfl rfl (refuseIf_next h).2
  | addImm => exact .ofPassed rfl h (.ofDpWrite rfl rfl)
  | addIshift => exact .ofPassed rfl h (.ofDpWrite rfl rfl)
  | addRshift => exact .ofPassed rfl h fun h => .ofDpWrite rfl rfl (refuseIf_next h).2
  | adcImm => exact .ofPassed rfl h (.ofDpWrite rfl rfl)
  | adcIshift => exact .ofPassed rfl h (.ofDpWrite rfl rfl)
  | adcRshift => exact .ofPassed rfl h fun h => .ofDpWrite rfl rfl (refuseIf_next h).2
  | sbcImm => exact .ofPassed rfl h (.ofDpWrite rfl rfl)
  | sbcIshift => exact .ofPassed rfl h (.ofDpWrite rfl rfl)
  | sbcRshift => exact .ofPassed rfl h fun h => .ofDpWrite rfl rfl (refuseIf_next h).2
  | rscImm => exact .ofPassed rfl h (.ofDpWrite rfl rfl)
  | rscIshift => exact .ofPassed rfl h (.ofDpWrite rfl rfl)
  | rscRshift => exact .ofPassed rfl h fun h => .ofDpWrite rfl rfl (refuseIf_next h).2
  | tstImm => exact .ofPassed rfl h (.ofDpCompare rfl)
  | tstIshift => exact .ofPassed rfl h (.ofDpCompare rfl)
  | tstRshift => exact .ofPassed rfl h fun h => .ofDpCompare rfl (refuseIf_next h).2
  | teqImm => exact .ofPassed rfl h (.ofDpCompare rfl)
  | teqIshift => exact .ofPassed rfl h (.ofDpCompare rfl)
  | teqRshift => exact .ofPassed rfl h fun h => .ofDpCompare rfl (refuseIf_next h).2
  | cmpImm => exact .ofPassed rfl h (.ofDpCompare rfl)
  | cmpIshift => exact .ofPassed rfl h (.ofDpCompare rfl)
  | cmpRshift => exact .ofPassed rfl h fun h => .ofDpCompare rfl (refuseIf_next h).2
  | cmnImm => exact .ofPassed rfl h (.ofDpCompare rfl)
  | cmnIshift => exact .ofPassed rfl h (.ofDpCompare rfl)
  | cmnRshift => exact .ofPassed rfl h fun h => .ofDpCompare rfl (refuseIf_next h).2
  | orrImm => exact .ofPassed rfl h (.ofDpWrite rfl rfl)
  | orrIshift => exact .ofPassed rfl h (.ofDpWrite rfl rfl)
  | orrRshift => exact .ofPassed rfl h fun h => .ofDpWrite rfl rfl (refuseIf_next h).2
  | movImm => exact .ofPassed rfl h (.ofDpWrite rfl rfl)
  | movIshift => exact .ofPassed rfl h (.ofDpWrite rfl rfl)
  | movRshift => exact .ofPassed rfl h fun h => .ofDpWrite rfl rfl (refuseIf_next h).2
  | bicImm => exact .ofPassed rfl h (.ofDpWrite rfl rfl)
  | bicIshift => exact .ofPassed rfl h (.ofDpWrite rfl rfl)
  | bicRshift => exact .ofPassed rfl h fun h => .ofDpWrite rfl rfl (refuseIf_next h).2
  | mvnImm => exact .ofPassed rfl h (.ofDpWrite rfl rfl)
  | mvnIshift => exact .ofPassed rfl h (.ofDpWrite rfl rfl)
  | mvnRshift => exact .ofPassed rfl h fun h => .ofDpWrite rfl rfl (refuseIf_next h).2
  | undA15 => exact .ofUndefined rfl rfl h
  | strImmPre => exact .ofPassed rfl h fun h => .ofStoreReg rfl rfl (refuseIf_next (refuseIf_next h).2).2
  | strImmPost => exact .ofPassed rfl h fun h => .ofStoreReg rfl rfl (refuseIf_next (refuseIf_next h).2).2
  | strtImm => exact .ofPassed rfl h fun h => .ofStoreReg rfl rfl (refuseIf_next (refuseIf_next h).2).2
  | strRegPre => exact .ofPassed rfl h fun h => .ofStoreReg rfl rfl (refuseIf_next4 h)
  | strRegPost => exact .ofPassed rfl h fun h => .ofStoreReg rfl rfl (refuseIf_next4 h)
  | strtReg => exact .ofPassed rfl h fun h => .ofStoreReg rfl rfl (refuseIf_next4 h)
  | ldrImmPre => exact .ofPassed rfl h fun h => .ofLoad rfl (refuseIf_next (refuseIf_next h).2).2
  | ldrImmPost => exact .ofPassed rfl h fun h => .ofLoad rfl (refuseIf_next (refuseIf_next h).2).2
  | ldrtImm => exact .ofPassed rfl h fun h => .ofLoad rfl (refuseIf_next (refuseIf_next h).2).2
  | ldrRegPre => exact .ofPassed rfl h fun h => .ofLoad rfl (refuseIf_next4 h)
  | ldrRegPost => exact .ofPassed rfl h fun h => .ofLoad rfl (refuseIf_next4 h)
  | ldrtReg => exact .ofPassed rfl h fun h => .ofLoad rfl (refuseIf_next4 h)
  | strbImmPre => exact .ofPassed rfl h fun h => .ofStoreReg rfl rfl (refuseIf_next (refuseIf_next h).2).2
  | strbImmPost => exact .ofPassed rfl h fun h => .ofStoreReg rfl rfl (refuseIf_next (refuseIf_next h).2).2
  | strbtImm => exact .ofPassed rfl h fun h => .ofStoreReg rfl rfl (refuseIf_next (refuseIf_next h).2).2
  | strbRegPre => exact .ofPassed rfl h fun h => .ofStoreReg rfl rfl (refuseIf_next4 h)
  | strbRegPost => exact .ofPassed rfl h fun h => .ofStoreReg rfl rfl (refuseIf_next4 h)
  | strbtReg => exact .ofPassed rfl h fun h => .ofStoreReg rfl rfl (refuseIf_next4 h)
  | ldrbImmPre => exact .ofPassed rfl h fun h => .ofLoad rfl (refuseIf_next (refuseIf_next h).2).2
  | ldrbImmPost => exact .ofPassed rfl h fun h => .ofLoad rfl (refuseIf_next (refuseIf_next h).2).2
  | ldrbtImm => exact .ofPassed rfl h fun h => .ofLoad rfl (refuseIf_next (refuseIf_next h).2).2
  | ldrbRegPre => exact .ofPassed rfl h fun h => .ofLoad rfl (refuseIf_next4 h)
  | ldrbRegPost => exact .ofPassed rfl h fun h => .ofLoad rfl (refuseIf_next4 h)
  | ldrbtReg => exact .ofPassed rfl h fun h => .ofLoad rfl (refuseIf_next4 h)
  | stm => exact outcome_stm h
  | stmUser => exact outcome_stmUser h
  | ldm => exact outcome_ldm h
  | ldmUser => exact outcome_ldmUser h
  | ldmRet => exact outcome_ldmRet h
  | b => exact .ofPassed rfl h (.ofNext (kept_setPc s false _ (.inr ⟨_, rfl⟩)))
  | bl => exact .ofPassed rfl h (.ofRegWrite 14 _ s.cpsr _ ⟨rfl, rfl, rfl, rfl⟩ (.inr ⟨_, rfl⟩))
  | ldcStc => exact .ofUndefined rfl rfl h
  | cdp => exact .ofUndefined rfl rfl h
  | mcrMrc => exact .ofUndefined rfl rfl h
  | swi => exact .ofPassed rfl h (.ofTook rfl (.inr rfl))
  | tLslImm => exact .ofThumbWrite rfl h
  | tLsrImm => exact .ofThumbWrite rfl h
  | tAsrImm => exact .ofThumbWrite rfl h
  | tAddReg => exact .ofThumbWrite rfl h
  | tSubReg => exact .ofThumbWrite rfl h
  | tAddImm3 => exact .ofThumbWrite rfl h
  | tSubImm3 => exact .ofThumbWrite rfl h
  | tMovImm => exact .ofThumbWrite rfl h
  | tCmpImm => exact .ofThumbFlags rfl h
  | tAddImm8 => exact .ofThumbWrite rfl h
  | tSubImm8 => exact .ofThumbWrite rfl h
  | tAnd => exact .ofThumbWrite rfl h
  | tEor => exact .ofThumbWrite rfl h
  | tLslReg => exact .ofThumbWrite rfl h
  | tLsrReg => exact .ofThumbWrite rfl h
  | tAsrReg => exact .ofThumbWrite rfl h
  | tAdc => exact .ofThumbWrite rfl h
  | tSbc => exact .ofThumbWrite rfl h
  | tRor => exact .ofThumbWrite rfl h
  | tTst => exact .ofThumbFlags rfl h
  | tNeg => exact .ofThumbWrite rfl h
  | tCmpReg => exact .ofThumbFlags rfl h
  | tCmn => exact .ofThumbFlags rfl h
  | tOrr => exact .ofThumbWrite rfl h
  | tMul _ rd => exact .ofRegWrite (lo rd) _ (s.mulFlags _) _ ⟨rfl, rfl, rfl, rfl⟩ (.inl rfl) (refuseIf_next h).2
  | tBic => exact .ofThumbWrite rfl h
  | tMvn => exact .ofThumbWrite rfl h
  | tAddHi => exact .ofHiWrite rfl h
  | tCmpHi => exact .ofThumbFlags rfl h
  | tMovHi => exact .ofHiWrite rfl h
  | tBx => exact by injection h with h; subst h; exact .exchanged _ rfl
  | tBlxRegSpace => exact by cases h
  | tLdrPc rd => exact .ofRegWrite (lo rd) _ s.cpsr _ ⟨rfl, rfl, rfl, rfl⟩ (.inl rfl) h
  | tStrReg => exact .ofThumbStore rfl rfl h
  | tStrbReg => exact .ofThumbStore rfl rfl h
  | tLdrReg => exact .ofThumbLoad rfl h
  | tLdrbReg => exact .ofThumbLoad rfl h
  | tStrhReg => exact .ofThumbStore rfl rfl h
  | tLdsb => exact .ofThumbLoad rfl h
  | tLdrhReg => exact .ofThumbLoad rfl h
  | tLdsh => exact .ofThumbLoad rfl h
  | tStrImm => exact .ofThumbStore rfl rfl h
  | tLdrImm => exact .ofThumbLoad rfl h
  | tStrbImm => exact .ofThumbStore rfl rfl h
  | tLdrbImm => exact .ofThumbLoad rfl h
  | tStrhImm => exact .ofThumbStore rfl rfl h
  | tLdrhImm => exact .ofThumbLoad rfl h
  | tStrSp => exact .ofThumbStore rfl rfl h
  | tLdrSp => exact .ofThumbLoad rfl h
  | tAddPc rd => exact .ofRegWrite (lo rd) _ s.cpsr _ ⟨rfl, rfl, rfl, rfl⟩ (.inl rfl) h
  | tAddSp rd => exact .ofRegWrite (lo rd) _ s.cpsr _ ⟨rfl, rfl, rfl, rfl⟩ (.inl rfl) h
  | tAddSpimm => exact .ofRegWrite 13 _ s.cpsr _ ⟨rfl, rfl, rfl, rfl⟩ (.inl rfl) h
  | tSubSpimm => exact .ofRegWrite 13 _ s.cpsr _ ⟨rfl, rfl, rfl, rfl⟩ (.inl rfl) h
  | tPush => exact outcome_tPush h
  | tPop => exact outcome_tPop h
  | tUndB => exact .ofTook rfl (.inl rfl) h
  | tStmia => exact outcome_tStmia h
  | tLdmia => exact outcome_tLdmia h
  | tSwi => exact .ofTook rfl (.inr rfl) h
  | tUndDe => exact .ofTook rfl (.inl rfl) h
  | tBcond => exact outcome_tBcond h
  | tB => exact .ofNext (kept_setPc s true _ (.inr ⟨_, rfl⟩)) h
  | tUndE8 => exact .ofTook rfl (.inl rfl) h
  | tBlHi => exact .ofRegWrite 14 _ s.cpsr _ ⟨rfl, rfl, rfl, rfl⟩ (.inl rfl) h
  | tBlLo => exact .ofRegWrite 14 _ s.cpsr _ ⟨rfl, rfl, rfl, rfl⟩ (.inr ⟨_, rfl⟩) h

/-! ### The invariant -/

/-- A next pc keeps the alignment. -/
theorem NextPc.aligned {thumb : Bool} {s t : State} (h : NextPc thumb s t) (hc : t.cpsr.t = s.cpsr.t)
    (ht : thumb = true → s.cpsr.t = true) (hs : s.pcAligned) : t.pcAligned := by
  rw [State.pcAligned_iff] at hs ⊢
  rw [hc]
  rcases h with h | ⟨v, h⟩
  · rw [h, BitVec.toNat_add]
    cases thumb
    · split at hs
      · simp_all
        omega
      · simp_all
    · rw [ht rfl] at hs ⊢
      simp_all
  · rw [h]
    cases thumb
    · have := alignPc_false v
      split
      · exact (and_one_eq _).1 (even_of_aligned this)
      · exact (and_three_eq _).1 this
    · rw [ht rfl]
      exact (and_one_eq _).1 (alignPc_true v)

end Sys2Proof.Machine
end

