-- ==== Sys2Proof/Laws/Fetch.lean ====
section
/-! SUPPORT. What the parts of a tick do, said once: the requested interrupts, the halt test, interrupt sampling, the fetch,
the end of a tick, and `step_cases`, which takes a step apart. -/

namespace Sys2Proof.Machine

open Sys2Proof

/-! ### Interrupt requests -/

/-- Some bit of a mask is set, where l lists the bits of the mask. -/
theorem and_ne_zero_iff (x m : Half) (l : List Nat) (hm : ∀ n, m.getLsbD n = true ↔ n ∈ l) :
    x &&& m ≠ 0 ↔ ∃ n ∈ l, x.getLsbD n = true := by
  constructor
  · intro h
    by_contra hc
    apply h
    apply BitVec.eq_of_getLsbD_eq
    intro i hi
    rw [BitVec.getLsbD_and]
    show _ = (0#16).getLsbD i
    rw [BitVec.getLsbD_zero]
    by_contra hh
    simp only [Bool.not_eq_false, Bool.and_eq_true] at hh
    exact hc ⟨i, (hm i).1 hh.2, hh.1⟩
  · rintro ⟨n, hn, hx⟩ h
    have := congrArg (fun v : Half => v.getLsbD n) h
    simp only [BitVec.getLsbD_and, hx, (hm n).2 hn] at this
    simp at this

theorem getLsbD_irqMask (n : Nat) : (0x3FFF : Half).getLsbD n = true ↔ n ∈ List.range 14 := by
  by_cases h : n < 16
  · interval_cases n <;> decide
  · rw [BitVec.getLsbD_of_ge _ _ (by omega)]; simp; omega

theorem getLsbD_stopMask (n : Nat) : (0x3080 : Half).getLsbD n = true ↔ n ∈ [7, 12, 13] := by
  by_cases h : n < 16
  · interval_cases n <;> decide
  · rw [BitVec.getLsbD_of_ge _ _ (by omega)]; simp; omega

/-- An enabled request of bits 13:0 (60 R1211, R1230). -/
theorem requests_irq (io : Io) :
    io.requests &&& 0x3FFF ≠ 0 ↔ ∃ n : Fin 14, io.ieReg.getLsbD n = true ∧ io.ifReg.getLsbD n = true := by
  rw [and_ne_zero_iff _ _ _ getLsbD_irqMask]
  simp only [Io.requests, BitVec.getLsbD_and, Bool.and_eq_true, List.mem_range]
  exact ⟨fun ⟨n, hn, h⟩ => ⟨⟨n, hn⟩, h⟩, fun ⟨n, h⟩ => ⟨n, n.2, h⟩⟩

/-- An enabled request that ends Stop (60 R1230). -/
theorem requests_stop (io : Io) :
    io.requests &&& 0x3080 ≠ 0 ↔ ∃ n ∈ [7, 12, 13], io.ieReg.getLsbD n = true ∧ io.ifReg.getLsbD n = true := by
  rw [and_ne_zero_iff _ _ _ getLsbD_stopMask]
  simp only [Io.requests, BitVec.getLsbD_and, Bool.and_eq_true]

/-! ### The halt test and interrupt sampling -/

theorem State.wake_running {s : State} (h : s.halt = .running) : s.wake = s := by unfold State.wake; rw [h]

/-- The halt test changes the halt state only, and a machine that stays halted not at all. -/
theorem State.wake_cases (s : State) : s.wake = s ∨ s.wake = { s with halt := .running } := by
  unfold State.wake
  split
  · exact .inl rfl
  · split; exacts [.inl rfl, .inr rfl]
  · split; exacts [.inl rfl, .inr rfl]

/-- Interrupt sampling takes FIQ, IRQ or nothing (60 R1213). -/
theorem State.sampleInterrupts_cases (s : State) : s.sampleInterrupts = s ∨
    s.sampleInterrupts = s.takeException .fiq (s.pc + 4) ∨ s.sampleInterrupts = s.takeException .irq (s.pc + 4) := by
  unfold State.sampleInterrupts
  split
  · exact .inr (.inl rfl)
  · split; exacts [.inr (.inr rfl), .inl rfl]

theorem State.sampleInterrupts_none {s : State} (hf : s.fiqLine = true → s.cpsr.f = true)
    (hi : s.irqLine = true → s.cpsr.i = true) : s.sampleInterrupts = s := by
  unfold State.sampleInterrupts
  rw [if_neg, if_neg]
  · intro h; simp only [Bool.and_eq_true, Bool.not_eq_true'] at h; rw [hi h.1] at h; cases h.2
  · intro h; simp only [Bool.and_eq_true, Bool.not_eq_true'] at h; rw [hf h.1] at h; cases h.2

/-! ### The fetch -/

/-- The fetched instruction is what the decoder reads from the bytes at pc (20 R213, R214). -/
theorem State.decodeBytes_fetch (s : State) :
    decodeBytes s.cpsr.t ((List.range (if s.cpsr.t then 2 else 4)).map fun k => s.readByte .fetch (s.pc + BitVec.ofNat 32 k))
      = .ok (decode s.fetch, []) := by
  unfold State.fetch
  cases s.cpsr.t <;> simp [List.range, List.range.loop, decodeBytes, State.memRead, decode]

theorem isThumb_ite {p : Prop} [Decidable p] {i j : Instr} {b : Bool} (hi : i.isThumb = b) (hj : j.isThumb = b) :
    (if p then i else j).isThumb = b := by split; exacts [hi, hj]

theorem isThumb_decode (c : Code) : (decode c).isThumb = match c with | .arm _ => false | .thumb _ => true := by
  cases c with
  | arm w =>
    simp only [decode, decodeArm]
    split
    · rfl
    · rename_i c _
      have h1 : (decodeMulLong c w).isThumb = false := by unfold decodeMulLong; dsimp only; split <;> rfl
      have h2 : (decodeHalf c w).isThumb = false := by unfold decodeHalf; dsimp only; split <;> rfl
      have h3 : (decodeDpRshift c w).isThumb = false := by unfold decodeDpRshift; dsimp only; split <;> rfl
      have h4 : (decodeDpIshift c w).isThumb = false := by unfold decodeDpIshift; dsimp only; split <;> rfl
      have h5 : (decodeDpImm c w).isThumb = false := by unfold decodeDpImm; dsimp only; split <;> rfl
      have h6 : (decodeXferImm c w).isThumb = false := by unfold decodeXferImm; dsimp only; split <;> rfl
      have h7 : (decodeXferReg c w).isThumb = false := by unfold decodeXferReg; dsimp only; split <;> rfl
      have h8 : (decodeBlock c w).isThumb = false := by unfold decodeBlock; dsimp only; split <;> rfl
      unfold decodeArmRows
      repeat' first | rfl | assumption | apply isThumb_ite
  | thumb h =>
    simp only [decode, decodeThumb]
    have t4 : (decodeT4 h).isThumb = true := by unfold decodeT4; dsimp only; split <;> rfl
    have t5 : (decodeT5 h).isThumb = true := by
      unfold decodeT5; dsimp only; split <;> first | rfl | (split <;> rfl)
    have t78 : (decodeT78 h).isThumb = true := by unfold decodeT78; dsimp only; split <;> rfl
    split <;> repeat' first | rfl | assumption | apply isThumb_ite | split

/-- The width of the fetched instruction is that of the instruction state. -/
theorem State.isThumb_fetch (s : State) : (decode s.fetch).isThumb = s.cpsr.t := by
  rw [isThumb_decode]
  unfold State.fetch
  cases s.cpsr.t <;> rfl

/-! ### The end of a tick -/

/-- What a tick leaves beside the instruction's effect (60 R1270 steps 7 and 8). -/
theorem State.retire_eq (s : State) (a : Word) : s.retire a = { s with
    draws := s.draws + 1
    debugger := { s.debugger with
      history := (s.debugger.history ++ [a]).drop (s.debugger.history.length + 1 - s.params.pcHistoryLen)
      stopped := s.debugger.stopped || s.atBreakpoint } } := by
  have hb : ((s.record a).nextEpoch).atBreakpoint = s.atBreakpoint := rfl
  unfold State.retire State.checkBreakpoint
  rw [hb]
  cases s.atBreakpoint <;> simp [State.record, State.nextEpoch]

/-- The history keeps the newest PC_HISTORY_LEN addresses (60 R1244). -/
theorem State.retire_history_length (s : State) (a : Word) : (s.retire a).debugger.history.length ≤ s.params.pcHistoryLen := by
  rw [State.retire_eq]
  simp only [List.length_drop, List.length_append, List.length_singleton]
  omega

/-- A step is a tick of a halted machine, or runs the fetched instruction after interrupt sampling. -/
theorem step_cases {s t : State} (h : step s = .next t) :
    (s.wake.halt ≠ .running ∧ t = s.wake.checkBreakpoint) ∨
    (s.wake.halt = .running ∧ ∃ u, exec (decode s.wake.sampleInterrupts.fetch) s.wake.sampleInterrupts = .next u ∧
      t = u.retire s.wake.sampleInterrupts.pc) := by
  unfold step at h
  split at h
  · rename_i hr
    unfold runTick at h
    split at h
    · rename_i u hu
      injection h with h
      exact .inr ⟨hr, u, hu, h.symm⟩
    · cases h
    · cases h
  · rename_i hr
    injection h with h
    exact .inl ⟨hr, h.symm⟩

end Sys2Proof.Machine
end

