-- ==== Sys2Proof/Laws/HostOps.lean ====
section
/-! SUPPORT. Memory after the host's operations: canonical form and contents. -/

namespace Sys2Proof.Machine

open Sys2Proof

@[simp] theorem Instance.use_live {α : Type} (s : State) (g : State → α) : (Instance.live s).use g = .ok (g s) := rfl

/-- Every operation on a consumed instance is the definite failure (R1304). -/
@[simp] theorem Instance.use_consumed {α : Type} (g : State → α) : Instance.consumed.use g = .error .consumed := rfl

theorem Memory.wf_nil : Memory.wf [] = true := rfl

theorem Memory.wf_cell (a : Nat) (b : Byte) : (Memory.cell a b).wf = true := by
  unfold Memory.cell
  split
  · rfl
  · rename_i h; simpa [Memory.wf] using h

theorem Memory.mem_cell {a : Nat} {b : Byte} {x : Host.Cell} (h : x ∈ Memory.cell a b) : x.1 = a := by
  unfold Memory.cell at h
  split at h
  · cases h
  · rw [List.mem_singleton.1 h]

theorem mem_cellsOf (bs : List Byte) : ∀ (a : Nat) (x : Host.Cell), x ∈ cellsOf a bs → a ≤ x.1 ∧ x.1 < a + bs.length := by
  induction bs with
  | nil => exact fun _ _ h => absurd h List.not_mem_nil
  | cons b bs ih =>
    intro a x h
    rw [List.length_cons]
    rcases List.mem_append.1 h with h | h
    · have := Memory.mem_cell h; omega
    · have := ih _ _ h; omega

theorem wf_cellsOf (bs : List Byte) : ∀ a : Nat, (cellsOf a bs).wf = true := by
  induction bs with
  | nil => exact fun _ => rfl
  | cons b bs ih =>
    intro a
    refine Memory.wf_append _ _ (Memory.wf_cell a b) (ih _) fun x hx y hy => ?_
    have h1 := Memory.mem_cell hx
    have h2 := mem_cellsOf _ _ _ hy
    omega

/-- The contents of consecutive cells. -/
theorem read_cellsOf (bs : List Byte) : ∀ (a k : Nat),
    (cellsOf a bs).read k = if a ≤ k then bs.getD (k - a) 0 else 0 := by
  induction bs with
  | nil => intro a k; simp [cellsOf, Memory.read]
  | cons b bs ih =>
    intro a k
    rw [cellsOf, Memory.read_append, Memory.read_cell, ih]
    by_cases h : k ∈ (Memory.cell a b).map Prod.fst
    · rw [if_pos h]
      obtain ⟨x, hx, rfl⟩ := List.mem_map.1 h
      rw [Memory.mem_cell hx]; simp
    · rw [if_neg h]
      by_cases h1 : a = k
      · subst h1
        have hb : b = 0 := by
          by_contra hb
          exact h (by rw [Memory.cell, if_neg hb]; simp)
        simp [hb]
      · by_cases h2 : a ≤ k
        · rw [if_pos (by omega), if_pos h2, show k - a = (k - (a + 1)) + 1 by omega]; simp
        · rw [if_neg (by omega), if_neg h2]

theorem mem_freeCells {epoch : Nat} {r : Nat × Nat} {x : Host.Cell} (h : x ∈ freeCells epoch r) :
    r.1 ≤ x.1 ∧ x.1 < r.1 + r.2 := by
  obtain ⟨i, hi, h⟩ := List.mem_flatMap.1 h
  have := Memory.mem_cell h
  have := List.mem_range.1 hi
  omega

theorem wf_freeCells (epoch : Nat) (r : Nat × Nat) : (freeCells epoch r).wf = true := by
  unfold freeCells
  generalize r.2 = n
  induction n with
  | zero => rfl
  | succ n ih =>
    rw [List.range_succ, List.flatMap_append]
    refine Memory.wf_append _ _ ih (by simpa using Memory.wf_cell _ _) fun x hx y hy => ?_
    obtain ⟨i, hi, hx⟩ := List.mem_flatMap.1 hx
    have := List.mem_range.1 hi
    have := Memory.mem_cell hx
    have := Memory.mem_cell (by simpa using hy)
    omega

/-- The free RAM cells of power-on lie in the RAM, in canonical form. -/
theorem ramCells (epoch : Nat) : Memory.wf (ramRanges.flatMap (freeCells epoch)) = true ∧
    ∀ x ∈ ramRanges.flatMap (freeCells epoch), 0x02000000 ≤ x.1 ∧ x.1 < 0x08000000 := by
  have h : ∀ (l : List (Nat × Nat)) (lo : Nat), l.Pairwise (fun x y => x.1 + x.2 ≤ y.1) → (∀ x ∈ l, lo ≤ x.1) →
      Memory.wf (l.flatMap (freeCells epoch)) = true := by
    intro l
    induction l with
    | nil => intros; rfl
    | cons r l ih =>
      intro lo hp hlo
      rw [List.pairwise_cons] at hp
      refine Memory.wf_append _ _ (wf_freeCells _ _) (ih lo hp.2 fun x hx => hlo x (List.mem_cons_of_mem _ hx))
        fun x hx y hy => ?_
      obtain ⟨q, hq, hy⟩ := List.mem_flatMap.1 hy
      have := mem_freeCells hx
      have := mem_freeCells hy
      have := hp.1 q hq
      omega
  refine ⟨h _ 0 (by decide) (by simp), fun x hx => ?_⟩
  obtain ⟨r, hr, hx⟩ := List.mem_flatMap.1 hx
  have := mem_freeCells hx
  simp only [ramRanges, List.mem_cons, List.not_mem_nil, or_false] at hr
  rcases hr with rfl | rfl | rfl | rfl | rfl <;> simp only at this <;> omega

/-- Power-on with BIOS cells below the RAM and ROM cells above it leaves memory in canonical form. -/
theorem wf_powerOnWith (p : Params) (bios rom : Memory) (romLen epoch : Nat) (hb : bios.wf = true) (hr : rom.wf = true)
    (h1 : ∀ x ∈ bios, x.1 < 0x4000) (h2 : ∀ x ∈ rom, 0x08000000 ≤ x.1) :
    (powerOnWith p bios rom romLen epoch).mem.wf = true := by
  unfold powerOnWith
  split
  · exact Memory.wf_append _ _ hb hr fun x hx y hy => by have := h1 x hx; have := h2 y hy; omega
  · obtain ⟨hw, hm⟩ := ramCells epoch
    refine Memory.wf_append _ _ (Memory.wf_append _ _ hb hw fun x hx y hy => ?_) hr fun x hx y hy => ?_
    · have := h1 x hx; have := hm y hy; omega
    · have := h2 y hy
      rcases List.mem_append.1 hx with hx | hx
      · have := h1 x hx; omega
      · have := hm x hx; omega

/-- `construct` leaves memory in canonical form (R1300). -/
theorem wf_construct (p : Params) (biosImage : List Byte) (epoch : Nat) : (construct p biosImage epoch).mem.wf = true := by
  refine wf_powerOnWith _ _ _ _ _ (wf_cellsOf _ _) rfl (fun x hx => ?_) fun x hx => absurd hx List.not_mem_nil
  have := mem_cellsOf _ _ _ hx
  rw [List.length_take] at this
  omega

/-- `reset()` keeps the canonical form (R1300). -/
theorem wf_resetOp (s : State) (h : s.mem.wf = true) : s.resetOp.mem.wf = true :=
  wf_powerOnWith _ _ _ _ _ (Memory.wf_filter _ _ h) (Memory.wf_filter _ _ h)
    (fun x hx => by simpa using (List.mem_filter.1 hx).2) fun x hx => by simpa using (List.mem_filter.1 hx).2

/-- `load_rom` keeps the canonical form (20 R207). -/
theorem wf_loadRom (s t : State) (bytes : List Byte) (h : s.mem.wf = true) (ht : s.loadRom bytes = some t) :
    t.mem.wf = true := by
  unfold State.loadRom at ht
  split at ht
  · cases ht
  · injection ht with ht
    subst ht
    refine Memory.wf_append _ _ (Memory.wf_filter _ _ h) (wf_cellsOf _ _) fun x hx y hy => ?_
    have h1 : x.1 < 0x08000000 := by simpa using (List.mem_filter.1 hx).2
    have := mem_cellsOf _ _ _ hy
    omega

/-- Placing bytes keeps the canonical form. -/
theorem wf_placeBytes (bs : List Byte) : ∀ (s : State) (a : Word), s.mem.wf = true → (s.placeBytes a bs).mem.wf = true := by
  induction bs with
  | nil => exact fun _ _ h => h
  | cons b bs ih =>
    intro s a h
    refine ih _ _ ?_
    unfold State.placeByte
    split
    · exact Memory.wf_write _ _ _ h
    · exact h

/-! ### Contents -/

theorem not_mem_cellsOf (bs : List Byte) (a k : Nat) (h : k < a ∨ a + bs.length ≤ k) : k ∉ (cellsOf a bs).map Prod.fst := by
  intro hm
  obtain ⟨x, hx, rfl⟩ := List.mem_map.1 hm
  have := mem_cellsOf _ _ _ hx
  omega

theorem not_mem_ramCells (epoch k : Nat) (h : k < 0x02000000 ∨ 0x08000000 ≤ k) :
    k ∉ (ramRanges.flatMap (freeCells epoch)).map Prod.fst := by
  intro hm
  obtain ⟨x, hx, rfl⟩ := List.mem_map.1 hm
  have := (ramCells epoch).2 x hx
  omega

/-- The key of a byte lies in the range of its region. -/
theorem decodeAddr_key (n : Nat) (a : Word) : let p := decodeAddr n a
    (p.1 = .bios → p.2 < 0x4000) ∧ (p.1 ≠ .rom → p.1 ≠ .unmapped → p.1.base + p.2 < 0x08000000) := by
  have hb := decodeAddr_bound n a
  refine ⟨fun h => ?_, fun h1 h2 => ?_⟩
  · rw [decodeAddr_nat] at h ⊢
    split <;> simp_all
    · split <;> simp_all
    · split at h <;> simp_all
    all_goals (split at h <;> simp_all)
  · rw [if_neg h1] at hb
    generalize decodeAddr n a = p at *
    obtain ⟨r, o⟩ := p
    cases r <;> simp only [Region.base] at * <;> first | omega | contradiction

end Sys2Proof.Machine
end

