-- ==== Sys2Proof/Laws/PerInstr.lean ====
section
/-! SUPPORT. One lemma per constructor of Instr: decoding the encoding of a well-formed instruction gives it back. -/

namespace Sys2Proof.Laws.RoundTrip

open Sys2Proof

set_option Elab.async false
set_option linter.unusedSimpArgs false

/-- Decoding the encoding of the instruction gives it back (30 R301, R311, R320, R330). -/
def Statement (i : Instr) : Prop := i.wellFormed = true → decode (encode i) = i

theorem nv (body : BitVec 28) : Statement (.nv body) := by
  intro _
  simp only [encode, decode, decodeArm]
  rw [extract_join_hi _ _ _ _ (by decide) (by decide), extract_full, Cond.ofBits_nv, extract_join_lo _ _ _ _ (by decide) (by decide),
    extract_full]

theorem bx (c : Cond) (rm : Reg) : Statement (.bx c rm) := by
  intro _
  rw [encode, decode_cond, decodeArmRows, if_pos]
  · simp (disch := decide) only [extract_join_lo, extract_full]
  · simp (disch := decide) only [extract_join_lo, extract_join_hi]; rfl

theorem mul (c : Cond) (sf : Bool) (rd rn rs rm : Reg) : Statement (.mul c sf rd rn rs rm) := by
  intro _
  simp (disch := decide) [encode, decode, decodeArm, decodeArmRows, encMul, decodeMul,
    extract_join_lo, extract_join_hi, extract_join_mid, extract_full, join_eq, getLsbD_join, Cond.ofBits_bits, ShiftKind.ofBits_bits, -BitVec.getLsbD_eq_getElem]

theorem mla (c : Cond) (sf : Bool) (rd rn rs rm : Reg) : Statement (.mla c sf rd rn rs rm) := by
  intro _
  simp (disch := decide) [encode, decode, decodeArm, decodeArmRows, encMul, decodeMul,
    extract_join_lo, extract_join_hi, extract_join_mid, extract_full, join_eq, getLsbD_join, Cond.ofBits_bits, ShiftKind.ofBits_bits, -BitVec.getLsbD_eq_getElem]

theorem umull (c : Cond) (sf : Bool) (rdHi rdLo rs rm : Reg) : Statement (.umull c sf rdHi rdLo rs rm) := by
  intro _
  simp (disch := decide) [encode, decode, decodeArm, decodeArmRows, encMul, decodeMulLong,
    extract_join_lo, extract_join_hi, extract_join_mid, extract_full, join_eq, getLsbD_join, Cond.ofBits_bits, ShiftKind.ofBits_bits, -BitVec.getLsbD_eq_getElem]

theorem umlal (c : Cond) (sf : Bool) (rdHi rdLo rs rm : Reg) : Statement (.umlal c sf rdHi rdLo rs rm) := by
  intro _
  simp (disch := decide) [encode, decode, decodeArm, decodeArmRows, encMul, decodeMulLong,
    extract_join_lo, extract_join_hi, extract_join_mid, extract_full, join_eq, getLsbD_join, Cond.ofBits_bits, ShiftKind.ofBits_bits, -BitVec.getLsbD_eq_getElem]

theorem smull (c : Cond) (sf : Bool) (rdHi rdLo rs rm : Reg) : Statement (.smull c sf rdHi rdLo rs rm) := by
  intro _
  simp (disch := decide) [encode, decode, decodeArm, decodeArmRows, encMul, decodeMulLong,
    extract_join_lo, extract_join_hi, extract_join_mid, extract_full, join_eq, getLsbD_join, Cond.ofBits_bits, ShiftKind.ofBits_bits, -BitVec.getLsbD_eq_getElem]

theorem smlal (c : Cond) (sf : Bool) (rdHi rdLo rs rm : Reg) : Statement (.smlal c sf rdHi rdLo rs rm) := by
  intro _
  simp (disch := decide) [encode, decode, decodeArm, decodeArmRows, encMul, decodeMulLong,
    extract_join_lo, extract_join_hi, extract_join_mid, extract_full, join_eq, getLsbD_join, Cond.ofBits_bits, ShiftKind.ofBits_bits, -BitVec.getLsbD_eq_getElem]

theorem swp (c : Cond) (rn rd rm : Reg) : Statement (.swp c rn rd rm) := by
  intro _
  simp (disch := decide) [encode, decode, decodeArm, decodeArmRows, decodeSwap,
    extract_join_lo, extract_join_hi, extract_join_mid, extract_full, join_eq, getLsbD_join, Cond.ofBits_bits, ShiftKind.ofBits_bits, -BitVec.getLsbD_eq_getElem]

theorem swpb (c : Cond) (rn rd rm : Reg) : Statement (.swpb c rn rd rm) := by
  intro _
  simp (disch := decide) [encode, decode, decodeArm, decodeArmRows, decodeSwap,
    extract_join_lo, extract_join_hi, extract_join_mid, extract_full, join_eq, getLsbD_join, Cond.ofBits_bits, ShiftKind.ofBits_bits, -BitVec.getLsbD_eq_getElem]

theorem strhImm (c : Cond) (p u w : Bool) (rn rd : Reg) (imm8 : BitVec 8) : Statement (.strhImm c p u w rn rd imm8) := by
  intro _
  simp (disch := decide) [encode, decode, decodeArm, decodeArmRows, encHalf, decodeHalf,
    extract_join_lo, extract_join_hi, extract_join_mid, extract_full, join_eq, getLsbD_join, Cond.ofBits_bits, ShiftKind.ofBits_bits, -BitVec.getLsbD_eq_getElem]

theorem strhReg (c : Cond) (p u w : Bool) (rn rd : Reg) (sbz : BitVec 4) (rm : Reg) : Statement (.strhReg c p u w rn rd sbz rm) := by
  intro _
  simp (disch := decide) [encode, decode, decodeArm, decodeArmRows, encHalf, decodeHalf,
    extract_join_lo, extract_join_hi, extract_join_mid, extract_full, join_eq, getLsbD_join, Cond.ofBits_bits, ShiftKind.ofBits_bits, -BitVec.getLsbD_eq_getElem]

theorem ldrhImm (c : Cond) (p u w : Bool) (rn rd : Reg) (imm8 : BitVec 8) : Statement (.ldrhImm c p u w rn rd imm8) := by
  intro _
  simp (disch := decide) [encode, decode, decodeArm, decodeArmRows, encHalf, decodeHalf,
    extract_join_lo, extract_join_hi, extract_join_mid, extract_full, join_eq, getLsbD_join, Cond.ofBits_bits, ShiftKind.ofBits_bits, -BitVec.getLsbD_eq_getElem]

theorem ldrhReg (c : Cond) (p u w : Bool) (rn rd : Reg) (sbz : BitVec 4) (rm : Reg) : Statement (.ldrhReg c p u w rn rd sbz rm) := by
  intro _
  simp (disch := decide) [encode, decode, decodeArm, decodeArmRows, encHalf, decodeHalf,
    extract_join_lo, extract_join_hi, extract_join_mid, extract_full, join_eq, getLsbD_join, Cond.ofBits_bits, ShiftKind.ofBits_bits, -BitVec.getLsbD_eq_getElem]

theorem ldrsbImm (c : Cond) (p u w : Bool) (rn rd : Reg) (imm8 : BitVec 8) : Statement (.ldrsbImm c p u w rn rd imm8) := by
  intro _
  simp (disch := decide) [encode, decode, decodeArm, decodeArmRows, encHalf, decodeHalf,
    extract_join_lo, extract_join_hi, extract_join_mid, extract_full, join_eq, getLsbD_join, Cond.ofBits_bits, ShiftKind.ofBits_bits, -BitVec.getLsbD_eq_getElem]

theorem ldrsbReg (c : Cond) (p u w : Bool) (rn rd : Reg) (sbz : BitVec 4) (rm : Reg) : Statement (.ldrsbReg c p u w rn rd sbz rm) := by
  intro _
  simp (disch := decide) [encode, decode, decodeArm, decodeArmRows, encHalf, decodeHalf,
    extract_join_lo, extract_join_hi, extract_join_mid, extract_full, join_eq, getLsbD_join, Cond.ofBits_bits, ShiftKind.ofBits_bits, -BitVec.getLsbD_eq_getElem]

theorem ldrshImm (c : Cond) (p u w : Bool) (rn rd : Reg) (imm8 : BitVec 8) : Statement (.ldrshImm c p u w rn rd imm8) := by
  intro _
  simp (disch := decide) [encode, decode, decodeArm, decodeArmRows, encHalf, decodeHalf,
    extract_join_lo, extract_join_hi, extract_join_mid, extract_full, join_eq, getLsbD_join, Cond.ofBits_bits, ShiftKind.ofBits_bits, -BitVec.getLsbD_eq_getElem]

theorem ldrshReg (c : Cond) (p u w : Bool) (rn rd : Reg) (sbz : BitVec 4) (rm : Reg) : Statement (.ldrshReg c p u w rn rd sbz rm) := by
  intro _
  simp (disch := decide) [encode, decode, decodeArm, decodeArmRows, encHalf, decodeHalf,
    extract_join_lo, extract_join_hi, extract_join_mid, extract_full, join_eq, getLsbD_join, Cond.ofBits_bits, ShiftKind.ofBits_bits, -BitVec.getLsbD_eq_getElem]

theorem ldrdSpace (c : Cond) (p u i w : Bool) (rn rd : Reg) (hi lo : BitVec 4) : Statement (.ldrdSpace c p u i w rn rd hi lo) := by
  intro _
  simp (disch := decide) [encode, decode, decodeArm, decodeArmRows, encHalf, decodeHalf,
    extract_join_lo, extract_join_hi, extract_join_mid, extract_full, join_eq, getLsbD_join, Cond.ofBits_bits, ShiftKind.ofBits_bits, -BitVec.getLsbD_eq_getElem]

theorem strdSpace (c : Cond) (p u i w : Bool) (rn rd : Reg) (hi lo : BitVec 4) : Statement (.strdSpace c p u i w rn rd hi lo) := by
  intro _
  simp (disch := decide) [encode, decode, decodeArm, decodeArmRows, encHalf, decodeHalf,
    extract_join_lo, extract_join_hi, extract_join_mid, extract_full, join_eq, getLsbD_join, Cond.ofBits_bits, ShiftKind.ofBits_bits, -BitVec.getLsbD_eq_getElem]

theorem undMulspace (c : Cond) (body : BitVec 28) : Statement (.undMulspace c body) := by
  intro h
  change inMulspace body = true at h
  simp only [inMulspace, Bool.and_eq_true, Bool.not_eq_true', beq_iff_eq, beq_eq_false_iff_ne, Bool.and_eq_false_iff] at h
  obtain ⟨⟨⟨⟨h1, h2⟩, h3⟩, h4⟩, h5⟩ := h
  rw [encode, decode_cond]
  have F : ∀ lo len, lo + len ≤ 28 → (join 32 c.bits body).extractLsb' lo len = body.extractLsb' lo len :=
    fun lo len h => extract_join_lo _ _ _ _ h (by decide)
  have B : ∀ i, i < 28 → (join 32 c.bits body).getLsbD i = body.getLsbD i :=
    fun i h => by rw [getLsbD_join _ _ _ (by omega), if_pos h]
  generalize join 32 c.bits body = w at *
  have e7 : body.getLsbD 7 = true := getLsbD_of_extract h2 3 (by decide)
  have e4 : body.getLsbD 4 = true := getLsbD_of_extract h2 0 (by decide)
  have e5 : body.extractLsb' 5 2 = 0#2 := extract_of_extract h2 1 2 (by decide)
  have n1 : body.extractLsb' 4 24 ≠ 0x12FFF1#24 := fun e => by
    have := getLsbD_of_extract e 3 (by decide); rw [e7] at this; exact absurd this (by decide)
  have n4 : ¬ (body.extractLsb' 23 5 = 2#5 ∧ body.extractLsb' 20 2 = 0#2 ∧ body.extractLsb' 4 8 = 9#8) := fun ⟨a, b, d⟩ => by
    have := extract_of_extract d 4 4 (by decide)
    rcases h5 with (h | h) | h
    · exact h a
    · exact h b
    · exact h this
  simp only [decodeArmRows]
  rw [if_neg (by rw [F _ _ (by decide)]; exact n1), if_neg (by rw [F _ _ (by decide)]; exact fun e => h3 e.1),
    if_neg (by rw [F _ _ (by decide)]; exact fun e => h4 e.1),
    if_neg (by rw [F _ _ (by decide), F _ _ (by decide), F _ _ (by decide)]; exact n4),
    if_neg (by rw [F _ _ (by decide), F _ _ (by decide), e5]; simp),
    if_pos (by rw [F _ _ (by decide), B _ (by decide), B _ (by decide)]; exact ⟨h1, e7, e4⟩), F _ _ (by decide), extract_full]

theorem mrs (c : Cond) (r : Bool) (rd : Reg) : Statement (.mrs c r rd) := by
  intro _
  simp (disch := decide) [encode, decode, decodeArm, decodeArmRows,
    extract_join_lo, extract_join_hi, extract_join_mid, extract_full, join_eq, getLsbD_join, Cond.ofBits_bits, ShiftKind.ofBits_bits, -BitVec.getLsbD_eq_getElem]

theorem msrReg (c : Cond) (r : Bool) (mask : BitVec 4) (rm : Reg) : Statement (.msrReg c r mask rm) := by
  intro _
  simp (disch := decide) [encode, decode, decodeArm, decodeArmRows,
    extract_join_lo, extract_join_hi, extract_join_mid, extract_full, join_eq, getLsbD_join, Cond.ofBits_bits, ShiftKind.ofBits_bits, -BitVec.getLsbD_eq_getElem]

theorem msrImm (c : Cond) (r : Bool) (mask rot : BitVec 4) (imm8 : BitVec 8) : Statement (.msrImm c r mask rot imm8) := by
  intro _
  simp (disch := decide) [encode, decode, decodeArm, decodeArmRows,
    extract_join_lo, extract_join_hi, extract_join_mid, extract_full, join_eq, getLsbD_join, Cond.ofBits_bits, ShiftKind.ofBits_bits, -BitVec.getLsbD_eq_getElem]

theorem undPsrspace (c : Cond) (body : BitVec 28) : Statement (.undPsrspace c body) := by
  intro h
  change inPsrspace body = true at h
  simp only [inPsrspace, Bool.and_eq_true, Bool.not_eq_true', beq_iff_eq, beq_eq_false_iff_ne, Bool.and_eq_false_iff] at h
  obtain ⟨⟨⟨⟨⟨⟨⟨h1, h2⟩, h3⟩, h4⟩, h5⟩, h6⟩, h7⟩, h8⟩ := h
  rw [encode, decode_cond]
  have F : ∀ lo len, lo + len ≤ 28 → (join 32 c.bits body).extractLsb' lo len = body.extractLsb' lo len :=
    fun lo len h => extract_join_lo _ _ _ _ h (by decide)
  have B : ∀ i, i < 28 → (join 32 c.bits body).getLsbD i = body.getLsbD i :=
    fun i h => by rw [getLsbD_join _ _ _ (by omega), if_pos h]
  generalize join 32 c.bits body = w at *
  have nine : ∀ {p : Prop}, body.extractLsb' 4 4 = 9#4 → body.extractLsb' 25 3 = 0#3 → p := fun {p} e e' => by
    have a7 : body.getLsbD 7 = true := getLsbD_of_extract e 3 (by decide)
    have a4 : body.getLsbD 4 = true := getLsbD_of_extract e 0 (by decide)
    have a25 : body.getLsbD 25 = false := getLsbD_of_extract e' 0 (by decide)
    rw [a7, a4, a25] at h5; simp at h5
  have b24 : body.getLsbD 24 = true := getLsbD_of_extract h2 1 (by decide)
  have n2 : ¬ (body.extractLsb' 22 6 = 0#6 ∧ body.extractLsb' 4 4 = 9#4) := fun ⟨a, b⟩ => by
    have : body.getLsbD 24 = false := getLsbD_of_extract a 2 (by decide)
    rw [b24] at this; cases this
  have n3 : ¬ (body.extractLsb' 23 5 = 1#5 ∧ body.extractLsb' 4 4 = 9#4) := fun ⟨a, b⟩ => by
    have : body.getLsbD 24 = false := getLsbD_of_extract a 1 (by decide)
    rw [b24] at this; cases this
  have n4 : ¬ (body.extractLsb' 23 5 = 2#5 ∧ body.extractLsb' 20 2 = 0#2 ∧ body.extractLsb' 4 8 = 9#8) := fun ⟨a, b, d⟩ =>
    nine (extract_of_extract d 0 4 (by decide)) (extract_of_extract a 2 3 (by decide))
  have n5 : ¬ (body.extractLsb' 25 3 = 0#3 ∧ body.getLsbD 7 = true ∧ body.getLsbD 4 = true) := fun ⟨a, b, d⟩ => by
    have a25 : body.getLsbD 25 = false := getLsbD_of_extract a 0 (by decide)
    rw [a25, b, d] at h5; simp at h5
  simp only [decodeArmRows]
  rw [if_neg (by rw [F _ _ (by decide)]; exact h4), if_neg (by rw [F _ _ (by decide), F _ _ (by decide)]; exact n2),
    if_neg (by rw [F _ _ (by decide), F _ _ (by decide)]; exact n3),
    if_neg (by rw [F _ _ (by decide), F _ _ (by decide), F _ _ (by decide)]; exact n4),
    if_neg (by rw [F _ _ (by decide), B _ (by decide), B _ (by decide)]; exact fun e => n5 ⟨e.1, e.2.1, e.2.2.1⟩),
    if_neg (by rw [F _ _ (by decide), B _ (by decide), B _ (by decide)]; exact n5),
    if_neg (by rw [F _ _ (by decide), F _ _ (by decide), F _ _ (by decide)]; exact fun e => h6.elim (fun q => q.elim (fun q => q e.1) (fun q => q e.2.1)) (fun q => q e.2.2)),
    if_neg (by rw [F _ _ (by decide), F _ _ (by decide), F _ _ (by decide)]; exact fun e => h7.elim (fun q => q.elim (fun q => q e.1) (fun q => q e.2.1)) (fun q => q e.2.2)),
    if_neg (by rw [F _ _ (by decide), F _ _ (by decide), F _ _ (by decide)]; exact fun e => h8.elim (fun q => q.elim (fun q => q e.1) (fun q => q e.2.1)) (fun q => q e.2.2)),
    if_pos (by rw [F _ _ (by decide), F _ _ (by decide), B _ (by decide)]; exact ⟨h1, h2, h3⟩), F _ _ (by decide), extract_full]

theorem andImm (c : Cond) (sf : Bool) (rn rd : Reg) (rot : BitVec 4) (imm8 : BitVec 8) : Statement (.andImm c sf rn rd rot imm8) := by
  intro _
  simp (disch := decide) [encode, decode, decodeArm, decodeArmRows, encDpImm, decodeDpImm,
    extract_join_lo, extract_join_hi, extract_join_mid, extract_full, join_eq, getLsbD_join, Cond.ofBits_bits, ShiftKind.ofBits_bits, -BitVec.getLsbD_eq_getElem]

theorem andIshift (c : Cond) (sf : Bool) (rn rd : Reg) (amt : BitVec 5) (sh : ShiftKind) (rm : Reg) : Statement (.andIshift c sf rn rd amt sh rm) := by
  intro _
  simp (disch := decide) [encode, decode, decodeArm, decodeArmRows, encDpIshift, decodeDpIshift,
    extract_join_lo, extract_join_hi, extract_join_mid, extract_full, join_eq, getLsbD_join, Cond.ofBits_bits, ShiftKind.ofBits_bits, -BitVec.getLsbD_eq_getElem]

theorem andRshift (c : Cond) (sf : Bool) (rn rd rs : Reg) (sh : ShiftKind) (rm : Reg) : Statement (.andRshift c sf rn rd rs sh rm) := by
  intro _
  simp (disch := decide) [encode, decode, decodeArm, decodeArmRows, encDpRshift, decodeDpRshift,
    extract_join_lo, extract_join_hi, extract_join_mid, extract_full, join_eq, getLsbD_join, Cond.ofBits_bits, ShiftKind.ofBits_bits, -BitVec.getLsbD_eq_getElem]

theorem eorImm (c : Cond) (sf : Bool) (rn rd : Reg) (rot : BitVec 4) (imm8 : BitVec 8) : Statement (.eorImm c sf rn rd rot imm8) := by
  intro _
  simp (disch := decide) [encode, decode, decodeArm, decodeArmRows, encDpImm, decodeDpImm,
    extract_join_lo, extract_join_hi, extract_join_mid, extract_full, join_eq, getLsbD_join, Cond.ofBits_bits, ShiftKind.ofBits_bits, -BitVec.getLsbD_eq_getElem]

theorem eorIshift (c : Cond) (sf : Bool) (rn rd : Reg) (amt : BitVec 5) (sh : ShiftKind) (rm : Reg) : Statement (.eorIshift c sf rn rd amt sh rm) := by
  intro _
  simp (disch := decide) [encode, decode, decodeArm, decodeArmRows, encDpIshift, decodeDpIshift,
    extract_join_lo, extract_join_hi, extract_join_mid, extract_full, join_eq, getLsbD_join, Cond.ofBits_bits, ShiftKind.ofBits_bits, -BitVec.getLsbD_eq_getElem]

theorem eorRshift (c : Cond) (sf : Bool) (rn rd rs : Reg) (sh : ShiftKind) (rm : Reg) : Statement (.eorRshift c sf rn rd rs sh rm) := by
  intro _
  simp (disch := decide) [encode, decode, decodeArm, decodeArmRows, encDpRshift, decodeDpRshift,
    extract_join_lo, extract_join_hi, extract_join_mid, extract_full, join_eq, getLsbD_join, Cond.ofBits_bits, ShiftKind.ofBits_bits, -BitVec.getLsbD_eq_getElem]

theorem subImm (c : Cond) (sf : Bool) (rn rd : Reg) (rot : BitVec 4) (imm8 : BitVec 8) : Statement (.subImm c sf rn rd rot imm8) := by
  intro _
  simp (disch := decide) [encode, decode, decodeArm, decodeArmRows, encDpImm, decodeDpImm,
    extract_join_lo, extract_join_hi, extract_join_mid, extract_full, join_eq, getLsbD_join, Cond.ofBits_bits, ShiftKind.ofBits_bits, -BitVec.getLsbD_eq_getElem]

theorem subIshift (c : Cond) (sf : Bool) (rn rd : Reg) (amt : BitVec 5) (sh : ShiftKind) (rm : Reg) : Statement (.subIshift c sf rn rd amt sh rm) := by
  intro _
  simp (disch := decide) [encode, decode, decodeArm, decodeArmRows, encDpIshift, decodeDpIshift,
    extract_join_lo, extract_join_hi, extract_join_mid, extract_full, join_eq, getLsbD_join, Cond.ofBits_bits, ShiftKind.ofBits_bits, -BitVec.getLsbD_eq_getElem]

theorem subRshift (c : Cond) (sf : Bool) (rn rd rs : Reg) (sh : ShiftKind) (rm : Reg) : Statement (.subRshift c sf rn rd rs sh rm) := by
  intro _
  simp (disch := decide) [encode, decode, decodeArm, decodeArmRows, encDpRshift, decodeDpRshift,
    extract_join_lo, extract_join_hi, extract_join_mid, extract_full, join_eq, getLsbD_join, Cond.ofBits_bits, ShiftKind.ofBits_bits, -BitVec.getLsbD_eq_getElem]

theorem rsbImm (c : Cond) (sf : Bool) (rn rd : Reg) (rot : BitVec 4) (imm8 : BitVec 8) : Statement (.rsbImm c sf rn rd rot imm8) := by
  intro _
  simp (disch := decide) [encode, decode, decodeArm, decodeArmRows, encDpImm, decodeDpImm,
    extract_join_lo, extract_join_hi, extract_join_mid, extract_full, join_eq, getLsbD_join, Cond.ofBits_bits, ShiftKind.ofBits_bits, -BitVec.getLsbD_eq_getElem]

theorem rsbIshift (c : Cond) (sf : Bool) (rn rd : Reg) (amt : BitVec 5) (sh : ShiftKind) (rm : Reg) : Statement (.rsbIshift c sf rn rd amt sh rm) := by
  intro _
  simp (disch := decide) [encode, decode, decodeArm, decodeArmRows, encDpIshift, decodeDpIshift,
    extract_join_lo, extract_join_hi, extract_join_mid, extract_full, join_eq, getLsbD_join, Cond.ofBits_bits, ShiftKind.ofBits_bits, -BitVec.getLsbD_eq_getElem]

theorem rsbRshift (c : Cond) (sf : Bool) (rn rd rs : Reg) (sh : ShiftKind) (rm : Reg) : Statement (.rsbRshift c sf rn rd rs sh rm) := by
  intro _
  simp (disch := decide) [encode, decode, decodeArm, decodeArmRows, encDpRshift, decodeDpRshift,
    extract_join_lo, extract_join_hi, extract_join_mid, extract_full, join_eq, getLsbD_join, Cond.ofBits_bits, ShiftKind.ofBits_bits, -BitVec.getLsbD_eq_getElem]

theorem addImm (c : Cond) (sf : Bool) (rn rd : Reg) (rot : BitVec 4) (imm8 : BitVec 8) : Statement (.addImm c sf rn rd rot imm8) := by
  intro _
  simp (disch := decide) [encode, decode, decodeArm, decodeArmRows, encDpImm, decodeDpImm,
    extract_join_lo, extract_join_hi, extract_join_mid, extract_full, join_eq, getLsbD_join, Cond.ofBits_bits, ShiftKind.ofBits_bits, -BitVec.getLsbD_eq_getElem]

theorem addIshift (c : Cond) (sf : Bool) (rn rd : Reg) (amt : BitVec 5) (sh : ShiftKind) (rm : Reg) : Statement (.addIshift c sf rn rd amt sh rm) := by
  intro _
  simp (disch := decide) [encode, decode, decodeArm, decodeArmRows, encDpIshift, decodeDpIshift,
    extract_join_lo, extract_join_hi, extract_join_mid, extract_full, join_eq, getLsbD_join, Cond.ofBits_bits, ShiftKind.ofBits_bits, -BitVec.getLsbD_eq_getElem]

theorem addRshift (c : Cond) (sf : Bool) (rn rd rs : Reg) (sh : ShiftKind) (rm : Reg) : Statement (.addRshift c sf rn rd rs sh rm) := by
  intro _
  simp (disch := decide) [encode, decode, decodeArm, decodeArmRows, encDpRshift, decodeDpRshift,
    extract_join_lo, extract_join_hi, extract_join_mid, extract_full, join_eq, getLsbD_join, Cond.ofBits_bits, ShiftKind.ofBits_bits, -BitVec.getLsbD_eq_getElem]

theorem adcImm (c : Cond) (sf : Bool) (rn rd : Reg) (rot : BitVec 4) (imm8 : BitVec 8) : Statement (.adcImm c sf rn rd rot imm8) := by
  intro _
  simp (disch := decide) [encode, decode, decodeArm, decodeArmRows, encDpImm, decodeDpImm,
    extract_join_lo, extract_join_hi, extract_join_mid, extract_full, join_eq, getLsbD_join, Cond.ofBits_bits, ShiftKind.ofBits_bits, -BitVec.getLsbD_eq_getElem]

theorem adcIshift (c : Cond) (sf : Bool) (rn rd : Reg) (amt : BitVec 5) (sh : ShiftKind) (rm : Reg) : Statement (.adcIshift c sf rn rd amt sh rm) := by
  intro _
  simp (disch := decide) [encode, decode, decodeArm, decodeArmRows, encDpIshift, decodeDpIshift,
    extract_join_lo, extract_join_hi, extract_join_mid, extract_full, join_eq, getLsbD_join, Cond.ofBits_bits, ShiftKind.ofBits_bits, -BitVec.getLsbD_eq_getElem]

theorem adcRshift (c : Cond) (sf : Bool) (rn rd rs : Reg) (sh : ShiftKind) (rm : Reg) : Statement (.adcRshift c sf rn rd rs sh rm) := by
  intro _
  simp (disch := decide) [encode, decode, decodeArm, decodeArmRows, encDpRshift, decodeDpRshift,
    extract_join_lo, extract_join_hi, extract_join_mid, extract_full, join_eq, getLsbD_join, Cond.ofBits_bits, ShiftKind.ofBits_bits, -BitVec.getLsbD_eq_getElem]

theorem sbcImm (c : Cond) (sf : Bool) (rn rd : Reg) (rot : BitVec 4) (imm8 : BitVec 8) : Statement (.sbcImm c sf rn rd rot imm8) := by
  intro _
  simp (disch := decide) [encode, decode, decodeArm, decodeArmRows, encDpImm, decodeDpImm,
    extract_join_lo, extract_join_hi, extract_join_mid, extract_full, join_eq, getLsbD_join, Cond.ofBits_bits, ShiftKind.ofBits_bits, -BitVec.getLsbD_eq_getElem]

theorem sbcIshift (c : Cond) (sf : Bool) (rn rd : Reg) (amt : BitVec 5) (sh : ShiftKind) (rm : Reg) : Statement (.sbcIshift c sf rn rd amt sh rm) := by
  intro _
  simp (disch := decide) [encode, decode, decodeArm, decodeArmRows, encDpIshift, decodeDpIshift,
    extract_join_lo, extract_join_hi, extract_join_mid, extract_full, join_eq, getLsbD_join, Cond.ofBits_bits, ShiftKind.ofBits_bits, -BitVec.getLsbD_eq_getElem]

theorem sbcRshift (c : Cond) (sf : Bool) (rn rd rs : Reg) (sh : ShiftKind) (rm : Reg) : Statement (.sbcRshift c sf rn rd rs sh rm) := by
  intro _
  simp (disch := decide) [encode, decode, decodeArm, decodeArmRows, encDpRshift, decodeDpRshift,
    extract_join_lo, extract_join_hi, extract_join_mid, extract_full, join_eq, getLsbD_join, Cond.ofBits_bits, ShiftKind.ofBits_bits, -BitVec.getLsbD_eq_getElem]

theorem rscImm (c : Cond) (sf : Bool) (rn rd : Reg) (rot : BitVec 4) (imm8 : BitVec 8) : Statement (.rscImm c sf rn rd rot imm8) := by
  intro _
  simp (disch := decide) [encode, decode, decodeArm, decodeArmRows, encDpImm, decodeDpImm,
    extract_join_lo, extract_join_hi, extract_join_mid, extract_full, join_eq, getLsbD_join, Cond.ofBits_bits, ShiftKind.ofBits_bits, -BitVec.getLsbD_eq_getElem]

theorem rscIshift (c : Cond) (sf : Bool) (rn rd : Reg) (amt : BitVec 5) (sh : ShiftKind) (rm : Reg) : Statement (.rscIshift c sf rn rd amt sh rm) := by
  intro _
  simp (disch := decide) [encode, decode, decodeArm, decodeArmRows, encDpIshift, decodeDpIshift,
    extract_join_lo, extract_join_hi, extract_join_mid, extract_full, join_eq, getLsbD_join, Cond.ofBits_bits, ShiftKind.ofBits_bits, -BitVec.getLsbD_eq_getElem]

theorem rscRshift (c : Cond) (sf : Bool) (rn rd rs : Reg) (sh : ShiftKind) (rm : Reg) : Statement (.rscRshift c sf rn rd rs sh rm) := by
  intro _
  simp (disch := decide) [encode, decode, decodeArm, decodeArmRows, encDpRshift, decodeDpRshift,
    extract_join_lo, extract_join_hi, extract_join_mid, extract_full, join_eq, getLsbD_join, Cond.ofBits_bits, ShiftKind.ofBits_bits, -BitVec.getLsbD_eq_getElem]

theorem tstImm (c : Cond) (rn rd : Reg) (rot : BitVec 4) (imm8 : BitVec 8) : Statement (.tstImm c rn rd rot imm8) := by
  intro _
  simp (disch := decide) [encode, decode, decodeArm, decodeArmRows, encDpImm, decodeDpImm,
    extract_join_lo, extract_join_hi, extract_join_mid, extract_full, join_eq, getLsbD_join, Cond.ofBits_bits, ShiftKind.ofBits_bits, -BitVec.getLsbD_eq_getElem]

theorem tstIshift (c : Cond) (rn rd : Reg) (amt : BitVec 5) (sh : ShiftKind) (rm : Reg) : Statement (.tstIshift c rn rd amt sh rm) := by
  intro _
  simp (disch := decide) [encode, decode, decodeArm, decodeArmRows, encDpIshift, decodeDpIshift,
    extract_join_lo, extract_join_hi, extract_join_mid, extract_full, join_eq, getLsbD_join, Cond.ofBits_bits, ShiftKind.ofBits_bits, -BitVec.getLsbD_eq_getElem]

theorem tstRshift (c : Cond) (rn rd rs : Reg) (sh : ShiftKind) (rm : Reg) : Statement (.tstRshift c rn rd rs sh rm) := by
  intro _
  simp (disch := decide) [encode, decode, decodeArm, decodeArmRows, encDpRshift, decodeDpRshift,
    extract_join_lo, extract_join_hi, extract_join_mid, extract_full, join_eq, getLsbD_join, Cond.ofBits_bits, ShiftKind.ofBits_bits, -BitVec.getLsbD_eq_getElem]

theorem teqImm (c : Cond) (rn rd : Reg) (rot : BitVec 4) (imm8 : BitVec 8) : Statement (.teqImm c rn rd rot imm8) := by
  intro _
  simp (disch := decide) [encode, decode, decodeArm, decodeArmRows, encDpImm, decodeDpImm,
    extract_join_lo, extract_join_hi, extract_join_mid, extract_full, join_eq, getLsbD_join, Cond.ofBits_bits, ShiftKind.ofBits_bits, -BitVec.getLsbD_eq_getElem]

theorem teqIshift (c : Cond) (rn rd : Reg) (amt : BitVec 5) (sh : ShiftKind) (rm : Reg) : Statement (.teqIshift c rn rd amt sh rm) := by
  intro _
  simp (disch := decide) [encode, decode, decodeArm, decodeArmRows, encDpIshift, decodeDpIshift,
    extract_join_lo, extract_join_hi, extract_join_mid, extract_full, join_eq, getLsbD_join, Cond.ofBits_bits, ShiftKind.ofBits_bits, -BitVec.getLsbD_eq_getElem]

theorem teqRshift (c : Cond) (rn rd rs : Reg) (sh : ShiftKind) (rm : Reg) : Statement (.teqRshift c rn rd rs sh rm) := by
  intro _
  simp (disch := decide) [encode, decode, decodeArm, decodeArmRows, encDpRshift, decodeDpRshift,
    extract_join_lo, extract_join_hi, extract_join_mid, extract_full, join_eq, getLsbD_join, Cond.ofBits_bits, ShiftKind.ofBits_bits, -BitVec.getLsbD_eq_getElem]

theorem cmpImm (c : Cond) (rn rd : Reg) (rot : BitVec 4) (imm8 : BitVec 8) : Statement (.cmpImm c rn rd rot imm8) := by
  intro _
  simp (disch := decide) [encode, decode, decodeArm, decodeArmRows, encDpImm, decodeDpImm,
    extract_join_lo, extract_join_hi, extract_join_mid, extract_full, join_eq, getLsbD_join, Cond.ofBits_bits, ShiftKind.ofBits_bits, -BitVec.getLsbD_eq_getElem]

theorem cmpIshift (c : Cond) (rn rd : Reg) (amt : BitVec 5) (sh : ShiftKind) (rm : Reg) : Statement (.cmpIshift c rn rd amt sh rm) := by
  intro _
  simp (disch := decide) [encode, decode, decodeArm, decodeArmRows, encDpIshift, decodeDpIshift,
    extract_join_lo, extract_join_hi, extract_join_mid, extract_full, join_eq, getLsbD_join, Cond.ofBits_bits, ShiftKind.ofBits_bits, -BitVec.getLsbD_eq_getElem]

theorem cmpRshift (c : Cond) (rn rd rs : Reg) (sh : ShiftKind) (rm : Reg) : Statement (.cmpRshift c rn rd rs sh rm) := by
  intro _
  simp (disch := decide) [encode, decode, decodeArm, decodeArmRows, encDpRshift, decodeDpRshift,
    extract_join_lo, extract_join_hi, extract_join_mid, extract_full, join_eq, getLsbD_join, Cond.ofBits_bits, ShiftKind.ofBits_bits, -BitVec.getLsbD_eq_getElem]

theorem cmnImm (c : Cond) (rn rd : Reg) (rot : BitVec 4) (imm8 : BitVec 8) : Statement (.cmnImm c rn rd rot imm8) := by
  intro _
  simp (disch := decide) [encode, decode, decodeArm, decodeArmRows, encDpImm, decodeDpImm,
    extract_join_lo, extract_join_hi, extract_join_mid, extract_full, join_eq, getLsbD_join, Cond.ofBits_bits, ShiftKind.ofBits_bits, -BitVec.getLsbD_eq_getElem]

theorem cmnIshift (c : Cond) (rn rd : Reg) (amt : BitVec 5) (sh : ShiftKind) (rm : Reg) : Statement (.cmnIshift c rn rd amt sh rm) := by
  intro _
  simp (disch := decide) [encode, decode, decodeArm, decodeArmRows, encDpIshift, decodeDpIshift,
    extract_join_lo, extract_join_hi, extract_join_mid, extract_full, join_eq, getLsbD_join, Cond.ofBits_bits, ShiftKind.ofBits_bits, -BitVec.getLsbD_eq_getElem]

theorem cmnRshift (c : Cond) (rn rd rs : Reg) (sh : ShiftKind) (rm : Reg) : Statement (.cmnRshift c rn rd rs sh rm) := by
  intro _
  simp (disch := decide) [encode, decode, decodeArm, decodeArmRows, encDpRshift, decodeDpRshift,
    extract_join_lo, extract_join_hi, extract_join_mid, extract_full, join_eq, getLsbD_join, Cond.ofBits_bits, ShiftKind.ofBits_bits, -BitVec.getLsbD_eq_getElem]

theorem orrImm (c : Cond) (sf : Bool) (rn rd : Reg) (rot : BitVec 4) (imm8 : BitVec 8) : Statement (.orrImm c sf rn rd rot imm8) := by
  intro _
  simp (disch := decide) [encode, decode, decodeArm, decodeArmRows, encDpImm, decodeDpImm,
    extract_join_lo, extract_join_hi, extract_join_mid, extract_full, join_eq, getLsbD_join, Cond.ofBits_bits, ShiftKind.ofBits_bits, -BitVec.getLsbD_eq_getElem]

theorem orrIshift (c : Cond) (sf : Bool) (rn rd : Reg) (amt : BitVec 5) (sh : ShiftKind) (rm : Reg) : Statement (.orrIshift c sf rn rd amt sh rm) := by
  intro _
  simp (disch := decide) [encode, decode, decodeArm, decodeArmRows, encDpIshift, decodeDpIshift,
    extract_join_lo, extract_join_hi, extract_join_mid, extract_full, join_eq, getLsbD_join, Cond.ofBits_bits, ShiftKind.ofBits_bits, -BitVec.getLsbD_eq_getElem]

theorem orrRshift (c : Cond) (sf : Bool) (rn rd rs : Reg) (sh : ShiftKind) (rm : Reg) : Statement (.orrRshift c sf rn rd rs sh rm) := by
  intro _
  simp (disch := decide) [encode, decode, decodeArm, decodeArmRows, encDpRshift, decodeDpRshift,
    extract_join_lo, extract_join_hi, extract_join_mid, extract_full, join_eq, getLsbD_join, Cond.ofBits_bits, ShiftKind.ofBits_bits, -BitVec.getLsbD_eq_getElem]

theorem movImm (c : Cond) (sf : Bool) (rn rd : Reg) (rot : BitVec 4) (imm8 : BitVec 8) : Statement (.movImm c sf rn rd rot imm8) := by
  intro _
  simp (disch := decide) [encode, decode, decodeArm, decodeArmRows, encDpImm, decodeDpImm,
    extract_join_lo, extract_join_hi, extract_join_mid, extract_full, join_eq, getLsbD_join, Cond.ofBits_bits, ShiftKind.ofBits_bits, -BitVec.getLsbD_eq_getElem]

theorem movIshift (c : Cond) (sf : Bool) (rn rd : Reg) (amt : BitVec 5) (sh : ShiftKind) (rm : Reg) : Statement (.movIshift c sf rn rd amt sh rm) := by
  intro _
  simp (disch := decide) [encode, decode, decodeArm, decodeArmRows, encDpIshift, decodeDpIshift,
    extract_join_lo, extract_join_hi, extract_join_mid, extract_full, join_eq, getLsbD_join, Cond.ofBits_bits, ShiftKind.ofBits_bits, -BitVec.getLsbD_eq_getElem]

theorem movRshift (c : Cond) (sf : Bool) (rn rd rs : Reg) (sh : ShiftKind) (rm : Reg) : Statement (.movRshift c sf rn rd rs sh rm) := by
  intro _
  simp (disch := decide) [encode, decode, decodeArm, decodeArmRows, encDpRshift, decodeDpRshift,
    extract_join_lo, extract_join_hi, extract_join_mid, extract_full, join_eq, getLsbD_join, Cond.ofBits_bits, ShiftKind.ofBits_bits, -BitVec.getLsbD_eq_getElem]

theorem bicImm (c : Cond) (sf : Bool) (rn rd : Reg) (rot : BitVec 4) (imm8 : BitVec 8) : Statement (.bicImm c sf rn rd rot imm8) := by
  intro _
  simp (disch := decide) [encode, decode, decodeArm, decodeArmRows, encDpImm, decodeDpImm,
    extract_join_lo, extract_join_hi, extract_join_mid, extract_full, join_eq, getLsbD_join, Cond.ofBits_bits, ShiftKind.ofBits_bits, -BitVec.getLsbD_eq_getElem]

theorem bicIshift (c : Cond) (sf : Bool) (rn rd : Reg) (amt : BitVec 5) (sh : ShiftKind) (rm : Reg) : Statement (.bicIshift c sf rn rd amt sh rm) := by
  intro _
  simp (disch := decide) [encode, decode, decodeArm, decodeArmRows, encDpIshift, decodeDpIshift,
    extract_join_lo, extract_join_hi, extract_join_mid, extract_full, join_eq, getLsbD_join, Cond.ofBits_bits, ShiftKind.ofBits_bits, -BitVec.getLsbD_eq_getElem]

theorem bicRshift (c : Cond) (sf : Bool) (rn rd rs : Reg) (sh : ShiftKind) (rm : Reg) : Statement (.bicRshift c sf rn rd rs sh rm) := by
  intro _
  simp (disch := decide) [encode, decode, decodeArm, decodeArmRows, encDpRshift, decodeDpRshift,
    extract_join_lo, extract_join_hi, extract_join_mid, extract_full, join_eq, getLsbD_join, Cond.ofBits_bits, ShiftKind.ofBits_bits, -BitVec.getLsbD_eq_getElem]

theorem mvnImm (c : Cond) (sf : Bool) (rn rd : Reg) (rot : BitVec 4) (imm8 : BitVec 8) : Statement (.mvnImm c sf rn rd rot imm8) := by
  intro _
  simp (disch := decide) [encode, decode, decodeArm, decodeArmRows, encDpImm, decodeDpImm,
    extract_join_lo, extract_join_hi, extract_join_mid, extract_full, join_eq, getLsbD_join, Cond.ofBits_bits, ShiftKind.ofBits_bits, -BitVec.getLsbD_eq_getElem]

theorem mvnIshift (c : Cond) (sf : Bool) (rn rd : Reg) (amt : BitVec 5) (sh : ShiftKind) (rm : Reg) : Statement (.mvnIshift c sf rn rd amt sh rm) := by
  intro _
  simp (disch := decide) [encode, decode, decodeArm, decodeArmRows, encDpIshift, decodeDpIshift,
    extract_join_lo, extract_join_hi, extract_join_mid, extract_full, join_eq, getLsbD_join, Cond.ofBits_bits, ShiftKind.ofBits_bits, -BitVec.getLsbD_eq_getElem]

theorem mvnRshift (c : Cond) (sf : Bool) (rn rd rs : Reg) (sh : ShiftKind) (rm : Reg) : Statement (.mvnRshift c sf rn rd rs sh rm) := by
  intro _
  simp (disch := decide) [encode, decode, decodeArm, decodeArmRows, encDpRshift, decodeDpRshift,
    extract_join_lo, extract_join_hi, extract_join_mid, extract_full, join_eq, getLsbD_join, Cond.ofBits_bits, ShiftKind.ofBits_bits, -BitVec.getLsbD_eq_getElem]

theorem undA15 (c : Cond) (hi : BitVec 20) (lo : BitVec 4) : Statement (.undA15 c hi lo) := by
  intro _
  simp (disch := decide) [encode, decode, decodeArm, decodeArmRows,
    extract_join_lo, extract_join_hi, extract_join_mid, extract_full, join_eq, getLsbD_join, Cond.ofBits_bits, ShiftKind.ofBits_bits, -BitVec.getLsbD_eq_getElem]

theorem strImmPre (c : Cond) (u w : Bool) (rn rd : Reg) (imm12 : BitVec 12) : Statement (.strImmPre c u w rn rd imm12) := by
  intro _
  simp (disch := decide) [encode, decode, decodeArm, decodeArmRows, encXferImm, decodeXferImm,
    extract_join_lo, extract_join_hi, extract_join_mid, extract_full, join_eq, getLsbD_join, Cond.ofBits_bits, ShiftKind.ofBits_bits, -BitVec.getLsbD_eq_getElem]

theorem strImmPost (c : Cond) (u : Bool) (rn rd : Reg) (imm12 : BitVec 12) : Statement (.strImmPost c u rn rd imm12) := by
  intro _
  simp (disch := decide) [encode, decode, decodeArm, decodeArmRows, encXferImm, decodeXferImm,
    extract_join_lo, extract_join_hi, extract_join_mid, extract_full, join_eq, getLsbD_join, Cond.ofBits_bits, ShiftKind.ofBits_bits, -BitVec.getLsbD_eq_getElem]

theorem strtImm (c : Cond) (u : Bool) (rn rd : Reg) (imm12 : BitVec 12) : Statement (.strtImm c u rn rd imm12) := by
  intro _
  simp (disch := decide) [encode, decode, decodeArm, decodeArmRows, encXferImm, decodeXferImm,
    extract_join_lo, extract_join_hi, extract_join_mid, extract_full, join_eq, getLsbD_join, Cond.ofBits_bits, ShiftKind.ofBits_bits, -BitVec.getLsbD_eq_getElem]

theorem strRegPre (c : Cond) (u w : Bool) (rn rd : Reg) (amt : BitVec 5) (sh : ShiftKind) (rm : Reg) : Statement (.strRegPre c u w rn rd amt sh rm) := by
  intro _
  simp (disch := decide) [encode, decode, decodeArm, decodeArmRows, encXferReg, decodeXferReg,
    extract_join_lo, extract_join_hi, extract_join_mid, extract_full, join_eq, getLsbD_join, Cond.ofBits_bits, ShiftKind.ofBits_bits, -BitVec.getLsbD_eq_getElem]

theorem strRegPost (c : Cond) (u : Bool) (rn rd : Reg) (amt : BitVec 5) (sh : ShiftKind) (rm : Reg) : Statement (.strRegPost c u rn rd amt sh rm) := by
  intro _
  simp (disch := decide) [encode, decode, decodeArm, decodeArmRows, encXferReg, decodeXferReg,
    extract_join_lo, extract_join_hi, extract_join_mid, extract_full, join_eq, getLsbD_join, Cond.ofBits_bits, ShiftKind.ofBits_bits, -BitVec.getLsbD_eq_getElem]

theorem strtReg (c : Cond) (u : Bool) (rn rd : Reg) (amt : BitVec 5) (sh : ShiftKind) (rm : Reg) : Statement (.strtReg c u rn rd amt sh rm) := by
  intro _
  simp (disch := decide) [encode, decode, decodeArm, decodeArmRows, encXferReg, decodeXferReg,
    extract_join_lo, extract_join_hi, extract_join_mid, extract_full, join_eq, getLsbD_join, Cond.ofBits_bits, ShiftKind.ofBits_bits, -BitVec.getLsbD_eq_getElem]

theorem ldrImmPre (c : Cond) (u w : Bool) (rn rd : Reg) (imm12 : BitVec 12) : Statement (.ldrImmPre c u w rn rd imm12) := by
  intro _
  simp (disch := decide) [encode, decode, decodeArm, decodeArmRows, encXferImm, decodeXferImm,
    extract_join_lo, extract_join_hi, extract_join_mid, extract_full, join_eq, getLsbD_join, Cond.ofBits_bits, ShiftKind.ofBits_bits, -BitVec.getLsbD_eq_getElem]

theorem ldrImmPost (c : Cond) (u : Bool) (rn rd : Reg) (imm12 : BitVec 12) : Statement (.ldrImmPost c u rn rd imm12) := by
  intro _
  simp (disch := decide) [encode, decode, decodeArm, decodeArmRows, encXferImm, decodeXferImm,
    extract_join_lo, extract_join_hi, extract_join_mid, extract_full, join_eq, getLsbD_join, Cond.ofBits_bits, ShiftKind.ofBits_bits, -BitVec.getLsbD_eq_getElem]

theorem ldrtImm (c : Cond) (u : Bool) (rn rd : Reg) (imm12 : BitVec 12) : Statement (.ldrtImm c u rn rd imm12) := by
  intro _
  simp (disch := decide) [encode, decode, decodeArm, decodeArmRows, encXferImm, decodeXferImm,
    extract_join_lo, extract_join_hi, extract_join_mid, extract_full, join_eq, getLsbD_join, Cond.ofBits_bits, ShiftKind.ofBits_bits, -BitVec.getLsbD_eq_getElem]

theorem ldrRegPre (c : Cond) (u w : Bool) (rn rd : Reg) (amt : BitVec 5) (sh : ShiftKind) (rm : Reg) : Statement (.ldrRegPre c u w rn rd amt sh rm) := by
  intro _
  simp (disch := decide) [encode, decode, decodeArm, decodeArmRows, encXferReg, decodeXferReg,
    extract_join_lo, extract_join_hi, extract_join_mid, extract_full, join_eq, getLsbD_join, Cond.ofBits_bits, ShiftKind.ofBits_bits, -BitVec.getLsbD_eq_getElem]

theorem ldrRegPost (c : Cond) (u : Bool) (rn rd : Reg) (amt : BitVec 5) (sh : ShiftKind) (rm : Reg) : Statement (.ldrRegPost c u rn rd amt sh rm) := by
  intro _
  simp (disch := decide) [encode, decode, decodeArm, decodeArmRows, encXferReg, decodeXferReg,
    extract_join_lo, extract_join_hi, extract_join_mid, extract_full, join_eq, getLsbD_join, Cond.ofBits_bits, ShiftKind.ofBits_bits, -BitVec.getLsbD_eq_getElem]

theorem ldrtReg (c : Cond) (u : Bool) (rn rd : Reg) (amt : BitVec 5) (sh : ShiftKind) (rm : Reg) : Statement (.ldrtReg c u rn rd amt sh rm) := by
  intro _
  simp (disch := decide) [encode, decode, decodeArm, decodeArmRows, encXferReg, decodeXferReg,
    extract_join_lo, extract_join_hi, extract_join_mid, extract_full, join_eq, getLsbD_join, Cond.ofBits_bits, ShiftKind.ofBits_bits, -BitVec.getLsbD_eq_getElem]

theorem strbImmPre (c : Cond) (u w : Bool) (rn rd : Reg) (imm12 : BitVec 12) : Statement (.strbImmPre c u w rn rd imm12) := by
  intro _
  simp (disch := decide) [encode, decode, decodeArm, decodeArmRows, encXferImm, decodeXferImm,
    extract_join_lo, extract_join_hi, extract_join_mid, extract_full, join_eq, getLsbD_join, Cond.ofBits_bits, ShiftKind.ofBits_bits, -BitVec.getLsbD_eq_getElem]

theorem strbImmPost (c : Cond) (u : Bool) (rn rd : Reg) (imm12 : BitVec 12) : Statement (.strbImmPost c u rn rd imm12) := by
  intro _
  simp (disch := decide) [encode, decode, decodeArm, decodeArmRows, encXferImm, decodeXferImm,
    extract_join_lo, extract_join_hi, extract_join_mid, extract_full, join_eq, getLsbD_join, Cond.ofBits_bits, ShiftKind.ofBits_bits, -BitVec.getLsbD_eq_getElem]

theorem strbtImm (c : Cond) (u : Bool) (rn rd : Reg) (imm12 : BitVec 12) : Statement (.strbtImm c u rn rd imm12) := by
  intro _
  simp (disch := decide) [encode, decode, decodeArm, decodeArmRows, encXferImm, decodeXferImm,
    extract_join_lo, extract_join_hi, extract_join_mid, extract_full, join_eq, getLsbD_join, Cond.ofBits_bits, ShiftKind.ofBits_bits, -BitVec.getLsbD_eq_getElem]

theorem strbRegPre (c : Cond) (u w : Bool) (rn rd : Reg) (amt : BitVec 5) (sh : ShiftKind) (rm : Reg) : Statement (.strbRegPre c u w rn rd amt sh rm) := by
  intro _
  simp (disch := decide) [encode, decode, decodeArm, decodeArmRows, encXferReg, decodeXferReg,
    extract_join_lo, extract_join_hi, extract_join_mid, extract_full, join_eq, getLsbD_join, Cond.ofBits_bits, ShiftKind.ofBits_bits, -BitVec.getLsbD_eq_getElem]

theorem strbRegPost (c : Cond) (u : Bool) (rn rd : Reg) (amt : BitVec 5) (sh : ShiftKind) (rm : Reg) : Statement (.strbRegPost c u rn rd amt sh rm) := by
  intro _
  simp (disch := decide) [encode, decode, decodeArm, decodeArmRows, encXferReg, decodeXferReg,
    extract_join_lo, extract_join_hi, extract_join_mid, extract_full, join_eq, getLsbD_join, Cond.ofBits_bits, ShiftKind.ofBits_bits, -BitVec.getLsbD_eq_getElem]

theorem strbtReg (c : Cond) (u : Bool) (rn rd : Reg) (amt : BitVec 5) (sh : ShiftKind) (rm : Reg) : Statement (.strbtReg c u rn rd amt sh rm) := by
  intro _
  simp (disch := decide) [encode, decode, decodeArm, decodeArmRows, encXferReg, decodeXferReg,
    extract_join_lo, extract_join_hi, extract_join_mid, extract_full, join_eq, getLsbD_join, Cond.ofBits_bits, ShiftKind.ofBits_bits, -BitVec.getLsbD_eq_getElem]

theorem ldrbImmPre (c : Cond) (u w : Bool) (rn rd : Reg) (imm12 : BitVec 12) : Statement (.ldrbImmPre c u w rn rd imm12) := by
  intro _
  simp (disch := decide) [encode, decode, decodeArm, decodeArmRows, encXferImm, decodeXferImm,
    extract_join_lo, extract_join_hi, extract_join_mid, extract_full, join_eq, getLsbD_join, Cond.ofBits_bits, ShiftKind.ofBits_bits, -BitVec.getLsbD_eq_getElem]

theorem ldrbImmPost (c : Cond) (u : Bool) (rn rd : Reg) (imm12 : BitVec 12) : Statement (.ldrbImmPost c u rn rd imm12) := by
  intro _
  simp (disch := decide) [encode, decode, decodeArm, decodeArmRows, encXferImm, decodeXferImm,
    extract_join_lo, extract_join_hi, extract_join_mid, extract_full, join_eq, getLsbD_join, Cond.ofBits_bits, ShiftKind.ofBits_bits, -BitVec.getLsbD_eq_getElem]

theorem ldrbtImm (c : Cond) (u : Bool) (rn rd : Reg) (imm12 : BitVec 12) : Statement (.ldrbtImm c u rn rd imm12) := by
  intro _
  simp (disch := decide) [encode, decode, decodeArm, decodeArmRows, encXferImm, decodeXferImm,
    extract_join_lo, extract_join_hi, extract_join_mid, extract_full, join_eq, getLsbD_join, Cond.ofBits_bits, ShiftKind.ofBits_bits, -BitVec.getLsbD_eq_getElem]

theorem ldrbRegPre (c : Cond) (u w : Bool) (rn rd : Reg) (amt : BitVec 5) (sh : ShiftKind) (rm : Reg) : Statement (.ldrbRegPre c u w rn rd amt sh rm) := by
  intro _
  simp (disch := decide) [encode, decode, decodeArm, decodeArmRows, encXferReg, decodeXferReg,
    extract_join_lo, extract_join_hi, extract_join_mid, extract_full, join_eq, getLsbD_join, Cond.ofBits_bits, ShiftKind.ofBits_bits, -BitVec.getLsbD_eq_getElem]

theorem ldrbRegPost (c : Cond) (u : Bool) (rn rd : Reg) (amt : BitVec 5) (sh : ShiftKind) (rm : Reg) : Statement (.ldrbRegPost c u rn rd amt sh rm) := by
  intro _
  simp (disch := decide) [encode, decode, decodeArm, decodeArmRows, encXferReg, decodeXferReg,
    extract_join_lo, extract_join_hi, extract_join_mid, extract_full, join_eq, getLsbD_join, Cond.ofBits_bits, ShiftKind.ofBits_bits, -BitVec.getLsbD_eq_getElem]

theorem ldrbtReg (c : Cond) (u : Bool) (rn rd : Reg) (amt : BitVec 5) (sh : ShiftKind) (rm : Reg) : Statement (.ldrbtReg c u rn rd amt sh rm) := by
  intro _
  simp (disch := decide) [encode, decode, decodeArm, decodeArmRows, encXferReg, decodeXferReg,
    extract_join_lo, extract_join_hi, extract_join_mid, extract_full, join_eq, getLsbD_join, Cond.ofBits_bits, ShiftKind.ofBits_bits, -BitVec.getLsbD_eq_getElem]

theorem stm (c : Cond) (p u w : Bool) (rn : Reg) (list : BitVec 16) : Statement (.stm c p u w rn list) := by
  intro _
  simp (disch := decide) [encode, decode, decodeArm, decodeArmRows, encBlock, decodeBlock,
    extract_join_lo, extract_join_hi, extract_join_mid, extract_full, join_eq, getLsbD_join, Cond.ofBits_bits, ShiftKind.ofBits_bits, -BitVec.getLsbD_eq_getElem]

theorem stmUser (c : Cond) (p u w : Bool) (rn : Reg) (list : BitVec 16) : Statement (.stmUser c p u w rn list) := by
  intro _
  simp (disch := decide) [encode, decode, decodeArm, decodeArmRows, encBlock, decodeBlock,
    extract_join_lo, extract_join_hi, extract_join_mid, extract_full, join_eq, getLsbD_join, Cond.ofBits_bits, ShiftKind.ofBits_bits, -BitVec.getLsbD_eq_getElem]

theorem ldm (c : Cond) (p u w : Bool) (rn : Reg) (list : BitVec 16) : Statement (.ldm c p u w rn list) := by
  intro _
  simp (disch := decide) [encode, decode, decodeArm, decodeArmRows, encBlock, decodeBlock,
    extract_join_lo, extract_join_hi, extract_join_mid, extract_full, join_eq, getLsbD_join, Cond.ofBits_bits, ShiftKind.ofBits_bits, -BitVec.getLsbD_eq_getElem]

theorem ldmUser (c : Cond) (p u w : Bool) (rn : Reg) (list : BitVec 15) : Statement (.ldmUser c p u w rn list) := by
  intro _
  simp (disch := decide) [encode, decode, decodeArm, decodeArmRows, encBlock, decodeBlock,
    extract_join_lo, extract_join_hi, extract_join_mid, extract_full, join_eq, getLsbD_join, Cond.ofBits_bits, ShiftKind.ofBits_bits, -BitVec.getLsbD_eq_getElem]

theorem ldmRet (c : Cond) (p u w : Bool) (rn : Reg) (list : BitVec 15) : Statement (.ldmRet c p u w rn list) := by
  intro _
  simp (disch := decide) [encode, decode, decodeArm, decodeArmRows, encBlock, decodeBlock,
    extract_join_lo, extract_join_hi, extract_join_mid, extract_full, join_eq, getLsbD_join, Cond.ofBits_bits, ShiftKind.ofBits_bits, -BitVec.getLsbD_eq_getElem]

theorem b (c : Cond) (imm24 : BitVec 24) : Statement (.b c imm24) := by
  intro _
  simp (disch := decide) [encode, decode, decodeArm, decodeArmRows,
    extract_join_lo, extract_join_hi, extract_join_mid, extract_full, join_eq, getLsbD_join, Cond.ofBits_bits, ShiftKind.ofBits_bits, -BitVec.getLsbD_eq_getElem]

theorem bl (c : Cond) (imm24 : BitVec 24) : Statement (.bl c imm24) := by
  intro _
  simp (disch := decide) [encode, decode, decodeArm, decodeArmRows,
    extract_join_lo, extract_join_hi, extract_join_mid, extract_full, join_eq, getLsbD_join, Cond.ofBits_bits, ShiftKind.ofBits_bits, -BitVec.getLsbD_eq_getElem]

theorem ldcStc (c : Cond) (p u n w l : Bool) (rn : Reg) (crd cpnum : BitVec 4) (offset8 : BitVec 8) : Statement (.ldcStc c p u n w l rn crd cpnum offset8) := by
  intro _
  simp (disch := decide) [encode, decode, decodeArm, decodeArmRows, decodeCop,
    extract_join_lo, extract_join_hi, extract_join_mid, extract_full, join_eq, getLsbD_join, Cond.ofBits_bits, ShiftKind.ofBits_bits, -BitVec.getLsbD_eq_getElem]

theorem cdp (c : Cond) (op1 crn crd cpnum : BitVec 4) (op2 : BitVec 3) (crm : BitVec 4) : Statement (.cdp c op1 crn crd cpnum op2 crm) := by
  intro _
  simp (disch := decide) [encode, decode, decodeArm, decodeArmRows, decodeCop,
    extract_join_lo, extract_join_hi, extract_join_mid, extract_full, join_eq, getLsbD_join, Cond.ofBits_bits, ShiftKind.ofBits_bits, -BitVec.getLsbD_eq_getElem]

theorem mcrMrc (c : Cond) (op1 : BitVec 3) (l : Bool) (crn : BitVec 4) (rd : Reg) (cpnum : BitVec 4) (op2 : BitVec 3) (crm : BitVec 4) : Statement (.mcrMrc c op1 l crn rd cpnum op2 crm) := by
  intro _
  simp (disch := decide) [encode, decode, decodeArm, decodeArmRows, decodeCop,
    extract_join_lo, extract_join_hi, extract_join_mid, extract_full, join_eq, getLsbD_join, Cond.ofBits_bits, ShiftKind.ofBits_bits, -BitVec.getLsbD_eq_getElem]

theorem swi (c : Cond) (imm24 : BitVec 24) : Statement (.swi c imm24) := by
  intro _
  simp (disch := decide) [encode, decode, decodeArm, decodeArmRows,
    extract_join_lo, extract_join_hi, extract_join_mid, extract_full, join_eq, getLsbD_join, Cond.ofBits_bits, ShiftKind.ofBits_bits, -BitVec.getLsbD_eq_getElem]

theorem tLslImm (offset5 : BitVec 5) (rs rd : LoReg) : Statement (.tLslImm offset5 rs rd) := by
  intro _
  simp (disch := decide) [encode, decode, decodeThumb,
    extract_join_lo, extract_join_hi, extract_join_mid, extract_full, join_eq, getLsbD_join, Cond.ofBits_bits, ShiftKind.ofBits_bits,
    -BitVec.getLsbD_eq_getElem]

theorem tLsrImm (offset5 : BitVec 5) (rs rd : LoReg) : Statement (.tLsrImm offset5 rs rd) := by
  intro _
  simp (disch := decide) [encode, decode, decodeThumb,
    extract_join_lo, extract_join_hi, extract_join_mid, extract_full, join_eq, getLsbD_join, Cond.ofBits_bits, ShiftKind.ofBits_bits,
    -BitVec.getLsbD_eq_getElem]

theorem tAsrImm (offset5 : BitVec 5) (rs rd : LoReg) : Statement (.tAsrImm offset5 rs rd) := by
  intro _
  simp (disch := decide) [encode, decode, decodeThumb,
    extract_join_lo, extract_join_hi, extract_join_mid, extract_full, join_eq, getLsbD_join, Cond.ofBits_bits, ShiftKind.ofBits_bits,
    -BitVec.getLsbD_eq_getElem]

theorem tAddReg (rn rs rd : LoReg) : Statement (.tAddReg rn rs rd) := by
  intro _
  simp (disch := decide) [encode, decode, decodeThumb,
    extract_join_lo, extract_join_hi, extract_join_mid, extract_full, join_eq, getLsbD_join, Cond.ofBits_bits, ShiftKind.ofBits_bits,
    -BitVec.getLsbD_eq_getElem]

theorem tSubReg (rn rs rd : LoReg) : Statement (.tSubReg rn rs rd) := by
  intro _
  simp (disch := decide) [encode, decode, decodeThumb,
    extract_join_lo, extract_join_hi, extract_join_mid, extract_full, join_eq, getLsbD_join, Cond.ofBits_bits, ShiftKind.ofBits_bits,
    -BitVec.getLsbD_eq_getElem]

theorem tAddImm3 (imm3 : BitVec 3) (rs rd : LoReg) : Statement (.tAddImm3 imm3 rs rd) := by
  intro _
  simp (disch := decide) [encode, decode, decodeThumb,
    extract_join_lo, extract_join_hi, extract_join_mid, extract_full, join_eq, getLsbD_join, Cond.ofBits_bits, ShiftKind.ofBits_bits,
    -BitVec.getLsbD_eq_getElem]

theorem tSubImm3 (imm3 : BitVec 3) (rs rd : LoReg) : Statement (.tSubImm3 imm3 rs rd) := by
  intro _
  simp (disch := decide) [encode, decode, decodeThumb,
    extract_join_lo, extract_join_hi, extract_join_mid, extract_full, join_eq, getLsbD_join, Cond.ofBits_bits, ShiftKind.ofBits_bits,
    -BitVec.getLsbD_eq_getElem]

theorem tMovImm (rd : LoReg) (imm8 : BitVec 8) : Statement (.tMovImm rd imm8) := by
  intro _
  simp (disch := decide) [encode, decode, decodeThumb,
    extract_join_lo, extract_join_hi, extract_join_mid, extract_full, join_eq, getLsbD_join, Cond.ofBits_bits, ShiftKind.ofBits_bits,
    -BitVec.getLsbD_eq_getElem]

theorem tCmpImm (rd : LoReg) (imm8 : BitVec 8) : Statement (.tCmpImm rd imm8) := by
  intro _
  simp (disch := decide) [encode, decode, decodeThumb,
    extract_join_lo, extract_join_hi, extract_join_mid, extract_full, join_eq, getLsbD_join, Cond.ofBits_bits, ShiftKind.ofBits_bits,
    -BitVec.getLsbD_eq_getElem]

theorem tAddImm8 (rd : LoReg) (imm8 : BitVec 8) : Statement (.tAddImm8 rd imm8) := by
  intro _
  simp (disch := decide) [encode, decode, decodeThumb,
    extract_join_lo, extract_join_hi, extract_join_mid, extract_full, join_eq, getLsbD_join, Cond.ofBits_bits, ShiftKind.ofBits_bits,
    -BitVec.getLsbD_eq_getElem]

theorem tSubImm8 (rd : LoReg) (imm8 : BitVec 8) : Statement (.tSubImm8 rd imm8) := by
  intro _
  simp (disch := decide) [encode, decode, decodeThumb,
    extract_join_lo, extract_join_hi, extract_join_mid, extract_full, join_eq, getLsbD_join, Cond.ofBits_bits, ShiftKind.ofBits_bits,
    -BitVec.getLsbD_eq_getElem]

theorem tAnd (rs rd : LoReg) : Statement (.tAnd rs rd) := by
  intro _
  simp (disch := decide) [encode, decode, decodeThumb, decodeT4,
    extract_join_lo, extract_join_hi, extract_join_mid, extract_full, join_eq, getLsbD_join, Cond.ofBits_bits, ShiftKind.ofBits_bits,
    -BitVec.getLsbD_eq_getElem]

theorem tEor (rs rd : LoReg) : Statement (.tEor rs rd) := by
  intro _
  simp (disch := decide) [encode, decode, decodeThumb, decodeT4,
    extract_join_lo, extract_join_hi, extract_join_mid, extract_full, join_eq, getLsbD_join, Cond.ofBits_bits, ShiftKind.ofBits_bits,
    -BitVec.getLsbD_eq_getElem]

theorem tLslReg (rs rd : LoReg) : Statement (.tLslReg rs rd) := by
  intro _
  simp (disch := decide) [encode, decode, decodeThumb, decodeT4,
    extract_join_lo, extract_join_hi, extract_join_mid, extract_full, join_eq, getLsbD_join, Cond.ofBits_bits, ShiftKind.ofBits_bits,
    -BitVec.getLsbD_eq_getElem]

theorem tLsrReg (rs rd : LoReg) : Statement (.tLsrReg rs rd) := by
  intro _
  simp (disch := decide) [encode, decode, decodeThumb, decodeT4,
    extract_join_lo, extract_join_hi, extract_join_mid, extract_full, join_eq, getLsbD_join, Cond.ofBits_bits, ShiftKind.ofBits_bits,
    -BitVec.getLsbD_eq_getElem]

theorem tAsrReg (rs rd : LoReg) : Statement (.tAsrReg rs rd) := by
  intro _
  simp (disch := decide) [encode, decode, decodeThumb, decodeT4,
    extract_join_lo, extract_join_hi, extract_join_mid, extract_full, join_eq, getLsbD_join, Cond.ofBits_bits, ShiftKind.ofBits_bits,
    -BitVec.getLsbD_eq_getElem]

theorem tAdc (rs rd : LoReg) : Statement (.tAdc rs rd) := by
  intro _
  simp (disch := decide) [encode, decode, decodeThumb, decodeT4,
    extract_join_lo, extract_join_hi, extract_join_mid, extract_full, join_eq, getLsbD_join, Cond.ofBits_bits, ShiftKind.ofBits_bits,
    -BitVec.getLsbD_eq_getElem]

theorem tSbc (rs rd : LoReg) : Statement (.tSbc rs rd) := by
  intro _
  simp (disch := decide) [encode, decode, decodeThumb, decodeT4,
    extract_join_lo, extract_join_hi, extract_join_mid, extract_full, join_eq, getLsbD_join, Cond.ofBits_bits, ShiftKind.ofBits_bits,
    -BitVec.getLsbD_eq_getElem]

theorem tRor (rs rd : LoReg) : Statement (.tRor rs rd) := by
  intro _
  simp (disch := decide) [encode, decode, decodeThumb, decodeT4,
    extract_join_lo, extract_join_hi, extract_join_mid, extract_full, join_eq, getLsbD_join, Cond.ofBits_bits, ShiftKind.ofBits_bits,
    -BitVec.getLsbD_eq_getElem]

theorem tTst (rs rd : LoReg) : Statement (.tTst rs rd) := by
  intro _
  simp (disch := decide) [encode, decode, decodeThumb, decodeT4,
    extract_join_lo, extract_join_hi, extract_join_mid, extract_full, join_eq, getLsbD_join, Cond.ofBits_bits, ShiftKind.ofBits_bits,
    -BitVec.getLsbD_eq_getElem]

theorem tNeg (rs rd : LoReg) : Statement (.tNeg rs rd) := by
  intro _
  simp (disch := decide) [encode, decode, decodeThumb, decodeT4,
    extract_join_lo, extract_join_hi, extract_join_mid, extract_full, join_eq, getLsbD_join, Cond.ofBits_bits, ShiftKind.ofBits_bits,
    -BitVec.getLsbD_eq_getElem]

theorem tCmpReg (rs rd : LoReg) : Statement (.tCmpReg rs rd) := by
  intro _
  simp (disch := decide) [encode, decode, decodeThumb, decodeT4,
    extract_join_lo, extract_join_hi, extract_join_mid, extract_full, join_eq, getLsbD_join, Cond.ofBits_bits, ShiftKind.ofBits_bits,
    -BitVec.getLsbD_eq_getElem]

theorem tCmn (rs rd : LoReg) : Statement (.tCmn rs rd) := by
  intro _
  simp (disch := decide) [encode, decode, decodeThumb, decodeT4,
    extract_join_lo, extract_join_hi, extract_join_mid, extract_full, join_eq, getLsbD_join, Cond.ofBits_bits, ShiftKind.ofBits_bits,
    -BitVec.getLsbD_eq_getElem]

theorem tOrr (rs rd : LoReg) : Statement (.tOrr rs rd) := by
  intro _
  simp (disch := decide) [encode, decode, decodeThumb, decodeT4,
    extract_join_lo, extract_join_hi, extract_join_mid, extract_full, join_eq, getLsbD_join, Cond.ofBits_bits, ShiftKind.ofBits_bits,
    -BitVec.getLsbD_eq_getElem]

theorem tMul (rs rd : LoReg) : Statement (.tMul rs rd) := by
  intro _
  simp (disch := decide) [encode, decode, decodeThumb, decodeT4,
    extract_join_lo, extract_join_hi, extract_join_mid, extract_full, join_eq, getLsbD_join, Cond.ofBits_bits, ShiftKind.ofBits_bits,
    -BitVec.getLsbD_eq_getElem]

theorem tBic (rs rd : LoReg) : Statement (.tBic rs rd) := by
  intro _
  simp (disch := decide) [encode, decode, decodeThumb, decodeT4,
    extract_join_lo, extract_join_hi, extract_join_mid, extract_full, join_eq, getLsbD_join, Cond.ofBits_bits, ShiftKind.ofBits_bits,
    -BitVec.getLsbD_eq_getElem]

theorem tMvn (rs rd : LoReg) : Statement (.tMvn rs rd) := by
  intro _
  simp (disch := decide) [encode, decode, decodeThumb, decodeT4,
    extract_join_lo, extract_join_hi, extract_join_mid, extract_full, join_eq, getLsbD_join, Cond.ofBits_bits, ShiftKind.ofBits_bits,
    -BitVec.getLsbD_eq_getElem]

theorem tAddHi (d m : Reg) : Statement (.tAddHi d m) := by
  intro _
  simp (disch := decide) [encode, decode, decodeThumb, decodeT5,
    extract_join_lo, extract_join_hi, extract_join_mid, extract_full, join_eq, getLsbD_join, Cond.ofBits_bits, ShiftKind.ofBits_bits,
    -BitVec.getLsbD_eq_getElem]

theorem tCmpHi (d m : Reg) : Statement (.tCmpHi d m) := by
  intro _
  simp (disch := decide) [encode, decode, decodeThumb, decodeT5,
    extract_join_lo, extract_join_hi, extract_join_mid, extract_full, join_eq, getLsbD_join, Cond.ofBits_bits, ShiftKind.ofBits_bits,
    -BitVec.getLsbD_eq_getElem]

theorem tMovHi (d m : Reg) : Statement (.tMovHi d m) := by
  intro _
  simp (disch := decide) [encode, decode, decodeThumb, decodeT5,
    extract_join_lo, extract_join_hi, extract_join_mid, extract_full, join_eq, getLsbD_join, Cond.ofBits_bits, ShiftKind.ofBits_bits,
    -BitVec.getLsbD_eq_getElem]

theorem tBx (m : Reg) (sbz : BitVec 3) : Statement (.tBx m sbz) := by
  intro _
  simp (disch := decide) [encode, decode, decodeThumb, decodeT5,
    extract_join_lo, extract_join_hi, extract_join_mid, extract_full, join_eq, getLsbD_join, Cond.ofBits_bits, ShiftKind.ofBits_bits,
    -BitVec.getLsbD_eq_getElem]

theorem tBlxRegSpace (m : Reg) (low : BitVec 3) : Statement (.tBlxRegSpace m low) := by
  intro _
  simp (disch := decide) [encode, decode, decodeThumb, decodeT5,
    extract_join_lo, extract_join_hi, extract_join_mid, extract_full, join_eq, getLsbD_join, Cond.ofBits_bits, ShiftKind.ofBits_bits,
    -BitVec.getLsbD_eq_getElem]

theorem tLdrPc (rd : LoReg) (word8 : BitVec 8) : Statement (.tLdrPc rd word8) := by
  intro _
  simp (disch := decide) [encode, decode, decodeThumb,
    extract_join_lo, extract_join_hi, extract_join_mid, extract_full, join_eq, getLsbD_join, Cond.ofBits_bits, ShiftKind.ofBits_bits,
    -BitVec.getLsbD_eq_getElem]

theorem tStrReg (ro rb rd : LoReg) : Statement (.tStrReg ro rb rd) := by
  intro _
  simp (disch := decide) [encode, decode, decodeThumb, decodeT78,
    extract_join_lo, extract_join_hi, extract_join_mid, extract_full, join_eq, getLsbD_join, Cond.ofBits_bits, ShiftKind.ofBits_bits, join_literals,
    -BitVec.getLsbD_eq_getElem]

theorem tStrbReg (ro rb rd : LoReg) : Statement (.tStrbReg ro rb rd) := by
  intro _
  simp (disch := decide) [encode, decode, decodeThumb, decodeT78,
    extract_join_lo, extract_join_hi, extract_join_mid, extract_full, join_eq, getLsbD_join, Cond.ofBits_bits, ShiftKind.ofBits_bits, join_literals,
    -BitVec.getLsbD_eq_getElem]

theorem tLdrReg (ro rb rd : LoReg) : Statement (.tLdrReg ro rb rd) := by
  intro _
  simp (disch := decide) [encode, decode, decodeThumb, decodeT78,
    extract_join_lo, extract_join_hi, extract_join_mid, extract_full, join_eq, getLsbD_join, Cond.ofBits_bits, ShiftKind.ofBits_bits, join_literals,
    -BitVec.getLsbD_eq_getElem]

theorem tLdrbReg (ro rb rd : LoReg) : Statement (.tLdrbReg ro rb rd) := by
  intro _
  simp (disch := decide) [encode, decode, decodeThumb, decodeT78,
    extract_join_lo, extract_join_hi, extract_join_mid, extract_full, join_eq, getLsbD_join, Cond.ofBits_bits, ShiftKind.ofBits_bits, join_literals,
    -BitVec.getLsbD_eq_getElem]

theorem tStrhReg (ro rb rd : LoReg) : Statement (.tStrhReg ro rb rd) := by
  intro _
  simp (disch := decide) [encode, decode, decodeThumb, decodeT78,
    extract_join_lo, extract_join_hi, extract_join_mid, extract_full, join_eq, getLsbD_join, Cond.ofBits_bits, ShiftKind.ofBits_bits, join_literals,
    -BitVec.getLsbD_eq_getElem]

theorem tLdsb (ro rb rd : LoReg) : Statement (.tLdsb ro rb rd) := by
  intro _
  simp (disch := decide) [encode, decode, decodeThumb, decodeT78,
    extract_join_lo, extract_join_hi, extract_join_mid, extract_full, join_eq, getLsbD_join, Cond.ofBits_bits, ShiftKind.ofBits_bits, join_literals,
    -BitVec.getLsbD_eq_getElem]

theorem tLdrhReg (ro rb rd : LoReg) : Statement (.tLdrhReg ro rb rd) := by
  intro _
  simp (disch := decide) [encode, decode, decodeThumb, decodeT78,
    extract_join_lo, extract_join_hi, extract_join_mid, extract_full, join_eq, getLsbD_join, Cond.ofBits_bits, ShiftKind.ofBits_bits, join_literals,
    -BitVec.getLsbD_eq_getElem]

theorem tLdsh (ro rb rd : LoReg) : Statement (.tLdsh ro rb rd) := by
  intro _
  simp (disch := decide) [encode, decode, decodeThumb, decodeT78,
    extract_join_lo, extract_join_hi, extract_join_mid, extract_full, join_eq, getLsbD_join, Cond.ofBits_bits, ShiftKind.ofBits_bits, join_literals,
    -BitVec.getLsbD_eq_getElem]

theorem tStrImm (offset5 : BitVec 5) (rb rd : LoReg) : Statement (.tStrImm offset5 rb rd) := by
  intro _
  simp (disch := decide) [encode, decode, decodeThumb,
    extract_join_lo, extract_join_hi, extract_join_mid, extract_full, join_eq, getLsbD_join, Cond.ofBits_bits, ShiftKind.ofBits_bits, join_literals,
    -BitVec.getLsbD_eq_getElem]

theorem tLdrImm (offset5 : BitVec 5) (rb rd : LoReg) : Statement (.tLdrImm offset5 rb rd) := by
  intro _
  simp (disch := decide) [encode, decode, decodeThumb,
    extract_join_lo, extract_join_hi, extract_join_mid, extract_full, join_eq, getLsbD_join, Cond.ofBits_bits, ShiftKind.ofBits_bits, join_literals,
    -BitVec.getLsbD_eq_getElem]

theorem tStrbImm (offset5 : BitVec 5) (rb rd : LoReg) : Statement (.tStrbImm offset5 rb rd) := by
  intro _
  simp (disch := decide) [encode, decode, decodeThumb,
    extract_join_lo, extract_join_hi, extract_join_mid, extract_full, join_eq, getLsbD_join, Cond.ofBits_bits, ShiftKind.ofBits_bits, join_literals,
    -BitVec.getLsbD_eq_getElem]

theorem tLdrbImm (offset5 : BitVec 5) (rb rd : LoReg) : Statement (.tLdrbImm offset5 rb rd) := by
  intro _
  simp (disch := decide) [encode, decode, decodeThumb,
    extract_join_lo, extract_join_hi, extract_join_mid, extract_full, join_eq, getLsbD_join, Cond.ofBits_bits, ShiftKind.ofBits_bits, join_literals,
    -BitVec.getLsbD_eq_getElem]

theorem tStrhImm (offset5 : BitVec 5) (rb rd : LoReg) : Statement (.tStrhImm offset5 rb rd) := by
  intro _
  simp (disch := decide) [encode, decode, decodeThumb,
    extract_join_lo, extract_join_hi, extract_join_mid, extract_full, join_eq, getLsbD_join, Cond.ofBits_bits, ShiftKind.ofBits_bits,
    -BitVec.getLsbD_eq_getElem]

theorem tLdrhImm (offset5 : BitVec 5) (rb rd : LoReg) : Statement (.tLdrhImm offset5 rb rd) := by
  intro _
  simp (disch := decide) [encode, decode, decodeThumb,
    extract_join_lo, extract_join_hi, extract_join_mid, extract_full, join_eq, getLsbD_join, Cond.ofBits_bits, ShiftKind.ofBits_bits,
    -BitVec.getLsbD_eq_getElem]

theorem tStrSp (rd : LoReg) (word8 : BitVec 8) : Statement (.tStrSp rd word8) := by
  intro _
  simp (disch := decide) [encode, decode, decodeThumb,
    extract_join_lo, extract_join_hi, extract_join_mid, extract_full, join_eq, getLsbD_join, Cond.ofBits_bits, ShiftKind.ofBits_bits,
    -BitVec.getLsbD_eq_getElem]

theorem tLdrSp (rd : LoReg) (word8 : BitVec 8) : Statement (.tLdrSp rd word8) := by
  intro _
  simp (disch := decide) [encode, decode, decodeThumb,
    extract_join_lo, extract_join_hi, extract_join_mid, extract_full, join_eq, getLsbD_join, Cond.ofBits_bits, ShiftKind.ofBits_bits,
    -BitVec.getLsbD_eq_getElem]

theorem tAddPc (rd : LoReg) (word8 : BitVec 8) : Statement (.tAddPc rd word8) := by
  intro _
  simp (disch := decide) [encode, decode, decodeThumb,
    extract_join_lo, extract_join_hi, extract_join_mid, extract_full, join_eq, getLsbD_join, Cond.ofBits_bits, ShiftKind.ofBits_bits,
    -BitVec.getLsbD_eq_getElem]

theorem tAddSp (rd : LoReg) (word8 : BitVec 8) : Statement (.tAddSp rd word8) := by
  intro _
  simp (disch := decide) [encode, decode, decodeThumb,
    extract_join_lo, extract_join_hi, extract_join_mid, extract_full, join_eq, getLsbD_join, Cond.ofBits_bits, ShiftKind.ofBits_bits,
    -BitVec.getLsbD_eq_getElem]

theorem tAddSpimm (sword7 : BitVec 7) : Statement (.tAddSpimm sword7) := by
  intro _
  simp (disch := decide) [encode, decode, decodeThumb,
    extract_join_lo, extract_join_hi, extract_join_mid, extract_full, join_eq, getLsbD_join, Cond.ofBits_bits, ShiftKind.ofBits_bits,
    -BitVec.getLsbD_eq_getElem]

theorem tSubSpimm (sword7 : BitVec 7) : Statement (.tSubSpimm sword7) := by
  intro _
  simp (disch := decide) [encode, decode, decodeThumb,
    extract_join_lo, extract_join_hi, extract_join_mid, extract_full, join_eq, getLsbD_join, Cond.ofBits_bits, ShiftKind.ofBits_bits,
    -BitVec.getLsbD_eq_getElem]

theorem tPush (r : Bool) (rlist : BitVec 8) : Statement (.tPush r rlist) := by
  intro _
  simp (disch := decide) [encode, decode, decodeThumb,
    extract_join_lo, extract_join_hi, extract_join_mid, extract_full, join_eq, getLsbD_join, Cond.ofBits_bits, ShiftKind.ofBits_bits,
    -BitVec.getLsbD_eq_getElem]

theorem tPop (r : Bool) (rlist : BitVec 8) : Statement (.tPop r rlist) := by
  intro _
  simp (disch := decide) [encode, decode, decodeThumb,
    extract_join_lo, extract_join_hi, extract_join_mid, extract_full, join_eq, getLsbD_join, Cond.ofBits_bits, ShiftKind.ofBits_bits,
    -BitVec.getLsbD_eq_getElem]

theorem tUndB (body : BitVec 12) : Statement (.tUndB body) := by
  intro h
  change inThumbB body = true at h
  simp only [inThumbB, Bool.and_eq_true, Bool.not_eq_true', beq_eq_false_iff_ne] at h
  have hb : body.extractLsb' 11 1 = 0#1 ∨ body.extractLsb' 11 1 = 1#1 := by
    generalize body.extractLsb' 11 1 = b; revert b; decide
  have h1 : body.extractLsb' 8 3 = 0#3 → body.extractLsb' 11 1 = 0#1 → body.extractLsb' 8 4 = 0#4 := fun e e' => by
    have := join_extract body 8 1 3
    rw [e, e'] at this; exact this.symm
  have h2 : body.extractLsb' 9 2 ≠ 2#2 := h.2
  rcases hb with hb | hb <;>
    simp (disch := decide) [encode, decode, decodeThumb, extract_join_lo, extract_join_mid, hb, join_literals, h2]
  exact fun e => (h.1 (h1 e hb)).elim

theorem tStmia (rb : LoReg) (rlist : BitVec 8) : Statement (.tStmia rb rlist) := by
  intro _
  simp (disch := decide) [encode, decode, decodeThumb,
    extract_join_lo, extract_join_hi, extract_join_mid, extract_full, join_eq, getLsbD_join, Cond.ofBits_bits, ShiftKind.ofBits_bits,
    -BitVec.getLsbD_eq_getElem]

theorem tLdmia (rb : LoReg) (rlist : BitVec 8) : Statement (.tLdmia rb rlist) := by
  intro _
  simp (disch := decide) [encode, decode, decodeThumb,
    extract_join_lo, extract_join_hi, extract_join_mid, extract_full, join_eq, getLsbD_join, Cond.ofBits_bits, ShiftKind.ofBits_bits,
    -BitVec.getLsbD_eq_getElem]

theorem tSwi (value8 : BitVec 8) : Statement (.tSwi value8) := by
  intro _
  simp (disch := decide) [encode, decode, decodeThumb,
    extract_join_lo, extract_join_hi, extract_join_mid, extract_full, join_eq, getLsbD_join, Cond.ofBits_bits, ShiftKind.ofBits_bits, join_literals, Cond.ofBits_nv,
    -BitVec.getLsbD_eq_getElem]

theorem tUndDe (body : BitVec 8) : Statement (.tUndDe body) := by
  intro _
  simp (disch := decide) [encode, decode, decodeThumb,
    extract_join_lo, extract_join_hi, extract_join_mid, extract_full, join_eq, getLsbD_join, Cond.ofBits_bits, ShiftKind.ofBits_bits, join_literals, Cond.ofBits_al,
    -BitVec.getLsbD_eq_getElem]

theorem tBcond (c : Cond) (soffset8 : BitVec 8) : Statement (.tBcond c soffset8) := by
  intro h
  cases c <;> simp (disch := decide) [encode, decode, decodeThumb, Cond.bits, Instr.wellFormed, Cond.ofBits,
    extract_join_lo, extract_join_hi, extract_join_mid, extract_full, join_literals] at h ⊢

theorem tB (offset11 : BitVec 11) : Statement (.tB offset11) := by
  intro _
  simp (disch := decide) [encode, decode, decodeThumb,
    extract_join_lo, extract_join_hi, extract_join_mid, extract_full, join_eq, getLsbD_join, Cond.ofBits_bits, ShiftKind.ofBits_bits,
    -BitVec.getLsbD_eq_getElem]

theorem tUndE8 (body : BitVec 11) : Statement (.tUndE8 body) := by
  intro _
  simp (disch := decide) [encode, decode, decodeThumb,
    extract_join_lo, extract_join_hi, extract_join_mid, extract_full, join_eq, getLsbD_join, Cond.ofBits_bits, ShiftKind.ofBits_bits,
    -BitVec.getLsbD_eq_getElem]

theorem tBlHi (offset11 : BitVec 11) : Statement (.tBlHi offset11) := by
  intro _
  simp (disch := decide) [encode, decode, decodeThumb,
    extract_join_lo, extract_join_hi, extract_join_mid, extract_full, join_eq, getLsbD_join, Cond.ofBits_bits, ShiftKind.ofBits_bits,
    -BitVec.getLsbD_eq_getElem]

theorem tBlLo (offset11 : BitVec 11) : Statement (.tBlLo offset11) := by
  intro _
  simp (disch := decide) [encode, decode, decodeThumb,
    extract_join_lo, extract_join_hi, extract_join_mid, extract_full, join_eq, getLsbD_join, Cond.ofBits_bits, ShiftKind.ofBits_bits,
    -BitVec.getLsbD_eq_getElem]

end Sys2Proof.Laws.RoundTrip
end

