-- ==== Sys2Proof/Tests/Slice0.lean ====
section
/-! SUPPORT. The model's own tests: ill-formed terms, a word for every constructor, one-step runs with the results of the test
vectors of 95_test_vectors, and a witness for the hypotheses of every statement that has some. -/

namespace Sys2Proof.Tests

open Sys2Proof Sys2Proof.Machine

set_option Elab.async false

/-! ### Ill-formed terms: each check of `Instr.wellFormed` refuses one -/

theorem test_wf_mulspace : (Instr.undMulspace .al 0x0000090).wellFormed = false := by decide
theorem test_wf_mulspace_bits : (Instr.undMulspace .al 0x1800080).wellFormed = false := by decide
theorem test_wf_psrspace : (Instr.undPsrspace .al 0x12FFF10).wellFormed = false := by decide
theorem test_wf_psrspace_bits : (Instr.undPsrspace .al 0x1100000).wellFormed = false := by decide
theorem test_wf_thumbB : (Instr.tUndB 0x400).wellFormed = false := by decide
theorem test_wf_bcond : (Instr.tBcond .al 0).wellFormed = false := by decide

/-! ### Decoding: a word for every constructor, its fields at the places of R301 and R320 -/

theorem test_decode_control_and_multiply :
    decodeTableWord 32 0xF24B049A = some (.nv 0x24B049A) ∧
    decodeTableWord 32 0x512FFF17 = some (.bx .pl 7) ∧
    decodeTableWord 32 0xA00C2F9D = some (.mul .ge false 0xC 2 0xF 0xD) ∧
    decodeTableWord 32 0x1034F296 = some (.mla .ne true 4 0xF 2 6) ∧
    decodeTableWord 32 0x609B6897 = some (.umull .vs true 0xB 6 8 7) ∧
    decodeTableWord 32 0xB0AE4290 = some (.umlal .lt false 0xE 4 2 0) ∧
    decodeTableWord 32 0x20C82E9F = some (.smull .cs false 8 2 0xE 0xF) ∧
    decodeTableWord 32 0x70F0379A = some (.smlal .vc true 0 3 7 0xA) ∧
    decodeTableWord 32 0xC1088099 = some (.swp .gt 8 8 9) ∧
    decodeTableWord 32 0x3148A09A = some (.swpb .cc 8 0xA 0xA) := by decide

theorem test_decode_halfword :
    decodeTableWord 32 0x8044CFB0 = some (.strhImm .hi false false false 4 0xC 0xF0) ∧
    decodeTableWord 32 0xD18FE7BE = some (.strhReg .le true true false 0xF 0xE 7 0xE) ∧
    decodeTableWord 32 0x41F403B2 = some (.ldrhImm .mi true true true 4 0 0x32) ∧
    decodeTableWord 32 0x913511BE = some (.ldrhReg .ls true false true 5 1 1 0xE) ∧
    decodeTableWord 32 0x01D112D0 = some (.ldrsbImm .eq true true false 1 1 0x20) ∧
    decodeTableWord 32 0x5017F7DA = some (.ldrsbReg .pl false false false 7 0xF 7 0xA) ∧
    decodeTableWord 32 0xA079DEFA = some (.ldrshImm .ge false false true 9 0xD 0xEA) ∧
    decodeTableWord 32 0x10B5A9F2 = some (.ldrshReg .ne false true true 5 0xA 9 2) ∧
    decodeTableWord 32 0x60CD67DA = some (.ldrdSpace .vs false true true false 0xD 6 7 0xA) ∧
    decodeTableWord 32 0xB0EEA2F0 = some (.strdSpace .lt false true true true 0xE 0xA 2 0) := by decide

theorem test_decode_psr :
    decodeTableWord 32 0x31634C9A = some (.undMulspace .cc 0x1634C9A) ∧
    decodeTableWord 32 0x710F6000 = some (.mrs .vc false 6) ∧
    decodeTableWord 32 0xC16BF00F = some (.msrReg .gt true 0xB 0xF) ∧
    decodeTableWord 32 0x332AF298 = some (.msrImm .cc false 0xA 2 0x98) ∧
    decodeTableWord 32 0x51234C0A = some (.undPsrspace .pl 0x1234C0A) := by decide

theorem test_decode_data_processing_1 :
    decodeTableWord 32 0xD21630A5 = some (.andImm .le true 6 3 0 0xA5) ∧
    decodeTableWord 32 0x4010ECC9 = some (.andIshift .mi true 0 0xE 0x19 .asr 9) ∧
    decodeTableWord 32 0x90107811 = some (.andRshift .ls true 0 7 8 .lsl 1) ∧
    decodeTableWord 32 0x0237A1C9 = some (.eorImm .eq true 7 0xA 1 0xC9) ∧
    decodeTableWord 32 0x5035A16E = some (.eorIshift .pl true 5 0xA 2 .ror 0xE) ∧
    decodeTableWord 32 0xA02C793C = some (.eorRshift .ge false 0xC 7 9 .lsr 0xC) ∧
    decodeTableWord 32 0x1246FDF0 = some (.subImm .ne false 6 0xF 0xD 0xF0) ∧
    decodeTableWord 32 0x60506845 = some (.subIshift .vs true 0 6 0x10 .asr 5) ∧
    decodeTableWord 32 0xB0496354 = some (.subRshift .lt false 9 6 3 .asr 4) ∧
    decodeTableWord 32 0x226DEF07 = some (.rsbImm .cs false 0xD 0xE 0xF 7) ∧
    decodeTableWord 32 0x706FDFCB = some (.rsbIshift .vc false 0xF 0xD 0x1F .asr 0xB) ∧
    decodeTableWord 32 0xC0640016 = some (.rsbRshift .gt false 4 0 0 .lsl 6) := by decide

theorem test_decode_data_processing_2 :
    decodeTableWord 32 0x328934B9 = some (.addImm .cc false 9 3 4 0xB9) ∧
    decodeTableWord 32 0x808CC52C = some (.addIshift .hi false 0xC 0xC 0xA .lsr 0xC) ∧
    decodeTableWord 32 0xD0990C7D = some (.addRshift .le true 9 0 0xC .ror 0xD) ∧
    decodeTableWord 32 0x42B59873 = some (.adcImm .mi true 5 9 8 0x73) ∧
    decodeTableWord 32 0x90B30723 = some (.adcIshift .ls true 3 0 0xE .lsr 3) ∧
    decodeTableWord 32 0x00B44577 = some (.adcRshift .eq true 4 4 5 .ror 7) ∧
    decodeTableWord 32 0x52CFD761 = some (.sbcImm .pl false 0xF 0xD 7 0x61) ∧
    decodeTableWord 32 0xA0C223CD = some (.sbcIshift .ge false 2 2 7 .asr 0xD) ∧
    decodeTableWord 32 0x10C0657E = some (.sbcRshift .ne false 0 6 5 .ror 0xE) ∧
    decodeTableWord 32 0x62F1BD6F = some (.rscImm .vs true 1 0xB 0xD 0x6F) ∧
    decodeTableWord 32 0xB0F318C6 = some (.rscIshift .lt true 3 1 0x11 .asr 6) ∧
    decodeTableWord 32 0x20FA291F = some (.rscRshift .cs true 0xA 2 9 .lsl 0xF) := by decide

theorem test_decode_data_processing_3 :
    decodeTableWord 32 0x73188FC5 = some (.tstImm .vc 8 8 0xF 0xC5) ∧
    decodeTableWord 32 0xC11279E7 = some (.tstIshift .gt 2 7 0x13 .ror 7) ∧
    decodeTableWord 32 0x311AF356 = some (.tstRshift .cc 0xA 0xF 3 .asr 6) ∧
    decodeTableWord 32 0x8332522D = some (.teqImm .hi 2 5 2 0x2D) ∧
    decodeTableWord 32 0xD134CD67 = some (.teqIshift .le 4 0xC 0x1A .ror 7) ∧
    decodeTableWord 32 0x41316A3E = some (.teqRshift .mi 1 6 0xA .lsr 0xE) ∧
    decodeTableWord 32 0x9358CDB8 = some (.cmpImm .ls 8 0xC 0xD 0xB8) ∧
    decodeTableWord 32 0x01509A0D = some (.cmpIshift .eq 0 9 0x14 .lsl 0xD) ∧
    decodeTableWord 32 0x51561F7A = some (.cmpRshift .pl 6 1 0xF .ror 0xA) ∧
    decodeTableWord 32 0xA3729E63 = some (.cmnImm .ge 2 9 0xE 0x63) ∧
    decodeTableWord 32 0x1174C229 = some (.cmnIshift .ne 4 0xC 4 .lsr 9) ∧
    decodeTableWord 32 0x61756411 = some (.cmnRshift .vs 5 6 4 .lsl 1) := by decide

theorem test_decode_data_processing_4 :
    decodeTableWord 32 0xB39F5E9B = some (.orrImm .lt true 0xF 5 0xE 0x9B) ∧
    decodeTableWord 32 0x2191FC09 = some (.orrIshift .cs true 1 0xF 0x18 .lsl 9) ∧
    decodeTableWord 32 0x71971512 = some (.orrRshift .vc true 7 1 5 .lsl 2) ∧
    decodeTableWord 32 0xC3A01561 = some (.movImm .gt false 0 1 5 0x61) ∧
    decodeTableWord 32 0x31B7A4CB = some (.movIshift .cc true 7 0xA 9 .asr 0xB) ∧
    decodeTableWord 32 0x81BCBD11 = some (.movRshift .hi true 0xC 0xB 0xD .lsl 1) ∧
    decodeTableWord 32 0xD3DA72C7 = some (.bicImm .le true 0xA 7 2 0xC7) ∧
    decodeTableWord 32 0x41C1052C = some (.bicIshift .mi false 1 0 0xA .lsr 0xC) ∧
    decodeTableWord 32 0x91DE093A = some (.bicRshift .ls true 0xE 0 9 .lsr 0xA) ∧
    decodeTableWord 32 0x03E93278 = some (.mvnImm .eq false 9 3 2 0x78) ∧
    decodeTableWord 32 0x51F9FCC8 = some (.mvnIshift .pl true 9 0xF 0x19 .asr 8) ∧
    decodeTableWord 32 0xA1FAB579 = some (.mvnRshift .ge true 0xA 0xB 5 .ror 9) := by decide

theorem test_decode_stores :
    decodeTableWord 32 0x65A011E2 = some (.strImmPre .vs true true 0 1 0x1E2) ∧
    decodeTableWord 32 0xB4810095 = some (.strImmPost .lt true 1 0 0x95) ∧
    decodeTableWord 32 0x242AB90A = some (.strtImm .cs false 0xA 0xB 0x90A) ∧
    decodeTableWord 32 0x772968AB = some (.strRegPre .vc false true 9 6 0x11 .lsr 0xB) ∧
    decodeTableWord 32 0xC68D598A = some (.strRegPost .gt true 0xD 5 0x13 .lsl 0xA) ∧
    decodeTableWord 32 0x3627F3ED = some (.strtReg .cc false 7 0xF 7 .ror 0xD) ∧
    decodeTableWord 32 0xA56D86F4 = some (.strbImmPre .ge false true 0xD 8 0x6F4) ∧
    decodeTableWord 32 0x14C4E9F5 = some (.strbImmPost .ne true 4 0xE 0x9F5) ∧
    decodeTableWord 32 0x64642378 = some (.strbtImm .vs false 4 2 0x378) ∧
    decodeTableWord 32 0xB76CE00D = some (.strbRegPre .lt false true 0xC 0xE 0 .lsl 0xD) ∧
    decodeTableWord 32 0x2641DC66 = some (.strbRegPost .cs false 1 0xD 0x18 .ror 6) ∧
    decodeTableWord 32 0x76EB6005 = some (.strbtReg .vc true 0xB 6 0 .lsl 5) := by decide

theorem test_decode_loads :
    decodeTableWord 32 0x85B9A6C0 = some (.ldrImmPre .hi true true 9 0xA 0x6C0) ∧
    decodeTableWord 32 0xD4141DB0 = some (.ldrImmPost .le false 4 1 0xDB0) ∧
    decodeTableWord 32 0x44332A01 = some (.ldrtImm .mi false 3 2 0xA01) ∧
    decodeTableWord 32 0x971F1840 = some (.ldrRegPre .ls false false 0xF 1 0x10 .asr 0) ∧
    decodeTableWord 32 0x06946F05 = some (.ldrRegPost .eq true 4 6 0x1E .lsl 5) ∧
    decodeTableWord 32 0x56320AED = some (.ldrtReg .pl false 2 0 0x15 .ror 0xD) ∧
    decodeTableWord 32 0xC576A20A = some (.ldrbImmPre .gt false true 6 0xA 0x20A) ∧
    decodeTableWord 32 0x3455148C = some (.ldrbImmPost .cc false 5 1 0x48C) ∧
    decodeTableWord 32 0x847DC612 = some (.ldrbtImm .hi false 0xD 0xC 0x612) ∧
    decodeTableWord 32 0xD7F9A720 = some (.ldrbRegPre .le true true 9 0xA 0xE .lsr 0) ∧
    decodeTableWord 32 0x465DBFEC = some (.ldrbRegPost .mi false 0xD 0xB 0x1F .ror 0xC) ∧
    decodeTableWord 32 0x96FB8BE8 = some (.ldrbtReg .ls true 0xB 8 0x17 .ror 8) := by decide

theorem test_decode_block_branch_system :
    decodeTableWord 32 0x16DF2FB4 = some (.undA15 .ne 0x6F97D 4) ∧
    decodeTableWord 32 0x090A3FBB = some (.stm .eq true false false 0xA 0x3FBB) ∧
    decodeTableWord 32 0x59C14136 = some (.stmUser .pl true true false 1 0x4136) ∧
    decodeTableWord 32 0xA8BB5F9C = some (.ldm .ge false true true 0xB 0x5F9C) ∧
    decodeTableWord 32 0x18510815 = some (.ldmUser .ne false false false 1 0x815) ∧
    decodeTableWord 32 0x6970CB2E = some (.ldmRet .vs true false true 0 0x4B2E) ∧
    decodeTableWord 32 0xBA708BEC = some (.b .lt 0x708BEC) ∧
    decodeTableWord 32 0x2B0195EA = some (.bl .cs 0x195EA) ∧
    decodeTableWord 32 0x7C3486AE = some (.ldcStc .vc false false false true true 4 8 6 0xAE) ∧
    decodeTableWord 32 0xCE4F91A3 = some (.cdp .gt 4 0xF 9 1 5 3) ∧
    decodeTableWord 32 0x3E0E623C = some (.mcrMrc .cc 0 false 0xE 6 2 1 0xC) ∧
    decodeTableWord 32 0x8F46B826 = some (.swi .hi 0x46B826) := by decide

theorem test_decode_thumb_1 :
    decodeTableWord 16 0x021E = some (.tLslImm 8 3 6) ∧
    decodeTableWord 16 0x0FC7 = some (.tLsrImm 0x1F 0 7) ∧
    decodeTableWord 16 0x1775 = some (.tAsrImm 0x1D 6 5) ∧
    decodeTableWord 16 0x19BC = some (.tAddReg 6 7 4) ∧
    decodeTableWord 16 0x1B47 = some (.tSubReg 5 0 7) ∧
    decodeTableWord 16 0x1C2B = some (.tAddImm3 0 5 3) ∧
    decodeTableWord 16 0x1E0C = some (.tSubImm3 0 1 4) ∧
    decodeTableWord 16 0x245A = some (.tMovImm 4 0x5A) ∧
    decodeTableWord 16 0x2F5F = some (.tCmpImm 7 0x5F) ∧
    decodeTableWord 16 0x341E = some (.tAddImm8 4 0x1E) ∧
    decodeTableWord 16 0x3D03 = some (.tSubImm8 5 3) ∧
    decodeTableWord 16 0x4001 = some (.tAnd 0 1) ∧
    decodeTableWord 16 0x4066 = some (.tEor 4 6) ∧
    decodeTableWord 16 0x409B = some (.tLslReg 3 3) := by decide

theorem test_decode_thumb_2 :
    decodeTableWord 16 0x40FC = some (.tLsrReg 7 4) ∧
    decodeTableWord 16 0x4122 = some (.tAsrReg 4 2) ∧
    decodeTableWord 16 0x4143 = some (.tAdc 0 3) ∧
    decodeTableWord 16 0x41AD = some (.tSbc 5 5) ∧
    decodeTableWord 16 0x41D5 = some (.tRor 2 5) ∧
    decodeTableWord 16 0x4228 = some (.tTst 5 0) ∧
    decodeTableWord 16 0x4240 = some (.tNeg 0 0) ∧
    decodeTableWord 16 0x42B6 = some (.tCmpReg 6 6) ∧
    decodeTableWord 16 0x42E0 = some (.tCmn 4 0) ∧
    decodeTableWord 16 0x4339 = some (.tOrr 7 1) ∧
    decodeTableWord 16 0x437A = some (.tMul 7 2) ∧
    decodeTableWord 16 0x4392 = some (.tBic 2 2) ∧
    decodeTableWord 16 0x43FA = some (.tMvn 7 2) ∧
    decodeTableWord 16 0x44F2 = some (.tAddHi 0xA 0xE) := by decide

theorem test_decode_thumb_3 :
    decodeTableWord 16 0x45BB = some (.tCmpHi 0xB 7) ∧
    decodeTableWord 16 0x4667 = some (.tMovHi 7 0xC) ∧
    decodeTableWord 16 0x4727 = some (.tBx 4 7) ∧
    decodeTableWord 16 0x47FE = some (.tBlxRegSpace 0xF 6) ∧
    decodeTableWord 16 0x4A03 = some (.tLdrPc 2 3) ∧
    decodeTableWord 16 0x517C = some (.tStrReg 5 7 4) ∧
    decodeTableWord 16 0x54EF = some (.tStrbReg 3 5 7) ∧
    decodeTableWord 16 0x5880 = some (.tLdrReg 2 0 0) ∧
    decodeTableWord 16 0x5D1B = some (.tLdrbReg 4 3 3) ∧
    decodeTableWord 16 0x53A3 = some (.tStrhReg 6 4 3) ∧
    decodeTableWord 16 0x572D = some (.tLdsb 4 5 5) ∧
    decodeTableWord 16 0x5A5D = some (.tLdrhReg 1 3 5) ∧
    decodeTableWord 16 0x5ECF = some (.tLdsh 3 1 7) ∧
    decodeTableWord 16 0x6126 = some (.tStrImm 4 4 6) := by decide

theorem test_decode_thumb_4 :
    decodeTableWord 16 0x6A07 = some (.tLdrImm 8 0 7) ∧
    decodeTableWord 16 0x774E = some (.tStrbImm 0x1D 1 6) ∧
    decodeTableWord 16 0x7F5F = some (.tLdrbImm 0x1D 3 7) ∧
    decodeTableWord 16 0x814D = some (.tStrhImm 5 1 5) ∧
    decodeTableWord 16 0x8C45 = some (.tLdrhImm 0x11 0 5) ∧
    decodeTableWord 16 0x94FC = some (.tStrSp 4 0xFC) ∧
    decodeTableWord 16 0x9883 = some (.tLdrSp 0 0x83) ∧
    decodeTableWord 16 0xA345 = some (.tAddPc 3 0x45) ∧
    decodeTableWord 16 0xAA78 = some (.tAddSp 2 0x78) ∧
    decodeTableWord 16 0xB035 = some (.tAddSpimm 0x35) ∧
    decodeTableWord 16 0xB0FF = some (.tSubSpimm 0x7F) ∧
    decodeTableWord 16 0xB44B = some (.tPush false 0x4B) ∧
    decodeTableWord 16 0xBC66 = some (.tPop false 0x66) ∧
    decodeTableWord 16 0xB3A5 = some (.tUndB 0x3A5) := by decide

theorem test_decode_thumb_5 :
    decodeTableWord 16 0xC6FC = some (.tStmia 6 0xFC) ∧
    decodeTableWord 16 0xCFBA = some (.tLdmia 7 0xBA) ∧
    decodeTableWord 16 0xDF43 = some (.tSwi 0x43) ∧
    decodeTableWord 16 0xDE84 = some (.tUndDe 0x84) ∧
    decodeTableWord 16 0xDB9C = some (.tBcond .lt 0x9C) ∧
    decodeTableWord 16 0xE419 = some (.tB 0x419) ∧
    decodeTableWord 16 0xEA5C = some (.tUndE8 0x25C) ∧
    decodeTableWord 16 0xF458 = some (.tBlHi 0x458) ∧
    decodeTableWord 16 0xF9A4 = some (.tBlLo 0x1A4) := by decide

/-! ### One step -/

/-- A word's bytes, lowest first. -/
def word (w : Word) : List Byte := [getByte w 0, getByte w 1, getByte w 2, getByte w 3]

/-- A halfword's bytes, lowest first. -/
def half (h : Half) : List Byte := [getByte h 0, getByte h 1]

/-- The machine after skip_bios() with a cartridge. -/
def start (rom : List Byte) : State := ((State.reset.loadRom rom).getD State.reset).skipBios

/-- The same in the Thumb state of System mode. -/
def startThumb (rom : List Byte) : State := (start rom).setCpsr { (start rom).cpsr with t := true }

/-- The CPSR set from its value, where that names a mode. -/
def withCpsr (s : State) (w : Word) : State := s.setCpsr (((Psr.ofWord w).toCpsr).getD s.cpsr)

/-- The SPSR of the mode set from its value. -/
def withSpsr (s : State) (w : Word) : State :=
  match s.cpsr.mode.spsrIndex with
  | some k => s.setSpsr k (Psr.ofWord w)
  | none => s

/-- NZCV as four bits. -/
def nzcv (s : State) : Word := s.cpsr.word >>> 28

/-- The SPSR of the mode. -/
def spsrWord (s : State) : Word := (s.curSpsr.map Psr.word).getD 0

/-- A flag as a number. -/
def flag (b : Bool) : Word := if b then 1 else 0

/-- A word of memory as the host reads it. -/
def at' (s : State) (a : Word) : Word := s.memRead .host a .word

/-- What is observed of the state after one step, or why there is none. -/
def after (s : State) (f : State → List Word) : List Word ⊕ Refusal :=
  match step s with
  | .next t => .inl (f t)
  | .refused r => .inr r
  | .fault e => nomatch e

/-! Data processing: 95 section 2.1. -/

theorem test_addIshift_A1 : after (((start (word 0xE0910002)).setReg 1 0x7FFFFFFF).setReg 2 1)
    (fun t => [t.reg 0 0, nzcv t]) = .inl [0x80000000, 9] := by decide

theorem test_addIshift_A2 : after (((start (word 0xE0910002)).setReg 1 0xFFFFFFFF).setReg 2 1)
    (fun t => [t.reg 0 0, nzcv t]) = .inl [0, 6] := by decide

theorem test_subIshift_A3 : after (((start (word 0xE0510002)).setReg 1 0).setReg 2 1)
    (fun t => [t.reg 0 0, nzcv t]) = .inl [0xFFFFFFFF, 8] := by decide

theorem test_subIshift_A4 : after (((start (word 0xE0510002)).setReg 1 5).setReg 2 5)
    (fun t => [t.reg 0 0, nzcv t]) = .inl [0, 6] := by decide

theorem test_rsbImm_A5 : after ((start (word 0xE2710000)).setReg 1 1)
    (fun t => [t.reg 0 0, nzcv t]) = .inl [0xFFFFFFFF, 8] := by decide

theorem test_adcIshift_A6 : after (((withCpsr (start (word 0xE0B10002)) 0x2000001F).setReg 1 0xFFFFFFFF).setReg 2 0)
    (fun t => [t.reg 0 0, nzcv t]) = .inl [0, 6] := by decide

theorem test_sbcIshift_A7 : after (((start (word 0xE0D10002)).setReg 1 5).setReg 2 3)
    (fun t => [t.reg 0 0, nzcv t]) = .inl [1, 2] := by decide

theorem test_sbcIshift_A8 : after (((start (word 0xE0D10002)).setReg 1 0).setReg 2 0)
    (fun t => [t.reg 0 0, nzcv t]) = .inl [0xFFFFFFFF, 8] := by decide

theorem test_rscIshift_A9 : after (((start (word 0xE0F10002)).setReg 1 3).setReg 2 5)
    (fun t => [t.reg 0 0, nzcv t]) = .inl [1, 2] := by decide

theorem test_movIshift_A10 : after ((withCpsr (start (word 0xE1B00001)) 0x2000001F).setReg 1 0x80000000)
    (fun t => [t.reg 0 0, nzcv t]) = .inl [0x80000000, 0xA] := by decide

theorem test_movIshift_A11 : after ((start (word 0xE1B00081)).setReg 1 0x80000001)
    (fun t => [t.reg 0 0, nzcv t]) = .inl [2, 2] := by decide

theorem test_movRshift_A17 : after (((withCpsr (start (word 0xE1B00211)) 0x2000001F).setReg 1 5).setReg 2 0x100)
    (fun t => [t.reg 0 0, nzcv t]) = .inl [5, 2] := by decide

theorem test_movRshift_A18 : after (((start (word 0xE1B00211)).setReg 1 1).setReg 2 0x20)
    (fun t => [t.reg 0 0, nzcv t]) = .inl [0, 6] := by decide

theorem test_movImm_A25 : after (start (word 0xE3B002FF))
    (fun t => [t.reg 0 0, nzcv t]) = .inl [0xF000000F, 0xA] := by decide

theorem test_movImm_A26 : after (withCpsr (start (word 0xE3B000FF)) 0x2000001F)
    (fun t => [t.reg 0 0, nzcv t]) = .inl [0xFF, 2] := by decide

theorem test_addRshift_A28 : after ((start (word 0xE08F011F)).setReg 1 0)
    (fun t => [t.reg 0 0, nzcv t]) = .inl [0x10000018, 0] := by decide

theorem test_tstImm_A29 : after ((start (word 0xE3110102)).setReg 1 0x80000000)
    (fun t => [nzcv t]) = .inl [0xA] := by decide

theorem test_teqIshift_A30 : after ((start (word 0xE1310001)).setReg 1 7)
    (fun t => [nzcv t]) = .inl [4] := by decide

theorem test_cmnImm_A31 : after ((start (word 0xE3710001)).setReg 1 0xFFFFFFFF)
    (fun t => [nzcv t]) = .inl [6] := by decide

theorem test_bicImm_A32 : after ((start (word 0xE3C100FF)).setReg 1 0x1234)
    (fun t => [t.reg 0 0, nzcv t]) = .inl [0x1200, 0] := by decide

theorem test_mvnImm_A33 : after (start (word 0xE3E00000))
    (fun t => [t.reg 0 0, nzcv t]) = .inl [0xFFFFFFFF, 0] := by decide

theorem test_nv_A36 : after ((start (word 0xF3A00001)).setReg 0 9)
    (fun t => [t.reg 0 0, nzcv t, t.pc]) = .inl [9, 0, 0x8000004] := by decide

theorem test_cmpIshift_A38 : after (start (word 0xE151F002)) (fun _ => []) =
    .inr (.unpredictable .compareRdPc) := by decide

/-! Multiplies: 95 section 2.2. -/

theorem test_mul_M1 : after (((start (word 0xE0100291)).setReg 1 0x10000).setReg 2 0x10000)
    (fun t => [t.reg 0 0, flag t.cpsr.n, flag t.cpsr.z, flag t.cpsr.v]) = .inl [0, 0, 1, 0] := by decide

theorem test_mul_M2 : after ((start (word 0xE0000290)).setReg 2 1) (fun _ => []) =
    .inr (.unpredictable .multiplyRegs) := by decide

theorem test_mla_M3 : after ((((start (word 0xE0203291)).setReg 1 3).setReg 2 4).setReg 3 5)
    (fun t => [t.reg 0 0, nzcv t]) = .inl [0x11, 0] := by decide

theorem test_umull_M4 : after (((start (word 0xE0910392)).setReg 2 0xFFFFFFFF).setReg 3 0xFFFFFFFF)
    (fun t => [t.reg 0 0, t.reg 0 1, flag t.cpsr.n, flag t.cpsr.z]) = .inl [1, 0xFFFFFFFE, 1, 0] := by decide

theorem test_smull_M5 : after (((start (word 0xE0D10392)).setReg 2 0x80000000).setReg 3 0x80000000)
    (fun t => [t.reg 0 0, t.reg 0 1, flag t.cpsr.n, flag t.cpsr.z]) = .inl [0, 0x40000000, 0, 0] := by decide

theorem test_smull_M6 : after (((start (word 0xE0C10392)).setReg 2 0xFFFFFFFF).setReg 3 0xFFFFFFFF)
    (fun t => [t.reg 0 0, t.reg 0 1, nzcv t]) = .inl [1, 0, 0] := by decide

theorem test_umull_M7 : after (start (word 0xE0800392)) (fun _ => []) =
    .inr (.unpredictable .multiplyRegs) := by decide

theorem test_umlal_M8 : after (((((start (word 0xE0A10392)).setReg 0 1).setReg 1 0).setReg 2 0x10000).setReg 3 0x10000)
    (fun t => [t.reg 0 0, t.reg 0 1, nzcv t]) = .inl [1, 1, 0] := by decide

theorem test_smlal_M9 : after (((((start (word 0xE0E10392)).setReg 0 2).setReg 1 0).setReg 2 0xFFFFFFFF).setReg 3 1)
    (fun t => [t.reg 0 0, t.reg 0 1, nzcv t]) = .inl [1, 0, 0] := by decide

/-! PSR transfers: 95 section 2.3. -/

theorem test_mrs_P1 : after (start (word 0xE10F0000))
    (fun t => [t.reg 0 0]) = .inl [0x1F] := by decide

theorem test_msrImm_P5 : after (withCpsr (start (word 0xE329F010)) 0x13)
    (fun t => [t.cpsr.word, t.reg 0 13]) = .inl [0x10, 0x3007F00] := by decide

theorem test_msrImm_P6 : after (withCpsr (start (word 0xE329F01F)) 0x10)
    (fun t => [t.cpsr.word]) = .inl [0x10] := by decide

theorem test_msrReg_P8 : after ((start (word 0xE128F000)).setReg 0 0xF0000000)
    (fun t => [t.cpsr.word]) = .inl [0xF000001F] := by decide

/-! Single transfers: 95 section 2.4. -/

theorem test_ldrImmPre_L1 : after ((((start (word 0xE5910000)).setReg 1 0x3000003).memWrite 0x3000000 .word 0x11223344).memWrite 0x3000004 .word 0x55667788)
    (fun t => [t.reg 0 0]) = .inl [0x22334411] := by decide

theorem test_ldrImmPre_L2 : after ((((start (word 0xE591F000)).setReg 1 0x3000004).memWrite 0x3000000 .word 0x11223344).memWrite 0x3000004 .word 0x55667788)
    (fun t => [t.pc]) = .inl [0x55667788] := by decide

theorem test_strImmPre_L4 : after ((((start (word 0xE5A11004)).setReg 1 0x3000000).memWrite 0x3000000 .word 0x11223344).memWrite 0x3000004 .word 0x55667788)
    (fun t => [at' t 0x3000004, t.reg 0 1]) = .inl [0x3000000, 0x3000004] := by decide

theorem test_ldrImmPost_L6 : after (((start (word 0xE49F0000)).memWrite 0x3000000 .word 0x11223344).memWrite 0x3000004 .word 0x55667788) (fun _ => []) =
    .inr (.unpredictable .writebackToPc) := by decide

theorem test_ldrshImm_L8 : after ((((start (word 0xE1D100F1)).setReg 1 0x3000000).memWrite 0x3000000 .word 0x11223344).memWrite 0x3000004 .word 0x55667788)
    (fun t => [t.reg 0 0]) = .inl [0x33] := by decide

theorem test_ldrsbImm_L9 : after ((((start (word 0xE1D100D1)).setReg 1 0x3000000).memWrite 0x3000000 .word 0x11228044).memWrite 0x3000004 .word 0x55667788)
    (fun t => [t.reg 0 0]) = .inl [0xFFFFFF80] := by decide

theorem test_ldrhImm_L10 : after ((((start (word 0xE1D100B3)).setReg 1 0x3000000).memWrite 0x3000000 .word 0x11223344).memWrite 0x3000004 .word 0x55667788)
    (fun t => [t.reg 0 0]) = .inl [0x22000011] := by decide

theorem test_ldrhImm_L11 : after ((((start (word 0xE0F100B2)).setReg 1 0x3000000).memWrite 0x3000000 .word 0x11223344).memWrite 0x3000004 .word 0x55667788) (fun _ => []) =
    .inr (.unpredictable .halfwordPostW) := by decide

theorem test_strdSpace_L12 : after ((((start (word 0xE1C100F0)).setReg 1 0x3000000).memWrite 0x3000000 .word 0x11223344).memWrite 0x3000004 .word 0x55667788) (fun _ => []) =
    .inr (.unpredictable .strdSpace) := by decide

theorem test_ldrbImmPre_L13 : after ((((start (word 0xE5D1F000)).setReg 1 0x3000000).memWrite 0x3000000 .word 0x11223344).memWrite 0x3000004 .word 0x55667788) (fun _ => []) =
    .inr (.unpredictable .narrowLoadPc) := by decide

theorem test_ldrbImmPost_L14 : after ((((start (word 0xE4D10001)).setReg 1 0x3000001).memWrite 0x3000000 .word 0x11223344).memWrite 0x3000004 .word 0x55667788)
    (fun t => [t.reg 0 0, t.reg 0 1]) = .inl [0x33, 0x3000002] := by decide

theorem test_strbRegPre_L15 : after ((((((start (word 0xE7C10002)).setReg 0 0x1AB).setReg 1 0x3000000).setReg 2 3).memWrite 0x3000000 .word 0x11223344).memWrite 0x3000004 .word 0x55667788)
    (fun t => [at' t 0x3000000]) = .inl [0xAB223344] := by decide

theorem test_strhImm_L16 : after (((((start (word 0xE16100B2)).setReg 0 0x12345678).setReg 1 0x3000004).memWrite 0x3000000 .word 0x11223344).memWrite 0x3000004 .word 0x55667788)
    (fun t => [at' t 0x3000000, t.reg 0 1]) = .inl [0x56783344, 0x3000002] := by decide

theorem test_ldrtImm_L17 : after ((((start (word 0xE4B10004)).setReg 1 0x3000000).memWrite 0x3000000 .word 0x11223344).memWrite 0x3000004 .word 0x55667788)
    (fun t => [t.reg 0 0, t.reg 0 1]) = .inl [0x11223344, 0x3000004] := by decide

theorem test_strImmPre_L18 : after (((((start (word 0xE5810002)).setReg 0 0xCAFEBABE).setReg 1 0x3000000).memWrite 0x3000000 .word 0x11223344).memWrite 0x3000004 .word 0x55667788)
    (fun t => [at' t 0x3000000]) = .inl [0xCAFEBABE] := by decide

/-! Block transfers: 95 section 2.5. -/

theorem test_stm_B1 : after (((start (word 0xE8A00003)).setReg 0 0x3000010).setReg 1 1)
    (fun t => [at' t 0x3000010, at' t 0x3000014, t.reg 0 0]) = .inl [0x3000010, 1, 0x3000018] := by decide

theorem test_stm_B2 : after (((start (word 0xE8A10003)).setReg 0 7).setReg 1 0x3000010)
    (fun t => [at' t 0x3000010, at' t 0x3000014, t.reg 0 1]) = .inl [7, 0x3000018, 0x3000018] := by decide

theorem test_ldm_B3 : after ((((start (word 0xE8B00003)).setReg 0 0x3000000).memWrite 0x3000000 .word 0x11223344).memWrite 0x3000004 .word 0x55667788)
    (fun t => [t.reg 0 0, t.reg 0 1]) = .inl [0x11223344, 0x55667788] := by decide

theorem test_ldmUser_B8 : after ((start (word 0xE8D00002)).setReg 0 0x3000000) (fun _ => []) =
    .inr (.unpredictable .userBankMode) := by decide

theorem test_stmUser_B9 : after (withCpsr (start (word 0xE8E00002)) 0x13) (fun _ => []) =
    .inr (.unpredictable .userBankWriteback) := by decide

theorem test_ldm_B10 : after (((start (word 0xE8BD8010)).memWrite 0x3007F00 .word 0x11111111).memWrite 0x3007F04 .word 0x8000101)
    (fun t => [t.reg 0 4, t.pc, t.reg 0 13, t.cpsr.word]) = .inl [0x11111111, 0x8000100, 0x3007F08, 0x1F] := by decide

theorem test_ldmRet_B11 : after (((withSpsr (withCpsr (start (word 0xE8FD8000)) 0x92) 0x3F).setReg 13 0x3007FA0).memWrite 0x3007FA0 .word 0x8000123)
    (fun t => [t.cpsr.word, t.pc, t.peek 22]) = .inl [0x3F, 0x8000122, 0x3007FA4] := by decide

/-! Swaps: 95 section 2.6. -/

theorem test_swp_S1 : after (((((start (word 0xE1020091)).setReg 1 7).setReg 2 0x3000001).memWrite 0x3000000 .word 0x11223344).memWrite 0x3000004 .word 0x55667788)
    (fun t => [t.reg 0 0, at' t 0x3000000]) = .inl [0x44112233, 7] := by decide

theorem test_swp_S2 : after (((start (word 0xE1020091)).setReg 1 7).setReg 2 0x8000000)
    (fun t => [t.reg 0 0, at' t 0x8000000]) = .inl [0xE1020091, 0xE1020091] := by decide

theorem test_swpb_S3 : after (((((start (word 0xE1420091)).setReg 1 0x1FF).setReg 2 0x3000001).memWrite 0x3000000 .word 0x11223344).memWrite 0x3000004 .word 0x55667788)
    (fun t => [t.reg 0 0, at' t 0x3000000]) = .inl [0x33, 0x1122FF44] := by decide

/-! Branches and exceptions: 95 section 2.7. -/

theorem test_b_J1 : after (start (word 0xEAFFFFFE))
    (fun t => [t.pc]) = .inl [0x8000000] := by decide

theorem test_bl_J2 : after (start (word 0xEB00003E))
    (fun t => [t.reg 0 14, t.pc]) = .inl [0x8000004, 0x8000100] := by decide

theorem test_bx_J4 : after ((start (word 0xE12FFF10)).setReg 0 0x8000102)
    (fun t => [t.cpsr.word, t.pc]) = .inl [0x1F, 0x8000100] := by decide

theorem test_bx_J6 : after ((start (word 0xE12FFF10)).setReg 0 0x8000201)
    (fun t => [t.cpsr.word, t.pc]) = .inl [0x3F, 0x8000200] := by decide

theorem test_swi_J7 : after (start (word 0xEF123456))
    (fun t => [t.peek 25, t.spsr[2].word, t.cpsr.word, t.pc]) = .inl [0x8000004, 0x1F, 0x93, 8] := by decide

theorem test_undMulspace_J8 : after (start (word 0xE1200090))
    (fun t => [t.peek 29, t.spsr[4].word, t.cpsr.word, t.pc]) = .inl [0x8000004, 0x1F, 0x9B, 4] := by decide

theorem test_mcrMrc_J9 : after (start (word 0xEE000010))
    (fun t => [t.peek 29, t.spsr[4].word, t.cpsr.word, t.pc]) = .inl [0x8000004, 0x1F, 0x9B, 4] := by decide

theorem test_ldcStc_J10 : after (start (word 0xEC000000))
    (fun t => [t.peek 29, t.spsr[4].word, t.cpsr.word, t.pc]) = .inl [0x8000004, 0x1F, 0x9B, 4] := by decide

theorem test_undA15_J11 : after (start (word 0xE6000010))
    (fun t => [t.peek 29, t.spsr[4].word, t.cpsr.word, t.pc]) = .inl [0x8000004, 0x1F, 0x9B, 4] := by decide

/-! Thumb arithmetic: 95 section 2.8. -/

theorem test_tLslImm_T1 : after ((withCpsr (startThumb (half 8)) 0x2000003F).setReg 1 0)
    (fun t => [t.reg 0 0, nzcv t]) = .inl [0, 6] := by decide

theorem test_tLsrImm_T2 : after ((startThumb (half 0x808)).setReg 1 0x80000000)
    (fun t => [t.reg 0 0, nzcv t]) = .inl [0, 6] := by decide

theorem test_tAsrImm_T3 : after ((startThumb (half 0x1048)).setReg 1 0x80000001)
    (fun t => [t.reg 0 0, nzcv t]) = .inl [0xC0000000, 0xA] := by decide

theorem test_tAddReg_T4 : after (((startThumb (half 0x1888)).setReg 1 0x7FFFFFFF).setReg 2 0x7FFFFFFF)
    (fun t => [t.reg 0 0, nzcv t]) = .inl [0xFFFFFFFE, 9] := by decide

theorem test_tSubReg_T5 : after (((startThumb (half 0x1A88)).setReg 1 5).setReg 2 5)
    (fun t => [t.reg 0 0, nzcv t]) = .inl [0, 6] := by decide

theorem test_tAddImm3_T6 : after ((withCpsr (startThumb (half 0x1C08)) 0x3000003F).setReg 1 0x80000000)
    (fun t => [t.reg 0 0, nzcv t]) = .inl [0x80000000, 8] := by decide

theorem test_tMovImm_T7 : after (withCpsr (startThumb (half 0x2000)) 0x3000003F)
    (fun t => [t.reg 0 0, nzcv t]) = .inl [0, 7] := by decide

theorem test_tCmpImm_T8 : after ((startThumb (half 0x2880)).setReg 0 0x7F)
    (fun t => [nzcv t]) = .inl [8] := by decide

theorem test_tSubImm8_T9 : after ((startThumb (half 0x3801)).setReg 0 0x80000000)
    (fun t => [t.reg 0 0, nzcv t]) = .inl [0x7FFFFFFF, 3] := by decide

theorem test_tLslReg_T10 : after (((withCpsr (startThumb (half 0x4088)) 0x2000003F).setReg 0 5).setReg 1 0x100)
    (fun t => [t.reg 0 0, nzcv t]) = .inl [5, 2] := by decide

theorem test_tRor_T11 : after (((startThumb (half 0x41C8)).setReg 0 0x80000000).setReg 1 0x20)
    (fun t => [t.reg 0 0, nzcv t]) = .inl [0x80000000, 0xA] := by decide

theorem test_tNeg_T12 : after ((startThumb (half 0x4248)).setReg 1 0x80000000)
    (fun t => [t.reg 0 0, nzcv t]) = .inl [0x80000000, 9] := by decide

theorem test_tNeg_T13 : after ((startThumb (half 0x4248)).setReg 1 0)
    (fun t => [t.reg 0 0, nzcv t]) = .inl [0, 6] := by decide

theorem test_tMul_T14 : after (startThumb (half 0x4340)) (fun _ => []) =
    .inr (.unpredictable .multiplyRegs) := by decide

theorem test_tMvn_T15 : after ((startThumb (half 0x43C8)).setReg 1 0xFFFFFFFF)
    (fun t => [t.reg 0 0, nzcv t]) = .inl [0, 4] := by decide

theorem test_tTst_T16 : after (((startThumb (half 0x4208)).setReg 0 0x80000000).setReg 1 0x80000000)
    (fun t => [nzcv t]) = .inl [8] := by decide

theorem test_tAddHi_T17 : after ((startThumb (half 0x4478)).setReg 0 0x100)
    (fun t => [t.reg 0 0, nzcv t]) = .inl [0x8000104, 0] := by decide

theorem test_tAddHi_T18 : after ((startThumb (half 0x4487)).setReg 0 0x100)
    (fun t => [t.pc, t.cpsr.word]) = .inl [0x8000104, 0x3F] := by decide

theorem test_tBlxRegSpace_T19 : after (startThumb (half 0x4780)) (fun _ => []) =
    .inr (.unpredictable .blxSpace) := by decide

theorem test_tBx_T20 : after (startThumb (half 0x4778))
    (fun t => [t.cpsr.word, t.pc]) = .inl [0x1F, 0x8000004] := by decide

theorem test_tMul_T22 : after (((startThumb (half 0x4348)).setReg 0 6).setReg 1 7)
    (fun t => [t.reg 0 0, flag t.cpsr.n, flag t.cpsr.z]) = .inl [0x2A, 0, 0] := by decide

/-! Thumb loads and stores: 95 section 2.9. -/

theorem test_tLdrPc_U1 : after ((((startThumb (half 0x4801 ++ half 0x46C0 ++ half 0x46C0 ++ half 0x46C0 ++ half 0xBEEF ++ half 0xDEAD)).memWrite 0x3000000 .word 0x11223344).memWrite 0x3000004 .word 0x55667788).setReg 1 0x3000000)
    (fun t => [t.reg 0 0]) = .inl [0xDEADBEEF] := by decide

theorem test_tStrReg_U3 : after ((((((startThumb (half 0x5088)).setReg 0 7).setReg 2 3).memWrite 0x3000000 .word 0x11223344).memWrite 0x3000004 .word 0x55667788).setReg 1 0x3000000)
    (fun t => [at' t 0x3000000]) = .inl [7] := by decide

theorem test_tLdsh_U4 : after (((((startThumb (half 0x5E88)).setReg 2 3).memWrite 0x3000000 .word 0x11223344).memWrite 0x3000004 .word 0x55667788).setReg 1 0x3000000)
    (fun t => [t.reg 0 0]) = .inl [0x11] := by decide

theorem test_tLdrhReg_U5 : after (((((startThumb (half 0x5A88)).setReg 2 3).memWrite 0x3000000 .word 0x11223344).memWrite 0x3000004 .word 0x55667788).setReg 1 0x3000000)
    (fun t => [t.reg 0 0]) = .inl [0x22000011] := by decide

theorem test_tLdrImm_U6 : after (((((startThumb (half 0x6FC8)).memWrite 0x3000000 .word 0x11223344).memWrite 0x3000004 .word 0x55667788).memWrite 0x300007C .word 0xCAFE).setReg 1 0x3000000)
    (fun t => [t.reg 0 0]) = .inl [0xCAFE] := by decide

theorem test_tLdrbImm_U7 : after (((((startThumb (half 0x7FC8)).memWrite 0x3000000 .word 0x11223344).memWrite 0x3000004 .word 0x55667788).memWrite 0x300001C .word 0xCAFE00AA).setReg 1 0x3000000)
    (fun t => [t.reg 0 0]) = .inl [0xCA] := by decide

theorem test_tLdrhImm_U8 : after (((((startThumb (half 0x8FC8)).memWrite 0x3000000 .word 0x11223344).memWrite 0x3000004 .word 0x55667788).memWrite 0x300003C .word 0xCAFE00AA).setReg 1 0x3000000)
    (fun t => [t.reg 0 0]) = .inl [0xCAFE] := by decide

theorem test_tStrSp_U9 : after (((((startThumb (half 0x9001)).setReg 0 9).memWrite 0x3000000 .word 0x11223344).memWrite 0x3000004 .word 0x55667788).setReg 1 0x3000000)
    (fun t => [at' t 0x3007F04]) = .inl [9] := by decide

theorem test_tAddSp_U10 : after ((((startThumb (half 0xA8FF)).memWrite 0x3000000 .word 0x11223344).memWrite 0x3000004 .word 0x55667788).setReg 1 0x3000000)
    (fun t => [t.reg 0 0]) = .inl [0x30082FC] := by decide

theorem test_tAddPc_U11 : after ((((startThumb (half 0xA0FF)).memWrite 0x3000000 .word 0x11223344).memWrite 0x3000004 .word 0x55667788).setReg 1 0x3000000)
    (fun t => [t.reg 0 0]) = .inl [0x8000400] := by decide

theorem test_tSubSpimm_U12 : after ((((startThumb (half 0xB0FF)).memWrite 0x3000000 .word 0x11223344).memWrite 0x3000004 .word 0x55667788).setReg 1 0x3000000)
    (fun t => [t.reg 0 13]) = .inl [0x3007D04] := by decide

theorem test_tPush_U13 : after ((((startThumb (half 0xB400)).memWrite 0x3000000 .word 0x11223344).memWrite 0x3000004 .word 0x55667788).setReg 1 0x3000000) (fun _ => []) =
    .inr (.unpredictable .thumbEmptyList) := by decide

theorem test_tPush_U14 : after (((((startThumb (half 0xB500)).setReg 14 0x8000123).memWrite 0x3000000 .word 0x11223344).memWrite 0x3000004 .word 0x55667788).setReg 1 0x3000000)
    (fun t => [at' t 0x3007EFC, t.reg 0 13]) = .inl [0x8000123, 0x3007EFC] := by decide

theorem test_tPop_U16 : after ((((((startThumb (half 0xBD00)).setReg 13 0x3007EFC).memWrite 0x3000000 .word 0x11223344).memWrite 0x3000004 .word 0x55667788).memWrite 0x3007EFC .word 0x8000200).setReg 1 0x3000000)
    (fun t => [t.pc, t.cpsr.word, t.reg 0 13]) = .inl [0x8000200, 0x3F, 0x3007F00] := by decide

theorem test_tStmia_U18 : after (((((startThumb (half 0xC103)).setReg 0 5).memWrite 0x3000000 .word 0x11223344).memWrite 0x3000004 .word 0x55667788).setReg 1 0x3000000)
    (fun t => [at' t 0x3000000, at' t 0x3000004, t.reg 0 1]) = .inl [5, 0x3000008, 0x3000008] := by decide

theorem test_tStmia_U19 : after (((((startThumb (half 0xC003)).setReg 0 0x3000000).setReg 1 5).memWrite 0x3000000 .word 0x11223344).memWrite 0x3000004 .word 0x55667788)
    (fun t => [at' t 0x3000000, at' t 0x3000004, t.reg 0 0]) = .inl [0x3000000, 5, 0x3000008] := by decide

theorem test_tLdmia_U20 : after (((((startThumb (half 0xC803)).setReg 0 0x3000000).memWrite 0x3000000 .word 0x11223344).memWrite 0x3000004 .word 0x55667788).setReg 1 0x3000000)
    (fun t => [t.reg 0 0, t.reg 0 1]) = .inl [0x11223344, 0x55667788] := by decide

/-! Thumb branches: 95 section 2.10. -/

theorem test_tBcond_K1 : after (startThumb (half 0xD1FE))
    (fun t => [t.pc]) = .inl [0x8000000] := by decide

theorem test_tUndDe_K2 : after (startThumb (half 0xDE00))
    (fun t => [t.peek 29, t.spsr[4].word, t.cpsr.word, t.pc]) = .inl [0x8000002, 0x3F, 0x9B, 4] := by decide

theorem test_tSwi_K3 : after (startThumb (half 0xDF00))
    (fun t => [t.peek 25, t.spsr[2].word, t.cpsr.word, t.pc]) = .inl [0x8000002, 0x3F, 0x93, 8] := by decide

theorem test_tB_K4 : after (startThumb (half 0xE400))
    (fun t => [t.pc]) = .inl [0x7FFF804] := by decide

theorem test_tUndE8_K5 : after (startThumb (half 0xE800))
    (fun t => [t.peek 29, t.spsr[4].word, t.cpsr.word, t.pc]) = .inl [0x8000002, 0x3F, 0x9B, 4] := by decide

theorem test_tUndB_K6 : after (startThumb (half 0xB100))
    (fun t => [t.peek 29, t.spsr[4].word, t.cpsr.word, t.pc]) = .inl [0x8000002, 0x3F, 0x9B, 4] := by decide

theorem test_tBlLo_K7 : after ((startThumb (half 0xF801)).setReg 14 0x8000101)
    (fun t => [t.pc, t.reg 0 14]) = .inl [0x8000102, 0x8000003] := by decide

theorem test_tBlHi_K9a : after (startThumb (half 0xF7FF))
    (fun t => [t.reg 0 14]) = .inl [0x7FFF004] := by decide

theorem test_tBcond_K10 : after (withCpsr (startThumb (half 0xD006)) 0x4000003F)
    (fun t => [t.pc]) = .inl [0x8000010] := by decide

/-! ### Interrupts, halt, memory, host and PPU: 95 sections 3 to 6 -/

/-- A request of source 0 that IE and IME let through. -/
def requested (s : State) : State := { s with io := { s.io with ieReg := 1, ifReg := 1, ime := true } }

/-- The state with a halfword written at an I/O offset or an address. -/
def put (s : State) (a : Word) (v : Word) : State := s.memWrite a .half v

/-- A pixel's bytes. -/
def pixel (s : State) (x y : Nat) : List Byte := (s.renderPixel x y).bytes

theorem test_irq_entry : after (requested (start (word 0xE3A00001))) (fun t => [t.peek 23, t.spsr[1].word, t.cpsr.word, t.pc]) =
    .inl [0x08000004, 0x1F, 0x92, 0x1C] := by decide
theorem test_irq_masked : after ((requested (start (word 0xE3A00001))).setCpsr ⟨false, false, false, false, true, false, false, .sys⟩)
    (fun t => [t.reg 0 0, t.pc]) = .inl [1, 0x08000004] := by decide
theorem test_fiq_before_irq : after { requested (start (word 0xE3A00001)) with fiqLine := true }
    (fun t => [t.peek 21, t.spsr[0].word, t.cpsr.word, t.pc]) = .inl [0x08000004, 0x1F, 0xD1, 0x20] := by decide
theorem test_halt_enters : after ((start (word 0xE5C00301)).setReg 0 0x04000000)
    (fun t => [if t.halt = .halt then 1 else 0, t.pc]) = .inl [1, 0x08000004] := by decide
theorem test_halt_stays : after { start [] with halt := .halt } (fun t => [if t.halt = .halt then 1 else 0, t.pc]) =
    .inl [1, 0x08000000] := by decide
theorem test_halt_ends : after { requested (start (word 0xE3A01007)) with io := { Io.reset with ieReg := 1, ifReg := 1 }, halt := .halt }
    (fun t => [t.reg 0 1, t.pc]) = .inl [7, 0x08000004] := by decide
theorem test_stop_waits : after { requested (start []) with halt := .stop } (fun t => [if t.halt = .stop then 1 else 0]) =
    .inl [1] := by decide
theorem test_palette_byte : (State.reset.memWrite 0x05000001 .byte 0xAB).memRead .host 0x05000000 .half = 0xABAB := by decide
theorem test_vram_byte_limit : (State.reset.memWrite 0x06010000 .byte 0xCD).memRead .host 0x06010000 .half = 0 ∧
    ((put State.reset 0x04000000 3).memWrite 0x06010000 .byte 0xCD).memRead .host 0x06010000 .half = 0xCDCD := by decide
theorem test_oam_byte : (State.reset.memWrite 0x07000000 .byte 0xCD).memRead .host 0x07000000 .half = 0 ∧
    (put State.reset 0x07000000 0x1122).memRead .host 0x07000000 .half = 0x1122 := by decide
theorem test_if_write_one_clears : (put { State.reset with io := { Io.reset with ifReg := 0xF } } 0x04000202 5).memRead .host 0x04000202 .half = 0xA := by
  decide
theorem test_keyinput_read_only : (put State.reset 0x04000130 0).memRead .host 0x04000130 .half = 0x3FF := by decide
theorem test_mirrors : (State.reset.memWrite 0x03FFFFFC .word 0xA5A5A5A5).memRead .host 0x03007FFC .word = 0xA5A5A5A5 ∧
    (State.reset.memWrite 0x06010000 .word 1).memRead .host 0x06018000 .word = 1 := by decide
theorem test_rom_mirror : (start [1, 2, 3, 4, 5]).memRead .host 0x0A000000 .word = 0x04030201 ∧
    ((start [1, 2, 3, 4, 5]).readAddress 0x08000004).1 = 5 := by decide
theorem test_key : (State.reset.setKey 9 true).io.keyinput = 0x1FF ∧ State.reset.setKey 12 true = State.reset := by decide
theorem test_reset_pc : step State.reset.resetOp = runTick State.reset.resetOp ∧ State.reset.pc = 0 ∧ State.reset.cpsr.word = 0xD3 :=
  ⟨rfl, rfl, rfl⟩
theorem test_consumed_instance : Instance.consumed.tick = .error .consumed ∧ Instance.consumed.readAddress 0 = .error .consumed ∧
    Instance.consumed.loadRom [1] = .error .consumed := ⟨rfl, rfl, rfl⟩
theorem test_snapshot_epoch : State.reset.inspectMemory.2.draws = State.reset.draws + 1 := rfl
theorem test_breakpoint : after ((State.reset.enableDebugger true).addArmBreakpoint 4)
    (fun t => [flag t.debugger.stopped, t.pc]) = .inl [1, 4] := by decide

/-- A background of 16 colours with a tile of three pixels. -/
def textBg (s : State) : State :=
  put (put (put (put (put (put s 0x04000000 0x100) 0x04000008 0x800) 0x06004000 0x1001) 0x06000020 0x21) 0x05000022 0x1F) 0x05000024 0x3E0

theorem test_text_background : pixel (textBg State.reset) 0 0 = [255, 0, 0, 255] ∧ pixel (textBg State.reset) 1 0 = [0, 255, 0, 255] ∧
    pixel (textBg State.reset) 2 0 = [0, 0, 0, 255] := by decide
theorem test_text_scroll : pixel (put (textBg State.reset) 0x04000010 1) 0 0 = [0, 255, 0, 255] := by decide
theorem test_text_flip : pixel (put (textBg State.reset) 0x06004000 0x1401) 7 0 = [255, 0, 0, 255] := by decide
theorem test_forced_blank : pixel (put State.reset 0x04000000 0x80) 5 5 = [255, 255, 255, 255] := by decide
theorem test_bitmap_mode3 : pixel (put (put State.reset 0x04000000 0x403) 0x06012BFE 0x801F) 239 159 = [255, 0, 0, 255] := by decide
theorem test_bitmap_mode5_edge : pixel (put (put (put State.reset 0x04000000 0x405) 0x06000000 0x3E0) 0x05000000 0x1F) 160 0 =
    [255, 0, 0, 255] := by decide

/-! ### Placing an instruction -/

theorem test_withFetchWord_arm : after (State.reset.withFetchWord 32 0xE3A00001) (fun t => [t.reg 0 0]) = .inl [1] := by decide
theorem test_withFetchWord_thumb : after (State.reset.withFetchWord 16 0x2005) (fun t => [t.reg 0 0, nzcv t]) = .inl [5, 0] := by
  decide

/-! ### Witnesses: states and operands that meet the hypotheses of each statement, clause by clause -/

/-- Mode values are decided by cases. -/
theorem noMode {b : BitVec 5} (h : Mode.ofBits b = none) : ∀ m : Mode, b ≠ m.bits := (Mode.ofBits_none b).1 h

/-- Every word accepted, by evaluation. -/
theorem accepted_of {s : State} {ws : List (Word × Word)} (h : (ws.all fun x => !s.refusesWrite x.1 .word) = true) : Accepted s ws :=
  fun x hx => by simpa using List.all_eq_true.1 h x hx

/-- System mode at the entry of a cartridge. -/
def sys : State := State.reset.skipBios

/-- Supervisor mode with an SPSR that names User mode in Thumb state. -/
def svc : State := State.reset.setSpsr 2 (Psr.ofWord 0x60000030)

/-- System mode with IO_DEVICE_POLICY = refuse. -/
def refusing : State := { sys with params := { sys.params with ioPolicy := .refuse } }

/-- A word turned away, by evaluation. -/
theorem refused_of {s : State} {ws : List (Word × Word)} (h : (ws.any fun x => s.refusesWrite x.1 .word) = true) : ¬ Accepted s ws :=
  fun ha => by
    obtain ⟨x, hx, hr⟩ := List.any_eq_true.1 h
    rw [ha x hx] at hr
    cases hr

/-- User mode. -/
def usr : State := sys.setCpsr { sys.cpsr with mode := .usr }

theorem witness_DecodeOfEncode : (Instr.undMulspace .al 0x1C00090).wellFormed = true ∧ (Instr.undPsrspace .al 0x1400000).wellFormed = true ∧
    (Instr.tUndB 0x100).wellFormed = true ∧ (Instr.tUndB 0xFFF).wellFormed = true ∧ (Instr.tBcond .le 0xFF).wellFormed = true := by decide

theorem witness_StepRunsDecoded : sys.wake.halt = .running ∧ (sys.fiqLine = true → sys.cpsr.f = true) ∧ (sys.irqLine = true → sys.cpsr.i = true) ∧
    decodeBytes sys.cpsr.t ((List.range (if sys.cpsr.t then 2 else 4)).map fun k =>
      sys.readByte .fetch (sys.pc + BitVec.ofNat 32 k)) = .ok (.andIshift .eq false 0 0 0 .lsl 0, []) ∧
    (∃ t, exec (.andIshift .eq false 0 0 0 .lsl 0) sys.wake = .next t) ∧
    exec (.tBlxRegSpace 0 0) sys.wake = .refused (.unpredictable .blxSpace) := ⟨rfl, by decide, by decide, by decide, ⟨_, rfl⟩, rfl⟩
theorem witness_StepRunsDecoded_masked : let s := { (requested sys).setCpsr { sys.cpsr with i := true, f := true } with fiqLine := true }
    s.wake.halt = .running ∧ (s.fiqLine = true → s.cpsr.f = true) ∧ (s.irqLine = true → s.cpsr.i = true) ∧ s.irqLine = true := by decide
/-- A halt that ends in this very tick, the interrupt masked by IME. -/
theorem witness_StepRunsDecoded_waking : let s := { sys with halt := .halt, io := { Io.reset with ieReg := 1, ifReg := 1 } }
    s.halt ≠ .running ∧ s.wake.halt = .running ∧ (s.fiqLine = true → s.cpsr.f = true) ∧ (s.irqLine = true → s.cpsr.i = true) := by decide
theorem witness_HaltedTick : ({ sys with halt := .halt } : State).wake.halt ≠ .running ∧
    ({ requested sys with halt := .stop } : State).wake.halt ≠ .running ∧ ({ requested sys with halt := .halt } : State).wake.halt = .running ∧
    ({ sys with halt := .halt, io := { Io.reset with ieReg := 0x2000, ifReg := 0x2000 } } : State).wake.halt = .running ∧
    ({ sys with halt := .stop, io := { Io.reset with ieReg := 0x80, ifReg := 0x80 } } : State).wake.halt = .running := by decide
theorem witness_InterruptSampling : sys.wake.halt = .running ∧ (requested sys).wake.halt = .running ∧
    ({ requested sys with halt := .halt } : State).wake.halt = .running ∧
    (({ sys with fiqLine := true } : State).fiqLine = true ∧ sys.cpsr.f = false) ∧
    ((requested sys).cpsr.i = false ∧ (requested sys).io.ime = true ∧ (requested sys).fiqLine = false) ∧
    (requested sys).io.ieReg.getLsbD (0 : Fin 14) = true ∧ (requested sys).io.ifReg.getLsbD (0 : Fin 14) = true := by decide
theorem inv_sys : sys.Inv := by unfold State.Inv State.pcAligned; decide
theorem witness_StepKeepsInvariant : sys.Inv ∧ ∃ t, step sys = .next t := ⟨inv_sys, _, rfl⟩
theorem witness_InvariantAtReset : sys.mem.wf = true ∧ (start [1, 2]).mem.wf = true := by decide
theorem witness_UserModeLeavesByException : usr.cpsr.mode = .usr ∧ (∃ t, exec (.swi .al 0) usr = .next t) ∧ (∃ t, exec (.tUndDe 0) usr = .next t) ∧
    ∃ t, exec (.msrImm .al false 9 0 0x1F) usr = .next t := ⟨rfl, ⟨_, rfl⟩, ⟨_, rfl⟩, ⟨_, rfl⟩⟩
theorem witness_ControlBitsKept : (Instr.stm .al false true true 0 3).exchanges = false ∧ (Instr.stm .al false true true 0 3).writesPsr = false ∧
    (Instr.stm .al false true true 0 3).traps = false ∧ (Instr.stm .al false true true 0 3).restores = false ∧
    (∃ t, exec (.stm .al false true true 0 3) (sys.setReg 0 0x03000000) = .next t) ∧ (Instr.movImm .al true 0 14 0 0).restores = false :=
  ⟨rfl, rfl, rfl, rfl, ⟨_, rfl⟩, rfl⟩
theorem witness_OnlyStoresWrite : (Instr.ldm .al false true true 0 3).stores = false ∧ ∃ t, exec (.ldm .al false true true 0 3) sys = .next t :=
  ⟨rfl, _, rfl⟩
theorem witness_OutsideUntouched : ∃ t, exec (.strImmPre .al true false 0 1 0) (sys.setReg 0 0x03000000) = .next t := ⟨_, rfl⟩
theorem witness_OutsideUntouched_bytes : (0x01FFFFFF : Word).toNat < 0x02000000 ∧ 0x08000000 ≤ (0x08000000 : Word).toNat := by decide
/-- Byte k of an access at a, in the region and at the offset of a, stands at b: at the ends of a region and in a mirror. -/
theorem witness_RamReadsBack :
    (3 < Width.word.bytes ∧ (0x02FC0000 : Word).toNat % Width.word.bytes = 0 ∧
      storagePlace 0x02FC0000 = some (2, 0) ∧ storagePlace 0x02000003 = some (2, 0 + 3)) ∧
    (3 < Width.word.bytes ∧ (0x03FFFFFC : Word).toNat % Width.word.bytes = 0 ∧
      storagePlace 0x03FFFFFC = some (3, 0x7FFC) ∧ storagePlace 0x03007FFF = some (3, 0x7FFC + 3)) ∧
    (1 < Width.half.bytes ∧ (0x050003FE : Word).toNat % Width.half.bytes = 0 ∧
      storagePlace 0x050003FE = some (5, 0x3FE) ∧ storagePlace 0x05FFFFFF = some (5, 0x3FE + 1)) ∧
    (2 < Width.word.bytes ∧ (0x0601FFFC : Word).toNat % Width.word.bytes = 0 ∧
      storagePlace 0x0601FFFC = some (6, 0x17FFC) ∧ storagePlace 0x06017FFE = some (6, 0x17FFC + 2)) ∧
    (0 < Width.half.bytes ∧ storagePlace 0x07000000 = some (7, 0) ∧ storagePlace 0x07FFFC00 = some (7, 0 + 0)) ∧
    (0 < Width.byte.bytes ∧ storagePlace 0x0203FFFF = some (2, 0x3FFFF) ∧ storagePlace 0x03000000 = some (3, 0)) := by decide
theorem test_ram_bytes : let s := (State.reset.memWrite 0x02FC0000 .word 0x44332211).memWrite 0x0601FFFC .half 0x6655
    s.readByte .data 0x02000003 = 0x44 ∧ s.readByte .data 0x02000000 = 0x11 ∧ s.readByte .data 0x06017FFD = 0x66 := by decide
theorem witness_ReadOnlyRegions : (decodeAddr 0 0x00003FFF).1 = .bios ∧ (decodeAddr 0 0x00004000).1 = .unmapped ∧ (decodeAddr 5 0x08000004).1 = .rom ∧
    (decodeAddr 5 0x08000005).1 = .unmapped ∧ (decodeAddr 0 0xFFFFFFFF).1 = .unmapped := by decide
theorem witness_VideoByteWrites : (0x05FFFFFF : Word).toNat / 0x1000000 = 5 ∧ (0x07000000 : Word).toNat / 0x1000000 = 7 ∧
    (0x0600FFFF : Word).toNat / 0x1000000 = 6 ∧ (0x06018000 : Word).toNat / 0x1000000 = 6 := by decide
theorem witness_VideoByteWrites_limit : let lim := fun s : State => if s.io.dispcnt.toNat % 8 ≤ 2 then 0x10000 else 0x14000
    let o := fun a : Word => if 0x18000 ≤ a.toNat % 0x20000 then a.toNat % 0x20000 - 0x8000 else a.toNat % 0x20000
    o 0x0600FFFF < lim sys ∧ lim sys ≤ o 0x06010000 ∧ lim sys ≤ o 0x06018000 ∧
      o 0x06013FFF < lim (put sys 0x04000000 3) ∧ lim (put sys 0x04000000 3) ≤ o 0x06014000 := by decide
theorem witness_IoRegisterWrites : ∀ o ∈ [0x002, 0x003, 0x040, 0x04B, 0x04E, 0x12F, 0x134, 0x1FF, 0x204, 0x207, 0x20C, 0x2FF, 0x302, 0x3FF],
    o < 0x400 ∧ ¬ inRegisterTable o := by unfold inRegisterTable; decide
theorem witness_MisalignedLoads : (0xFFFFFFFF : Word).toNat % 2 = 1 ∧ (0x03000000 : Word).toNat % 2 = 0 ∧
    0x8000 ≤ ((put sys 0x03000000 0x8000).memRead .data 0x03000000 .half).toNat ∧
    0x80 ≤ ((put sys 0x03000000 0x80).memRead .data 0x03000000 .byte).toNat := by decide
theorem witness_ResetValues : sys.params.resetRegPolicy = .zero ∧ (decodeAddr 4 0x08000003).1 = .rom ∧ (decodeAddr 0 0).1 = .bios ∧
    (decodeAddr 0 0x02000000).1 = .ewram ∧ (decodeAddr 0 0x07000000).1 = .oam := by decide
theorem witness_LoadRom : ([7, 8] : List Byte).length ≤ 33554432 ∧ 33554432 < (List.replicate 33554433 (0 : Byte)).length ∧
    (0x09FFFFFF : Word).toNat < 0x0A000000 ∧ (0x07FFFFFF : Word).toNat < 0x08000000 := by
  refine ⟨by decide, ?_, by decide, by decide⟩
  rw [List.length_replicate]
  decide
theorem witness_TickMultipleIsTicks : (∃ t, tickMultiple 1 sys = .next t ∧ (t.wake.halt = .running → t.halt = .running)) ∧
    ∃ t, tickMultiple 2 { sys with halt := .halt } = .next t ∧ (t.wake.halt = .running → t.halt = .running) :=
  ⟨⟨_, rfl, fun _ => rfl⟩, ⟨_, rfl, by decide⟩⟩
theorem witness_FramebufferLayout : (239 : Nat) < 240 ∧ (159 : Nat) < 160 := by decide
theorem witness_Composition : (put sys 0x04000000 0x80).io.forcedBlank = true ∧ sys.io.forcedBlank = false ∧ sys.io.bgMode ≤ 5 ∧
    (textBg sys).io.forcedBlank = false ∧ (textBg sys).io.bgEnabled 0 = true ∧
    (textBg sys).layerPixel (textBg sys).io.bgMode 0 0 0 = some 0x1F ∧
    (∀ m : Fin 4, (textBg sys).io.bgEnabled m = true → m = 0) ∧ (∀ n : Fin 4, sys.io.bgEnabled n = false) := by decide
theorem witness_LayerPixels : (1 : Fin 4) < 2 ∧ ((1 = 1 ∨ 1 = 2) ∧ (2 : Fin 4) = 2) ∧ (3 : Fin 4) = 3 ∧ ((5 = 3 ∨ 5 = 4 ∨ 5 = 5) ∧ (2 : Fin 4) = 2) ∧
    ((5 = 3 ∨ 5 = 4 ∨ 5 = 5) ∧ (3 : Fin 4) ≠ 2) := by decide
theorem witness_LayerPixels_runs : textLayer (textBg sys) 0 1 0 = some 0x3E0 ∧ textLayer (textBg sys) 0 3 0 = none ∧
    bitmapLayer (put sys 0x06012BFE 0x801F) 3 239 159 = some 0x801F ∧ bitmapLayer sys 5 160 0 = none := by decide
theorem witness_ConditionFails : armCond (.ldrdSpace .eq true true true false 0 2 0 0) = some .eq ∧ Cond.passes .eq sys.cpsr = false ∧
    armCond (.swi .cs 0) = some .cs ∧ Cond.passes .cs sys.cpsr = false := by decide
theorem witness_ConditionsAfterCompare : ∃ p : Cpsr, ArithFlags .sub p 0x80000000 1 p.c :=
  ⟨sys.cpsr.withFlags (ArithOp.out .sub 0x80000000 1 false), (ArithOp.out_spec .sub sys.cpsr 0x80000000 1 false).2⟩
theorem witness_RegisterShifter : (0 : Byte) = 0 ∧ (1 : Byte) ≠ 0 ∧ (32 : Byte) ≠ 0 ∧ (33 : Byte) ≠ 0 ∧ (0xFF : Byte) ≠ 0 ∧ (31 : BitVec 5) ≠ 0 := by
  decide
theorem witness_operands : Cond.passes .al sys.cpsr = true ∧ DpOperand.defined (.imm 15 0xFF) ∧ DpOperand.defined (.ishift 0 .ror 15) ∧
    DpOperand.defined (.rshift 14 .lsl 15) ∧ (14 : Reg) ≠ 15 := ⟨rfl, trivial, trivial, (by decide : (14 : Reg) ≠ 15), by decide⟩
theorem witness_LogicalResults : Cond.passes .al sys.cpsr = true ∧ DpOperand.defined (.rshift 1 .ror 15) ∧ (13 : Reg) ≠ 15 :=
  ⟨rfl, (by decide : (1 : Reg) ≠ 15), by decide⟩
theorem witness_ArithmeticResults : Cond.passes .ne sys.cpsr = true ∧ DpOperand.defined (.ishift 0 .lsr 15) ∧ (0 : Reg) ≠ 15 := ⟨rfl, trivial, by decide⟩
theorem witness_CompareResults : Cond.passes .al sys.cpsr = true ∧ DpOperand.defined (.rshift 0 .asr 1) ∧ (15 : Reg) = 15 ∧ (14 : Reg) ≠ 15 :=
  ⟨rfl, (by decide : (0 : Reg) ≠ 15), by decide⟩
theorem witness_DataProcessingToPc : Cond.passes .al svc.cpsr = true ∧ DpOperand.defined (.ishift 0 .lsl 14) ∧ sys.cpsr.mode = .sys ∧
    svc.cpsr.mode.spsrIndex = some 2 ∧ svc.spsr[2].m = Mode.usr.bits := ⟨rfl, trivial, by decide⟩
theorem witness_DataProcessingToPc_invalid : State.reset.cpsr.mode.spsrIndex = some 2 ∧ ∀ m : Mode, State.reset.spsr[2].m ≠ m.bits :=
  ⟨rfl, noMode (by decide)⟩
theorem witness_MultiplyResults : Cond.passes .al sys.cpsr = true ∧ ((0 : Reg) ≠ 15 ∧ (1 : Reg) ≠ 15 ∧ (2 : Reg) ≠ 15 ∧ (0 : Reg) ≠ 2 ∧ (3 : Reg) ≠ 15) ∧
    (true = true ∧ (15 : Reg) = 15) ∧ (7 : LoReg) ≠ 0 := by decide
theorem witness_LongMultiplyResults : Cond.passes .al sys.cpsr = true ∧ (0 : Reg) ≠ 15 ∧ (1 : Reg) ≠ 15 ∧ (3 : Reg) ≠ 15 ∧ (2 : Reg) ≠ 15 ∧ (0 : Reg) ≠ 1 ∧
    (0 : Reg) ≠ 2 ∧ (1 : Reg) ≠ 2 := by decide
theorem witness_MrsReads : Cond.passes .al svc.cpsr = true ∧ (14 : Reg) ≠ 15 ∧ svc.cpsr.mode.spsrIndex = some 2 ∧ sys.cpsr.mode.spsrIndex = none := by
  decide

/-- The value MSR CPSR_fc, #0x1F would leave in User mode: the flags byte only. -/
theorem witness_MsrCpsr_user : Cond.passes .al usr.cpsr = true ∧ (0x1F : Word) = ((0x1F : BitVec 8).setWidth 32).rotateRight (2 * (0 : BitVec 4).toNat) ∧
    (∀ b : Fin 32, (0x10 : Word).getLsbD b =
      if (9 : BitVec 4).getLsbD (b / 8) = true ∧ (28 ≤ b.val ∨ b.val < 8) ∧ (usr.cpsr.mode = .usr → 24 ≤ b.val) then (0x1F : Word).getLsbD b
      else usr.cpsr.word.getLsbD b) ∧
    (0x10 : Word).extractLsb' 0 5 = Mode.usr.bits ∧ (0x10 : Word).getLsbD 5 = usr.cpsr.t := by decide
/-- MSR CPSR_c, #0x10 from Supervisor mode changes the mode. -/
theorem witness_MsrCpsr_mode : (∀ b : Fin 32, (0x10 : Word).getLsbD b =
      if (1 : BitVec 4).getLsbD (b / 8) = true ∧ (28 ≤ b.val ∨ b.val < 8) ∧ (svc.cpsr.mode = .usr → 24 ≤ b.val) then (0x10 : Word).getLsbD b
      else svc.cpsr.word.getLsbD b) ∧ (0x10 : Word).extractLsb' 0 5 = Mode.usr.bits ∧ (0x10 : Word).getLsbD 5 = svc.cpsr.t := by decide
/-- MSR CPSR_c, #5 leaves no mode; MSR CPSR_c, #0x3F changes T. -/
theorem witness_MsrCpsr_refused : (∀ b : Fin 32, (0x05 : Word).getLsbD b =
      if (1 : BitVec 4).getLsbD (b / 8) = true ∧ (28 ≤ b.val ∨ b.val < 8) ∧ (sys.cpsr.mode = .usr → 24 ≤ b.val) then (0x05 : Word).getLsbD b
      else sys.cpsr.word.getLsbD b) ∧ (∀ m : Mode, (0x05 : Word).extractLsb' 0 5 ≠ m.bits) ∧
    (∀ b : Fin 32, (0x3F : Word).getLsbD b =
      if (1 : BitVec 4).getLsbD (b / 8) = true ∧ (28 ≤ b.val ∨ b.val < 8) ∧ (sys.cpsr.mode = .usr → 24 ≤ b.val) then (0x3F : Word).getLsbD b
      else sys.cpsr.word.getLsbD b) ∧ (0x3F : Word).extractLsb' 0 5 = Mode.sys.bits ∧ (0x3F : Word).getLsbD 5 ≠ sys.cpsr.t :=
  ⟨by decide, noMode (by decide), by decide, by decide, by decide⟩
theorem witness_MsrSpsr : Cond.passes .al svc.cpsr = true ∧ (0 : Reg) ≠ 15 ∧ svc.cpsr.mode.spsrIndex = some 2 ∧ sys.cpsr.mode.spsrIndex = none := by decide
theorem witness_LoadResults : Cond.passes .al sys.cpsr = true ∧ XferForm.defined .post (.reg 0 .ror 1) 2 ∧ XferForm.defined (.pre false) (.imm 4) 15 ∧
    XferForm.defined (.pre true) (.imm 4) 14 ∧ XferForm.defined .user (.imm 0xFFF) 0 ∧ (true = true → (14 : Reg) ≠ 15) ∧ (false = true → (15 : Reg) ≠ 15) :=
  ⟨rfl, ⟨fun _ => by decide, by decide, fun _ => by decide⟩, ⟨nofun, trivial⟩, ⟨fun _ => by decide, trivial⟩, ⟨fun _ => by decide, trivial⟩, by decide⟩
theorem witness_StoreResults : Cond.passes .al sys.cpsr = true ∧ XferForm.defined (.pre true) (.reg 31 .lsl 1) 0 ∧
    sys.refusesWrite 0x03007FFC .word = false ∧ sys.refusesWrite 0x040000B0 .byte = false ∧
    refusing.refusesWrite 0x040000B0 .word = true :=
  ⟨rfl, ⟨fun _ => by decide, by decide, fun _ => by decide⟩, by decide⟩
theorem witness_HalfLoadResults : Cond.passes .al sys.cpsr = true ∧ HalfOffset.defined (.reg 0 14) true true 0 ∧ HalfOffset.defined (.imm 0xFF) false false 0 ∧
    HalfOffset.defined (.imm 0) true false 15 :=
  ⟨rfl, ⟨nofun, fun _ => by decide, rfl, by decide, fun _ => by decide⟩, ⟨fun _ => rfl, fun _ => by decide, trivial⟩, ⟨nofun, nofun, trivial⟩⟩
theorem witness_HalfStoreResults : Cond.passes .al sys.cpsr = true ∧ HalfOffset.defined (.reg 0 1) false false 0 ∧ sys.refusesWrite 0x03007FFE .half = false ∧
    refusing.refusesWrite 0x040000B0 .half = true :=
  ⟨rfl, ⟨fun _ => rfl, fun _ => by decide, rfl, by decide, fun _ => by decide⟩, by decide⟩
theorem witness_SwapResults : Cond.passes .al sys.cpsr = true ∧ (0 : Reg) ≠ 15 ∧ (1 : Reg) ≠ 15 ∧ (0 : Reg) ≠ 1 ∧ sys.refusesWrite 0x03000000 .word = false ∧
    refusing.refusesWrite 0x040000B0 .word = true ∧ refusing.refusesWrite 0x040003FF .byte = true := by decide
theorem witness_UndefinedFormsRefused : Cond.passes .al sys.cpsr = true ∧
    (XferForm.writesBase .post = true ∧ XferForm.writesBase (.pre true) = true ∧ XferForm.writesBase .user = true) ∧
    (XferForm.writesBase (.pre false) = true → (15 : Reg) ≠ 15) ∧ (true = true → (14 : Reg) ≠ 15) ∧ (0 : Reg) ≠ 15 ∧ (1 : BitVec 4) ≠ 0 ∧
    (true = false → true = false) ∧ ((halfForm true false).writesBase = true → (15 : Reg) ≠ 15) ∧
    (halfForm true true).writesBase = true ∧ (halfForm false false).writesBase = true := by decide
theorem witness_UndefinedFormsRefused_undefined : ¬ XferForm.defined (.pre false) (.reg 0 .lsl 15) 0 ∧ ¬ XferForm.defined .post (.reg 0 .lsl 3) 3 ∧
    ¬ HalfOffset.defined (.reg 1 2) true false 0 ∧ ¬ HalfOffset.defined (.imm 0) false true 0 :=
  ⟨fun h => h.2.1 rfl, fun h => h.2.2 rfl rfl, fun h => absurd h.2.2.1 (by decide), fun h => absurd (h.1 rfl) (by decide)⟩
theorem witness_LdmResults : Cond.passes .al sys.cpsr = true ∧ (14 : Reg) ≠ 15 ∧ (0xFFFF : BitVec 16) ≠ 0 ∧ (0x8000 : BitVec 16) ≠ 0 ∧ (0 : BitVec 16) = 0 := by decide
theorem witness_UserBankResults : Cond.passes .al svc.cpsr = true ∧ (13 : Reg) ≠ 15 ∧ (svc.cpsr.mode ≠ .usr ∧ svc.cpsr.mode ≠ .sys) ∧ sys.cpsr.mode = .sys ∧
    ((0xFFFF : BitVec 16).setWidth 15 : BitVec 15) ≠ 0 ∧ ((0x8000 : BitVec 16).setWidth 15 : BitVec 15) = 0 ∧ (0x8000 : BitVec 16) ≠ 0 ∧
    svc.refusesWrite 0x03000000 .word = false := by decide
theorem witness_UserBankResults_accepted : Accepted svc (blockWords (slotOf false true 0x03000000 0x8001) (fun _ => 0) 0x8001) :=
  accepted_of (by decide)
theorem witness_UserBankResults_refused : ¬ Accepted { svc with params := refusing.params } (blockWords (slotOf false true 0x040000AC 0x8001) (fun _ => 0) 0x8001) :=
  refused_of (by decide)
theorem witness_LdmReturnResults : Cond.passes .al svc.cpsr = true ∧ (13 : Reg) ≠ 15 ∧ svc.cpsr.mode.spsrIndex = some 2 ∧ svc.spsr[2].m = Mode.usr.bits ∧
    sys.cpsr.mode.spsrIndex = none ∧ State.reset.cpsr.mode.spsrIndex = some 2 ∧ Mode.ofBits State.reset.spsr[2].m = none := by
  decide
theorem witness_StmResults : Cond.passes .al sys.cpsr = true ∧ (13 : Reg) ≠ 15 ∧
    Accepted sys (blockWords (slotOf true false 0x03007F00 0xFFFF) (fun _ => 7) 0xFFFF) ∧
    Accepted sys [(blockBaseAddr true false 0x03007F00 16 &&& 0xFFFFFFFC, sys.pc + 12)] :=
  ⟨by decide, by decide, accepted_of (by decide), accepted_of (by decide)⟩
theorem witness_StmResults_refused : ¬ Accepted refusing (blockWords (slotOf true false 0x040000B4 0x8000) (fun _ => 7) 0x8000) ∧
    ¬ Accepted refusing [(blockBaseAddr false true 0x040000B0 16 &&& 0xFFFFFFFC, refusing.pc + 12)] :=
  ⟨refused_of (by decide), refused_of (by decide)⟩
theorem witness_ArmBranches : Cond.passes .al sys.cpsr = true ∧ Cond.passes .pl sys.cpsr = true := by decide
theorem witness_ExceptionInstructions : Cond.passes .al usr.cpsr = true ∧ (∃ imm24, Instr.swi .al 0xFFFFFF = .swi .al imm24) ∧
    (∃ body, Instr.undMulspace .al 0x1C00090 = .undMulspace .al body) ∧ (∃ value8, Instr.tSwi 0xFF = .tSwi value8) ∧
    ∃ body, Instr.tUndB 0x100 = .tUndB body := ⟨rfl, ⟨_, rfl⟩, ⟨_, rfl⟩, ⟨_, rfl⟩, ⟨_, rfl⟩⟩
theorem witness_ThumbCompares : ∃ flags : Cpsr → Prop, (Instr.tTst 7 0, flags) ∈
    [(Instr.tCmpImm 0 0xFF, fun p => ArithFlags .sub p (sys.reg 4 (lo 0)) 0xFF sys.cpsr.c),
      (.tTst 7 0, fun p => LogicFlags sys.cpsr p (sys.reg 4 (lo 0) &&& sys.reg 4 (lo 7)) sys.cpsr.c)] :=
  ⟨_, .tail _ (.head _)⟩
theorem witness_ThumbHiRegisters : (15 : Reg) = 15 ∧ (14 : Reg) ≠ 15 ∧ (Instr.tMovHi 15 14, sys.reg 4 14) ∈
    [(Instr.tAddHi 15 14, sys.reg 4 15 + sys.reg 4 14), (.tMovHi 15 14, sys.reg 4 14)] := by decide
theorem witness_ThumbStores : sys.refusesWrite 0x03007FFC .word = false ∧
    refusing.refusesWrite 0x040000B0 .word = true := by decide
theorem witness_ThumbAddresses : (Instr.tSubSpimm 0x7F, (13 : Reg), sys.reg 4 13 - (0x7F : BitVec 7).setWidth 32 * 4) ∈
    [(Instr.tAddSpimm 0x7F, (13 : Reg), sys.reg 4 13 + (0x7F : BitVec 7).setWidth 32 * 4),
      (.tSubSpimm 0x7F, 13, sys.reg 4 13 - (0x7F : BitVec 7).setWidth 32 * 4)] := by decide
theorem witness_ThumbStack : (true = false → (0 : BitVec 8) ≠ 0) ∧ (false = false → (0xFF : BitVec 8) ≠ 0) ∧
    Accepted sys (blockWords (slotOf true false (sys.reg 4 13) 0x40FF) (sys.reg 4) 0x40FF) := ⟨by decide, by decide, accepted_of (by decide)⟩
theorem witness_ThumbStack_refused : ¬ Accepted (refusing.setReg 13 0x040000B4)
    (blockWords (slotOf true false ((refusing.setReg 13 0x040000B4).reg 4 13) 0x4001) ((refusing.setReg 13 0x040000B4).reg 4) 0x4001) :=
  refused_of (by decide)
theorem witness_ThumbBlocks_refused : ¬ Accepted refusing (blockWords (slotOf false true 0x040000AC 0x81) (fun _ => 1) 0x81) :=
  refused_of (by decide)
theorem witness_ThumbBlocks : (0 : BitVec 8) = 0 ∧ (0x81 : BitVec 8) ≠ 0 ∧
    Accepted sys (blockWords (slotOf false true 0x03000000 0x81) (fun _ => 1) 0x81) := ⟨by decide, by decide, accepted_of (by decide)⟩
theorem witness_ThumbBranches : Cond.passes .ne sys.cpsr = true ∧ Cond.passes .eq sys.cpsr = false := by decide

end Sys2Proof.Tests
end

section
/-! SUPPORT. Memory as bytes (20_memory): a read is the number its bytes make, and a store to RAM reads back byte by byte. -/

namespace Sys2Proof.Machine

open Sys2Proof

/-! ### Reads are little-endian -/

/-- The number of `hi : lo` (00_scope R9). -/
theorem toNat_join {n m k : Nat} (hi : BitVec n) (lo : BitVec m) (h : n + m ≤ k) :
    (join k hi lo).toNat = lo.toNat + 2 ^ m * hi.toNat := by
  have hlo : lo.toNat < 2 ^ m := lo.isLt
  have happend : join k hi lo = (hi ++ lo).setWidth k := by
    simp [join, BitVec.setWidth_append_eq_shiftLeft_setWidth_or]
  rw [happend, BitVec.toNat_setWidth_of_le h, BitVec.toNat_append, ← Nat.shiftLeft_add_eq_or_of_lt hlo, Nat.shiftLeft_eq]
  ring

theorem memRead_byte_toNat (s : State) (acc : Access) (a : Word) :
    (s.memRead acc a .byte).toNat = (s.readByte acc a).toNat :=
  BitVec.toNat_setWidth_of_le (by decide)

theorem memRead_half_toNat (s : State) (acc : Access) (a : Word) :
    (s.memRead acc a .half).toNat = (s.readByte acc a).toNat + 2 ^ 8 * (s.readByte acc (a + 1)).toNat := by
  rw [State.memRead, BitVec.toNat_setWidth_of_le (by decide), toNat_join _ _ (by decide)]

theorem memRead_word_toNat (s : State) (acc : Access) (a : Word) :
    (s.memRead acc a .word).toNat = (s.readByte acc a).toNat + 2 ^ 8 * (s.readByte acc (a + 1)).toNat +
      2 ^ 16 * (s.readByte acc (a + 2)).toNat + 2 ^ 24 * (s.readByte acc (a + 3)).toNat := by
  rw [State.memRead, toNat_join _ _ (by decide), toNat_join _ _ (by decide), toNat_join _ _ (by decide)]

/-! ### The places of RAM -/

/-- The region that `storagePlace` numbers n (20 R202). -/
def ramRegion : Nat → Region
  | 2 => .ewram
  | 3 => .iwram
  | 5 => .pal
  | 6 => .vram
  | _ => .oam

/-- The regions of RAM: none with registers, none read-only, none unmapped. -/
theorem ramRegion_cases (n : Nat) :
    ramRegion n = .ewram ∨ ramRegion n = .iwram ∨ ramRegion n = .pal ∨ ramRegion n = .vram ∨ ramRegion n = .oam := by
  unfold ramRegion
  split <;> decide

/-- The model's decode of an address of RAM is its place in exact arithmetic (20 R203). -/
theorem decodeAddr_of_storagePlace (romLen : Nat) {a : Word} {n o : Nat} (h : storagePlace a = some (n, o)) :
    decodeAddr romLen a = (ramRegion n, o) := by
  rw [decodeAddr_nat]
  dsimp only [storagePlace] at h
  split at h <;> cases h
  all_goals
    rename_i hregion
    simp only [hregion, ramRegion]

/-- The bytes of an aligned access stand side by side: they share a word, in which no region, mirror or fold begins
(20 R203). -/
theorem storagePlace_add (w : Width) {a : Word} {n o j : Nat} (h : storagePlace a = some (n, o))
    (haligned : a.toNat % w.bytes = 0) (hj : j < w.bytes) : storagePlace (a + BitVec.ofNat 32 j) = some (n, o + j) := by
  have hword : a.toNat % 4 + j < 4 := by
    cases w <;> simp only [Width.bytes] at haligned hj <;> omega
  have hsum : (a + BitVec.ofNat 32 j).toNat = a.toNat + j := add_toNat a j (by omega)
  have hregion : (a.toNat + j) / 0x1000000 = a.toNat / 0x1000000 := by omega
  have hfold : (if 0x18000 ≤ (a.toNat + j) % 0x20000 then (a.toNat + j) % 0x20000 - 0x8000 else (a.toNat + j) % 0x20000) =
      (if 0x18000 ≤ a.toNat % 0x20000 then a.toNat % 0x20000 - 0x8000 else a.toNat % 0x20000) + j := by
    split_ifs <;> omega
  dsimp only [storagePlace] at h ⊢
  rw [hsum, hregion]
  split at h <;> cases h
  all_goals
    simp only [Option.some.injEq, Prod.mk.injEq, true_and]
    omega

/-! ### Stores to RAM -/

section
variable {s : State} {a : Word} {n o : Nat} (h : decodeAddr s.romLen a = (ramRegion n, o))
include h

/-- A byte of RAM is read from its cell (20 R203). -/
theorem readByte_ram (acc : Access) : s.readByte acc a = s.mem.read ((ramRegion n).base + o) := by
  rw [State.readByte, h]
  rcases ramRegion_cases n with e | e | e | e | e <;> rw [e]

/-- A byte of a halfword or word store to RAM fills its cell (20 R208 to R211). -/
theorem writePlain_ram (x : Byte) :
    s.writePlain a x = { s with mem := s.mem.write ((ramRegion n).base + o) x } := by
  rw [State.writePlain, h]
  rcases ramRegion_cases n with e | e | e | e | e <;> rw [e]

/-- A byte stored at a place of RAM reads back at every address of that place. -/
theorem readByte_writePlain_same (acc : Access) {b : Word} (hb : decodeAddr s.romLen b = (ramRegion n, o)) (x : Byte) :
    (s.writePlain a x).readByte acc b = x := by
  rw [readByte_ram (n := n) (o := o) (by simpa using hb), writePlain_ram h, Memory.read_write, if_pos rfl]

end

/-- The low bytes of v stored one by one from a on, each where it stands. -/
def State.writeBytes (s : State) (a v : Word) : Nat → State
  | 0 => s
  | count + 1 => (s.writeBytes a v count).writePlain (a + BitVec.ofNat 32 count) (getByte v count)

@[simp] theorem State.writeBytes_romLen (s : State) (a v : Word) (count : Nat) :
    (s.writeBytes a v count).romLen = s.romLen := by
  induction count with
  | zero => rfl
  | succ count ih => rw [State.writeBytes, State.writePlain_romLen, ih]

/-- A byte store to EWRAM or IWRAM is plain: not doubled and not ignored (20 R208). -/
theorem writeByte_workRam (s : State) {a : Word} {n o : Nat} (h : decodeAddr s.romLen a = (ramRegion n, o))
    (hn : n = 2 ∨ n = 3) (x : Byte) : s.writeByte a x = s.writePlain a x := by
  rw [State.writeByte, h]
  rcases hn with rfl | rfl <;> rfl

/-- A store to RAM puts the bytes of its value in place one by one; a byte store only in EWRAM and IWRAM (20 R208 to R211). -/
theorem memWrite_eq_writeBytes (s : State) (w : Width) {a : Word} {n o : Nat} (v : Word)
    (h : decodeAddr s.romLen a = (ramRegion n, o)) (hbyte : w = .byte → n = 2 ∨ n = 3) :
    s.memWrite a w v = s.writeBytes a v w.bytes := by
  have hzero : a + BitVec.ofNat 32 0 = a := BitVec.add_zero a
  cases w with
  | byte => simp only [State.memWrite, Width.bytes, State.writeBytes, hzero, writeByte_workRam s h (hbyte rfl)]
  | half => simp only [State.memWrite, Width.bytes, State.writeBytes, hzero]; rfl
  | word => simp only [State.memWrite, Width.bytes, State.writeBytes, hzero]; rfl

/-- Byte k stored by `writeBytes` reads back at every address of its place: the bytes after it go to other places. -/
theorem readByte_writeBytes (s : State) (acc : Access) (a b v : Word) {n o k : Nat} (count : Nat)
    (hplaces : ∀ j < count, decodeAddr s.romLen (a + BitVec.ofNat 32 j) = (ramRegion n, o + j))
    (hb : decodeAddr s.romLen b = (ramRegion n, o + k)) (hk : k < count) :
    (s.writeBytes a v count).readByte acc b = getByte v k := by
  induction count with
  | zero => omega
  | succ count ih =>
    have hlast := hplaces count (by omega)
    rw [State.writeBytes]
    by_cases hkc : k = count
    · subst hkc
      exact readByte_writePlain_same (by simpa using hlast) acc (by simpa using hb) _
    · have hother : decodeAddr s.romLen b ≠ decodeAddr s.romLen (a + BitVec.ofNat 32 count) := by simp [hb, hlast, hkc]
      rw [readByte_writePlain _ _ _ _ _ (by simpa using hother)]
      exact ih (fun j hj => hplaces j (by omega)) (by omega)

/-- Settles O14: reads by the number of their joined bytes; a store to RAM as its bytes stored in turn, of which byte k is
overwritten by none of the later ones. -/
theorem ramReadsBack : Obligations.RamReadsBack := by
  unfold Obligations.RamReadsBack
  refine ⟨fun s acc a => ⟨memRead_byte_toNat s acc a, memRead_half_toNat s acc a, memRead_word_toNat s acc a⟩, ?_⟩
  intro s acc w a b v k region o hk haligned ha hb hbyte
  have hplaces : ∀ j < w.bytes, decodeAddr s.romLen (a + BitVec.ofNat 32 j) = (ramRegion region, o + j) :=
    fun j hj => decodeAddr_of_storagePlace _ (storagePlace_add w ha haligned hj)
  rw [memWrite_eq_writeBytes s w v (decodeAddr_of_storagePlace _ ha) hbyte]
  exact readByte_writeBytes s acc a b v w.bytes hplaces (decodeAddr_of_storagePlace _ hb) hk

end Sys2Proof.Machine
end

section
/-! SUPPORT. The invariant of the step: what each shape of an instruction's outcome, interrupt sampling and the end of a tick
keep of it. -/

namespace Sys2Proof.Machine

open Sys2Proof

/-! ### Instructions -/

/-- Only a store writes memory, and it keeps the canonical form. -/
theorem Outcome.wf {i : Instr} {s t : State} (h : Outcome i s t) (hmem : s.mem.wf = true) : t.mem.wf = true := by
  cases h with
  | kept hkept => rw [hkept.mem]; exact hmem
  | stored _ hstored => exact hstored.wf hmem
  | exchanged v => exact hmem
  | took kind link => exact hmem
  | returned u k c v _ hkept =>
    have hu : u.mem = s.mem := hkept.mem
    rw [State.setPc_mem, State.setCpsr_mem, hu]
    exact hmem
  | psr _ hpsr => rw [hpsr.mem]; exact hmem

/-- The pc an instruction leaves is aligned to the instruction state it leaves (10_state R105, R111): BX, exceptions and returns
align their target by the new T, every other instruction keeps T. -/
theorem Outcome.pcAligned {i : Instr} {s t : State} (h : Outcome i s t) (hthumb : i.isThumb = true → s.cpsr.t = true)
    (hpc : s.pcAligned) : t.pcAligned := by
  cases h with
  | kept hkept =>
    obtain ⟨_, _, _, hstate⟩ := hkept.control
    exact hkept.pc.aligned hstate hthumb hpc
  | stored _ hstored =>
    obtain ⟨_, _, _, hstate⟩ := hstored.control
    exact hstored.pc.aligned hstate hthumb hpc
  | exchanged v => exact State.pcAligned_of rfl
  | took kind link => exact State.pcAligned_of rfl
  | returned u k c v => exact State.pcAligned_of rfl
  | psr _ hpsr =>
    have hnext : NextPc false s t := .inl hpsr.pc
    exact hnext.aligned hpsr.state (by simp) hpc

/-- No instruction touches the debugger or the parameters. -/
theorem Outcome.sameOutside {i : Instr} {s t : State} (h : Outcome i s t) : SameOutside s t := by
  cases h with
  | kept hkept => exact hkept.outside
  | stored _ hstored => exact hstored.outside
  | exchanged v => exact ⟨rfl, rfl, rfl, rfl, rfl, rfl⟩
  | took kind link => exact ⟨rfl, rfl, rfl, rfl, rfl, rfl⟩
  | returned u k c v _ hkept => exact hkept.outside
  | psr _ hpsr => exact hpsr.outside

/-! ### The parts of a tick -/

/-- The halt test touches nothing the invariant speaks of. -/
theorem State.Inv.wake {s : State} (h : s.Inv) : s.wake.Inv := by
  simpa [State.Inv, State.pcAligned] using h

/-- An exception goes to a word address in ARM state. -/
theorem State.Inv.takeException {s : State} (h : s.Inv) (kind : ExcKind) (link : Word) : (s.takeException kind link).Inv := by
  obtain ⟨hmem, _, hhistory⟩ := h
  exact ⟨hmem, State.pcAligned_of rfl, hhistory⟩

theorem State.Inv.sampleInterrupts {s : State} (h : s.Inv) : s.sampleInterrupts.Inv := by
  rcases s.sampleInterrupts_cases with e | e | e <;> rw [e]
  · exact h
  · exact h.takeException _ _
  · exact h.takeException _ _

/-- The fetched instruction has the width of the instruction state, so that its pc stays aligned (20 R214). -/
theorem State.Inv.exec_fetch {s t : State} (h : s.Inv) (hexec : exec (decode s.fetch) s = .next t) : t.Inv := by
  obtain ⟨hmem, hpc, hhistory⟩ := h
  have hout := exec_outcome _ _ _ hexec
  have hthumb : (decode s.fetch).isThumb = true → s.cpsr.t = true := fun e => s.isThumb_fetch ▸ e
  obtain ⟨_, _, hparams, hdebugger, _⟩ := hout.sameOutside
  exact ⟨hout.wf hmem, hout.pcAligned hthumb hpc, by rw [hparams, hdebugger]; exact hhistory⟩

/-- The end of a tick cuts the history to PC_HISTORY_LEN (60 R1244). -/
theorem State.Inv.retire {s : State} (h : s.Inv) (a : Word) : (s.retire a).Inv := by
  obtain ⟨hmem, hpc, _⟩ := h
  refine ⟨by simpa using hmem, by simpa [State.pcAligned] using hpc, ?_⟩
  rw [State.retire_params]
  exact s.retire_history_length a

/-- The breakpoint check sets a flag. -/
theorem State.Inv.checkBreakpoint {s : State} (h : s.Inv) : s.checkBreakpoint.Inv := by
  unfold State.checkBreakpoint
  split <;> exact h

/-- Settles O8: the invariant passes through the halt test, then through the breakpoint check of a halted tick or through
interrupt sampling, the fetched instruction and the end of the tick. -/
theorem stepKeepsInvariant : Obligations.StepKeepsInvariant := by
  unfold Obligations.StepKeepsInvariant
  intro s t hs hstep
  rcases step_cases hstep with ⟨_, rfl⟩ | ⟨_, u, hexec, rfl⟩
  · exact hs.wake.checkBreakpoint
  · exact (hs.wake.sampleInterrupts.exec_fetch hexec).retire _

end Sys2Proof.Machine
end

section
/-! SUPPORT. The I/O registers at their addresses (10_state R114 to R127): which byte of which register stands at an address, what
a load finds there and what a store of each width leaves, register by register. -/

namespace Sys2Proof.Machine

open Sys2Proof

/-! ### Addresses -/

/-- Address a is one of the 1024 of I/O space (20 R203). -/
abbrev InIoSpace (a : Word) : Prop := a.toNat / 0x400 = 0x10000

/-- Byte k of register r stands at address a (R127). -/
abbrev ByteAt (a : Word) (r : IoReg) (k : Nat) : Prop := InIoSpace a ∧ ioReg (a.toNat % 0x400) = some (r, k)

/-- Bytes k and k + 1 of register r stand from address a on. -/
abbrev HalfAt (a : Word) (r : IoReg) (k : Nat) : Prop := ByteAt a r k ∧ ByteAt (a + 1) r (k + 1)

/-- Bytes 0 to 3 of register r stand from address a on. -/
abbrev WordAt (a : Word) (r : IoReg) : Prop := HalfAt a r 0 ∧ HalfAt (a + 2) r 2

theorem decodeAddr_io (romLen : Nat) {a : Word} (h : InIoSpace a) : decodeAddr romLen a = (.io, a.toNat % 0x400) := by
  have hregion : a.toNat / 0x1000000 = 4 := by omega
  rw [decodeAddr_nat, hregion]
  exact if_pos (by omega)

/-- The decode of an I/O address forgets nothing: I/O space has no mirrors. -/
theorem eq_of_decodeAddr_io (romLen : Nat) {a b : Word} (ha : InIoSpace a) (h : decodeAddr romLen b = decodeAddr romLen a) :
    b = a := by
  rw [decodeAddr_io _ ha, decodeAddr_nat] at h
  split at h
  case h_4 =>
    split at h
    · simp only [Prod.mk.injEq, true_and] at h
      exact BitVec.eq_of_toNat_eq (by omega)
    · cases h
  all_goals (try split at h) <;> cases h

/-- An offset with a register is in the table of R127. -/
theorem inRegisterTable_of_ioReg {o : Nat} {p : IoReg × Nat} (h : ioReg o = some p) : inRegisterTable o := by
  have hhalf : ioHalf (o - o % 2) ≠ none := by
    intro hnone
    rw [ioReg, hnone] at h
    cases h
  unfold ioHalf at hhalf
  unfold inRegisterTable
  split at hhalf
  case h_40 => exact absurd rfl hhalf
  all_goals omega

theorem ioReg_none {o : Nat} (h : ¬ inRegisterTable o) : ioReg o = none :=
  Option.eq_none_iff_forall_ne_some.2 fun _ hp => h (inRegisterTable_of_ioReg hp)

/-! ### Bytes -/

theorem readByte_byteAt (s : State) (acc : Access) {a : Word} {r : IoReg} {k : Nat} (h : ByteAt a r k) :
    s.readByte acc a = s.io.readReg r k (Config.draw s.draws (.ioRead acc (a.toNat % 0x400))) := by
  rw [State.readByte, decodeAddr_io _ h.1]
  simp only [State.readIo, h.2]

theorem writePlain_io (s : State) {a : Word} (h : InIoSpace a) (b : Byte) : s.writePlain a b = s.writeIo (a.toNat % 0x400) b := by
  rw [State.writePlain, decodeAddr_io _ h]

/-- In I/O space a byte store is plain (20 R212). -/
theorem memWrite_byte_io (s : State) {a : Word} (h : InIoSpace a) (v : Word) :
    s.memWrite a .byte v = s.writePlain a (getByte v 0) := by
  rw [State.memWrite, State.writeByte, decodeAddr_io _ h]

/-- HALTCNT has one byte and shares its halfword with POSTFLG: no two bytes of it stand side by side. -/
theorem HalfAt.ne_haltcnt {a : Word} {r : IoReg} {k : Nat} (h : HalfAt a r k) : r ≠ .haltcnt := by
  rintro rfl
  obtain ⟨-, -, hreg⟩ := h
  have hhalf : ∀ o j, ioHalf o ≠ some (.haltcnt, j) := by
    intro o j
    unfold ioHalf
    split <;> simp
  unfold ioReg at hreg
  split at hreg
  case h_1 => simp at hreg
  case h_2 r' j _ heq =>
    simp only [Option.some.injEq, Prod.mk.injEq] at hreg
    exact hhalf _ j (hreg.1 ▸ heq)
  case h_3 => cases hreg

theorem writePlain_byteAt (s : State) {a : Word} {r : IoReg} {k : Nat} (h : ByteAt a r k) (hr : r ≠ .haltcnt) (b : Byte) :
    s.writePlain a b = { s with io := s.io.writeReg r k b } := by
  rw [writePlain_io s h.1, State.writeIo, h.2]
  split
  case h_1 heq => cases heq; exact absurd rfl hr
  case h_2 heq => cases heq; rfl
  case h_3 heq => cases heq

theorem writePlain_haltcnt (s : State) {a : Word} {k : Nat} (h : ByteAt a .haltcnt k) (b : Byte) :
    s.writePlain a b = { s with halt := if b.msb then .stop else .halt } := by
  rw [writePlain_io s h.1, State.writeIo, h.2]

/-- A byte stored at an unmodelled offset goes to its cell (R126). -/
theorem memWrite_byte_unmodelled (s : State) {a : Word} (h : InIoSpace a) (hreg : ioReg (a.toNat % 0x400) = none) (v : Word) :
    s.memWrite a .byte v = { s with mem := s.mem.write (Region.io.base + a.toNat % 0x400) (getByte v 0) } := by
  rw [memWrite_byte_io s h, writePlain_io s h, State.writeIo, hreg]

theorem readByte_unmodelled (s : State) (acc : Access) {a : Word} (h : InIoSpace a) (hreg : ioReg (a.toNat % 0x400) = none) :
    s.readByte acc a = s.mem.read (Region.io.base + a.toNat % 0x400) := by
  rw [State.readByte, decodeAddr_io _ h]
  simp only [State.readIo, hreg]

theorem getByte_zero {n : Nat} (v : BitVec n) : getByte v 0 = v.setWidth 8 := by
  apply BitVec.eq_of_getLsbD_eq
  intro i hi
  rw [getLsbD_getByte, BitVec.getLsbD_setWidth, Nat.mul_zero, Nat.zero_add]

/-- A byte stored at an unmodelled offset reads back, and no other byte of any address changes (R126). -/
theorem memWrite_byte_unmodelled_cell (s : State) (acc : Access) {a : Word} (h : InIoSpace a)
    (hreg : ioReg (a.toNat % 0x400) = none) (v : Word) : let t := s.memWrite a .byte v
    t.readByte acc a = v.setWidth 8 ∧ (∀ b, b ≠ a → t.readByte acc b = s.readByte acc b) ∧ t = { s with mem := t.mem } := by
  have hwrite := memWrite_byte_unmodelled s h hreg v
  refine ⟨?_, fun b hb => ?_, ?_⟩
  · rw [hwrite, readByte_unmodelled _ acc h hreg, Memory.read_write, if_pos rfl, getByte_zero]
  · have hplaces : storePlaces s.romLen .byte a = [decodeAddr s.romLen a] := by
      rw [storePlaces, decodeAddr_io _ h]
    refine readByte_memWrite s acc a b .byte v fun hmem => hb (eq_of_decodeAddr_io s.romLen h ?_)
    rwa [hplaces, List.mem_singleton] at hmem
  · rw [hwrite]

/-! ### Registers that read 0 -/

/-- The write-only registers (R127). -/
def IoReg.readsZero : IoReg → Bool
  | .bgHofs _ | .bgVofs _ | .affA _ | .affB _ | .affC _ | .affD _ | .affX _ | .affY _ | .mosaic | .haltcnt => true
  | _ => false

theorem Io.readReg_readsZero (io : Io) {r : IoReg} (h : r.readsZero = true) (k : Nat) (d : Word) : io.readReg r k d = 0 := by
  unfold IoReg.readsZero at h
  split at h
  case h_11 => cases h
  all_goals rfl

/-- A byte of a write-only register stands at address a. -/
abbrev ZeroAt (a : Word) : Prop := InIoSpace a ∧ (ioReg (a.toNat % 0x400)).any (fun p => p.1.readsZero) = true

theorem readByte_zeroAt (s : State) (acc : Access) {a : Word} (h : ZeroAt a) : s.readByte acc a = 0 := by
  obtain ⟨hspace, hany⟩ := h
  obtain ⟨⟨r, k⟩, hreg, hzero⟩ := (Option.any_eq_true _ _).1 hany
  rw [readByte_byteAt s acc ⟨hspace, hreg⟩, Io.readReg_readsZero _ hzero]

theorem memRead_half_zeroAt (s : State) (acc : Access) {a : Word} (h : ZeroAt a ∧ ZeroAt (a + 1)) :
    s.memRead acc a .half = 0 := by
  obtain ⟨h0, h1⟩ := h
  rw [State.memRead, readByte_zeroAt s acc h0, readByte_zeroAt s acc h1]
  rfl

/-- The four bytes from address a on belong to write-only registers. -/
abbrev ZeroWordAt (a : Word) : Prop := ZeroAt a ∧ ZeroAt (a + 1) ∧ ZeroAt (a + 2) ∧ ZeroAt (a + 3)

theorem memRead_word_zeroAt (s : State) (acc : Access) {a : Word} (h : ZeroWordAt a) : s.memRead acc a .word = 0 := by
  obtain ⟨h0, h1, h2, h3⟩ := h
  rw [State.memRead, readByte_zeroAt s acc h0, readByte_zeroAt s acc h1, readByte_zeroAt s acc h2, readByte_zeroAt s acc h3]
  rfl

/-! ### Halves of a register -/

/-- A register with its bytes k and k + 1 replaced by the low halfword of v. -/
def setHalf {n : Nat} (x : BitVec n) (k : Nat) (v : Word) : BitVec n :=
  setByte (setByte x k (getByte v 0)) (k + 1) (getByte v 1)

theorem setByte_setByte {n : Nat} (x : BitVec n) (k : Nat) (v : Word) :
    setByte (setByte x k (getByte v 0)) (k + 1) (getByte v 1) = setHalf x k v := rfl

/-- Bit i of a register with its halfword at byte k replaced. -/
theorem getLsbD_setHalf {n : Nat} (x : BitVec n) (k : Nat) (v : Word) {i : Nat} (hi : i < n) :
    (setHalf x k v).getLsbD i = if 8 * k ≤ i ∧ i < 8 * k + 16 then v.getLsbD (i - 8 * k) else x.getLsbD i := by
  rw [setHalf, getLsbD_setByte _ _ _ _ hi, getLsbD_setByte _ _ _ _ hi, getLsbD_getByte, getLsbD_getByte]
  by_cases hlow : 8 * k ≤ i ∧ i < 8 * k + 8
  · rw [if_neg (by omega), if_pos hlow, if_pos (by omega), decide_eq_true (by omega), Nat.mul_zero, Nat.zero_add, Bool.true_and]
  · by_cases hhigh : 8 * (k + 1) ≤ i ∧ i < 8 * (k + 1) + 8
    · rw [if_pos hhigh, if_pos (by omega), decide_eq_true (by omega), Bool.true_and,
        show 8 * 1 + (i - 8 * (k + 1)) = i - 8 * k by omega]
    · rw [if_neg hhigh, if_neg hlow, if_neg (by omega)]

theorem setHalf_eq_setWidth (x : Half) (v : Word) : setHalf x 0 v = v.setWidth 16 := by
  apply BitVec.eq_of_getLsbD_eq
  intro i hi
  rw [getLsbD_setHalf _ _ _ hi, BitVec.getLsbD_setWidth]
  simp [hi]

theorem getLsbD_lowMask {i : Nat} (hi : i < 32) : (0x0000FFFF : Word).getLsbD i = decide (i < 16) :=
  (show ∀ j : Fin 32, (0x0000FFFF : Word).getLsbD j = decide (j.val < 16) by decide) ⟨i, hi⟩

theorem getLsbD_highMask {i : Nat} (hi : i < 32) : (0xFFFF0000 : Word).getLsbD i = decide (16 ≤ i) :=
  (show ∀ j : Fin 32, (0xFFFF0000 : Word).getLsbD j = decide (16 ≤ j.val) by decide) ⟨i, hi⟩

theorem getLsbD_withLow (x v : Word) {i : Nat} (hi : i < 32) :
    (withLow x v).getLsbD i = if i < 16 then v.getLsbD i else x.getLsbD i := by
  rw [withLow, BitVec.getLsbD_or, BitVec.getLsbD_and, BitVec.getLsbD_and, getLsbD_lowMask hi, getLsbD_highMask hi]
  by_cases h : i < 16
  · simp [h]
  · simp [h, Nat.le_of_not_lt h]

theorem getLsbD_withHigh (x v : Word) {i : Nat} (hi : i < 32) :
    (withHigh x v).getLsbD i = if i < 16 then x.getLsbD i else v.getLsbD (i - 16) := by
  change ((x &&& (0x0000FFFF : Word)) ||| (v <<< 16)).getLsbD i = _
  rw [BitVec.getLsbD_or, BitVec.getLsbD_and, BitVec.getLsbD_shiftLeft, getLsbD_lowMask hi]
  by_cases h : i < 16
  · simp [h]
  · simp [h, hi]

theorem setHalf_eq_withLow (x v : Word) : setHalf x 0 v = withLow x v := by
  apply BitVec.eq_of_getLsbD_eq
  intro i hi
  rw [getLsbD_setHalf _ _ _ hi, getLsbD_withLow _ _ hi]
  simp

theorem setHalf_eq_withHigh (x v : Word) : setHalf x 2 v = withHigh x v := by
  apply BitVec.eq_of_getLsbD_eq
  intro i hi
  rw [getLsbD_setHalf _ _ _ hi, getLsbD_withHigh _ _ hi]
  by_cases h : i < 16
  · rw [if_neg (by omega), if_pos h]
  · rw [if_pos (by omega), if_neg h]

/-- The two halves of v make v. -/
theorem withHigh_withLow (x v : Word) : withHigh (withLow x v) (v >>> 16) = v := by
  apply BitVec.eq_of_getLsbD_eq
  intro i hi
  rw [getLsbD_withHigh _ _ hi, getLsbD_withLow _ _ hi, BitVec.getLsbD_ushiftRight]
  by_cases h : i < 16
  · rw [if_pos h, if_pos h]
  · rw [if_neg h, show 16 + (i - 16) = i by omega]

/-- The two bytes of a halfword make it. -/
theorem join_getByte (x : Half) : join 16 (getByte x 1) (getByte x 0) = x := by
  apply BitVec.eq_of_toNat_eq
  have hx := x.isLt
  rw [toNat_join _ _ (by decide), getByte, getByte, BitVec.extractLsb'_toNat, BitVec.extractLsb'_toNat,
    Nat.shiftRight_eq_div_pow, Nat.shiftRight_eq_div_pow]
  omega

/-! ### Halfword writes, register by register -/

/-- The registers after the CPU writes the low halfword of v to bytes k and k + 1 of r. -/
def Io.writeHalf (io : Io) (r : IoReg) (k : Nat) (v : Word) : Io :=
  (io.writeReg r k (getByte v 0)).writeReg r (k + 1) (getByte v 1)

theorem memWrite_half_halfAt {s : State} {a : Word} {r : IoReg} {k : Nat} {v : Word} {io : Io} (h : HalfAt a r k)
    (hio : s.io.writeHalf r k v = io) : s.memWrite a .half v = { s with io := io } := by
  rw [State.memWrite, writePlain_byteAt s h.1 h.ne_haltcnt, writePlain_byteAt _ h.2 h.ne_haltcnt, ← hio]
  rfl

theorem add_two_add_one (a : Word) : a + 2 + 1 = a + 3 := by
  rw [BitVec.add_assoc]; rfl

/-- A word store is the store of its two halves (00_scope R12). -/
theorem memWrite_word_eq_halves (s : State) (a v : Word) :
    s.memWrite a .word v = (s.memWrite a .half v).memWrite (a + 2) .half (v >>> 16) := by
  have hb : ∀ k, getByte (v >>> 16) k = getByte v (k + 2) := by
    intro k
    apply BitVec.eq_of_getLsbD_eq
    intro i hi
    rw [getLsbD_getByte, getLsbD_getByte, BitVec.getLsbD_ushiftRight, show 16 + (8 * k + i) = 8 * (k + 2) + i by omega]
  simp only [State.memWrite, add_two_add_one, hb]

theorem memWrite_word_wordAt {s : State} {a : Word} {r : IoReg} {v : Word} {io : Io} (h : WordAt a r)
    (hio : (s.io.writeHalf r 0 v).writeHalf r 2 (v >>> 16) = io) : s.memWrite a .word v = { s with io := io } := by
  rw [memWrite_word_eq_halves, memWrite_half_halfAt h.1 rfl]
  exact memWrite_half_halfAt h.2 hio

theorem Io.onBg_onBg (io : Io) (n : Fin 4) (f g : Bg → Bg) : (io.onBg n f).onBg n g = io.onBg n fun x => g (f x) := by
  simp [Io.onBg]

theorem Io.onAff_onAff (io : Io) (m : Fin 2) (f g : Affine → Affine) :
    (io.onAff m f).onAff m g = io.onAff m fun x => g (f x) := by
  simp [Io.onAff]

section
variable (io : Io) (v : Word) (n : Fin 4) (m : Fin 2)

@[simp] theorem Io.writeHalf_dispcnt : io.writeHalf .dispcnt 0 v = { io with dispcnt := v.setWidth 16 } := by
  simp only [Io.writeHalf, Io.writeReg, setByte_setByte, setHalf_eq_setWidth]

/-- DISPSTAT holds bits 5:3 and 15:8 (R120). -/
@[simp] theorem Io.writeHalf_dispstat : io.writeHalf .dispstat 0 v =
    { io with dispstatEnables := v.extractLsb' 3 3, dispstatVcount := v.extractLsb' 8 8 } := by
  have henables : (getByte v 0).extractLsb' 3 3 = v.extractLsb' 3 3 := by
    apply BitVec.eq_of_getLsbD_eq
    intro i hi
    simp only [BitVec.getLsbD_extractLsb', getLsbD_getByte, Nat.mul_zero, Nat.zero_add, show 3 + i < 8 by omega, decide_true,
      Bool.true_and]
  rw [← henables]; rfl

@[simp] theorem Io.writeHalf_vcount (k : Nat) : io.writeHalf .vcount k v = io := rfl

@[simp] theorem Io.writeHalf_bgCnt : io.writeHalf (.bgCnt n) 0 v = io.onBg n fun g => { g with cnt := v.setWidth 16 } := by
  simp only [Io.writeHalf, Io.writeReg, Io.onBg_onBg, setByte_setByte, setHalf_eq_setWidth]

@[simp] theorem Io.writeHalf_bgHofs : io.writeHalf (.bgHofs n) 0 v = io.onBg n fun g => { g with hofs := v.setWidth 16 } := by
  simp only [Io.writeHalf, Io.writeReg, Io.onBg_onBg, setByte_setByte, setHalf_eq_setWidth]

@[simp] theorem Io.writeHalf_bgVofs : io.writeHalf (.bgVofs n) 0 v = io.onBg n fun g => { g with vofs := v.setWidth 16 } := by
  simp only [Io.writeHalf, Io.writeReg, Io.onBg_onBg, setByte_setByte, setHalf_eq_setWidth]

@[simp] theorem Io.writeHalf_affA : io.writeHalf (.affA m) 0 v = io.onAff m fun g => { g with pa := v.setWidth 16 } := by
  simp only [Io.writeHalf, Io.writeReg, Io.onAff_onAff, setByte_setByte, setHalf_eq_setWidth]

@[simp] theorem Io.writeHalf_affB : io.writeHalf (.affB m) 0 v = io.onAff m fun g => { g with pb := v.setWidth 16 } := by
  simp only [Io.writeHalf, Io.writeReg, Io.onAff_onAff, setByte_setByte, setHalf_eq_setWidth]

@[simp] theorem Io.writeHalf_affC : io.writeHalf (.affC m) 0 v = io.onAff m fun g => { g with pc := v.setWidth 16 } := by
  simp only [Io.writeHalf, Io.writeReg, Io.onAff_onAff, setByte_setByte, setHalf_eq_setWidth]

@[simp] theorem Io.writeHalf_affD : io.writeHalf (.affD m) 0 v = io.onAff m fun g => { g with pd := v.setWidth 16 } := by
  simp only [Io.writeHalf, Io.writeReg, Io.onAff_onAff, setByte_setByte, setHalf_eq_setWidth]

@[simp] theorem Io.writeHalf_affX_low : io.writeHalf (.affX m) 0 v = io.onAff m fun g => { g with x := withLow g.x v } := by
  simp only [Io.writeHalf, Io.writeReg, Io.onAff_onAff, setByte_setByte, setHalf_eq_withLow]

@[simp] theorem Io.writeHalf_affX_high : io.writeHalf (.affX m) 2 v = io.onAff m fun g => { g with x := withHigh g.x v } := by
  simp only [Io.writeHalf, Io.writeReg, Io.onAff_onAff, setByte_setByte, setHalf_eq_withHigh]

theorem Io.writeHalf_affX_word :
    (io.writeHalf (.affX m) 0 v).writeHalf (.affX m) 2 (v >>> 16) = io.onAff m fun g => { g with x := v } := by
  simp only [Io.writeHalf_affX_low, Io.writeHalf_affX_high, Io.onAff_onAff, withHigh_withLow]

@[simp] theorem Io.writeHalf_affY_low : io.writeHalf (.affY m) 0 v = io.onAff m fun g => { g with y := withLow g.y v } := by
  simp only [Io.writeHalf, Io.writeReg, Io.onAff_onAff, setByte_setByte, setHalf_eq_withLow]

@[simp] theorem Io.writeHalf_affY_high : io.writeHalf (.affY m) 2 v = io.onAff m fun g => { g with y := withHigh g.y v } := by
  simp only [Io.writeHalf, Io.writeReg, Io.onAff_onAff, setByte_setByte, setHalf_eq_withHigh]

theorem Io.writeHalf_affY_word :
    (io.writeHalf (.affY m) 0 v).writeHalf (.affY m) 2 (v >>> 16) = io.onAff m fun g => { g with y := v } := by
  simp only [Io.writeHalf_affY_low, Io.writeHalf_affY_high, Io.onAff_onAff, withHigh_withLow]

@[simp] theorem Io.writeHalf_mosaic : io.writeHalf .mosaic 0 v = { io with mosaic := v.setWidth 16 } := by
  simp only [Io.writeHalf, Io.writeReg, setByte_setByte, setHalf_eq_setWidth]

@[simp] theorem Io.writeHalf_keyinput (k : Nat) : io.writeHalf .keyinput k v = io := rfl

@[simp] theorem Io.writeHalf_keycnt : io.writeHalf .keycnt 0 v = { io with keycnt := v.setWidth 16 } := by
  simp only [Io.writeHalf, Io.writeReg, setByte_setByte, setHalf_eq_setWidth]

@[simp] theorem Io.writeHalf_ie : io.writeHalf .ie 0 v = { io with ieReg := v.setWidth 16 } := by
  simp only [Io.writeHalf, Io.writeReg, setByte_setByte, setHalf_eq_setWidth]

/-- IF clears the bits that are 1 in v (R115). -/
@[simp] theorem Io.writeHalf_ifr : io.writeHalf .ifr 0 v = { io with ifReg := io.ifReg &&& ~~~(v.setWidth 16) } := by
  have hbits : io.ifReg &&& ~~~setByte 0 0 (getByte v 0) &&& ~~~setByte 0 1 (getByte v 1) = io.ifReg &&& ~~~(v.setWidth 16) := by
    apply BitVec.eq_of_getLsbD_eq
    intro i hi
    simp only [BitVec.getLsbD_and, BitVec.getLsbD_not, getLsbD_setByte _ _ _ _ hi, getLsbD_getByte, BitVec.getLsbD_setWidth,
      hi, decide_true, Bool.true_and]
    by_cases h : i < 8
    · simp [h, show ¬ 8 ≤ i by omega]
    · simp [h, hi, show 8 ≤ i by omega, show i - 8 < 8 by omega]
  rw [← hbits]; rfl

@[simp] theorem Io.writeHalf_ime_low : io.writeHalf .ime 0 v = { io with ime := v.getLsbD 0 } := by
  have hbit : (getByte v 0).getLsbD 0 = v.getLsbD 0 := by rw [getLsbD_getByte]; rfl
  rw [← hbit]; rfl

@[simp] theorem Io.writeHalf_ime_high : io.writeHalf .ime 2 v = io := rfl

theorem Io.writeHalf_ime_word : (io.writeHalf .ime 0 v).writeHalf .ime 2 (v >>> 16) = { io with ime := v.getLsbD 0 } := by
  rw [Io.writeHalf_ime_high, Io.writeHalf_ime_low]

end

/-! ### Halfword reads, register by register -/

/-- A register whose bytes read as they are held reads as its value. -/
theorem memRead_half_halfAt (s : State) (acc : Access) {a : Word} {r : IoReg} (h : HalfAt a r 0) {x : Half}
    (hread : ∀ k d, s.io.readReg r k d = getByte x k) : s.memRead acc a .half = x.setWidth 32 := by
  rw [State.memRead, readByte_byteAt s acc h.1, readByte_byteAt s acc h.2, hread, hread, join_getByte]

/-- DISPSTAT reads its bits 15:8, 0 in bits 7:6, and its bits 5:3 (R120). -/
theorem memRead_half_dispstat (s : State) (acc : Access) {a : Word} (h : HalfAt a .dispstat 0) :
    (s.memRead acc a .half).extractLsb' 3 29 =
      (s.io.dispstatVcount.setWidth 29 <<< 5) ||| s.io.dispstatEnables.setWidth 29 := by
  have hjoin : (s.io.dispstatVcount.setWidth 29 <<< 5) ||| s.io.dispstatEnables.setWidth 29 =
      join 29 s.io.dispstatVcount (s.io.dispstatEnables.setWidth 5) := by
    rw [join, BitVec.setWidth_setWidth (by decide)]
  have hlow := s.io.dispstatEnables.isLt
  have hhigh := s.io.dispstatVcount.isLt
  apply BitVec.eq_of_toNat_eq
  rw [hjoin, toNat_join _ _ (by decide), BitVec.toNat_setWidth_of_le (by decide), BitVec.extractLsb'_toNat, memRead_half_toNat,
    readByte_byteAt s acc h.1, readByte_byteAt s acc h.2]
  simp only [Io.readReg, if_true, Nat.zero_add, Nat.one_ne_zero, if_false]
  rw [toNat_join _ _ (by decide), toNat_join _ _ (by decide), Nat.shiftRight_eq_div_pow]
  have hdraw := ((Config.draw s.draws (.ioRead acc (a.toNat % 0x400))).extractLsb' 0 3).isLt
  simp only [BitVec.toNat_ofNat]
  omega

/-- IME reads bit 0, and 0 elsewhere (R116). -/
theorem memRead_word_ime (s : State) (acc : Access) {a : Word} (h : WordAt a .ime) :
    s.memRead acc a .word = if s.io.ime then 1 else 0 := by
  obtain ⟨⟨h0, h1⟩, h2, h3⟩ := h
  rw [add_two_add_one] at h3
  rw [State.memRead, readByte_byteAt s acc h0, readByte_byteAt s acc h1, readByte_byteAt s acc h2, readByte_byteAt s acc h3]
  simp only [Io.readReg]
  cases s.io.ime <;> simp [join]

/-! ### HALTCNT -/

theorem msb_getByte {n : Nat} (v : BitVec n) (k : Nat) : (getByte v k).msb = v.getLsbD (8 * k + 7) := by
  rw [BitVec.msb_eq_getLsbD_last, getLsbD_getByte]
  rfl

theorem memWrite_byte_haltcnt (s : State) {a : Word} (h : ByteAt a .haltcnt 0) (v : Word) :
    s.memWrite a .byte v = { s with halt := if v.getLsbD 7 then .stop else .halt } := by
  rw [memWrite_byte_io s h.1, writePlain_haltcnt s h, msb_getByte]

/-- A halfword at POSTFLG: its low byte is held, its high byte goes to HALTCNT (R117). -/
theorem memWrite_half_postflg (s : State) {a : Word} (h : ByteAt a .postflg 0) (h' : ByteAt (a + 1) .haltcnt 0) (v : Word) :
    s.memWrite a .half v =
      { s with halt := if v.getLsbD 15 then .stop else .halt, io := { s.io with postflg := v.setWidth 8 } } := by
  rw [State.memWrite, writePlain_byteAt s h (by decide), writePlain_haltcnt _ h', msb_getByte, getByte_zero]
  rfl

/-! ### The registers of the backgrounds -/

/-- Where the control and scroll registers of a background stand (R127). -/
theorem bg_addresses : ∀ n : Fin 4,
    HalfAt (0x04000008 + BitVec.ofNat 32 (2 * n)) (.bgCnt n) 0 ∧ HalfAt (0x04000010 + BitVec.ofNat 32 (4 * n)) (.bgHofs n) 0 ∧
    HalfAt (0x04000012 + BitVec.ofNat 32 (4 * n)) (.bgVofs n) 0 ∧ ZeroWordAt (0x04000010 + BitVec.ofNat 32 (4 * n)) := by
  decide

/-- The first address of the affine registers of BG2 (0) or BG3 (1). -/
def affBase (m : Fin 2) : Word := 0x04000020 + BitVec.ofNat 32 (16 * m)

/-- Where the affine parameters stand (R123, R127). -/
theorem affParam_addresses : ∀ m : Fin 2, HalfAt (affBase m) (.affA m) 0 ∧ HalfAt (affBase m + 2) (.affB m) 0 ∧
    HalfAt (affBase m + 4) (.affC m) 0 ∧ HalfAt (affBase m + 6) (.affD m) 0 := by
  decide

/-- Where the reference points stand, as words and by their upper halves (R124, R127). -/
theorem affRef_addresses : ∀ m : Fin 2, WordAt (affBase m + 8) (.affX m) ∧ WordAt (affBase m + 12) (.affY m) ∧
    HalfAt (affBase m + 10) (.affX m) 2 ∧ HalfAt (affBase m + 14) (.affY m) 2 := by
  decide

theorem zeroWordAt_aff : ∀ (m : Fin 2) (k : Fin 4), ZeroWordAt (affBase m + BitVec.ofNat 32 (4 * k)) := by
  decide

/-! ### The statement -/

/-- Settles O17: each register by the bytes that stand at its address and its write and read rule; an unmodelled offset as a
cell of its own. -/
theorem ioRegisterWrites : Obligations.IoRegisterWrites := by
  unfold Obligations.IoRegisterWrites
  intro s v acc
  refine ⟨⟨?_, ?_, ?_, ?_, ?_, ?_, ?_, ?_⟩, ⟨?_, ?_, ?_, ?_, ?_, ?_⟩, ⟨?_, ?_, ?_, ?_, ?_, ?_, ?_, ?_⟩, fun n => ?_, fun m => ?_,
    fun o ho hplain => ?_⟩
  · exact memWrite_half_halfAt (by decide) (s.io.writeHalf_ifr v)
  · exact memWrite_half_halfAt (by decide) (s.io.writeHalf_ie v)
  · exact memWrite_word_wordAt (by decide) (s.io.writeHalf_ime_word v)
  · exact memWrite_half_halfAt (by decide) (s.io.writeHalf_keyinput v 0)
  · exact memWrite_half_halfAt (by decide) (s.io.writeHalf_vcount v 0)
  · exact memWrite_byte_haltcnt s (by decide) v
  · exact memWrite_half_postflg s (by decide) (by decide) v
  · exact readByte_zeroAt s acc (by decide)
  · exact memRead_half_halfAt (r := .ie) s acc (by decide) fun _ _ => rfl
  · exact memRead_half_halfAt (r := .ifr) s acc (by decide) fun _ _ => rfl
  · exact memRead_word_ime s acc (by decide)
  · rw [memRead_half_halfAt (r := .keyinput) s acc (by decide) fun _ _ => rfl, BitVec.setWidth_setWidth (by decide)]
  · exact readByte_byteAt (r := .vcount) (k := 1) s acc (by decide)
  · exact readByte_byteAt (r := .postflg) (k := 0) s acc (by decide)
  · exact memWrite_half_halfAt (by decide) (s.io.writeHalf_dispcnt v)
  · exact memRead_half_halfAt (r := .dispcnt) s acc (by decide) fun _ _ => rfl
  · exact memWrite_half_halfAt (by decide) (s.io.writeHalf_dispstat v)
  · exact memRead_half_dispstat s acc (by decide)
  · exact memWrite_half_halfAt (by decide) (s.io.writeHalf_keycnt v)
  · exact memRead_half_halfAt (r := .keycnt) s acc (by decide) fun _ _ => rfl
  · exact memWrite_half_halfAt (by decide) (s.io.writeHalf_mosaic v)
  · exact memRead_half_zeroAt s acc (by decide)
  · obtain ⟨hcnt, hhofs, hvofs, hzero⟩ := bg_addresses n
    exact ⟨memWrite_half_halfAt hcnt (s.io.writeHalf_bgCnt v n), memRead_half_halfAt s acc hcnt fun _ _ => rfl,
      memWrite_half_halfAt hhofs (s.io.writeHalf_bgHofs v n), memWrite_half_halfAt hvofs (s.io.writeHalf_bgVofs v n),
      memRead_word_zeroAt s acc hzero⟩
  · obtain ⟨ha, hb, hc, hd⟩ := affParam_addresses m
    obtain ⟨hx, hy, hxhigh, hyhigh⟩ := affRef_addresses m
    exact ⟨memWrite_half_halfAt ha (s.io.writeHalf_affA v m), memWrite_half_halfAt hb (s.io.writeHalf_affB v m),
      memWrite_half_halfAt hc (s.io.writeHalf_affC v m), memWrite_half_halfAt hd (s.io.writeHalf_affD v m),
      memWrite_word_wordAt hx (s.io.writeHalf_affX_word v m), memWrite_word_wordAt hy (s.io.writeHalf_affY_word v m),
      memWrite_half_halfAt hx.1 (s.io.writeHalf_affX_low v m), memWrite_half_halfAt hxhigh (s.io.writeHalf_affX_high v m),
      memWrite_half_halfAt hy.1 (s.io.writeHalf_affY_low v m), memWrite_half_halfAt hyhigh (s.io.writeHalf_affY_high v m),
      fun k => memRead_word_zeroAt s acc (zeroWordAt_aff m k)⟩
  · have haddr : (0x04000000 + BitVec.ofNat 32 o : Word).toNat = 0x04000000 + o := add_toNat _ o (by simp; omega)
    have hoffset : (0x04000000 + BitVec.ofNat 32 o : Word).toNat % 0x400 = o := by omega
    exact memWrite_byte_unmodelled_cell s acc (by omega) (ioReg_none (hoffset.symm ▸ hplain)) v

end Sys2Proof.Machine
end

section
/-! SUPPORT. What the bus ignores, doubles and rotates (20_memory R204 to R216), the contents of memory after load_rom (R207), and
that only a store writes (R222). -/

namespace Sys2Proof.Machine

open Sys2Proof

/-! ### Only stores write -/

/-- An instruction that is not a store keeps the cells, the I/O registers and the halt state. -/
theorem Outcome.mem_and_sameIo {i : Instr} {s t : State} (h : Outcome i s t) (hi : i.stores = false) :
    t.mem = s.mem ∧ SameIo s t := by
  cases h with
  | kept hkept => exact ⟨hkept.mem, hkept.io⟩
  | stored hstores => exact absurd (hi.symm.trans hstores) (by decide)
  | exchanged v => exact ⟨rfl, rfl, rfl⟩
  | took kind link => exact ⟨rfl, rfl, rfl⟩
  | returned u k c v _ hkept => exact ⟨hkept.mem, hkept.io⟩
  | psr _ hpsr => exact ⟨hpsr.mem, hpsr.io⟩

/-- Settles O12: by the shape of the instruction's outcome the cells and the I/O registers are kept, and with the cartridge's
length and the epoch of the free values, which no instruction changes, they fix what every byte reads. -/
theorem onlyStoresWrite : Obligations.OnlyStoresWrite := by
  unfold Obligations.OnlyStoresWrite
  intro i s t hi hexec
  have hout := exec_outcome i s t hexec
  obtain ⟨hmem, hio⟩ := hout.mem_and_sameIo hi
  obtain ⟨hromLen, _, _, _, _, hdraws⟩ := hout.sameOutside
  exact ⟨sameMemory_of hmem hio.1 hromLen hdraws, hio⟩

/-! ### Regions that ignore writes -/

theorem readByte_unmapped (s : State) (acc : Access) {a : Word} (h : (decodeAddr s.romLen a).1 = .unmapped) :
    s.readByte acc a = 0 := by
  rcases hd : decodeAddr s.romLen a with ⟨r, o⟩
  obtain rfl : r = .unmapped := by simpa only [hd] using h
  rw [State.readByte, hd]

/-- The regions that take no write (R204, R206, R207). -/
abbrev Region.ReadOnly (r : Region) : Prop := r = .unmapped ∨ r = .bios ∨ r = .rom

section
variable (s : State) {a : Word} (h : (decodeAddr s.romLen a).1.ReadOnly) (x : Byte)
include h

theorem writePlain_readOnly : s.writePlain a x = s := by
  rcases hd : decodeAddr s.romLen a with ⟨r, o⟩
  rw [hd] at h
  rw [State.writePlain, hd]
  obtain rfl | rfl | rfl : r.ReadOnly := h <;> rfl

theorem writeByte_readOnly : s.writeByte a x = s := by
  have hplain := writePlain_readOnly s h x
  rcases hd : decodeAddr s.romLen a with ⟨r, o⟩
  rw [hd] at h
  rw [State.writeByte, hd]
  obtain rfl | rfl | rfl : r.ReadOnly := h <;> exact hplain

end

/-- Settles O15: by the region the address decodes to. -/
theorem readOnlyRegions : Obligations.ReadOnlyRegions := by
  unfold Obligations.ReadOnlyRegions
  intro s a
  exact ⟨fun h acc => readByte_unmapped s acc h, fun h b => ⟨writeByte_readOnly s h _, writePlain_readOnly s h _⟩⟩

/-! ### Aligning down -/

theorem sub_mod_toNat (a k : Word) : (a - a % k).toNat = a.toNat - a.toNat % k.toNat := by
  rw [BitVec.toNat_sub_of_le (Nat.mod_le a.toNat k.toNat), BitVec.toNat_umod]

theorem sub_mod_four (a : Word) : a - a % 4 = a &&& 0xFFFFFFFC :=
  BitVec.eq_of_toNat_eq ((sub_mod_toNat a 4).trans (align4_toNat a).symm)

theorem sub_mod_two (a : Word) : a - a % 2 = a &&& 0xFFFFFFFE :=
  BitVec.eq_of_toNat_eq ((sub_mod_toNat a 2).trans (align2_toNat a).symm)

/-- The low field of a word, as a number. -/
theorem extractLsb'_zero_toNat {n : Nat} (x : BitVec n) (len : Nat) : (x.extractLsb' 0 len).toNat = x.toNat % 2 ^ len := by
  rw [BitVec.extractLsb'_toNat, Nat.shiftRight_zero]

theorem getLsbD_zero_nat (a : Word) : a.getLsbD 0 = decide (a.toNat % 2 = 1) := by
  rw [← BitVec.testBit_toNat, Nat.testBit_zero]

theorem sub_one_of_odd {a : Word} (h : a.toNat % 2 = 1) : a - 1 = a &&& 0xFFFFFFFE := by
  rw [← sub_mod_two, show a % 2 = 1 from BitVec.eq_of_toNat_eq h]

theorem align2_of_even {a : Word} (h : a.toNat % 2 = 0) : a &&& 0xFFFFFFFE = a := by
  rw [← sub_mod_two, show a % 2 = 0 from BitVec.eq_of_toNat_eq h]
  exact BitVec.sub_zero a

/-! ### Byte writes to the video memories -/

/-- The offset of an address of VRAM, its upper quarter folded (R203). -/
def vramOffset (a : Word) : Nat := if 0x18000 ≤ a.toNat % 0x20000 then a.toNat % 0x20000 - 0x8000 else a.toNat % 0x20000

theorem vramOffset_halfword (a : Word) : vramOffset (a - a % 2) = vramOffset a - vramOffset a % 2 := by
  have hbase : (a - a % 2).toNat = a.toNat - a.toNat % 2 := sub_mod_toNat a 2
  rw [vramOffset, vramOffset, hbase]
  split_ifs <;> omega

/-- The halfword of a byte of RAM starts at the even offset of its place (20 R203). -/
theorem storagePlace_halfword {a : Word} {n o : Nat} (h : storagePlace a = some (n, o)) :
    storagePlace (a - a % 2) = some (n, o - o % 2) := by
  have hbase : (a - a % 2).toNat = a.toNat - a.toNat % 2 := sub_mod_toNat a 2
  have hregion : (a.toNat - a.toNat % 2) / 0x1000000 = a.toNat / 0x1000000 := by omega
  have hfold := vramOffset_halfword a
  simp only [vramOffset, hbase] at hfold
  dsimp only [storagePlace] at h ⊢
  rw [hbase, hregion]
  split at h <;> cases h
  all_goals
    simp only [Option.some.injEq, Prod.mk.injEq, true_and]
    omega

/-- A byte put into both bytes of its halfword is there twice. -/
theorem memRead_half_writeBoth (s : State) (acc : Access) {a : Word} {n o : Nat} (h : storagePlace a = some (n, o)) (x : Byte) :
    (s.writeBoth (ramRegion n) o x).memRead acc (a - a % 2) .half = x.setWidth 32 * 0x101 := by
  have hlow := storagePlace_halfword h
  have heven : (a - a % 2).toNat % 2 = 0 := by
    rw [sub_mod_toNat a 2]
    change (a.toNat - a.toNat % 2) % 2 = 0
    omega
  have hhigh : storagePlace (a - a % 2 + 1) = some (n, o - o % 2 + 1) := storagePlace_add .half hlow heven (by decide)
  apply BitVec.eq_of_toNat_eq
  have hx := x.isLt
  rw [memRead_half_toNat, readByte_ram (decodeAddr_of_storagePlace _ hlow), readByte_ram (decodeAddr_of_storagePlace _ hhigh),
    BitVec.toNat_mul, BitVec.toNat_setWidth_of_le (by decide)]
  simp only [State.writeBoth, Memory.read_write, ← Nat.add_assoc, if_true, Nat.add_eq_left, Nat.one_ne_zero, if_false]
  change x.toNat + 2 ^ 8 * x.toNat = x.toNat * 257 % 2 ^ 32
  omega

theorem storagePlace_pal {a : Word} (h : a.toNat / 0x1000000 = 5) : storagePlace a = some (5, a.toNat % 0x400) := by
  simp only [storagePlace, h]

theorem storagePlace_vram {a : Word} (h : a.toNat / 0x1000000 = 6) : storagePlace a = some (6, vramOffset a) := by
  simp only [storagePlace, h, vramOffset]

theorem storagePlace_oam {a : Word} (h : a.toNat / 0x1000000 = 7) : storagePlace a = some (7, a.toNat % 0x400) := by
  simp only [storagePlace, h]

section
variable (s : State) {a : Word} (v : Word) {o : Nat}

theorem memWrite_byte_pal (h : storagePlace a = some (5, o)) :
    s.memWrite a .byte v = s.writeBoth (ramRegion 5) o (getByte v 0) := by
  rw [State.memWrite, State.writeByte, decodeAddr_of_storagePlace _ h]
  rfl

theorem memWrite_byte_vram (h : storagePlace a = some (6, o)) : s.memWrite a .byte v =
    if o < s.vramByteLimit then s.writeBoth (ramRegion 6) o (getByte v 0) else s := by
  rw [State.memWrite, State.writeByte, decodeAddr_of_storagePlace _ h]
  rfl

theorem memWrite_byte_oam (h : storagePlace a = some (7, o)) : s.memWrite a .byte v = s := by
  rw [State.memWrite, State.writeByte, decodeAddr_of_storagePlace _ h]
  rfl

end

/-- The limit of the background mode, in exact arithmetic (R210). -/
theorem vramByteLimit_nat (s : State) : s.vramByteLimit = if s.io.dispcnt.toNat % 8 ≤ 2 then 0x10000 else 0x14000 := by
  rw [State.vramByteLimit, extractLsb'_zero_toNat]
  rfl

theorem getByte_zero_setWidth (v : Word) : (getByte v 0).setWidth 32 = v &&& 0xFF := by
  apply BitVec.eq_of_toNat_eq
  rw [getByte_zero, BitVec.toNat_setWidth_of_le (by decide), BitVec.toNat_setWidth, BitVec.toNat_and]
  exact (Nat.and_two_pow_sub_one_eq_mod v.toNat 8).symm

/-- Settles O16: by the place of the address, a byte is put twice or ignored. -/
theorem videoByteWrites : Obligations.VideoByteWrites := by
  unfold Obligations.VideoByteWrites
  intro s a v acc t doubled o limit
  have hlimit : s.vramByteLimit = limit := vramByteLimit_nat s
  have hdoubled : ∀ {n o' : Nat}, storagePlace a = some (n, o') → t = s.writeBoth (ramRegion n) o' (getByte v 0) →
      doubled := by
    intro n o' hplace ht
    change t.memRead acc (a - a % 2) .half = (v &&& 0xFF) * 0x101
    rw [← getByte_zero_setWidth, ← memRead_half_writeBoth s acc hplace, ← ht]
  refine ⟨fun h => ?_, fun h ho => ?_, fun h ho => ?_, fun h => memWrite_byte_oam s v (storagePlace_oam h)⟩
  · exact hdoubled (storagePlace_pal h) (memWrite_byte_pal s v (storagePlace_pal h))
  · exact hdoubled (storagePlace_vram h) ((memWrite_byte_vram s v (storagePlace_vram h)).trans (if_pos (hlimit ▸ ho)))
  · exact (memWrite_byte_vram s v (storagePlace_vram h)).trans (if_neg (Nat.not_lt.2 (hlimit ▸ ho)))

/-! ### Loads -/

/-- Two's complement, in exact arithmetic. -/
theorem toInt_signExtend_setWidth {n : Nat} (x : Word) (hn : n ≤ 32) (hx : x.toNat < 2 ^ n) :
    ((x.setWidth n).signExtend 32).toInt = if 2 ^ n ≤ 2 * x.toNat then (x.toNat : Int) - 2 ^ n else x.toNat := by
  have hlow : (x.setWidth n).toNat = x.toNat := by rw [BitVec.toNat_setWidth, Nat.mod_eq_of_lt hx]
  rw [BitVec.toInt_signExtend_of_le hn, BitVec.toInt_eq_toNat_cond, hlow]
  by_cases hneg : 2 ^ n ≤ 2 * x.toNat
  · rw [if_neg (Nat.not_lt.2 hneg), if_pos hneg]
    norm_cast
  · rw [if_pos (Nat.lt_of_not_le hneg), if_neg hneg]

theorem rotateRight_zero (x : Word) : x.rotateRight 0 = x := by
  apply BitVec.eq_of_getLsbD_eq
  intro i hi
  simp [hi]

section
variable (s : State) (a : Word)

theorem memRead_byte_lt (acc : Access) : (s.memRead acc a .byte).toNat < 2 ^ 8 :=
  (memRead_byte_toNat s acc a).symm ▸ (s.readByte acc a).isLt

theorem memRead_half_lt (acc : Access) : (s.memRead acc a .half).toNat < 2 ^ 16 := by
  have hlow := (s.readByte acc a).isLt
  have hhigh := (s.readByte acc (a + 1)).isLt
  rw [memRead_half_toNat]
  omega

theorem loadValue_word :
    s.loadValue .word a = (s.memRead .data (a - a % 4) .word).rotateRight (8 * (a.toNat % 4)) := by
  rw [State.loadValue, extractLsb'_zero_toNat, sub_mod_four]
  rfl

theorem loadValue_half :
    s.loadValue .half a = (s.memRead .data (a &&& 0xFFFFFFFE) .half).rotateRight (8 * (a.toNat % 2)) := by
  rw [State.loadValue, extractLsb'_zero_toNat]
  rfl

theorem loadValue_signedHalf_odd (h : a.toNat % 2 = 1) : s.loadValue .signedHalf a = s.loadValue .signedByte a :=
  if_pos ((getLsbD_zero_nat a).trans (decide_eq_true h))

theorem loadValue_signedHalf_even (h : a.toNat % 2 = 0) : (s.loadValue .signedHalf a).toInt =
    if 0x8000 ≤ (s.memRead .data a .half).toNat then ((s.memRead .data a .half).toNat : Int) - 0x10000
    else (s.memRead .data a .half).toNat := by
  rw [State.loadValue, getLsbD_zero_nat, h, if_neg (by decide), toInt_signExtend_setWidth _ (by decide) (memRead_half_lt s a _)]
  exact if_congr (by omega) rfl rfl

theorem loadValue_signedByte : (s.loadValue .signedByte a).toInt =
    if 0x80 ≤ (s.memRead .data a .byte).toNat then ((s.memRead .data a .byte).toNat : Int) - 0x100
    else (s.memRead .data a .byte).toNat := by
  rw [State.loadValue, toInt_signExtend_setWidth _ (by decide) (memRead_byte_lt s a _)]
  exact if_congr (by omega) rfl rfl

end

/-- Settles O18: by the kind of the load, and for halfwords by the low bit of the address. -/
theorem misalignedLoads : Obligations.MisalignedLoads := by
  unfold Obligations.MisalignedLoads
  intro s a
  refine ⟨loadValue_word s a, fun hodd => ⟨?_, loadValue_signedHalf_odd s a hodd⟩,
    fun heven => ⟨?_, loadValue_signedHalf_even s a heven⟩, rfl, loadValue_signedByte s a⟩
  · rw [loadValue_half, hodd, sub_one_of_odd hodd]
  · rw [loadValue_half, heven, align2_of_even heven]
    exact rotateRight_zero _

/-! ### load_rom -/

/-- Memory after load_rom: what stood below the cartridge, then the buffer. -/
def State.romLoaded (s : State) (bytes : List Byte) : State :=
  { s with mem := s.mem.filter (fun c => decide (c.1 < 0x08000000)) ++ cellsOf 0x08000000 bytes, romLen := bytes.length }

theorem loadRom_accepted (s : State) {bytes : List Byte} (h : bytes.length ≤ 33554432) :
    s.loadRom bytes = some (s.romLoaded bytes) :=
  if_neg (Nat.not_lt.2 h)

theorem loadRom_refused (s : State) {bytes : List Byte} (h : 33554432 < bytes.length) : s.loadRom bytes = none :=
  if_pos h

/-- Below the cartridge load_rom keeps every cell. -/
theorem read_romLoaded_below (s : State) (bytes : List Byte) {k : Nat} (h : k < 0x08000000) :
    (s.romLoaded bytes).mem.read k = s.mem.read k := by
  rw [State.romLoaded, Memory.read_append_left _ _ _ (not_mem_cellsOf _ _ _ (.inl h)),
    Memory.read_filter s.mem fun x => decide (x < 0x08000000), if_pos (decide_eq_true h)]

/-- From the cartridge's base on the cells hold the buffer. -/
theorem read_romLoaded_rom (s : State) {bytes : List Byte} {i : Nat} (h : i < bytes.length) :
    (s.romLoaded bytes).mem.read (Region.rom.base + i) = bytes[i] := by
  have hbelow : Region.rom.base + i ∉ (s.mem.filter fun c => decide (c.1 < 0x08000000)).map Prod.fst :=
    Memory.not_mem_filter s.mem (fun x => decide (x < 0x08000000)) _ (decide_eq_false (Nat.not_lt.2 (Nat.le_add_right _ i)))
  rw [State.romLoaded, Memory.read_append_right _ _ _ hbelow, read_cellsOf]
  simp [Region.base, h]

/-- An address of the cartridge, in exact arithmetic (20 R203). -/
theorem decodeAddr_cartridge (n : Nat) {a : Word} (hlow : 0x08000000 ≤ a.toNat) (hhigh : a.toNat < 0x0E000000) :
    decodeAddr n a = if a.toNat % 0x2000000 < n then (.rom, a.toNat % 0x2000000) else (.unmapped, 0) := by
  have hfirst : 8 ≤ a.toNat / 0x1000000 := by omega
  have hlast : a.toNat / 0x1000000 < 14 := by omega
  rw [decodeAddr_nat]
  generalize a.toNat / 0x1000000 = q at hfirst hlast
  interval_cases q <;> rfl

/-- Each of the three mirrors of the cartridge has the offsets of the first (20 R203). -/
theorem decodeAddr_mirror {n i : Nat} (hi : i < n) (hn : n ≤ 33554432) (m : Fin 3) :
    decodeAddr n (BitVec.ofNat 32 (0x08000000 + 0x02000000 * m + i)) = (.rom, i) := by
  have hm := m.isLt
  have haddr : (BitVec.ofNat 32 (0x08000000 + 0x02000000 * m + i)).toNat = 0x08000000 + 0x02000000 * m + i := by
    rw [BitVec.toNat_ofNat, Nat.mod_eq_of_lt (by omega)]
  have hoffset : (0x08000000 + 0x02000000 * m + i) % 0x2000000 = i := by omega
  rw [decodeAddr_cartridge n (by omega) (by omega), haddr, hoffset, if_pos hi]

/-- Below the cartridge the decode of an address does not rest on the length of its image (20 R203). -/
theorem decodeAddr_below_rom (n n' : Nat) {a : Word} (h : a.toNat < 0x08000000) : decodeAddr n a = decodeAddr n' a := by
  have hregion : a.toNat / 0x1000000 < 8 := by omega
  rw [decodeAddr_nat, decodeAddr_nat]
  generalize a.toNat / 0x1000000 = q at hregion
  interval_cases q <;> rfl

theorem decodeAddr_below_rom_ne (n : Nat) {a : Word} (h : a.toNat < 0x08000000) : (decodeAddr n a).1 ≠ .rom := by
  rw [decodeAddr_nat]
  split
  case h_1 | h_4 => split <;> simp
  case h_8 | h_9 | h_10 | h_11 | h_12 | h_13 => omega
  all_goals simp

theorem readByte_romLoaded_below (s : State) (bytes : List Byte) (acc : Access) {a : Word} (h : a.toNat < 0x08000000) :
    (s.romLoaded bytes).readByte acc a = s.readByte acc a := by
  have hdecode : decodeAddr (s.romLoaded bytes).romLen a = decodeAddr s.romLen a := decodeAddr_below_rom _ _ h
  obtain ⟨-, hkey⟩ := decodeAddr_key s.romLen a
  by_cases hunmapped : (decodeAddr s.romLen a).1 = .unmapped
  · rw [readByte_unmapped s acc hunmapped, readByte_unmapped _ acc (hdecode ▸ hunmapped)]
  · have hcell := read_romLoaded_below s bytes (hkey (decodeAddr_below_rom_ne _ h) hunmapped)
    rw [State.readByte, State.readByte, hdecode]
    rcases hd : decodeAddr s.romLen a with ⟨r, o⟩
    rw [hd] at hcell
    cases r
    case unmapped => rfl
    case io => exact readIo_mem s acc o _ hcell
    all_goals exact hcell

/-- Settles O21: the buffer stands at the cells of the cartridge, which no address below it has. -/
theorem loadRom : Obligations.LoadRom := by
  unfold Obligations.LoadRom
  intro s bytes
  refine ⟨loadRom_refused s, fun h => ⟨s.romLoaded bytes, loadRom_accepted s h, rfl, ?_, ?_, rfl, rfl, rfl, rfl, rfl, rfl⟩⟩
  · intro acc i hi m
    rw [State.readByte, show (s.romLoaded bytes).romLen = bytes.length from rfl, decodeAddr_mirror hi h]
    exact read_romLoaded_rom s hi
  · exact fun acc a ha => readByte_romLoaded_below s bytes acc ha

end Sys2Proof.Machine
end

section
/-! SUPPORT. Decoding the encoding of a well-formed instruction (30_encoding R301, R320): the round trips of Laws/PerInstr put
together. -/

namespace Sys2Proof.Laws.RoundTrip

open Sys2Proof

/-- The lemmas of the constructors, in the order of `Instr`. -/
theorem decode_encode (i : Instr) : Statement i :=
  i.casesOn nv bx mul mla umull umlal smull smlal swp swpb strhImm strhReg ldrhImm ldrhReg ldrsbImm ldrsbReg
    ldrshImm ldrshReg ldrdSpace strdSpace undMulspace mrs msrReg msrImm undPsrspace andImm andIshift andRshift
    eorImm eorIshift eorRshift subImm subIshift subRshift rsbImm rsbIshift rsbRshift addImm addIshift addRshift
    adcImm adcIshift adcRshift sbcImm sbcIshift sbcRshift rscImm rscIshift rscRshift tstImm tstIshift tstRshift
    teqImm teqIshift teqRshift cmpImm cmpIshift cmpRshift cmnImm cmnIshift cmnRshift orrImm orrIshift orrRshift
    movImm movIshift movRshift bicImm bicIshift bicRshift mvnImm mvnIshift mvnRshift undA15 strImmPre strImmPost
    strtImm strRegPre strRegPost strtReg ldrImmPre ldrImmPost ldrtImm ldrRegPre ldrRegPost ldrtReg strbImmPre
    strbImmPost strbtImm strbRegPre strbRegPost strbtReg ldrbImmPre ldrbImmPost ldrbtImm ldrbRegPre ldrbRegPost
    ldrbtReg stm stmUser ldm ldmUser ldmRet b bl ldcStc cdp mcrMrc swi tLslImm tLsrImm tAsrImm tAddReg tSubReg
    tAddImm3 tSubImm3 tMovImm tCmpImm tAddImm8 tSubImm8 tAnd tEor tLslReg tLsrReg tAsrReg tAdc tSbc tRor tTst tNeg
    tCmpReg tCmn tOrr tMul tBic tMvn tAddHi tCmpHi tMovHi tBx tBlxRegSpace tLdrPc tStrReg tStrbReg tLdrReg tLdrbReg
    tStrhReg tLdsb tLdrhReg tLdsh tStrImm tLdrImm tStrbImm tLdrbImm tStrhImm tLdrhImm tStrSp tLdrSp tAddPc tAddSp
    tAddSpimm tSubSpimm tPush tPop tUndB tStmia tLdmia tSwi tUndDe tBcond tB tUndE8 tBlHi tBlLo

/-- Settles O1, by the constructor of the instruction. -/
theorem decodeOfEncode : Obligations.DecodeOfEncode := by
  unfold Obligations.DecodeOfEncode
  exact decode_encode

end Sys2Proof.Laws.RoundTrip
end

section
/-! SUPPORT. Encoding what was decoded (30_encoding R311, R330): each row of the decode orders reads every bit of the code into
the instruction, so that the fields joined back give the code again. Words written out from the formats decode as the spec says. -/

namespace Sys2Proof

/-- The instruction is one that some encoding stands for, and the encoder writes it as this code. -/
def CodedAs (i : Instr) (code : Code) : Prop := i.wellFormed = true ∧ encode i = code

theorem CodedAs.arm {i : Instr} {v w : Word} (h : CodedAs i (.arm v)) (hv : v = w) : CodedAs i (.arm w) := hv ▸ h

theorem CodedAs.thumb {i : Instr} {v h : Half} (hi : CodedAs i (.thumb v)) (hv : v = h) : CodedAs i (.thumb h) := hv ▸ hi

theorem CodedAs.ite {p : Prop} [Decidable p] {i j : Instr} {code : Code} (hi : p → CodedAs i code)
    (hj : ¬ p → CodedAs j code) : CodedAs (if p then i else j) code := by
  split
  case isTrue h => exact hi h
  case isFalse h => exact hj h

theorem exists_eq_ofNat {n : Nat} (x : BitVec n) : ∃ k < 2 ^ n, x = BitVec.ofNat n k :=
  ⟨x.toNat, x.isLt, by rw [BitVec.ofNat_toNat, BitVec.setWidth_eq]⟩

/-- A field of one bit. -/
theorem extract_one {k : Nat} (x : BitVec k) (i : Nat) : x.extractLsb' i 1 = bit (x.getLsbD i) := by
  apply BitVec.eq_of_getLsbD_eq
  intro j hj
  obtain rfl : j = 0 := by omega
  simp

/-! ### The ARM formats: a word is its fields joined -/

section ArmFormats

variable {c : Cond} {w : Word}

theorem encMul_fields (hc : c.bits = w.extractLsb' 28 4) (h9 : w.extractLsb' 4 4 = 9#4) :
    encMul c (w.extractLsb' 21 7) (w.getLsbD 20) (w.extractLsb' 16 4) (w.extractLsb' 12 4) (w.extractLsb' 8 4)
      (w.extractLsb' 0 4) = w := by
  simp (disch := decide) [encMul, join_eq, extract_extract, extract_one, hc, h9]

theorem encHalf_fields (hc : c.bits = w.extractLsb' 28 4) (h0 : w.extractLsb' 25 3 = 0#3) (h7 : w.getLsbD 7 = true)
    (h4 : w.getLsbD 4 = true) :
    encHalf c (w.getLsbD 24) (w.getLsbD 23) (w.getLsbD 22) (w.getLsbD 21) (w.getLsbD 20) (w.extractLsb' 16 4)
      (w.extractLsb' 12 4) (w.extractLsb' 8 4) (w.extractLsb' 5 2) (w.extractLsb' 0 4) = w := by
  simp (disch := decide) [encHalf, join_eq, extract_extract, extract_one, hc, h0, h7, h4, -BitVec.getLsbD_eq_getElem]

theorem encDpImm_fields (hc : c.bits = w.extractLsb' 28 4) (h1 : w.extractLsb' 25 3 = 1#3) :
    encDpImm c (w.extractLsb' 21 4) (w.getLsbD 20) (w.extractLsb' 16 4) (w.extractLsb' 12 4) (w.extractLsb' 8 4)
      (w.extractLsb' 0 8) = w := by
  simp (disch := decide) [encDpImm, join_eq, extract_extract, extract_one, hc, h1]

theorem encDpIshift_fields (hc : c.bits = w.extractLsb' 28 4) (h0 : w.extractLsb' 25 3 = 0#3) (h4 : w.getLsbD 4 = false) :
    encDpIshift c (w.extractLsb' 21 4) (w.getLsbD 20) (w.extractLsb' 16 4) (w.extractLsb' 12 4) (w.extractLsb' 7 5)
      (ShiftKind.ofBits (w.extractLsb' 5 2)) (w.extractLsb' 0 4) = w := by
  simp (disch := decide) [encDpIshift, join_eq, extract_extract, extract_one, ShiftKind.bits_ofBits, hc, h0, h4,
    -BitVec.getLsbD_eq_getElem]

theorem encDpRshift_fields (hc : c.bits = w.extractLsb' 28 4) (h0 : w.extractLsb' 25 3 = 0#3) (h7 : w.getLsbD 7 = false)
    (h4 : w.getLsbD 4 = true) :
    encDpRshift c (w.extractLsb' 21 4) (w.getLsbD 20) (w.extractLsb' 16 4) (w.extractLsb' 12 4) (w.extractLsb' 8 4)
      (ShiftKind.ofBits (w.extractLsb' 5 2)) (w.extractLsb' 0 4) = w := by
  simp (disch := decide) [encDpRshift, join_eq, extract_extract, extract_one, ShiftKind.bits_ofBits, hc, h0, h7, h4,
    -BitVec.getLsbD_eq_getElem]

theorem encXferImm_fields (hc : c.bits = w.extractLsb' 28 4) (h2 : w.extractLsb' 25 3 = 2#3) :
    encXferImm c (w.getLsbD 24) (w.getLsbD 23) (w.getLsbD 22) (w.getLsbD 21) (w.getLsbD 20) (w.extractLsb' 16 4)
      (w.extractLsb' 12 4) (w.extractLsb' 0 12) = w := by
  simp (disch := decide) [encXferImm, join_eq, extract_extract, extract_one, hc, h2]

theorem encXferReg_fields (hc : c.bits = w.extractLsb' 28 4) (h3 : w.extractLsb' 25 3 = 3#3) (h4 : w.getLsbD 4 = false) :
    encXferReg c (w.getLsbD 24) (w.getLsbD 23) (w.getLsbD 22) (w.getLsbD 21) (w.getLsbD 20) (w.extractLsb' 16 4)
      (w.extractLsb' 12 4) (w.extractLsb' 7 5) (ShiftKind.ofBits (w.extractLsb' 5 2)) (w.extractLsb' 0 4) = w := by
  simp (disch := decide) [encXferReg, join_eq, extract_extract, extract_one, ShiftKind.bits_ofBits, hc, h3, h4,
    -BitVec.getLsbD_eq_getElem]

theorem encBlock_fields (hc : c.bits = w.extractLsb' 28 4) (h4 : w.extractLsb' 25 3 = 4#3) :
    encBlock c (w.getLsbD 24) (w.getLsbD 23) (w.getLsbD 22) (w.getLsbD 21) (w.getLsbD 20) (w.extractLsb' 16 4)
      (w.extractLsb' 0 16) = w := by
  simp (disch := decide) [encBlock, join_eq, extract_extract, extract_one, hc, h4]

end ArmFormats

/-! ### The rows of R311 -/

section ArmRows

variable {c : Cond} {w : Word}

theorem decodeMul_codedAs (hc : c.bits = w.extractLsb' 28 4) (h0 : w.extractLsb' 22 6 = 0#6) (h9 : w.extractLsb' 4 4 = 9#4) :
    CodedAs (decodeMul c w) (.arm w) := by
  have hop : w.extractLsb' 21 7 = join 7 (w.extractLsb' 22 6) (w.extractLsb' 21 1) := (join_extract w 21 6 1).symm
  refine CodedAs.arm (v := encMul c (w.extractLsb' 21 7) _ _ _ _ _) ?_ (encMul_fields hc h9)
  rw [hop, h0, extract_one]
  unfold decodeMul
  cases w.getLsbD 21 <;> exact ⟨rfl, rfl⟩

theorem decodeMulLong_codedAs (hc : c.bits = w.extractLsb' 28 4) (h1 : w.extractLsb' 23 5 = 1#5)
    (h9 : w.extractLsb' 4 4 = 9#4) : CodedAs (decodeMulLong c w) (.arm w) := by
  have hop : w.extractLsb' 21 7 = join 7 (w.extractLsb' 23 5) (join 2 (w.extractLsb' 22 1) (w.extractLsb' 21 1)) := by
    rw [join_extract w 21 1 1, join_extract w 21 5 2]
  refine CodedAs.arm (v := encMul c (w.extractLsb' 21 7) _ _ _ _ _) ?_ (encMul_fields hc h9)
  rw [hop, h1, extract_one, extract_one]
  unfold decodeMulLong
  cases w.getLsbD 22 <;> cases w.getLsbD 21 <;> exact ⟨rfl, rfl⟩

theorem decodeSwap_codedAs (hc : c.bits = w.extractLsb' 28 4) (h2 : w.extractLsb' 23 5 = 2#5) (h0 : w.extractLsb' 20 2 = 0#2)
    (h9 : w.extractLsb' 4 8 = 9#8) : CodedAs (decodeSwap c w) (.arm w) := by
  have hop : w.extractLsb' 20 8 = join 8 (w.extractLsb' 23 5) (join 3 (w.extractLsb' 22 1) (w.extractLsb' 20 2)) := by
    rw [join_extract w 20 1 2, join_extract w 20 5 3]
  rw [h2, h0, extract_one] at hop
  unfold decodeSwap
  cases hB : w.getLsbD 22 <;> rw [hB] at hop
  case false =>
    change _ = 0x10#8 at hop
    exact ⟨rfl, by simp (disch := decide) [encode, join_eq, extract_extract, hc, h9, hop]⟩
  case true =>
    change _ = 0x14#8 at hop
    exact ⟨rfl, by simp (disch := decide) [encode, join_eq, extract_extract, hc, h9, hop]⟩

/-- S H is not 00 in row 5. -/
theorem decodeHalf_codedAs (hc : c.bits = w.extractLsb' 28 4) (h0 : w.extractLsb' 25 3 = 0#3) (h7 : w.getLsbD 7 = true)
    (h4 : w.getLsbD 4 = true) (hSH : w.extractLsb' 5 2 ≠ 0#2) : CodedAs (decodeHalf c w) (.arm w) := by
  refine CodedAs.arm (v := encHalf c _ _ _ _ _ _ _ _ (w.extractLsb' 5 2) _) ?_ (encHalf_fields hc h0 h7 h4)
  rw [← join_extract w 5 1 1, extract_one, extract_one] at hSH ⊢
  dsimp only [decodeHalf]
  generalize w.getLsbD 20 = l
  generalize w.getLsbD 22 = i
  generalize w.getLsbD 6 = s at *
  generalize w.getLsbD 5 = h at *
  have hhalf : s = false → h = true := by revert s h; decide
  have himm (hi lo : BitVec 4) : (join 8 hi lo).extractLsb' 4 4 = hi ∧ (join 8 hi lo).extractLsb' 0 4 = lo := by
    simp (disch := decide) [extract_join_hi, extract_join_lo]
  split
  case h_1 | h_5 => cases hhalf rfl; exact ⟨rfl, by simp only [encode, himm]; rfl⟩
  case h_2 | h_6 => cases hhalf rfl; exact ⟨rfl, rfl⟩
  case h_7 | h_9 => exact ⟨rfl, by simp only [encode, himm]; rfl⟩
  all_goals exact ⟨rfl, rfl⟩

theorem undMulspace_codedAs (hc : c.bits = w.extractLsb' 28 4) (h0 : w.extractLsb' 25 3 = 0#3) (h9 : w.extractLsb' 4 4 = 9#4)
    (hmul : ¬ w.extractLsb' 22 6 = 0#6) (hlong : ¬ w.extractLsb' 23 5 = 1#5)
    (hswap : ¬ (w.extractLsb' 23 5 = 2#5 ∧ w.extractLsb' 20 2 = 0#2 ∧ w.extractLsb' 8 4 = 0#4)) :
    CodedAs (.undMulspace c (w.extractLsb' 0 28)) (.arm w) := by
  constructor
  · simp only [not_and_or] at hswap
    simpa (disch := decide) [Instr.wellFormed, inMulspace, extract_extract, h0, h9, hmul, hlong, or_assoc] using hswap
  · simp (disch := decide) [encode, join_eq, hc]

/-- Rows 1 to 9 have failed in row 10. -/
theorem undPsrspace_codedAs (hc : c.bits = w.extractLsb' 28 4) (h0 : w.extractLsb' 26 2 = 0#2) (h2 : w.extractLsb' 23 2 = 2#2)
    (hS : w.getLsbD 20 = false) (hbx : ¬ w.extractLsb' 4 24 = 0x12FFF1#24)
    (hspace : ¬ (w.getLsbD 25 = false ∧ w.getLsbD 7 = true ∧ w.getLsbD 4 = true))
    (hmrs : ¬ (w.extractLsb' 23 5 = 2#5 ∧ w.extractLsb' 16 6 = 0x0F#6 ∧ w.extractLsb' 0 12 = 0#12))
    (hmsr : ¬ (w.extractLsb' 23 5 = 2#5 ∧ w.extractLsb' 20 2 = 2#2 ∧ w.extractLsb' 4 12 = 0xF00#12))
    (hmsrImm : ¬ (w.extractLsb' 23 5 = 6#5 ∧ w.extractLsb' 20 2 = 2#2 ∧ w.extractLsb' 12 4 = 0xF#4)) :
    CodedAs (.undPsrspace c (w.extractLsb' 0 28)) (.arm w) := by
  constructor
  · have hnot := And.intro hspace (And.intro hmrs (And.intro hmsr hmsrImm))
    simp only [not_and_or, Bool.not_eq_false, Bool.not_eq_true] at hnot
    simpa (disch := decide) [Instr.wellFormed, inPsrspace, extract_extract, h0, h2, hS, hbx, or_assoc, and_assoc,
      -BitVec.getLsbD_eq_getElem] using hnot
  · simp (disch := decide) [encode, join_eq, hc]

/-- The opcode of a data-processing row: TST, TEQ, CMP and CMN come with S = 1 only, for row 10 took the others (R314). -/
theorem dpOpcode_cases (hS : w.extractLsb' 23 2 = 2#2 → w.getLsbD 20 = true) : ∃ n, w.extractLsb' 21 4 = BitVec.ofNat 4 n ∧
    (n < 8 ∨ (8 ≤ n ∧ n < 12) ∧ w.getLsbD 20 = true ∨ 12 ≤ n ∧ n < 16) := by
  obtain ⟨n, hn, hop⟩ := exists_eq_ofNat (w.extractLsb' 21 4)
  have hcompare (h : 8 ≤ n ∧ n < 12) : w.getLsbD 20 = true := by
    obtain ⟨hlo, hhi⟩ := h
    apply hS
    rw [← extract_extract w 21 4 2 2 (by decide), hop]
    interval_cases n <;> rfl
  exact ⟨n, hop, by grind⟩

theorem decodeDpImm_codedAs (hc : c.bits = w.extractLsb' 28 4) (h1 : w.extractLsb' 25 3 = 1#3)
    (hS : w.extractLsb' 23 2 = 2#2 → w.getLsbD 20 = true) : CodedAs (decodeDpImm c w) (.arm w) := by
  refine CodedAs.arm (v := encDpImm c (w.extractLsb' 21 4) (w.getLsbD 20) _ _ _ _) ?_ (encDpImm_fields hc h1)
  obtain ⟨n, hop, hn | ⟨⟨hlo, hhi⟩, hS⟩ | ⟨hlo, hhi⟩⟩ := dpOpcode_cases hS <;> unfold decodeDpImm <;> rw [hop]
  · interval_cases n <;> exact ⟨rfl, rfl⟩
  · rw [hS]
    interval_cases n <;> exact ⟨rfl, rfl⟩
  · interval_cases n <;> exact ⟨rfl, rfl⟩

theorem decodeDpIshift_codedAs (hc : c.bits = w.extractLsb' 28 4) (h0 : w.extractLsb' 25 3 = 0#3) (h4 : w.getLsbD 4 = false)
    (hS : w.extractLsb' 23 2 = 2#2 → w.getLsbD 20 = true) : CodedAs (decodeDpIshift c w) (.arm w) := by
  refine CodedAs.arm (v := encDpIshift c (w.extractLsb' 21 4) (w.getLsbD 20) _ _ _ _ _) ?_ (encDpIshift_fields hc h0 h4)
  obtain ⟨n, hop, hn | ⟨⟨hlo, hhi⟩, hS⟩ | ⟨hlo, hhi⟩⟩ := dpOpcode_cases hS <;> unfold decodeDpIshift <;> rw [hop]
  · interval_cases n <;> exact ⟨rfl, rfl⟩
  · rw [hS]
    interval_cases n <;> exact ⟨rfl, rfl⟩
  · interval_cases n <;> exact ⟨rfl, rfl⟩

theorem decodeDpRshift_codedAs (hc : c.bits = w.extractLsb' 28 4) (h0 : w.extractLsb' 25 3 = 0#3) (h7 : w.getLsbD 7 = false)
    (h4 : w.getLsbD 4 = true) (hS : w.extractLsb' 23 2 = 2#2 → w.getLsbD 20 = true) : CodedAs (decodeDpRshift c w) (.arm w) := by
  refine CodedAs.arm (v := encDpRshift c (w.extractLsb' 21 4) (w.getLsbD 20) _ _ _ _ _) ?_ (encDpRshift_fields hc h0 h7 h4)
  obtain ⟨n, hop, hn | ⟨⟨hlo, hhi⟩, hS⟩ | ⟨hlo, hhi⟩⟩ := dpOpcode_cases hS <;> unfold decodeDpRshift <;> rw [hop]
  · interval_cases n <;> exact ⟨rfl, rfl⟩
  · rw [hS]
    interval_cases n <;> exact ⟨rfl, rfl⟩
  · interval_cases n <;> exact ⟨rfl, rfl⟩

theorem decodeXferImm_codedAs (hc : c.bits = w.extractLsb' 28 4) (h2 : w.extractLsb' 25 3 = 2#3) :
    CodedAs (decodeXferImm c w) (.arm w) := by
  refine CodedAs.arm ?_ (encXferImm_fields hc h2)
  dsimp only [decodeXferImm]
  generalize w.getLsbD 24 = p
  generalize w.getLsbD 22 = b
  generalize w.getLsbD 21 = wb
  generalize w.getLsbD 20 = l
  split <;> exact ⟨rfl, rfl⟩

theorem decodeXferReg_codedAs (hc : c.bits = w.extractLsb' 28 4) (h3 : w.extractLsb' 25 3 = 3#3) (h4 : w.getLsbD 4 = false) :
    CodedAs (decodeXferReg c w) (.arm w) := by
  refine CodedAs.arm ?_ (encXferReg_fields hc h3 h4)
  dsimp only [decodeXferReg]
  generalize w.getLsbD 24 = p
  generalize w.getLsbD 22 = b
  generalize w.getLsbD 21 = wb
  generalize w.getLsbD 20 = l
  split <;> exact ⟨rfl, rfl⟩

theorem decodeBlock_codedAs (hc : c.bits = w.extractLsb' 28 4) (h4 : w.extractLsb' 25 3 = 4#3) :
    CodedAs (decodeBlock c w) (.arm w) := by
  have hlist : w.extractLsb' 0 16 = join 16 (bit (w.getLsbD 15)) (w.extractLsb' 0 15) := by
    rw [← extract_one]; exact (join_extract w 0 1 15).symm
  refine CodedAs.arm ?_ (encBlock_fields hc h4)
  dsimp only [decodeBlock]
  cases w.getLsbD 20 <;> cases w.getLsbD 22
  case true.true =>
    rw [hlist]
    cases w.getLsbD 15 <;> exact ⟨rfl, rfl⟩
  all_goals exact ⟨rfl, rfl⟩

theorem mrs_codedAs (hc : c.bits = w.extractLsb' 28 4) (h2 : w.extractLsb' 23 5 = 2#5) (h15 : w.extractLsb' 16 6 = 0x0F#6)
    (h0 : w.extractLsb' 0 12 = 0#12) : CodedAs (.mrs c (w.getLsbD 22) (w.extractLsb' 12 4)) (.arm w) := by
  have hop : w.extractLsb' 20 2 = 0#2 := extract_of_extract h15 4 2 (by decide)
  have hone : w.extractLsb' 16 4 = 0xF#4 := extract_of_extract h15 0 4 (by decide)
  exact ⟨rfl, by simp (disch := decide) [encode, join_eq, extract_extract, extract_one, hc, h2, hop, hone, h0]⟩

theorem decodeCop_codedAs (hc : c.bits = w.extractLsb' 28 4) (h : w.extractLsb' 25 3 = 6#3 ∨ w.extractLsb' 24 4 = 0xE#4) :
    CodedAs (decodeCop c w) (.arm w) := by
  unfold decodeCop
  refine .ite (fun h6 => ⟨rfl, ?_⟩) fun h6 => .ite (fun h4 => ⟨rfl, ?_⟩) fun h4 => ⟨rfl, ?_⟩
  · simp (disch := decide) [encode, join_eq, extract_extract, extract_one, hc, h6]
  all_goals simp (disch := decide) [encode, join_eq, extract_extract, extract_one, hc, h.resolve_left h6, h4,
    -BitVec.getLsbD_eq_getElem]

/-- A word that no row up to 17 takes is a SWI (row 18). -/
theorem swi_opcode (k : BitVec 3) (b : Bool) : ¬ k = 0#3 → ¬ k = 1#3 → ¬ k = 2#3 → ¬ k = 3#3 → ¬ k = 4#3 → ¬ k = 5#3 →
    ¬ (k = 6#3 ∨ join 4 k (bit b) = 0xE#4) → join 4 k (bit b) = 0xF#4 := by
  revert k b; decide

/-- Row by row of R311, under the failed tests of the rows before. -/
theorem decodeArmRows_codedAs (hc : c.bits = w.extractLsb' 28 4) : CodedAs (decodeArmRows c w) (.arm w) := by
  have h26 : w.extractLsb' 26 2 = (w.extractLsb' 25 3).extractLsb' 1 2 := (extract_extract w 25 3 1 2 (by decide)).symm
  have h25 : w.extractLsb' 25 3 = join 3 (w.extractLsb' 26 2) (bit (w.getLsbD 25)) := by
    rw [← extract_one, join_extract w 25 2 1]
  have h24 : w.extractLsb' 24 4 = join 4 (w.extractLsb' 25 3) (bit (w.getLsbD 24)) := by
    rw [← extract_one, join_extract w 24 3 1]
  unfold decodeArmRows
  refine .ite (fun row1 => ⟨rfl, by simp (disch := decide) [encode, join_eq, extract_extract, hc, row1]⟩) fun row1 => ?_
  refine .ite (fun ⟨h0, h9⟩ => decodeMul_codedAs hc h0 h9) fun row2 => ?_
  refine .ite (fun ⟨h1, h9⟩ => decodeMulLong_codedAs hc h1 h9) fun row3 => ?_
  refine .ite (fun ⟨h2, h0, h9⟩ => decodeSwap_codedAs hc h2 h0 h9) fun row4 => ?_
  refine .ite (fun ⟨h0, h7, h4, hSH⟩ => decodeHalf_codedAs hc h0 h7 h4 hSH) fun row5 => ?_
  refine .ite (fun ⟨h0, h7, h4⟩ => ?_) fun row6 => ?_
  · have hSH : w.extractLsb' 5 2 = 0#2 := by simpa [h0, h7, h4, -BitVec.getLsbD_eq_getElem] using row5
    have h9 : w.extractLsb' 4 4 = 9#4 := by
      rw [← join_extract w 4 1 3, ← join_extract w 4 2 1, extract_one, extract_one, h7, hSH, h4]; rfl
    have hswap : w.extractLsb' 8 4 = 0#4 → w.extractLsb' 4 8 = 9#8 := fun h => by rw [← join_extract w 4 4 4, h, h9]; rfl
    exact undMulspace_codedAs hc h0 h9 (fun h => row2 ⟨h, h9⟩) (fun h => row3 ⟨h, h9⟩)
      fun ⟨h2, h0, h⟩ => row4 ⟨h2, h0, hswap h⟩
  refine .ite (fun ⟨h2, h15, h0⟩ => mrs_codedAs hc h2 h15 h0) fun row7 => ?_
  refine .ite (fun ⟨h2, hop, h15⟩ => ⟨rfl, ?_⟩) fun row8 => ?_
  · simp (disch := decide) [encode, join_eq, extract_extract, extract_one, hc, h2, hop, h15]
  refine .ite (fun ⟨h6, hop, h15⟩ => ⟨rfl, ?_⟩) fun row9 => ?_
  · simp (disch := decide) [encode, join_eq, extract_extract, extract_one, hc, h6, hop, h15]
  refine .ite (fun ⟨h0, h2, hS⟩ => ?_) fun row10 => ?_
  · have hspace : ¬ (w.getLsbD 25 = false ∧ w.getLsbD 7 = true ∧ w.getLsbD 4 = true) := fun ⟨hI, h7, h4⟩ =>
      row6 ⟨by rw [h25, h0, hI]; rfl, h7, h4⟩
    exact undPsrspace_codedAs hc h0 h2 hS row1 hspace row7 row8 row9
  have hS (h0 : w.extractLsb' 26 2 = 0#2) (h2 : w.extractLsb' 23 2 = 2#2) : w.getLsbD 20 = true := by
    simpa [h0, h2, -BitVec.getLsbD_eq_getElem] using row10
  refine .ite (fun h0 => ?_) fun h0 => ?_
  · have hS := hS (by rw [h26, h0]; rfl)
    refine .ite (fun h4 => ?_) fun h4 => decodeDpIshift_codedAs hc h0 (Bool.eq_false_of_not_eq_true h4) hS
    exact decodeDpRshift_codedAs hc h0 (by simpa [h0, h4, -BitVec.getLsbD_eq_getElem] using row6) h4 hS
  refine .ite (fun h1 => decodeDpImm_codedAs hc h1 (hS (by rw [h26, h1]; rfl))) fun h1 => ?_
  refine .ite (fun ⟨h3, h4⟩ => ⟨rfl, ?_⟩) fun row13 => ?_
  · simp (disch := decide) [encode, join_eq, extract_extract, extract_one, hc, h3, h4, -BitVec.getLsbD_eq_getElem]
  refine .ite (fun h2 => decodeXferImm_codedAs hc h2) fun h2 => ?_
  refine .ite (fun h3 => decodeXferReg_codedAs hc h3 (by simpa [h3, -BitVec.getLsbD_eq_getElem] using row13)) fun h3 => ?_
  refine .ite (fun h4 => decodeBlock_codedAs hc h4) fun h4 => ?_
  refine .ite (fun h5 => .ite (fun hL => ⟨rfl, ?_⟩) fun hL => ⟨rfl, ?_⟩) fun h5 => ?_
  · have hop : w.extractLsb' 24 4 = 0xB#4 := by rw [h24, h5, hL]; rfl
    simp (disch := decide) [encode, join_eq, extract_extract, hc, hop]
  · have hop : w.extractLsb' 24 4 = 0xA#4 := by rw [h24, h5, Bool.eq_false_of_not_eq_true hL]; rfl
    simp (disch := decide) [encode, join_eq, extract_extract, hc, hop]
  refine .ite (fun row17 => decodeCop_codedAs hc row17) fun row17 => ⟨rfl, ?_⟩
  rw [h24] at row17
  have hop := h24.trans (swi_opcode _ _ h0 h1 h2 h3 h4 h5 row17)
  simp (disch := decide) [encode, join_eq, extract_extract, hc, hop]

theorem decodeArm_codedAs (w : Word) : CodedAs (decodeArm w) (.arm w) := by
  unfold decodeArm
  split
  case h_1 hnv => exact ⟨rfl, by simp (disch := decide) [encode, join_eq, Cond.ofBits_none _ hnv]⟩
  case h_2 c hc => exact decodeArmRows_codedAs (Cond.bits_ofBits _ _ hc)

end ArmRows

/-! ### The Thumb rows -/

section ThumbRows

variable {h : Half}

theorem decodeT4_codedAs (hop : h.extractLsb' 10 6 = 0b010000#6) : CodedAs (decodeT4 h) (.thumb h) := by
  refine CodedAs.thumb (v := join 16 0b010000#6 (join 10 (h.extractLsb' 6 4) (join 6 (h.extractLsb' 3 3) (h.extractLsb' 0 3)))) ?_
    (by simp (disch := decide) [join_eq, extract_extract, hop])
  obtain ⟨n, hn, hsel⟩ := exists_eq_ofNat (h.extractLsb' 6 4)
  unfold decodeT4
  rw [hsel]
  interval_cases n <;> exact ⟨rfl, rfl⟩

theorem decodeT5_codedAs (hop : h.extractLsb' 10 6 = 0b010001#6) : CodedAs (decodeT5 h) (.thumb h) := by
  have hbx : h.extractLsb' 7 9 = join 9 (h.extractLsb' 10 6) (join 3 (h.extractLsb' 8 2) (bit (h.getLsbD 7))) := by
    rw [← extract_one, join_extract h 7 2 1, join_extract h 7 6 3]
  obtain ⟨n, hn, hsel⟩ := exists_eq_ofNat (h.extractLsb' 8 2)
  unfold decodeT5
  rw [hop, hsel] at hbx
  simp only [hsel]
  obtain hn | rfl : n < 3 ∨ n = 3 := by omega
  · interval_cases n <;>
      exact ⟨rfl, by simp (disch := decide) [encode, join_eq, extract_extract, extract_join_hi, extract_join_lo, hop, hsel]⟩
  refine .ite (fun hH => ⟨rfl, ?_⟩) fun hH => ⟨rfl, ?_⟩
  · have hblx : h.extractLsb' 7 9 = 0b010001111#9 := by rw [hbx, hH]; rfl
    simp (disch := decide) [encode, join_eq, extract_extract, hblx]
  · have hbx : h.extractLsb' 7 9 = 0b010001110#9 := by rw [hbx, Bool.eq_false_of_not_eq_true hH]; rfl
    simp (disch := decide) [encode, join_eq, extract_extract, hbx]

theorem decodeT78_codedAs (hop : h.extractLsb' 12 4 = 0b0101#4) : CodedAs (decodeT78 h) (.thumb h) := by
  refine CodedAs.thumb (v := join 16 0b0101#4 (join 12 (h.extractLsb' 9 3) (join 9 (h.extractLsb' 6 3) (join 6 (h.extractLsb' 3 3)
    (h.extractLsb' 0 3))))) ?_ (by simp (disch := decide) [join_eq, extract_extract, hop])
  obtain ⟨n, hn, hsel⟩ := exists_eq_ofNat (h.extractLsb' 9 3)
  unfold decodeT78
  rw [hsel]
  interval_cases n <;> exact ⟨rfl, rfl⟩

/-- Bits 15:9 of T2 (R330 row 1). -/
theorem t2_opcode (hop : h.extractLsb' 11 5 = 0b00011#5) :
    h.extractLsb' 9 7 = join 7 0b00011#5 (join 2 (bit (h.getLsbD 10)) (bit (h.getLsbD 9))) := by
  rw [← extract_one, ← extract_one, join_extract h 9 1 1, ← hop, join_extract h 9 5 2]

/-- Row 13 of R330, by the S bit. -/
theorem spimm_codedAs (hop : h.extractLsb' 8 8 = 0b10110000#8) :
    CodedAs (if h.getLsbD 7 then .tSubSpimm (h.extractLsb' 0 7) else .tAddSpimm (h.extractLsb' 0 7)) (.thumb h) := by
  have h7 : h.extractLsb' 7 9 = join 9 (h.extractLsb' 8 8) (bit (h.getLsbD 7)) := by
    rw [← extract_one, join_extract h 7 8 1]
  refine .ite (fun hS => ⟨rfl, ?_⟩) fun hS => ⟨rfl, ?_⟩
  · have hop : h.extractLsb' 7 9 = 0b101100001#9 := by rw [h7, hop, hS]; rfl
    simp (disch := decide) [encode, join_eq, hop]
  · have hop : h.extractLsb' 7 9 = 0b101100000#9 := by rw [h7, hop, Bool.eq_false_of_not_eq_true hS]; rfl
    simp (disch := decide) [encode, join_eq, hop]

/-- Row 15 of R330, under the failed tests of rows 13 and 14. -/
theorem tUndB_codedAs (hop : h.extractLsb' 12 4 = 0b1011#4) (hsp : ¬ h.extractLsb' 8 4 = 0#4)
    (hstack : ¬ h.extractLsb' 9 2 = 2#2) : CodedAs (.tUndB (h.extractLsb' 0 12)) (.thumb h) := by
  constructor
  · simp (disch := decide) [Instr.wellFormed, inThumbB, extract_extract, hsp, hstack]
  · simp (disch := decide) [encode, join_eq, hop]

theorem tSwi_codedAs (hop : h.extractLsb' 12 4 = 0b1101#4) (hnv : Cond.ofBits (h.extractLsb' 8 4) = none) :
    CodedAs (.tSwi (h.extractLsb' 0 8)) (.thumb h) := by
  have hop : h.extractLsb' 8 8 = 0xDF#8 := by rw [← join_extract h 8 4 4, hop, Cond.ofBits_none _ hnv]; rfl
  exact ⟨rfl, by simp (disch := decide) [encode, join_eq, hop]⟩

theorem tUndDe_codedAs (hop : h.extractLsb' 12 4 = 0b1101#4) (hal : Cond.ofBits (h.extractLsb' 8 4) = some .al) :
    CodedAs (.tUndDe (h.extractLsb' 0 8)) (.thumb h) := by
  have hop : h.extractLsb' 8 8 = 0xDE#8 := by rw [← join_extract h 8 4 4, hop, ← Cond.bits_ofBits _ _ hal]; rfl
  exact ⟨rfl, by simp (disch := decide) [encode, join_eq, hop]⟩

theorem tBcond_codedAs {c : Cond} (hop : h.extractLsb' 12 4 = 0b1101#4) (hc : Cond.ofBits (h.extractLsb' 8 4) = some c)
    (hne : c ≠ .al) : CodedAs (.tBcond c (h.extractLsb' 0 8)) (.thumb h) := by
  constructor
  · simpa [Instr.wellFormed] using hne
  · simp (disch := decide) [encode, join_eq, extract_extract, hop, Cond.bits_ofBits _ _ hc]

/-- By bits 15:11, which fix the row but for T2, for 010000 and 010001, and for the spaces of 1011 and 1101 (R330). -/
theorem decodeThumb_codedAs (h : Half) : CodedAs (decodeThumb h) (.thumb h) := by
  have h13 : h.extractLsb' 13 3 = (h.extractLsb' 11 5).extractLsb' 2 3 := (extract_extract h 11 5 2 3 (by decide)).symm
  have h12 : h.extractLsb' 12 4 = (h.extractLsb' 11 5).extractLsb' 1 4 := (extract_extract h 11 5 1 4 (by decide)).symm
  have h11 : h.extractLsb' 11 2 = (h.extractLsb' 11 5).extractLsb' 0 2 := (extract_extract h 11 5 0 2 (by decide)).symm
  have h10 : h.extractLsb' 10 6 = join 6 (h.extractLsb' 11 5) (bit (h.getLsbD 10)) := by
    rw [← extract_one, join_extract h 10 5 1]
  have h9 : h.extractLsb' 9 7 = join 7 (h.extractLsb' 11 5) (h.extractLsb' 9 2) := (join_extract h 9 5 2).symm
  have h8 : h.extractLsb' 8 8 = join 8 (h.extractLsb' 11 5) (h.extractLsb' 8 3) := (join_extract h 8 5 3).symm
  have hlow : h.extractLsb' 8 4 = join 4 ((h.extractLsb' 11 5).extractLsb' 0 1) (h.extractLsb' 8 3) := by
    rw [extract_extract _ _ _ _ _ (by decide), join_extract h 8 1 3]
  obtain ⟨n, hn, hop⟩ := exists_eq_ofNat (h.extractLsb' 11 5)
  unfold decodeThumb
  rw [hop] at h13 h12 h11 h10 h9 h8 hlow
  simp only [hop]
  obtain rfl | rfl | rfl | rfl | hT78 | hT16 | hplain : n = 3 ∨ n = 8 ∨ n = 22 ∨ n = 23 ∨ (n = 10 ∨ n = 11) ∨
      (n = 26 ∨ n = 27) ∨ (n < 3 ∨ 3 < n ∧ n < 8 ∨ 8 < n ∧ n < 10 ∨ 11 < n ∧ n < 22 ∨ 23 < n ∧ n < 26 ∨ 27 < n) := by omega
  · refine CodedAs.thumb (v := join 16 (h.extractLsb' 9 7) (join 9 (h.extractLsb' 6 3) (join 6 (h.extractLsb' 3 3)
      (h.extractLsb' 0 3)))) ?_ (by simp (disch := decide) [join_eq, extract_extract])
    rw [t2_opcode hop]
    cases h.getLsbD 10 <;> cases h.getLsbD 9 <;> exact ⟨rfl, rfl⟩
  · refine .ite (fun hH => decodeT5_codedAs ?_) fun hH => decodeT4_codedAs ?_
    · rw [h10, hH]; rfl
    · rw [h10, Bool.eq_false_of_not_eq_true hH]; rfl
  · refine .ite (fun h0 => spimm_codedAs ?_) fun h0 => .ite (fun h2 => ⟨rfl, ?_⟩) fun h2 => tUndB_codedAs h12 ?_ h2
    · rw [h8, h0]; rfl
    · have hop : h.extractLsb' 9 7 = 0b1011010#7 := by rw [h9, h2]; rfl
      simp (disch := decide) [encode, join_eq, extract_extract, extract_one, hop]
    · simp [hlow, join_eq, h0]
  · refine .ite (fun h2 => ⟨rfl, ?_⟩) fun h2 => tUndB_codedAs h12 ?_ h2
    · have hop : h.extractLsb' 9 7 = 0b1011110#7 := by rw [h9, h2]; rfl
      simp (disch := decide) [encode, join_eq, extract_extract, extract_one, hop]
    · simp [hlow, join_eq]
  · rcases hT78 with rfl | rfl <;> exact decodeT78_codedAs h12
  · rcases hT16 with rfl | rfl
    all_goals
      simp only [BitVec.reduceToNat]
      split
      case h_1 hnv => exact tSwi_codedAs h12 hnv
      case h_2 hal => exact tUndDe_codedAs h12 hal
      case h_3 c hne hc => exact tBcond_codedAs h12 hc hne
  · rcases hplain with hn | ⟨hlo, hhi⟩ | ⟨hlo, hhi⟩ | ⟨hlo, hhi⟩ | ⟨hlo, hhi⟩ | hlo <;> interval_cases n <;>
      exact ⟨rfl, by simp (disch := decide) [encode, join_eq, extract_extract, hop, h13, h11]⟩

end ThumbRows

/-! ### The whole of both sets -/

/-- Settles O2, row by row of the two decode orders. -/
theorem encodeOfDecode : Obligations.EncodeOfDecode := by
  unfold Obligations.EncodeOfDecode
  rintro (w | h)
  · exact decodeArm_codedAs w
  · exact decodeThumb_codedAs h

/-- Settles O3, by evaluation. -/
theorem specWordsDecode : Obligations.SpecWordsDecode := by
  unfold Obligations.SpecWordsDecode
  exact ⟨rfl, rfl, rfl, rfl, rfl, rfl, rfl, rfl, rfl⟩

end Sys2Proof
end

section
/-! SUPPORT. Conditions and the barrel shifter (40 R400 to R412): what a condition says after a comparison, and every shift as one
shift of the whole word with its carry. -/

namespace Sys2Proof.Machine

open Sys2Proof

/-! ### Conditions (40 R400, R401, R403) -/

/-- Every instruction with a condition does what it does under that condition and nothing else (30 R310). -/
theorem exec_eq_whenPassed {i : Instr} {c : Cond} (h : armCond i = some c) (s : State) :
    ∃ k, exec i s = s.whenPassed c k := by
  cases i <;> cases h <;> exact ⟨_, rfl⟩

/-- Settles O26: each ARM instruction acts under its condition, and NV only advances. -/
theorem conditionFails : Obligations.ConditionFails := by
  unfold Obligations.ConditionFails
  refine ⟨fun i c s hi hc => ?_, fun body s => rfl⟩
  obtain ⟨k, hk⟩ := exec_eq_whenPassed hi s
  exact hk.trans (State.whenPassed_fail hc k)

/-- The wrapped difference is negative where exactly one of these holds: a is less than b, or the exact difference
overflows. -/
theorem toInt_sub_neg_iff (a b : Word) :
    (a - b).toInt < 0 ↔ (Overflows (a.toInt - b.toInt) ↔ b.toInt ≤ a.toInt) := by
  have hahi : a.toInt < 2 ^ 31 := BitVec.toInt_lt
  have hbhi : b.toInt < 2 ^ 31 := BitVec.toInt_lt
  have halo : -2 ^ 31 ≤ a.toInt := BitVec.le_toInt a
  have hblo : -2 ^ 31 ≤ b.toInt := BitVec.le_toInt b
  rw [BitVec.toInt_sub, Int.bmod_def, Overflows]
  split <;> omega

/-- The conditions of R400 stand in pairs, of which the second is the complement of the first. -/
theorem passes_complement (p : Cpsr) :
    Cond.passes .ne p = !Cond.passes .eq p ∧ Cond.passes .cc p = !Cond.passes .cs p ∧
    Cond.passes .pl p = !Cond.passes .mi p ∧ Cond.passes .vc p = !Cond.passes .vs p ∧
    Cond.passes .ls p = !Cond.passes .hi p ∧ Cond.passes .lt p = !Cond.passes .ge p ∧
    Cond.passes .le p = !Cond.passes .gt p := by
  refine ⟨rfl, rfl, rfl, rfl, ?_, rfl, ?_⟩
  · show (!p.c || p.z) = !(p.c && !p.z)
    rw [Bool.not_and, Bool.not_not]
  · show (p.z || p.n != p.v) = !(!p.z && p.n == p.v)
    rw [Bool.not_and, Bool.not_not]
    rfl

section AfterCompare

variable {p : Cpsr} {a b : Word} (h : ArithFlags .sub p a b p.c)
include h

theorem passes_eq_iff : Cond.passes .eq p = true ↔ a = b := by
  obtain ⟨⟨-, hz⟩, -, -⟩ := h
  exact hz.trans sub_eq_zero

theorem passes_cs_iff : Cond.passes .cs p = true ↔ b.toNat ≤ a.toNat := by
  obtain ⟨-, hc, -⟩ := h
  exact hc

theorem passes_mi_iff : Cond.passes .mi p = true ↔ (a - b).toInt < 0 := by
  obtain ⟨⟨hn, -⟩, -, -⟩ := h
  exact hn

theorem passes_vs_iff : Cond.passes .vs p = true ↔ Overflows (a.toInt - b.toInt) := by
  obtain ⟨-, -, hv⟩ := h
  exact hv

theorem passes_hi_iff : Cond.passes .hi p = true ↔ b.toNat < a.toNat := by
  have hhi : Cond.passes .hi p = true ↔ Cond.passes .cs p = true ∧ ¬ Cond.passes .eq p = true := by
    show (p.c && !p.z) = true ↔ p.c = true ∧ ¬ p.z = true
    simp
  rw [hhi, passes_cs_iff h, passes_eq_iff h, ← BitVec.toNat_inj]
  omega

/-- Signed at least: the sign of the wrapped difference and the overflow agree. -/
theorem passes_ge_iff : Cond.passes .ge p = true ↔ b.toInt ≤ a.toInt := by
  have hge : Cond.passes .ge p = true ↔ (Cond.passes .mi p = true ↔ Cond.passes .vs p = true) := by
    show (p.n == p.v) = true ↔ (p.n = true ↔ p.v = true)
    rw [beq_iff_eq, Bool.eq_iff_iff]
  rw [hge, passes_mi_iff h, passes_vs_iff h, toInt_sub_neg_iff]
  by_cases hv : Overflows (a.toInt - b.toInt) <;> simp [hv]

theorem passes_gt_iff : Cond.passes .gt p = true ↔ b.toInt < a.toInt := by
  have hgt : Cond.passes .gt p = true ↔ ¬ Cond.passes .eq p = true ∧ Cond.passes .ge p = true := by
    show (!p.z && p.n == p.v) = true ↔ ¬ p.z = true ∧ (p.n == p.v) = true
    simp
  rw [hgt, passes_eq_iff h, passes_ge_iff h, ← BitVec.toInt_inj]
  omega

end AfterCompare

/-- Settles O27: seven conditions by the flags of the difference, seven more as their complements. -/
theorem conditionsAfterCompare : Obligations.ConditionsAfterCompare := by
  unfold Obligations.ConditionsAfterCompare
  intro p a b h
  obtain ⟨hne, hcc, hpl, hvc, hls, hlt, hle⟩ := passes_complement p
  rw [hne, hcc, hpl, hvc, hls, hlt, hle]
  simp only [Bool.not_eq_true', ← Bool.not_eq_true, passes_eq_iff h, passes_cs_iff h, passes_mi_iff h, passes_vs_iff h,
    passes_hi_iff h, passes_ge_iff h, passes_gt_iff h, not_le, not_lt, ne_eq, iff_self, true_and]
  rfl

/-! ### The barrel shifter (40 R410 to R412) -/

/-- A signed shift by 32 and more leaves the sign in every bit. -/
theorem sshiftRight_of_le (m : Word) {n : Nat} (h : 32 ≤ n) : m.sshiftRight n = m.sshiftRight 32 := by
  apply BitVec.eq_of_getLsbD_eq
  intro i hi
  rw [BitVec.getLsbD_sshiftRight, BitVec.getLsbD_sshiftRight, if_neg (by omega), if_neg (by omega)]

theorem toNat_shiftLeft_eq_mul (m : Word) (n : Nat) : (m <<< n).toNat = m.toNat * 2 ^ n % 2 ^ 32 := by
  rw [BitVec.toNat_shiftLeft, Nat.shiftLeft_eq]

theorem toNat_ushiftRight_eq_div (m : Word) (n : Nat) : (m >>> n).toNat = m.toNat / 2 ^ n := by
  rw [BitVec.toNat_ushiftRight, Nat.shiftRight_eq_div_pow]

theorem toInt_sshiftRight_eq_div (m : Word) (n : Nat) : (m.sshiftRight n).toInt = m.toInt / 2 ^ n := by
  rw [BitVec.toInt_sshiftRight, Int.shiftRight_eq_div_pow]
  norm_cast

/-- A rotation permutes the bits. -/
theorem getLsbD_rotateRight_mod (m : Word) (n : Nat) (i : Fin 32) :
    (m.rotateRight n).getLsbD i = m.getLsbD ((i + n) % 32) := by
  have hi := i.isLt
  rw [BitVec.getLsbD_rotateRight]
  by_cases hlow : i < 32 - n % 32
  · rw [decide_eq_true hlow, cond_true, show (i + n) % 32 = n % 32 + i by omega]
  · rw [decide_eq_false hlow, cond_false, decide_eq_true hi, Bool.true_and,
      show (i + n) % 32 = i - (32 - n % 32) by omega]

section ByAmount

variable (c : Bool) (m : Word) {s : Byte}

theorem shiftReg_zero (k : ShiftKind) : shiftReg c k m 0 = ⟨m, c⟩ := rfl

/-- A shift by an amount other than 0 is by a number other than 0. -/
theorem amount_ne_zero (hs : s ≠ 0) : s.toNat ≠ 0 := fun h => hs (BitVec.eq_of_toNat_eq h)

theorem shiftReg_lsl (hs : s ≠ 0) : shiftReg c .lsl m s =
    ⟨m <<< s.toNat, decide (s.toNat ≤ 32) && m.getLsbD (32 - s.toNat)⟩ := by
  simp only [shiftReg, amount_ne_zero hs, if_false]
  split_ifs with hlt heq
  · simp [Nat.le_of_lt hlt]
  · simp [heq]
  · have hgt : 32 < s.toNat := by omega
    simp [hgt, BitVec.shiftLeft_eq_zero (Nat.le_of_lt hgt)]

theorem shiftReg_lsr (hs : s ≠ 0) : shiftReg c .lsr m s =
    ⟨m >>> s.toNat, decide (s.toNat ≤ 32) && m.getLsbD (s.toNat - 1)⟩ := by
  simp only [shiftReg, amount_ne_zero hs, if_false]
  split_ifs with hlt heq
  · simp [Nat.le_of_lt hlt]
  · simp [heq, BitVec.msb_eq_getLsbD_last, BitVec.ushiftRight_eq_zero]
  · have hgt : 32 < s.toNat := by omega
    simp [hgt, BitVec.ushiftRight_eq_zero (Nat.le_of_lt hgt)]

theorem shiftReg_asr (hs : s ≠ 0) :
    shiftReg c .asr m s = ⟨m.sshiftRight s.toNat, m.getLsbD (min s.toNat 32 - 1)⟩ := by
  simp only [shiftReg, amount_ne_zero hs, if_false]
  split_ifs with hlt
  · rw [Nat.min_eq_left (Nat.le_of_lt hlt)]
  · have hge : 32 ≤ s.toNat := Nat.le_of_not_lt hlt
    rw [Nat.min_eq_right hge, sshiftRight_of_le m hge, BitVec.msb_eq_getLsbD_last]

theorem shiftReg_ror (hs : s ≠ 0) :
    shiftReg c .ror m s = ⟨m.rotateRight s.toNat, m.getLsbD ((s.toNat + 31) % 32)⟩ := by
  simp only [shiftReg, amount_ne_zero hs, if_false]
  rw [← BitVec.rotateRight_mod_eq_rotateRight (r := s.toNat)]
  split_ifs with hmul
  · rw [hmul, rotateRight_zero, BitVec.msb_eq_getLsbD_last, show (s.toNat + 31) % 32 = 31 by omega]
  · rw [show (s.toNat + 31) % 32 = s.toNat % 32 - 1 by omega]

end ByAmount

/-- Settles O29: each kind of shift by its whole value and carry, in exact arithmetic. -/
theorem registerShifter : Obligations.RegisterShifter := by
  unfold Obligations.RegisterShifter
  refine fun c m s => ⟨?_, fun hs => ?_⟩
  · rintro k rfl
    exact shiftReg_zero c m k
  · rw [shiftReg_lsl c m hs, shiftReg_lsr c m hs, shiftReg_asr c m hs, shiftReg_ror c m hs]
    exact ⟨⟨toNat_shiftLeft_eq_mul m _, rfl⟩, ⟨toNat_ushiftRight_eq_div m _, rfl⟩, ⟨toInt_sshiftRight_eq_div m _, rfl⟩,
      getLsbD_rotateRight_mod m _, rfl⟩

/-- The amount that the shift field n means for LSR and ASR, where 0 stands for 32 (R411). -/
def fieldAmount (n : BitVec 5) : Byte := if n = 0 then 32 else n.setWidth 8

theorem toNat_fieldAmount (n : BitVec 5) : (fieldAmount n).toNat = if n = 0 then 32 else n.toNat := by
  revert n; decide

theorem fieldAmount_ne_zero (n : BitVec 5) : fieldAmount n ≠ 0 := by
  revert n; decide

theorem fieldAmount_le (n : BitVec 5) : (fieldAmount n).toNat ≤ 32 := by
  revert n; decide

section ByField

variable (c : Bool) (m : Word) {n : BitVec 5}

/-- An immediate shift by a field other than 0 is the shift by that amount. -/
theorem shiftImm_eq_shiftReg (k : ShiftKind) (hn : n ≠ 0) : shiftImm c k m n = shiftReg c k m (fieldAmount n) := by
  have hlt : n.toNat < 32 := n.isLt
  have h0 : n.toNat ≠ 0 := fun h => hn (BitVec.eq_of_toNat_eq h)
  have hamount : (fieldAmount n).toNat = n.toNat := by rw [toNat_fieldAmount, if_neg hn]
  cases k <;> simp only [shiftImm, shiftReg, hamount, hn, h0, hlt, Nat.mod_eq_of_lt hlt, if_false, if_true]

theorem shiftImm_lsr (n : BitVec 5) : shiftImm c .lsr m n = shiftReg c .lsr m (fieldAmount n) := by
  by_cases hn : n = 0
  · subst hn; rfl
  · exact shiftImm_eq_shiftReg c m .lsr hn

theorem shiftImm_asr (n : BitVec 5) : shiftImm c .asr m n = shiftReg c .asr m (fieldAmount n) := by
  by_cases hn : n = 0
  · subst hn; rfl
  · exact shiftImm_eq_shiftReg c m .asr hn

/-- LSL #0 keeps the register and C (R411). -/
theorem shiftImm_lsl (n : BitVec 5) : shiftImm c .lsl m n = ⟨m <<< n.toNat, if n = 0 then c else m.getLsbD (32 - n.toNat)⟩ := by
  unfold shiftImm
  split_ifs with hn
  · simp [hn]
  · rfl

/-- ROR #0 is RRX: C comes in at the top (R411). -/
theorem toNat_rrx : (shiftImm c .ror m 0).value.toNat = (if c then 2 ^ 31 else 0) + m.toNat / 2 := by
  have hlow : (m.extractLsb' 1 31).toNat = m.toNat / 2 := by
    have hm := m.isLt
    rw [BitVec.extractLsb'_toNat, Nat.shiftRight_eq_div_pow]
    omega
  show (join 32 (bit c) (m.extractLsb' 1 31)).toNat = _
  rw [toNat_join _ _ (by decide), hlow, Nat.add_comm]
  cases c <;> rfl

end ByField

/-- Settles O28: LSR and ASR as register shifts by the amount the field means, LSL and ROR apart at 0. -/
theorem immediateShifter : Obligations.ImmediateShifter := by
  unfold Obligations.ImmediateShifter
  refine ⟨fun c rot imm8 => ⟨rfl, ?_⟩, fun c m n => ?_⟩
  · show (if rot = 0 then c else (rotatedImm rot imm8).msb) = _
    rw [BitVec.msb_eq_getLsbD_last]
    rfl
  · intro k lsl lsr asr ror
    have hk : (fieldAmount n).toNat = k := toNat_fieldAmount n
    have hk32 : k ≤ 32 := hk ▸ fieldAmount_le n
    have hlsr : lsr = ⟨m >>> k, m.getLsbD (k - 1)⟩ := by
      have h := shiftReg_lsr c m (fieldAmount_ne_zero n)
      rw [← shiftImm_lsr, hk, decide_eq_true hk32, Bool.true_and] at h
      exact h
    have hasr : asr = ⟨m.sshiftRight k, m.getLsbD (k - 1)⟩ := by
      have h := shiftReg_asr c m (fieldAmount_ne_zero n)
      rw [← shiftImm_asr, hk, Nat.min_eq_left hk32] at h
      exact h
    rw [hlsr, hasr]
    refine ⟨?_, ⟨toNat_ushiftRight_eq_div m k, rfl⟩, ⟨toInt_sshiftRight_eq_div m k, rfl⟩, ?_, fun hn => ?_⟩
    · rw [show lsl = _ from shiftImm_lsl c m n]
      exact ⟨toNat_shiftLeft_eq_mul m _, rfl⟩
    · rintro rfl
      exact ⟨toNat_rrx c m, rfl⟩
    · have hror : ror = ⟨m.rotateRight n.toNat, m.getLsbD (n.toNat - 1)⟩ := if_neg hn
      rw [hror]
      exact ⟨getLsbD_rotateRight_mod m _, rfl⟩

end Sys2Proof.Machine
end

section
/-! SUPPORT. ARM data processing (40 R414 to R435): the logical, arithmetic and compare instructions from the end they share, and
those that write R15. -/

namespace Sys2Proof.Machine

open Sys2Proof

/-! ### Results in a register (40 R414, R420 to R427, R432 to R435) -/

/-- A data-processing instruction that writes a register other than R15: the pc, Rd, the CPSR and the frame. -/
theorem State.dpWrite_reg (s : State) (sf : Bool) {rd : Reg} (h : rd ≠ 15) (o : AluOut) :
    ∃ t, s.dpWrite sf rd o = .next t ∧ t.pc = s.pc + 4 ∧ t.reg 8 rd = o.value ∧ t.cpsr = s.cpsr.withFlagsIf sf o ∧
      SameControl s t ∧ FrameFlags [physReg s.cpsr.mode rd] s t := by
  refine ⟨_, if_neg h, rfl, reg_setReg s rd h _ _ _ (by simp) 8, rfl, ?_, frameFlags_setReg s rd _ _ _⟩
  exact ⟨Cpsr.withFlagsIf_mode _ _ _, Cpsr.withFlagsIf_i _ _ _, Cpsr.withFlagsIf_f _ _ _, Cpsr.withFlagsIf_t _ _ _⟩

/-- Settles O30, by what a logical instruction writes. -/
theorem logicalResults : Obligations.LogicalResults := by
  unfold Obligations.LogicalResults
  intro op o c sf rn rd s hc ho hrd
  rw [exec_logic op o c sf rn rd s hc ho]
  obtain ⟨t, hnext, hpc, hreg, hcpsr, hcontrol, hframe⟩ :=
    s.dpWrite_reg sf hrd (logical s.cpsr (op.result (o.first s rn) (o.out s).value) (o.out s).carry)
  refine ⟨t, hnext, hpc, hreg, ?_, ?_, hcontrol, hframe⟩
  · rintro rfl
    rw [hcpsr]
    exact logicFlags_withFlags _ _ _
  · rintro rfl
    exact hcpsr

/-- Settles O31, by what the adder computes and what an arithmetic instruction writes. -/
theorem arithmeticResults : Obligations.ArithmeticResults := by
  unfold Obligations.ArithmeticResults
  intro op o c sf rn rd s hc ho hrd
  rw [exec_arith op o c sf rn rd s hc ho]
  obtain ⟨hvalue, hflags⟩ := op.out_spec s.cpsr (o.first s rn) (o.out s).value s.cpsr.c
  obtain ⟨t, hnext, hpc, hreg, hcpsr, hcontrol, hframe⟩ :=
    s.dpWrite_reg sf hrd (op.out (o.first s rn) (o.out s).value s.cpsr.c)
  refine ⟨t, hnext, hpc, hreg.trans hvalue, ?_, ?_, hcontrol, hframe⟩
  · rintro rfl
    rw [hcpsr]
    exact hflags
  · rintro rfl
    exact hcpsr

/-! ### Comparisons (40 R428 to R431) -/

theorem State.dpCompare_of_ne (s : State) {rd : Reg} (h : rd ≠ 15) (o : AluOut) :
    s.dpCompare rd o = .next ((s.setCpsr (s.cpsr.withFlags o)).advance 4) := refuseIf_not (beq_false_of_ne h) _ _

/-- The frame of the CPSR replaced and the advance. -/
theorem frameFlags_setCpsr (s : State) (p : Cpsr) (n : Word) : FrameFlags [] s ((s.setCpsr p).advance n) :=
  frameFlags_of (fun _ _ => rfl) rfl rfl rfl rfl ⟨rfl, rfl, rfl, rfl, rfl, rfl⟩

/-- Settles O32, by the Rd field, and by the operation for the flags. -/
theorem compareResults : Obligations.CompareResults := by
  unfold Obligations.CompareResults
  intro op o c rn rd s hc ho a b
  rw [exec_compare op o c rn rd s hc ho]
  refine ⟨?_, fun hrd => ⟨_, s.dpCompare_of_ne hrd _, rfl, ?_, ⟨rfl, rfl, rfl, rfl⟩, frameFlags_setCpsr s _ 4⟩⟩
  · rintro rfl
    exact refuseIf_true _ _
  · cases op with
    | tst => exact logicFlags_withFlags _ _ _
    | teq => exact logicFlags_withFlags _ _ _
    | cmp => exact (ArithOp.sub.out_spec s.cpsr a b s.cpsr.c).2
    | cmn => exact (ArithOp.add.out_spec s.cpsr a b s.cpsr.c).2

/-! ### Results in R15 (40 R415, R416) -/

/-- An instruction with R15 as Rd: with S = 0 a branch to its result (R415), with S = 1 a return to it (R416). -/
theorem exec_writeOp_pc (op : WriteOp) (o : DpOperand) (c : Cond) (sf : Bool) (rn : Reg) (s : State)
    (hc : Cond.passes c s.cpsr = true) (ho : o.defined) :
    exec (op.instr o c sf rn 15) s =
      if sf then s.exceptionReturn (op.result o s rn) else .next (s.branchArm (op.result o s rn)) := by
  cases op with
  | logic l => exact exec_logic l o c sf rn 15 s hc ho
  | arith l =>
    obtain ⟨hvalue, -⟩ := l.out_spec s.cpsr (o.first s rn) (o.out s).value s.cpsr.c
    rw [WriteOp.result, ← hvalue]
    exact exec_arith l o c sf rn 15 s hc ho

/-- Settles O33: with S = 0 by the branch, with S = 1 by everything a return can do. -/
theorem dataProcessingToPc : Obligations.DataProcessingToPc := by
  unfold Obligations.DataProcessingToPc
  intro op o c rn s hc ho v
  refine ⟨exec_writeOp_pc op o c false rn s hc ho, ?_⟩
  rw [exec_writeOp_pc op o c true rn s hc ho]
  exact exceptionReturn_spec s v

end Sys2Proof.Machine
end

section
/-! SUPPORT. The multiplies and PSR transfer (41 R500 to R523): what each multiply computes and leaves, what MRS reads, and the value
that MSR gives a status register, bit by bit. -/

namespace Sys2Proof.Machine

open Sys2Proof

/-! ### MUL, MLA and Thumb MUL (41 R500, R501, R510, R511; 44 R833) -/

/-- The exact product of two words modulo 2^32 is their product as words. -/
theorem ofNat_toNat_mul (a b : Word) : BitVec.ofNat 32 (a.toNat * b.toNat) = a * b := by
  rw [BitVec.ofNat_mul, BitVec.ofNat_toNat, BitVec.ofNat_toNat, BitVec.setWidth_eq, BitVec.setWidth_eq]

/-- The exact product and sum of words modulo 2^32 are those of the words. -/
theorem ofNat_toNat_mul_add (a b c : Word) : BitVec.ofNat 32 (a.toNat * b.toNat + c.toNat) = a * b + c := by
  rw [BitVec.ofNat_add, ofNat_toNat_mul, BitVec.ofNat_toNat, BitVec.setWidth_eq]

/-- The registers that MUL refuses, and MLA beside its Rn. -/
theorem mulRefused_iff (rd rs rm : Reg) : mulRefused rd rs rm = true ↔ rd = 15 ∨ rs = 15 ∨ rm = 15 ∨ rd = rm := by
  simp only [mulRefused, Bool.or_eq_true, beq_iff_eq, or_assoc]

/-- MUL or MLA whose condition passes: refused by its registers, or `State.mulWrite` of the product and sum. -/
theorem exec_multiply (acc sf : Bool) {c : Cond} (rd rn rs rm : Reg) {s : State} (hc : Cond.passes c s.cpsr = true) :
    exec (if acc then .mla c sf rd rn rs rm else .mul c sf rd rn rs rm) s =
      refuseIf (mulRefused rd rs rm || acc && rn == 15) .multiplyRegs
        (.next (s.mulWrite sf rd (s.reg 8 rm * s.reg 8 rs + if acc then s.reg 8 rn else 0))) := by
  cases acc
  · rw [Bool.false_and, Bool.or_false, if_neg Bool.false_ne_true, if_neg Bool.false_ne_true, add_zero,
      ← ofNat_toNat_mul]
    exact State.whenPassed_pass hc _
  · rw [Bool.true_and, if_pos rfl, if_pos rfl, ← ofNat_toNat_mul_add]
    exact State.whenPassed_pass hc _

/-- The end of MUL, MLA and Thumb MUL: Rd, N and Z of it where the flags are set, and the frame. -/
theorem State.setReg_mulFlags_spec (s : State) (sf : Bool) {rd : Reg} (h : rd ≠ 15) (r n off : Word) :
    let t := ((s.setReg rd r).setCpsr (if sf then s.mulFlags r else s.cpsr)).advance n
    t.reg off rd = r ∧ (sf = true → NzOf t.cpsr r ∧ t.cpsr.v = s.cpsr.v) ∧ (sf = false → t.cpsr = s.cpsr) ∧
      SameControl s t ∧ FrameFlags [physReg s.cpsr.mode rd] s t := by
  have hcontrol := mulControl s sf r
  refine ⟨reg_setReg s rd h r _ _ hcontrol.1 off, ?_, ?_, hcontrol, frameFlags_setReg s rd r _ _⟩
  · rintro rfl
    exact ⟨nzOf_iff (s.mulFlags r) r, rfl⟩
  · rintro rfl
    rfl

/-- Settles O34: the refusal and the end that MUL and MLA share, and Thumb MUL as the one with the flags. -/
theorem multiplyResults : Obligations.MultiplyResults := by
  unfold Obligations.MultiplyResults
  constructor
  · intro acc sf c rd rn rs rm s hc i v
    have hexec : exec i s = refuseIf (mulRefused rd rs rm || acc && rn == 15) .multiplyRegs (.next (s.mulWrite sf rd v)) :=
      exec_multiply acc sf rd rn rs rm hc
    have hrefused : (mulRefused rd rs rm || acc && rn == 15) = true ↔
        rd = 15 ∨ rs = 15 ∨ rm = 15 ∨ rd = rm ∨ (acc = true ∧ rn = 15) := by
      simp only [Bool.or_eq_true, Bool.and_eq_true, beq_iff_eq, mulRefused_iff, or_assoc]
    rw [hexec]
    refine ⟨fun h => refuseIf_of (hrefused.2 h) _ _, fun hd hs hm hdm hn => ?_⟩
    have hfalse : (mulRefused rd rs rm || acc && rn == 15) = false := by
      rw [← Bool.not_eq_true, hrefused]
      simp only [not_or, not_and]
      exact ⟨hd, hs, hm, hdm, hn⟩
    exact ⟨_, refuseIf_not hfalse _ _, rfl, s.setReg_mulFlags_spec sf hd v 4 8⟩
  · intro rs rd s
    refine ⟨fun h => refuseIf_of (beq_iff_eq.2 h) _ _, fun h => ?_⟩
    have hproduct : BitVec.ofNat 32 ((s.loReg rs).toNat * (s.loReg rd).toNat) = s.reg 4 (lo rd) * s.reg 4 (lo rs) :=
      (ofNat_toNat_mul _ _).trans (BitVec.mul_comm _ _)
    obtain ⟨hreg, hflags, -, hcontrol, hframe⟩ :=
      s.setReg_mulFlags_spec true (lo_ne_pc rd) (s.reg 4 (lo rd) * s.reg 4 (lo rs)) 2 4
    obtain ⟨hnz, hv⟩ := hflags rfl
    rw [← hproduct] at hreg hnz hcontrol hframe ⊢
    exact ⟨_, refuseIf_not (beq_false_of_ne h) _ _, rfl, hreg, hnz, hv, hcontrol, hframe⟩

/-! ### The long multiplies (41 R500 to R502, R512 to R515) -/

/-- The exact unsigned product as an integer modulo 2^64 (R502). -/
theorem umul_eq_ofInt (a b : Word) : umul a b = BitVec.ofInt 64 ((a.toNat : Int) * b.toNat) := by
  rw [← Int.natCast_mul, BitVec.ofInt_natCast]
  rfl

/-- RdHi : RdLo is the number its halves make. -/
theorem State.accumulator_eq_ofInt (s : State) (hi lo : Reg) :
    s.accumulator hi lo = BitVec.ofInt 64 (((s.reg 8 hi).toNat * 2 ^ 32 + (s.reg 8 lo).toNat : Nat) : Int) := by
  apply BitVec.eq_of_toNat_eq
  have hlt := (s.reg 8 hi).isLt
  have hlt' := (s.reg 8 lo).isLt
  rw [State.accumulator, toNat_join _ _ (by decide), BitVec.ofInt_natCast, BitVec.toNat_ofNat]
  omega

/-- The registers that the long multiplies refuse. -/
theorem mulLongRefused_iff (hi lo rs rm : Reg) : mulLongRefused hi lo rs rm = true ↔
    hi = 15 ∨ lo = 15 ∨ rs = 15 ∨ rm = 15 ∨ hi = lo ∨ hi = rm ∨ lo = rm := by
  simp only [mulLongRefused, Bool.or_eq_true, beq_iff_eq, or_assoc]

/-- The two halves of a doubleword make it. -/
theorem toNat_halves (r : Dword) : (r.extractLsb' 32 32).toNat * 2 ^ 32 + (r.extractLsb' 0 32).toNat = r.toNat := by
  have hr := r.isLt
  rw [extractLsb'_zero_toNat, BitVec.extractLsb'_toNat, Nat.shiftRight_eq_div_pow]
  omega

/-- The end of a long multiply: both registers, N and Z of the 64 bits where the flags are set, and the frame. -/
theorem State.mulLongWrite_spec (s : State) (sf : Bool) {hi lo : Reg} (hhi : hi ≠ 15) (hlo : lo ≠ 15) (hne : hi ≠ lo)
    (r : Dword) :
    let t := s.mulLongWrite sf hi lo r
    (t.reg 8 hi).toNat * 2 ^ 32 + (t.reg 8 lo).toNat = r.toNat ∧
      (sf = true → (t.cpsr.n = true ↔ r.toInt < 0) ∧ (t.cpsr.z = true ↔ r = 0)) ∧ (sf = false → t.cpsr = s.cpsr) ∧
      SameControl s t ∧ FrameFlags [physReg s.cpsr.mode hi, physReg s.cpsr.mode lo] s t := by
  intro t
  have hcontrol : SameControl s t := by cases sf <;> exact ⟨rfl, rfl, rfl, rfl⟩
  have hpeek : ∀ q, t.peek q = if physReg s.cpsr.mode hi = q then r.extractLsb' 32 32
      else if physReg s.cpsr.mode lo = q then r.extractLsb' 0 32 else s.peek q := fun q =>
    (State.peek_setReg _ hi _ q).trans (if_congr Iff.rfl rfl (State.peek_setReg s lo _ q))
  have hmode : t.cpsr.mode = s.cpsr.mode := hcontrol.1
  have hregHi : t.reg 8 hi = r.extractLsb' 32 32 := by
    rw [State.reg_of_ne _ _ hhi, hmode, hpeek, if_pos rfl]
  have hregLo : t.reg 8 lo = r.extractLsb' 0 32 := by
    rw [State.reg_of_ne _ _ hlo, hmode, hpeek, if_neg fun h => hne (physReg_inj _ _ _ hhi hlo h), if_pos rfl]
  refine ⟨by rw [hregHi, hregLo, toNat_halves], ?_, ?_, hcontrol,
    frameFlags_of (fun q hq => ?_) rfl rfl rfl rfl ⟨rfl, rfl, rfl, rfl, rfl, rfl⟩⟩
  · rintro rfl
    refine ⟨?_, beq_iff_eq⟩
    show r.msb = true ↔ _
    rw [BitVec.msb_eq_toInt, decide_eq_true_eq]
  · rintro rfl
    rfl
  · simp only [List.mem_cons, List.not_mem_nil, or_false, not_or] at hq
    rw [hpeek, if_neg (Ne.symm hq.1), if_neg (Ne.symm hq.2)]

/-- Settles O35: the four products and sums as integers modulo 2^64, and the end they share. -/
theorem longMultiplyResults : Obligations.LongMultiplyResults := by
  unfold Obligations.LongMultiplyResults
  intro signed acc sf c hi lo rs rm s hc i product old v
  have hexec : exec i s = refuseIf (mulLongRefused hi lo rs rm) .multiplyRegs (.next (s.mulLongWrite sf hi lo v)) := by
    have hproduct : BitVec.ofInt 64 product =
        if signed then smul (s.reg 8 rm) (s.reg 8 rs) else umul (s.reg 8 rm) (s.reg 8 rs) := by
      cases signed
      · exact (umul_eq_ofInt _ _).symm
      · rfl
    have hv : v = if acc then BitVec.ofInt 64 product + s.accumulator hi lo else BitVec.ofInt 64 product := by
      cases acc
      · exact congrArg (BitVec.ofInt 64) (add_zero product)
      · rw [State.accumulator_eq_ofInt]
        exact BitVec.ofInt_add _ _
    rw [hv, hproduct]
    cases signed <;> cases acc <;> exact State.whenPassed_pass hc _
  rw [hexec]
  refine ⟨fun h => refuseIf_of ((mulLongRefused_iff _ _ _ _).2 h) _ _, fun hhi hlo hs hm hne hhm hlm => ?_⟩
  have hfalse : mulLongRefused hi lo rs rm = false := by
    rw [← Bool.not_eq_true, mulLongRefused_iff]
    simp only [not_or]
    exact ⟨hhi, hlo, hs, hm, hne, hhm, hlm⟩
  exact ⟨_, refuseIf_not hfalse _ _, rfl, s.mulLongWrite_spec sf hhi hlo hne v⟩

/-! ### MRS (41 R520) -/

/-- MRS reads the SPSR of a mode that has one. -/
theorem State.mrsValue_spsr {s : State} {k : Fin 5} (h : s.cpsr.mode.spsrIndex = some k) : s.mrsValue true = s.spsr[k].word := by
  rw [State.mrsValue, State.curSpsr, h]
  rfl

/-- Settles O36: Rd gets what MRS reads, and the frame is a register write's. -/
theorem mrsReads : Obligations.MrsReads := by
  unfold Obligations.MrsReads
  intro c r rd s hc
  rw [show exec (.mrs c r rd) s = _ from State.whenPassed_pass hc _]
  refine ⟨fun h => refuseIf_of (beq_iff_eq.2 h) _ _, fun h => ?_⟩
  have hreg : ((s.setReg rd (s.mrsValue r)).advance 4).reg 8 rd = s.mrsValue r := reg_setReg s rd h _ _ s.cpsr rfl 8
  refine ⟨_, refuseIf_not (beq_false_of_ne h) _ _, rfl, ?_, ?_, frameRegs_setReg s rd _ _⟩
  · rintro rfl
    exact hreg
  · rintro rfl k hk
    exact hreg.trans (State.mrsValue_spsr hk)

/-! ### MSR (41 R521 to R523) -/

/-- MSR whose condition passes is `State.msr` of its operand: a register other than R15 (R522) or a rotated immediate (R523). -/
theorem exec_msr {c : Cond} {r : Bool} {mask : BitVec 4} {i : Instr} {v : Word} {s : State} (hc : Cond.passes c s.cpsr = true)
    (hi : (∃ rm, rm ≠ 15 ∧ i = .msrReg c r mask rm ∧ v = s.reg 8 rm) ∨
      ∃ rot imm8, i = .msrImm c r mask rot imm8 ∧ v = (imm8.setWidth 32).rotateRight (2 * rot.toNat)) :
    exec i s = s.msr r mask v := by
  rcases hi with ⟨rm, hrm, rfl, rfl⟩ | ⟨rot, imm8, rfl, rfl⟩
  · exact (State.whenPassed_pass hc _).trans (refuseIf_not (beq_false_of_ne hrm) _ _)
  · exact State.whenPassed_pass hc _

/-- The bits of the CPSR that MSR writes: the named bytes but for the reserved bits, in User mode the flags only. -/
theorem State.getLsbD_cpsrFieldBits (s : State) (mask : BitVec 4) (b : Fin 32) : (s.cpsrFieldBits mask).getLsbD b = true ↔
    mask.getLsbD (b / 8) = true ∧ (28 ≤ b.val ∨ b.val < 8) ∧ (s.cpsr.mode = .usr → 24 ≤ b.val) := by
  unfold State.cpsrFieldBits
  split_ifs with hu
  · rw [BitVec.getLsbD_and, getLsbD_fieldBits, getLsbD_flagBits]
    simp only [Bool.and_eq_true, decide_eq_true_eq, hu, forall_const, and_assoc]
    have hflags : ((28 ≤ b.val ∨ b.val < 8) ∧ 28 ≤ b.val) ↔ ((28 ≤ b.val ∨ b.val < 8) ∧ 24 ≤ b.val) := by omega
    rw [hflags]
  · rw [getLsbD_fieldBits]
    simp only [Bool.and_eq_true, decide_eq_true_eq, hu, false_implies, and_true]

/-- A word whose reserved bits are 0 is the value of the status register made from it. -/
theorem Psr.word_ofWord {w : Word} (h : ∀ b, 8 ≤ b → b < 28 → w.getLsbD b = false) : (Psr.ofWord w).word = w := by
  apply BitVec.eq_of_getLsbD_eq
  intro b hb
  rw [Psr.getLsbD_word_ofWord w b hb]
  by_cases hres : 28 ≤ b ∨ b < 8
  · rw [decide_eq_true hres, Bool.true_and]
  · rw [decide_eq_false hres, Bool.false_and, h b (by omega) (by omega)]

theorem Psr.getLsbD_word_reserved (p : Psr) {b : Nat} (h8 : 8 ≤ b) (h28 : b < 28) : p.word.getLsbD b = false := by
  rw [Psr.getLsbD_word]
  repeat rw [if_neg (by omega)]

/-- A status register whose M names a mode makes a CPSR of that mode and of the same contents. -/
theorem Psr.exists_toCpsr {p : Psr} {m : Mode} (h : p.m = m.bits) : ∃ c, p.toCpsr = some c ∧ c.mode = m ∧ c.toPsr = p := by
  have hpsr : p = Cpsr.toPsr ⟨p.n, p.z, p.c, p.v, p.i, p.f, p.t, m⟩ := by rw [Cpsr.toPsr, ← h]
  exact ⟨_, (Psr.toCpsr_eq _ _).2 hpsr, rfl, hpsr.symm⟩

/-- The SPSRs after a change to a mode without one. -/
theorem State.copyOnModeChange_spsr_of_none (u : State) {old new : Cpsr} (h : new.mode.spsrIndex = none) :
    (u.copyOnModeChange old new).spsr = u.spsr := by
  rw [State.copyOnModeChange, h]

/-- The SPSRs after a change to a mode with one: the old CPSR is copied where the parameter and the change of mode say so. -/
theorem State.copyOnModeChange_spsr_of_some (u : State) {old new : Cpsr} {k : Fin 5} (h : new.mode.spsrIndex = some k) :
    (u.copyOnModeChange old new).spsr =
      if u.params.modeChangeSpsrCopy = true ∧ new.mode ≠ old.mode then u.spsr.set k old.toPsr else u.spsr := by
  simp only [State.copyOnModeChange, h, Bool.and_eq_true, bne_iff_ne]
  split_ifs <;> rfl

/-- MSR to the CPSR leaves everything but the CPSR, the pc and what the parameter copies to an SPSR. -/
theorem State.copyOnModeChange_frame (s : State) (old new : Cpsr) :
    let t := ((s.setCpsr new).copyOnModeChange old new).advance 4
    t.pc = s.pc + 4 ∧ t.cpsr = new ∧ SameRegsBut [] s t ∧ SameMemory s t ∧ SameIo s t ∧ SameOutside s t := by
  rw [State.copyOnModeChange_eq]
  exact ⟨rfl, rfl, fun _ _ => rfl, sameMemory_of rfl rfl rfl rfl, ⟨rfl, rfl⟩, ⟨rfl, rfl, rfl, rfl, rfl, rfl⟩⟩

/-- Settles O37: the word left is the merge of the model, and the CPSR is what it makes, where it makes one. -/
theorem msrCpsr : Obligations.MsrCpsr := by
  unfold Obligations.MsrCpsr
  intro c mask i v s hc hi w hw
  have hmerge : mergeBits s.cpsr.word v (s.cpsrFieldBits mask) = w := by
    apply BitVec.eq_of_getLsbD_eq
    intro b hb
    rw [getLsbD_mergeBits, hw ⟨b, hb⟩]
    exact if_congr (s.getLsbD_cpsrFieldBits mask ⟨b, hb⟩) rfl rfl
  have hword : (Psr.ofWord w).word = w := Psr.word_ofWord fun b h8 h28 => by
    have hreserved : ¬ (28 ≤ b ∨ b < 8) := by omega
    rw [hw ⟨b, by omega⟩, if_neg fun ⟨_, hwritten, _⟩ => hreserved hwritten]
    exact Psr.getLsbD_word_reserved _ h8 h28
  have hexec : exec i s = s.msrCpsr mask v := exec_msr hc hi
  rw [hexec, State.msrCpsr, hmerge]
  refine ⟨fun h => ?_, fun m hm ht => ?_, fun m hm ht => ?_⟩
  · rw [(Psr.toCpsr_none (Psr.ofWord w)).2 h]
  · obtain ⟨new, hnew, -, hpsr⟩ := Psr.exists_toCpsr (p := Psr.ofWord w) hm
    have htnew : new.t = w.getLsbD 5 := congrArg Psr.t hpsr
    rw [hnew]
    exact refuseIf_of (bne_iff_ne.2 (htnew ▸ ht)) _ _
  · obtain ⟨new, hnew, rfl, hpsr⟩ := Psr.exists_toCpsr (p := Psr.ofWord w) hm
    have htnew : new.t = w.getLsbD 5 := congrArg Psr.t hpsr
    obtain ⟨hpc, hcpsr, hregs, hmem, hio, hout⟩ := s.copyOnModeChange_frame s.cpsr new
    rw [hnew]
    refine ⟨_, refuseIf_not (bne_eq_false_iff_eq.2 (htnew.trans ht)) _ _, hpc, ?_, hregs, hmem, hio, hout, ?_⟩
    · rw [hcpsr, Cpsr.word, hpsr, hword]
    · cases hk : new.mode.spsrIndex with
      | none => exact State.copyOnModeChange_spsr_of_none (s.setCpsr new) hk
      | some k => exact State.copyOnModeChange_spsr_of_some (s.setCpsr new) hk

/-- Settles O38: the merge of the model bit by bit, where the mode has an SPSR. -/
theorem msrSpsr : Obligations.MsrSpsr := by
  unfold Obligations.MsrSpsr
  intro c mask i v s hc hi
  refine ⟨fun r => (State.whenPassed_pass hc _).trans (refuseIf_true _ _), ?_⟩
  have hexec : exec i s = .next (s.msrSpsr mask v) := exec_msr hc hi
  rw [hexec, State.msrSpsr]
  refine ⟨fun hnone => ?_, fun k hk => ?_⟩
  · rw [hnone]
    rfl
  · rw [hk]
    refine ⟨_, rfl, fun b => ?_⟩
    rw [Psr.getLsbD_word_ofWord _ b b.isLt, getLsbD_mergeBits, getLsbD_fieldBits]
    by_cases hres : 28 ≤ b.val ∨ b.val < 8
    · simp only [hres, decide_true, Bool.true_and, Bool.and_true, and_true]
    · simp only [hres, decide_false, Bool.false_and, and_false, if_false]
      exact (Psr.getLsbD_word_reserved _ (by omega) (by omega)).symm

end Sys2Proof.Machine
end

section
/-! SUPPORT. The single transfers and the swap (42 R600 to R623, R650 to R661): which register fields are refused and in what
order, and that the loads, the stores and the swap do what the statements say where the fields are defined. -/

namespace Sys2Proof.Machine

open Sys2Proof

/-! ### Word and byte transfers (42 R600 to R605, R610 to R617) -/

/-- Settles O39, by everything a load can do, where the destination is not refused. -/
theorem loadResults : Obligations.LoadResults := by
  unfold Obligations.LoadResults
  intro byte f o c u rn rd s hc hd i v
  have hexec : exec i s = _ := exec_load byte f o c u rn rd s hc hd
  rw [hexec]
  refine ⟨fun hbyte hrd => refuseIf_of (by simp [hbyte, hrd]) _ _, fun hnarrow => ⟨_, refuseIf_not ?_ _ _, ?_⟩⟩
  · simpa using hnarrow
  · exact load_spec s _ f u rn rd (o.value s) hd.1

/-- Settles O40, by everything a store can do, where the source is not refused. -/
theorem storeResults : Obligations.StoreResults := by
  unfold Obligations.StoreResults
  intro byte f o c u rn rd s hc hd w a i
  have hexec : exec i s = _ := exec_store byte f o c u rn rd s hc hd
  have halign : w.align (f.addr s u rn (o.value s)) = a := by cases byte <;> rfl
  obtain ⟨hturned, haccepted⟩ := store_spec s w f u rn rd (o.value s) hd.1
  rw [halign] at hturned haccepted
  rw [reg12] at haccepted
  have hdefined (hnarrow : byte = true → rd ≠ 15) : exec i s = s.storeReg w f.index u rn rd (o.value s) :=
    hexec.trans (refuseIf_not (by simpa using hnarrow) _ _)
  refine ⟨fun hbyte hrd => hexec.trans (refuseIf_of (by simp [hbyte, hrd]) _ _), fun hnarrow h => ?_, fun hnarrow h => ?_⟩
  · rw [hdefined hnarrow]
    exact hturned h
  · rw [hdefined hnarrow]
    exact haccepted h

/-! ### Halfword and signed transfers (42 R604, R620 to R623) -/

/-- Settles O41, by everything a load can do, where Rd is not R15. -/
theorem halfLoadResults : Obligations.HalfLoadResults := by
  unfold Obligations.HalfLoadResults
  intro k o c p u w rn rd s hc hd f
  rw [exec_halfLoad k o c p u w rn rd s hc hd]
  refine ⟨fun hrd => refuseIf_of (beq_iff_eq.2 hrd) _ _, fun hrd => ⟨_, refuseIf_not (beq_false_of_ne hrd) _ _, ?_⟩⟩
  obtain ⟨hreg, -, hbase, hframe⟩ := load_spec s k.load f u rn rd (o.value s) hd.2.1
  obtain ⟨hpc, hvalue⟩ := hreg hrd
  rw [if_neg hrd] at hframe
  exact ⟨hpc, hvalue, hbase, hframe⟩

/-- Settles O42, by everything a store can do, where Rd is not R15. -/
theorem halfStoreResults : Obligations.HalfStoreResults := by
  unfold Obligations.HalfStoreResults
  intro o c p u w rn rd s hc hd f a
  rw [exec_halfStore o c p u w rn rd s hc hd]
  obtain ⟨hturned, haccepted⟩ := store_spec s .half f u rn rd (o.value s) hd.2.1
  refine ⟨fun hrd => refuseIf_of (beq_iff_eq.2 hrd) _ _, fun hrd h => ?_, fun hrd h => ?_⟩
  · rw [refuseIf_not (beq_false_of_ne hrd)]
    exact hturned h
  · rw [reg12, if_neg hrd] at haccepted
    rw [refuseIf_not (beq_false_of_ne hrd)]
    exact haccepted h

/-! ### Swap (42 R650, R660, R661) -/

theorem swapRefused_iff (rn rd rm : Reg) :
    swapRefused rn rd rm = true ↔ rn = 15 ∨ rd = 15 ∨ rm = 15 ∨ rn = rd ∨ rn = rm := by
  simp [swapRefused, or_assoc]

/-- What a swap leaves: Rd, the location and the frame. -/
theorem swap_spec (s : State) (a : Word) (w : Width) (m v : Word) {rd : Reg} (hrd : rd ≠ 15) :
    let t := ((s.memWrite a w m).setReg rd v).advance 4
    t.pc = s.pc + 4 ∧ t.reg 8 rd = v ∧ Wrote s t a w m ∧ FrameStore [physReg s.cpsr.mode rd] (storePlaces s.romLen w a) s t := by
  intro t
  have hregs : SameRegsBut [physReg s.cpsr.mode rd] s t := fun q hq => by
    have hne : physReg s.cpsr.mode rd ≠ q := fun e => hq (List.mem_singleton.2 e.symm)
    simp [t, hne]
  have hreg : t.reg 8 rd = v := reg_setReg _ rd hrd v _ _ rfl 8
  exact ⟨by simp [t], hreg, frameStore_of a w m (by simp [t]) hregs (by simp [t]) ⟨rfl, rfl, rfl⟩ (by simp [t, SameOutside])⟩

/-- Settles O43, by the register fields, then by the device policy. -/
theorem swapResults : Obligations.SwapResults := by
  unfold Obligations.SwapResults
  intro byte c rn rd rm s hc i w a
  have hexec : exec i s = refuseIf (swapRefused rn rd rm) .swapRegs (s.store w (s.reg 8 rn) (s.reg 8 rm) fun s1 =>
      .next ((s1.setReg rd (s.loadValue (if byte then .byte else .word) (s.reg 8 rn))).advance 4)) := by
    cases byte <;> exact State.whenPassed_pass hc _
  have halign : w.align (s.reg 8 rn) = a := by cases byte <;> rfl
  rw [hexec]
  have hallowed (hn : rn ≠ 15) (hd : rd ≠ 15) (hm : rm ≠ 15) (hnd : rn ≠ rd) (hnm : rn ≠ rm) : swapRefused rn rd rm = false := by
    refine Bool.eq_false_iff.2 fun h => ?_
    rcases (swapRefused_iff rn rd rm).1 h with h | h | h | h | h <;> contradiction
  refine ⟨fun h => refuseIf_of ((swapRefused_iff rn rd rm).2 h) _ _, fun hn hd hm hnd hnm h => ?_, fun hn hd hm hnd hnm h => ?_⟩
  · rw [refuseIf_not (hallowed hn hd hm hnd hnm), State.store_accepted (halign.symm ▸ h), halign]
    exact ⟨_, rfl, swap_spec s a w _ _ hd⟩
  · rw [refuseIf_not (hallowed hn hd hm hnd hnm), State.store_refused (halign.symm ▸ h)]

end Sys2Proof.Machine
end

section
/-! SUPPORT. ARM block transfers (42 R630 to R644): the words of the meanings are the words of the statements, what the loads and the
stores of a list leave, and the return that LDM with R15 and S = 1 is. -/

namespace Sys2Proof.Machine

open Sys2Proof

/-! ### Frames -/

/-- The frame of a state that differs from s in the listed registers only, its pc set. -/
theorem frameRegs_setPc {ps : List (Fin 30)} {s t : State} (hregs : SameRegsBut ps s t) (ht : t = { s with regs := t.regs })
    (a : Word) : FrameRegs ps s (t.setPc a) := by
  generalize t.regs = regs at ht
  subst ht
  exact ⟨rfl, frameFlags_of hregs rfl rfl rfl rfl ⟨rfl, rfl, rfl, rfl, rfl, rfl⟩⟩

/-- A frame, then one in which no register changes. -/
theorem FrameFlags.trans {ps : List (Fin 30)} {s t u : State} (h : FrameFlags ps s t) (h' : FrameFlags [] t u) :
    FrameFlags ps s u := by
  obtain ⟨hregs, hspsr, hmem, hio, hout⟩ := h
  obtain ⟨hregs', hspsr', hmem', hio', hout'⟩ := h'
  refine ⟨fun q hq => (hregs' q List.not_mem_nil).trans (hregs q hq), hspsr'.trans hspsr,
    ⟨hmem'.1.trans hmem.1, fun acc a => (hmem'.2 acc a).trans (hmem.2 acc a)⟩, ⟨hio'.1.trans hio.1, hio'.2.trans hio.2⟩, ?_⟩
  obtain ⟨h1, h2, h3, h4, h5, h6⟩ := hout
  obtain ⟨h1', h2', h3', h4', h5', h6'⟩ := hout'
  exact ⟨h1'.trans h1, h2'.trans h2, h3'.trans h3, h4'.trans h4, h5'.trans h5, h6'.trans h6⟩

/-! ### LDM (42 R640) -/

/-- LDM whose condition passes, the base not R15: the registers, then the pc, at the word of R15's slot where it has one. -/
theorem exec_ldm {c : Cond} {rn : Reg} {s : State} (hc : Cond.passes c s.cpsr = true) (hn : rn ≠ 15) (p u w : Bool)
    (list : BitVec 16) : exec (.ldm c p u w rn list) s =
      match s.loadedPc (s.blockSlots p u rn list) with
      | some v => .next ((s.ldmRegs p u w rn list).branchArm v)
      | none => .next ((s.ldmRegs p u w rn list).advance 4) :=
  (State.whenPassed_pass hc _).trans (refuseIf_not (beq_false_of_ne hn) _ _)

/-- LDM with a list that is not empty. -/
theorem exec_ldm_listed {c : Cond} {rn : Reg} {s : State} (hc : Cond.passes c s.cpsr = true) (hn : rn ≠ 15) (p u w : Bool)
    {list : BitVec 16} (hl : list ≠ 0) : exec (.ldm c p u w rn list) s =
      .next ((s.ldmRegs p u w rn list).setPc (if list.getLsbD 15 then
        s.memRead .data (slotOf p u (s.reg 8 rn) list 15) .word &&& 0xFFFFFFFC else s.pc + 4)) := by
  obtain ⟨-, -, -, ht⟩ := ldmRegs_spec s p u w rn list hn hl
  have hpc : (s.ldmRegs p u w rn list).pc = s.pc := by rw [ht]
  rw [exec_ldm hc hn, s.blockSlots_ne p u rn hl, loadedPc_spec]
  split_ifs
  · rfl
  · rw [State.advance, hpc]

/-- LDM with an empty list (42 R631): R15 alone is loaded. -/
theorem exec_ldm_empty {c : Cond} {rn : Reg} {s : State} (hc : Cond.passes c s.cpsr = true) (hn : rn ≠ 15) (p u w : Bool) :
    exec (.ldm c p u w rn 0) s = .next ((if w then s.setReg rn (blockBack u (s.reg 8 rn) 16) else s).branchArm
      (s.memRead .data (blockBaseAddr p u (s.reg 8 rn) 16 &&& 0xFFFFFFFC) .word)) := by
  rw [exec_ldm hc hn, s.blockSlots_empty, s.ldmRegs_empty p u w hn]
  rfl

/-- The base written back or not, and no other register. -/
theorem writeback_spec (s : State) (w : Bool) {rn : Reg} (hn : rn ≠ 15) (v : Word) :
    let t := if w then s.setReg rn v else s
    (w = true → ∀ a, (t.setPc a).reg 8 rn = v) ∧ SameRegsBut (if w then [physReg s.cpsr.mode rn] else []) s t ∧
      t = { s with regs := t.regs } := by
  cases w with
  | false => exact ⟨fun h => absurd h Bool.false_ne_true, fun _ _ => rfl, rfl⟩
  | true =>
    refine ⟨fun _ a => reg_setReg s rn hn v a s.cpsr rfl 8, fun q hq => ?_, rfl⟩
    exact (s.peek_setReg rn v q).trans (if_neg fun e => hq (List.mem_singleton.2 e.symm))

/-- Settles O45: the list that names registers by everything an LDM does before the pc, the empty one by its branch. -/
theorem ldmResults : Obligations.LdmResults := by
  unfold Obligations.LdmResults
  intro c p u w rn list s hc hn b
  by_cases hl : list = 0
  · subst hl
    obtain ⟨hbase, hregs, ht⟩ := writeback_spec s w hn (blockBack u b 16)
    exact ⟨_, exec_ldm_empty hc hn p u w, fun h => absurd rfl h, fun _ => ⟨rfl, (hbase · _), frameRegs_setPc hregs ht _⟩⟩
  · obtain ⟨hloaded, hbase, hregs, ht⟩ := ldmRegs_spec s p u w rn list hn hl
    have hmode : (s.ldmRegs p u w rn list).cpsr.mode = s.cpsr.mode := by rw [ht]
    have hreg {r : Reg} (hr : r ≠ 15) (a : Word) : ((s.ldmRegs p u w rn list).setPc a).reg 8 r =
        (s.ldmRegs p u w rn list).peek (physReg s.cpsr.mode r) := by
      rw [State.reg_of_ne _ _ hr, State.setPc_cpsr, hmode, State.peek_setPc]
    refine ⟨_, exec_ldm_listed hc hn p u w hl, fun _ => ⟨fun r hr hr15 => ?_, rfl, fun hw hrn => ?_, ?_⟩, fun h => absurd h hl⟩
    · rw [hreg hr15]
      exact hloaded r hr hr15
    · rw [hreg hn]
      exact hbase hw hrn
    · exact frameRegs_setPc hregs ht _

/-! ### LDM with R15 and S = 1 (42 R642) -/

/-- The list of LDM with R15: bit 15 set over the other fifteen. -/
theorem join_one_list (list : BitVec 15) : join 16 1#1 list = list.setWidth 16 ||| 0x8000 := BitVec.or_comm _ _

/-- LDM with R15 and S = 1 whose condition passes, the base not R15: the registers, then a return to the word of R15's slot. -/
theorem exec_ldmRet {c : Cond} {rn : Reg} {s : State} (hc : Cond.passes c s.cpsr = true) (hn : rn ≠ 15) (p u w : Bool)
    (list : BitVec 15) {l : BitVec 16} (hlist : join 16 1#1 list = l) (h15 : l.getLsbD 15 = true) (hl : l ≠ 0) :
    exec (.ldmRet c p u w rn list) s = (s.ldmRegs p u w rn l).exceptionReturn
      (s.memRead .data (slotOf p u (s.reg 8 rn) l 15) .word) := by
  have hpc : s.loadedPc (s.blockSlots p u rn l) = some (s.memRead .data (slotOf p u (s.reg 8 rn) l 15) .word) := by
    rw [s.blockSlots_ne p u rn hl, loadedPc_spec, if_pos h15]
    rfl
  refine (State.whenPassed_pass hc _).trans ((refuseIf_not (beq_false_of_ne hn) _ _).trans ?_)
  rw [hlist, hpc]

/-- Settles O47: the registers of the list, then everything a return can do. -/
theorem ldmReturnResults : Obligations.LdmReturnResults := by
  unfold Obligations.LdmReturnResults
  intro c p u w rn list s hc hn b l
  have h15 : l.getLsbD 15 = true := by simp [l]
  have hl : l ≠ 0 := fun h => by simp [h] at h15
  rw [exec_ldmRet hc hn p u w list (join_one_list list) h15 hl]
  obtain ⟨hloaded, hbase, hregs, ht⟩ := ldmRegs_spec s p u w rn l hn hl
  generalize s.ldmRegs p u w rn l = t at hloaded hbase hregs ht
  generalize t.regs = regs at ht
  subst ht
  obtain ⟨hnone, hsome⟩ := exceptionReturn_spec { s with regs := regs } (s.memRead .data (slotOf p u b l 15) .word)
  refine ⟨fun h => hnone ((Mode.spsrIndex_none _).1 h), fun k hk => ⟨(hsome k hk).2, fun m hm => ?_⟩⟩
  obtain ⟨t, hnext, hword, hpc, hreturn⟩ := (hsome k hk).1 m hm
  have hpeek (q : Fin 30) : t.peek q = State.peek { s with regs := regs } q := hreturn.1 q List.not_mem_nil
  have hframe := frameFlags_of hregs rfl rfl rfl rfl ⟨rfl, rfl, rfl, rfl, rfl, rfl⟩
  exact ⟨t, hnext, hword, fun r hr hr15 => (hpeek _).trans (hloaded r hr hr15), hpc,
    fun hw hrn => (hpeek _).trans (hbase hw hrn), hframe.trans hreturn⟩

/-! ### The words of a block store -/

/-- The words of a block store at their aligned addresses (20 R217). -/
def alignWords (ws : List (Word × Word)) : List (Word × Word) := ws.map fun x => (x.1 &&& 0xFFFFFFFC, x.2)

theorem alignWords_aligned (ws : List (Word × Word)) : ∀ x ∈ alignWords ws, x.1 &&& 0xFFFFFFFC = x.1 := by
  intro x hx
  obtain ⟨y, -, rfl⟩ := List.mem_map.1 hx
  exact and_mask _

/-- A block store of which the device policy turns no word away. -/
theorem State.storeWords_of_accepted {s : State} {ws : List (Word × Word)} (h : Accepted s (alignWords ws))
    (k : State → Result) : s.storeWords ws k = k (writeAll s (alignWords ws)) := by
  have hws (x : Word × Word) (hx : x ∈ ws) : s.refusesWrite (x.1 &&& 0xFFFFFFFC) .word = false :=
    h (x.1 &&& 0xFFFFFFFC, x.2) (List.mem_map.2 ⟨x, hx, rfl⟩)
  rw [State.storeWords_accepted hws, writeWords_eq]
  rfl

/-- A block store of which the device policy turns a word away (10_state R126). -/
theorem State.storeWords_of_not_accepted {s : State} {ws : List (Word × Word)} (h : ¬ Accepted s (alignWords ws))
    (k : State → Result) : s.storeWords ws k = .refused .unmodelledDevice := by
  refine if_pos (List.any_eq_true.2 ?_)
  by_contra hnone
  refine h fun x hx => ?_
  obtain ⟨y, hy, rfl⟩ := List.mem_map.1 hx
  exact Bool.eq_false_iff.2 fun hr => hnone ⟨y, hy, hr⟩

/-- The words of a block transfer in the terms of the statements, for a list that is not empty. -/
theorem State.alignWords_blockSlots (s : State) (p u : Bool) (rn : Reg) {list : BitVec 16} (hl : list ≠ 0) (value : Reg → Word) :
    alignWords ((s.blockSlots p u rn list).map fun x => (x.2, value x.1)) =
      blockWords (slotOf p u (s.reg 8 rn) list) value list := by
  rw [s.blockSlots_ne p u rn hl, alignWords, List.map_map, List.map_map]
  rfl

/-- The words depend on the values of the listed registers only. -/
theorem blockWords_congr (slot : Reg → Word) {value value' : Reg → Word} {list : BitVec 16}
    (h : ∀ r : Reg, list.getLsbD r.toNat = true → value r = value' r) : blockWords slot value list = blockWords slot value' list :=
  List.map_congr_left fun r hr => by rw [h r (List.mem_filter.1 hr).2]

/-- What a block store leaves: memory, the base where it is written back, the pc and the frame. -/
theorem writeAll_spec (s : State) {ws : List (Word × Word)} (hws : ∀ x ∈ ws, x.1 &&& 0xFFFFFFFC = x.1) (w : Bool) {rn : Reg}
    (hn : rn ≠ 15) (v : Word) :
    let t := (if w then (writeAll s ws).setReg rn v else writeAll s ws).advance 4
    t.pc = s.pc + 4 ∧ WroteAll s t ws ∧ (w = true → t.reg 8 rn = v) ∧
      FrameStore (if w then [physReg s.cpsr.mode rn] else []) (wordPlaces s.romLen ws) s t := by
  intro t
  obtain ⟨hregs, hpc, hcpsr, hspsr, hout⟩ := writeAll_frame s ws
  obtain ⟨hbase, hbut, ht⟩ := writeback_spec (writeAll s ws) w hn v
  rw [hcpsr] at hbut
  have hpeek (q : Fin 30) : (writeAll s ws).peek q = s.peek q := by rw [State.peek, hregs]; rfl
  have hwrote : WroteAll s t ws := by cases w <;> exact ⟨rfl, rfl, rfl⟩
  have hframe : FrameStore (if w then [physReg s.cpsr.mode rn] else []) (wordPlaces s.romLen ws) s t := by
    refine storeFrame ws hws ?_ (fun q hq => (hbut q hq).trans (hpeek q)) ?_ hwrote ?_ <;> cases w <;> assumption
  refine ⟨?_, hwrote, fun h => hbase h _, hframe⟩
  rw [← hpc]
  cases w <;> rfl

/-! ### STM (42 R643) -/

/-- STM whose condition passes, the base not R15. -/
theorem exec_stm {c : Cond} {rn : Reg} {s : State} (hc : Cond.passes c s.cpsr = true) (hn : rn ≠ 15) (p u w : Bool)
    (list : BitVec 16) : exec (.stm c p u w rn list) s =
      s.storeWords ((s.blockSlots p u rn list).map fun x =>
        (x.2, s.stmValue w rn (blockRegs list) (s.blockWb u rn list) x.1)) fun s1 =>
          .next ((if w then s1.setReg rn (s.blockWb u rn list) else s1).advance 4) :=
  (State.whenPassed_pass hc _).trans (refuseIf_not (beq_false_of_ne hn) _ _)

/-- The base after a block transfer in the terms of the statements (42 R630, R631). -/
theorem State.blockWb_eq (s : State) (u : Bool) (rn : Reg) (list : BitVec 16) :
    s.blockWb u rn list = blockBack u (s.reg 8 rn) (if list = 0 then 16 else listCount list) := by
  rw [State.blockWb, ← blockEnd_eq]
  by_cases hl : list = 0
  · subst hl
    rfl
  · rw [blockSize_ne hl, if_neg hl]
    rfl

/-- STM stores R15 as pc + 12 (42 R601, R643). -/
theorem State.stmValue_pc (s : State) (w : Bool) {rn : Reg} (hn : rn ≠ 15) (regs : List Reg) (wb : Word) :
    s.stmValue w rn regs wb 15 = s.pc + 12 := by
  have hne : ((15 : Reg) == rn) = false := beq_false_of_ne hn.symm
  rw [State.stmValue, hne, Bool.and_false, Bool.false_and, if_neg Bool.false_ne_true, State.reg_pc]

/-- The value STM stores for a listed register in the terms of the statements (42 R632, R643). -/
theorem State.stmValue_eq (s : State) (w : Bool) {rn : Reg} (hn : rn ≠ 15) {list : BitVec 16} (wb : Word) {r : Reg}
    (hr : list.getLsbD r.toNat = true) : s.stmValue w rn (regsOf list) wb r =
      if r = 15 then s.pc + 12 else if r = rn ∧ w = true ∧ rankIn list r ≠ 0 then wb else s.reg 8 r := by
  have hwb : (w && r == rn && (regsOf list).head? != some rn) = true ↔ r = rn ∧ w = true ∧ rankIn list r ≠ 0 := by
    rw [Bool.and_eq_true, Bool.and_eq_true, beq_iff_eq, bne_iff_ne, and_assoc, and_left_comm]
    refine and_congr_right fun hrn => and_congr_right fun _ => not_congr ?_
    subst hrn
    exact head_regsOf list r hr
  by_cases h15 : r = 15
  · subst h15
    rw [s.stmValue_pc w hn, if_pos rfl]
  · rw [State.stmValue, reg12, if_congr hwb rfl rfl, if_neg h15, if_neg h15]

/-- Settles O48: the words STM stores are those of the statement, and then by what a block store leaves. -/
theorem stmResults : Obligations.StmResults := by
  unfold Obligations.StmResults
  intro c p u w rn list s hc hn b n value ws
  have hwords : alignWords ((s.blockSlots p u rn list).map fun x =>
      (x.2, s.stmValue w rn (blockRegs list) (s.blockWb u rn list) x.1)) = ws := by
    rw [s.blockWb_eq]
    by_cases hl : list = 0
    · subst hl
      rw [s.blockSlots_empty, List.map_singleton, s.stmValue_pc w hn]
      rfl
    · rw [s.alignWords_blockSlots p u rn hl, blockRegs_ne hl, show ws = _ from if_neg hl]
      exact blockWords_congr _ fun r hr => s.stmValue_eq w hn _ hr
  rw [exec_stm hc hn, ← hwords]
  refine ⟨fun h => ⟨_, State.storeWords_of_accepted h _, ?_⟩, fun h => State.storeWords_of_not_accepted h _⟩
  rw [s.blockWb_eq u rn list]
  exact writeAll_spec s (alignWords_aligned _) w hn _

/-! ### The User bank (42 R641, R644) -/

/-- The forms that the transfers of the User bank refuse before the list: W = 1, and a mode with no bank of its own. -/
theorem State.refuseUserBank_refused {s : State} {w : Bool} {why : Why} (h : (w = true ∧ why = .userBankWriteback) ∨
    (w = false ∧ (s.cpsr.mode = .usr ∨ s.cpsr.mode = .sys) ∧ why = .userBankMode)) (empty : Bool) (k : Result) :
    s.refuseUserBank w empty k = .refused (.unpredictable why) := by
  rcases h with ⟨rfl, rfl⟩ | ⟨rfl, hmode, rfl⟩
  · exact refuseIf_true _ _
  · exact (refuseIf_false _ _).trans (refuseIf_of (by simpa using hmode) _ _)

/-- In the other modes with W = 0 only an empty list is refused. -/
theorem State.refuseUserBank_bank {s : State} (husr : s.cpsr.mode ≠ .usr) (hsys : s.cpsr.mode ≠ .sys) (empty : Bool) (k : Result) :
    s.refuseUserBank false empty k = refuseIf empty .userBankEmpty k :=
  (refuseIf_false _ _).trans (refuseIf_not (by simp [husr, hsys]) _ _)

theorem exec_ldmUser {c : Cond} {rn : Reg} {s : State} (hc : Cond.passes c s.cpsr = true) (hn : rn ≠ 15) (p u w : Bool)
    (list : BitVec 15) : exec (.ldmUser c p u w rn list) s = s.refuseUserBank w (list == 0)
      (.next ((s.loadSlots s .usr (s.blockSlots p u rn (list.setWidth 16))).advance 4)) :=
  (State.whenPassed_pass hc _).trans (refuseIf_not (beq_false_of_ne hn) _ _)

theorem exec_stmUser {c : Cond} {rn : Reg} {s : State} (hc : Cond.passes c s.cpsr = true) (hn : rn ≠ 15) (p u w : Bool)
    (list : BitVec 16) : exec (.stmUser c p u w rn list) s = s.refuseUserBank w (list == 0)
      (s.storeWords ((s.blockSlots p u rn list).map fun x => (x.2, s.userReg 12 x.1)) fun s1 => .next (s1.advance 4)) :=
  (State.whenPassed_pass hc _).trans (refuseIf_not (beq_false_of_ne hn) _ _)

/-- A register other than R15 is in a list exactly when it is in the list without R15. -/
theorem getLsbD_without_pc (list : BitVec 16) {r : Reg} (h : r ≠ 15) :
    ((list.setWidth 15).setWidth 16).getLsbD r.toNat = list.getLsbD r.toNat := by
  have hr : r.toNat < 15 := by
    have hne : r.toNat ≠ 15 := fun e => h (BitVec.eq_of_toNat_eq e)
    have := r.isLt
    omega
  simp [hr, show r.toNat < 16 by omega]

/-- A list that is not empty is not empty with a bit more. -/
theorem setWidth_ne_zero {l : BitVec 15} (h : l ≠ 0) : l.setWidth 16 ≠ 0 := fun e => h <| by
  have := congrArg (BitVec.setWidth 15) e
  simpa using this

/-- What LDM of the User bank leaves. -/
theorem loadUser_spec (s : State) (p u : Bool) (rn : Reg) {list : BitVec 16} (hl : list ≠ 0) :
    let t := (s.loadSlots s .usr (s.blockSlots p u rn list)).advance 4
    t.pc = s.pc + 4 ∧ (∀ r : Reg, list.getLsbD r.toNat = true → r ≠ 15 →
      t.peek (physReg .usr r) = s.memRead .data (slotOf p u (s.reg 8 rn) list r) .word) ∧
      FrameRegs (listRegs .usr list) s t := by
  rw [s.blockSlots_ne p u rn hl]
  obtain ⟨hloaded, hregs⟩ := loadSlots_spec s s .usr list fun r =>
    blockBaseAddr p u (s.reg 8 rn) (listCount list) + BitVec.ofNat 32 (4 * rankIn list r)
  have hpc := congrArg State.pc (State.loadSlots_eq s .usr ((regsOf list).map fun r =>
    (r, blockBaseAddr p u (s.reg 8 rn) (listCount list) + BitVec.ofNat 32 (4 * rankIn list r))) s)
  exact ⟨congrArg (· + 4) hpc, hloaded, frameRegs_setPc hregs (State.loadSlots_eq _ _ _ _) _⟩

/-- Settles O46: the refusals in their order, then by what the loads and the stores of a list leave. -/
theorem userBankResults : Obligations.UserBankResults := by
  unfold Obligations.UserBankResults
  intro c p u w rn list s hc hn l slot ws
  rw [exec_ldmUser hc hn, exec_stmUser hc hn]
  refine ⟨fun why h => ⟨State.refuseUserBank_refused h _ _, State.refuseUserBank_refused h _ _⟩, ?_⟩
  rintro rfl husr hsys
  rw [State.refuseUserBank_bank husr hsys, State.refuseUserBank_bank husr hsys]
  have hwords (hl : list ≠ 0) : alignWords ((s.blockSlots p u rn list).map fun x => (x.2, s.userReg 12 x.1)) = ws :=
    s.alignWords_blockSlots p u rn hl (s.userReg 12)
  refine ⟨fun hl => refuseIf_of (beq_iff_eq.2 hl) _ _, fun hl => refuseIf_of (beq_iff_eq.2 hl) _ _,
    fun hl => ⟨_, refuseIf_not (beq_false_of_ne hl) _ _, ?_⟩,
    fun hl h => ⟨_, (refuseIf_not (beq_false_of_ne hl) _ _).trans (State.storeWords_of_accepted (hwords hl ▸ h) _), ?_⟩,
    fun hl h => (refuseIf_not (beq_false_of_ne hl) _ _).trans (State.storeWords_of_not_accepted (hwords hl ▸ h) _)⟩
  · obtain ⟨hpc, hloaded, hframe⟩ := loadUser_spec s p u rn (setWidth_ne_zero hl)
    exact ⟨hpc, fun r hr15 hr => hloaded r ((getLsbD_without_pc list hr15).trans hr) hr15, hframe⟩
  · obtain ⟨hpc, hwrote, -, hframe⟩ := writeAll_spec s (alignWords_aligned _) false hn 0
    rw [← hwords hl]
    exact ⟨hpc, hwrote, hframe⟩

end Sys2Proof.Machine
end

section
/-! SUPPORT. The forms the spec refuses (42 R600, R604, R630; 40 R412; 30 R312): the checks of a single transfer in their order, said
once for the word and byte transfers and once for the halfword and signed ones. -/

namespace Sys2Proof.Machine

open Sys2Proof

/-! ### A refusal with some reason -/

/-- A check refuses with some reason where what follows it does, or where it refuses itself. -/
theorem refuseIf_exists {b : Bool} {why : Why} {k : Result} (h : b = false → ∃ y, k = .refused (.unpredictable y)) :
    ∃ y, refuseIf b why k = .refused (.unpredictable y) := by
  cases b with
  | false => exact h rfl
  | true => exact ⟨why, rfl⟩

/-! ### The checks of a single transfer (42 R600, R604) -/

/-- The checks that all single transfers share, in their order: `wb` says that the form writes the base back, `rm` is the offset
register where there is one, `narrow` says that Rd is refused. -/
def transferChecks (wb : Bool) (rm : Option Reg) (rn : Reg) (narrow : Bool) (why : Why) (k : Result) : Result :=
  refuseIf (wb && rn == 15) .writebackToPc (refuseIf narrow why
    (refuseIf (rm == some 15) .offsetPc (refuseIf (wb && rm == some rn) .offsetIsBase k)))

section Checks

variable {wb narrow : Bool} {rm : Option Reg} {rn : Reg} (why : Why) (k : Result)

theorem transferChecks_writebackToPc : transferChecks true rm 15 narrow why k = .refused (.unpredictable .writebackToPc) :=
  refuseIf_true _ _

theorem transferChecks_offsetPc (hbase : wb = true → rn ≠ 15) :
    transferChecks wb (some 15) rn false why k = .refused (.unpredictable .offsetPc) :=
  refuseIf_not (by simpa using hbase) _ _

theorem transferChecks_offsetIsBase (hn : rn ≠ 15) :
    transferChecks true (some rn) rn false why k = .refused (.unpredictable .offsetIsBase) := by
  have hbase : (true && rn == 15) = false := beq_false_of_ne hn
  have hpc : (some rn == some 15) = false := beq_false_of_ne fun h => hn (Option.some.inj h)
  rw [transferChecks, refuseIf_not hbase, refuseIf_false, refuseIf_not hpc, Bool.true_and, refuseIf_of (beq_self_eq_true _)]

/-- Register fields without a meaning are refused with some reason. -/
theorem transferChecks_undefined
    (h : ¬ ((wb = true → rn ≠ 15) ∧ rm ≠ some 15 ∧ (wb = true → rm ≠ some rn))) :
    ∃ y, transferChecks wb rm rn narrow why k = .refused (.unpredictable y) := by
  refine refuseIf_exists fun hbase => refuseIf_exists fun _ => refuseIf_exists fun hpc => ⟨_, refuseIf_of ?_ _ _⟩
  by_contra hoffset
  exact h ⟨by simpa using hbase, beq_eq_false_iff_ne.1 hpc, by simpa using hoffset⟩

end Checks

/-! ### Word and byte transfers (42 R600) -/

/-- The offset register, where there is one. -/
def XferOffset.register : XferOffset → Option Reg
  | .imm _ => none
  | .reg _ _ rm => some rm

theorem XferForm.defined_iff (f : XferForm) (o : XferOffset) (rn : Reg) : f.defined o rn ↔
    (f.writesBase = true → rn ≠ 15) ∧ o.register ≠ some 15 ∧ (f.writesBase = true → o.register ≠ some rn) := by
  cases o <;> simp [XferForm.defined, XferOffset.register]

/-- A word or byte transfer whose condition passes is its checks before what it does. -/
theorem exec_wordTransfer {byte : Bool} {mk : XferForm → XferOffset → Cond → Bool → Reg → Reg → Instr}
    (hmk : mk ∈ [loadInstr byte, storeInstr byte]) {c : Cond} {s : State} (hc : Cond.passes c s.cpsr = true)
    (f : XferForm) (o : XferOffset) (u : Bool) (rn rd : Reg) :
    ∃ why k, exec (mk f o c u rn rd) s = transferChecks f.writesBase o.register rn (byte && rd == 15) why k := by
  rcases List.mem_pair.1 hmk with rfl | rfl
  · refine ⟨.narrowLoadPc, .next (s.load (if byte then .byte else .word) f.index u rn rd (o.value s)), ?_⟩
    rcases f with (_ | _) | _ | _ <;> cases byte <;> cases o <;> exact State.whenPassed_pass hc _
  · refine ⟨.narrowStorePc, s.storeReg (if byte then .byte else .word) f.index u rn rd (o.value s), ?_⟩
    rcases f with (_ | _) | _ | _ <;> cases byte <;> cases o <;> exact State.whenPassed_pass hc _

/-! ### Halfword and signed transfers (42 R604, 30 R312) -/

/-- The offset register, where there is one. -/
def HalfOffset.register : HalfOffset → Option Reg
  | .imm _ => none
  | .reg _ rm => some rm

/-- The field that should be zero; an immediate offset has none. -/
def HalfOffset.sbz : HalfOffset → BitVec 4
  | .imm _ => 0
  | .reg sbz _ => sbz

theorem HalfOffset.defined_iff (o : HalfOffset) (p w : Bool) (rn : Reg) : o.defined p w rn ↔ o.sbz = 0 ∧ (p = false → w = false) ∧
    ((halfForm p w).writesBase = true → rn ≠ 15) ∧ o.register ≠ some 15 ∧
      ((halfForm p w).writesBase = true → o.register ≠ some rn) := by
  cases o with
  | imm imm8 => simp [HalfOffset.defined, HalfOffset.register, HalfOffset.sbz]
  | reg sbz rm =>
    simp only [HalfOffset.defined, HalfOffset.register, HalfOffset.sbz, ne_eq, Option.some.injEq]
    tauto

/-- The checks of a halfword or signed transfer, in their order. -/
def halfChecks (o : HalfOffset) (p w : Bool) (rn rd : Reg) (why : Why) (k : Result) : Result :=
  refuseIf (o.sbz != 0) .halfwordSbz (refuseIf (!p && w) .halfwordPostW
    (transferChecks (halfForm p w).writesBase o.register rn (rd == 15) why k))

/-- A halfword or signed transfer whose condition passes is its checks before what it does. -/
theorem exec_halfTransfer {mk : HalfOffset → Cond → Bool → Bool → Bool → Reg → Reg → Instr}
    (hmk : mk ∈ [HalfKind.half.instr, HalfKind.signedByte.instr, HalfKind.signedHalf.instr, strhInstr]) {c : Cond} {s : State}
    (hc : Cond.passes c s.cpsr = true) (o : HalfOffset) (p u w : Bool) (rn rd : Reg) :
    ∃ why k, exec (mk o c p u w rn rd) s = halfChecks o p w rn rd why k := by
  have hload (kind : HalfKind) : exec (kind.instr o c p u w rn rd) s = halfChecks o p w rn rd .narrowLoadPc
      (.next (s.load kind.load (halfForm p w).index u rn rd (o.value s))) := by
    cases kind <;> cases o <;> cases p <;> cases w <;> exact State.whenPassed_pass hc _
  have hstore : exec (strhInstr o c p u w rn rd) s = halfChecks o p w rn rd .narrowStorePc
      (s.storeReg .half (halfForm p w).index u rn rd (o.value s)) := by
    cases o <;> cases p <;> cases w <;> exact State.whenPassed_pass hc _
  simp only [List.mem_cons, List.not_mem_nil, or_false] at hmk
  rcases hmk with rfl | rfl | rfl | rfl
  · exact ⟨_, _, hload .half⟩
  · exact ⟨_, _, hload .signedByte⟩
  · exact ⟨_, _, hload .signedHalf⟩
  · exact ⟨_, _, hstore⟩

/-! ### The refusals, form by form -/

section WordTransfers

variable {byte : Bool} {mk : XferForm → XferOffset → Cond → Bool → Reg → Reg → Instr}
  (hmk : mk ∈ [loadInstr byte, storeInstr byte]) {c : Cond} {s : State} (hc : Cond.passes c s.cpsr = true)
include hmk hc

theorem exec_wordTransfer_writebackToPc {f : XferForm} (o : XferOffset) (u : Bool) (rd : Reg) (hwb : f.writesBase = true) :
    exec (mk f o c u 15 rd) s = .refused (.unpredictable .writebackToPc) := by
  obtain ⟨why, k, hexec⟩ := exec_wordTransfer hmk hc f o u 15 rd
  rw [hexec, hwb]
  exact transferChecks_writebackToPc why k

theorem exec_wordTransfer_offsetPc {f : XferForm} (amt : BitVec 5) (sh : ShiftKind) (u : Bool) {rn rd : Reg}
    (hbase : f.writesBase = true → rn ≠ 15) (hrd : byte = true → rd ≠ 15) :
    exec (mk f (.reg amt sh 15) c u rn rd) s = .refused (.unpredictable .offsetPc) := by
  obtain ⟨why, k, hexec⟩ := exec_wordTransfer hmk hc f (.reg amt sh 15) u rn rd
  rw [hexec, show (byte && rd == 15) = false by simpa using hrd]
  exact transferChecks_offsetPc why k hbase

theorem exec_wordTransfer_offsetIsBase {f : XferForm} (amt : BitVec 5) (sh : ShiftKind) (u : Bool) {rn rd : Reg}
    (hwb : f.writesBase = true) (hn : rn ≠ 15) (hrd : byte = true → rd ≠ 15) :
    exec (mk f (.reg amt sh rn) c u rn rd) s = .refused (.unpredictable .offsetIsBase) := by
  obtain ⟨why, k, hexec⟩ := exec_wordTransfer hmk hc f (.reg amt sh rn) u rn rd
  rw [hexec, hwb, show (byte && rd == 15) = false by simpa using hrd]
  exact transferChecks_offsetIsBase why k hn

theorem exec_wordTransfer_undefined {f : XferForm} {o : XferOffset} (u : Bool) {rn : Reg} (rd : Reg) (h : ¬ f.defined o rn) :
    ∃ why, exec (mk f o c u rn rd) s = .refused (.unpredictable why) := by
  obtain ⟨why, k, hexec⟩ := exec_wordTransfer hmk hc f o u rn rd
  rw [hexec]
  exact transferChecks_undefined why k ((f.defined_iff o rn).not.1 h)

end WordTransfers

section HalfTransfers

variable {mk : HalfOffset → Cond → Bool → Bool → Bool → Reg → Reg → Instr}
  (hmk : mk ∈ [HalfKind.half.instr, HalfKind.signedByte.instr, HalfKind.signedHalf.instr, strhInstr]) {c : Cond} {s : State}
  (hc : Cond.passes c s.cpsr = true)
include hmk hc

theorem exec_halfTransfer_sbz (p u w : Bool) (rn rd : Reg) {sbz : BitVec 4} (rm : Reg) (hsbz : sbz ≠ 0) :
    exec (mk (.reg sbz rm) c p u w rn rd) s = .refused (.unpredictable .halfwordSbz) := by
  obtain ⟨why, k, hexec⟩ := exec_halfTransfer hmk hc (.reg sbz rm) p u w rn rd
  exact hexec.trans (refuseIf_of (bne_iff_ne.2 hsbz) _ _)

theorem exec_halfTransfer_postW {o : HalfOffset} (hsbz : o.sbz = 0) (u : Bool) (rn rd : Reg) :
    exec (mk o c false u true rn rd) s = .refused (.unpredictable .halfwordPostW) := by
  obtain ⟨why, k, hexec⟩ := exec_halfTransfer hmk hc o false u true rn rd
  exact hexec.trans ((refuseIf_not (by simpa using hsbz) _ _).trans (refuseIf_true _ _))

variable {p w : Bool} (hpw : p = false → w = false)
include hpw

/-- A halfword or signed transfer whose P, W and should-be-zero fields are as they should be. -/
theorem exec_halfTransfer_of {o : HalfOffset} (hsbz : o.sbz = 0) (u : Bool) (rn rd : Reg) : ∃ why k,
    exec (mk o c p u w rn rd) s = transferChecks (halfForm p w).writesBase o.register rn (rd == 15) why k := by
  obtain ⟨why, k, hexec⟩ := exec_halfTransfer hmk hc o p u w rn rd
  exact ⟨why, k, hexec.trans ((refuseIf_not (by simpa using hsbz) _ _).trans (refuseIf_not (by simpa using hpw) _ _))⟩

theorem exec_halfTransfer_writebackToPc {o : HalfOffset} (hsbz : o.sbz = 0) (u : Bool) (rd : Reg)
    (hwb : (halfForm p w).writesBase = true) : exec (mk o c p u w 15 rd) s = .refused (.unpredictable .writebackToPc) := by
  obtain ⟨why, k, hexec⟩ := exec_halfTransfer_of hmk hc hpw hsbz u 15 rd
  rw [hexec, hwb]
  exact transferChecks_writebackToPc why k

theorem exec_halfTransfer_offsetPc (u : Bool) {rn rd : Reg} (hbase : (halfForm p w).writesBase = true → rn ≠ 15) (hrd : rd ≠ 15) :
    exec (mk (.reg 0 15) c p u w rn rd) s = .refused (.unpredictable .offsetPc) := by
  obtain ⟨why, k, hexec⟩ := exec_halfTransfer_of hmk hc hpw (o := .reg 0 15) rfl u rn rd
  rw [hexec, beq_false_of_ne hrd]
  exact transferChecks_offsetPc why k hbase

theorem exec_halfTransfer_offsetIsBase (u : Bool) {rn rd : Reg} (hwb : (halfForm p w).writesBase = true) (hn : rn ≠ 15)
    (hrd : rd ≠ 15) : exec (mk (.reg 0 rn) c p u w rn rd) s = .refused (.unpredictable .offsetIsBase) := by
  obtain ⟨why, k, hexec⟩ := exec_halfTransfer_of hmk hc hpw (o := .reg 0 rn) rfl u rn rd
  rw [hexec, beq_false_of_ne hrd, hwb]
  exact transferChecks_offsetIsBase why k hn

omit hpw in
theorem exec_halfTransfer_undefined {o : HalfOffset} (u : Bool) {rn : Reg} (rd : Reg) (h : ¬ o.defined p w rn) :
    ∃ why, exec (mk o c p u w rn rd) s = .refused (.unpredictable why) := by
  obtain ⟨why, k, hexec⟩ := exec_halfTransfer hmk hc o p u w rn rd
  rw [hexec]
  refine refuseIf_exists fun hsbz => refuseIf_exists fun hpw => transferChecks_undefined _ _ fun hfields => h ?_
  exact (o.defined_iff p w rn).2 ⟨by simpa using hsbz, by simpa using hpw, hfields⟩

end HalfTransfers

section OtherForms

variable {c : Cond} {s : State} (hc : Cond.passes c s.cpsr = true)
include hc

theorem exec_writeOp_shiftByPc (op : WriteOp) (sf : Bool) (rn rd : Reg) (sh : ShiftKind) (rm : Reg) :
    exec (op.instr (.rshift 15 sh rm) c sf rn rd) s = .refused (.unpredictable .shiftByPc) := by
  cases op with
  | logic op => cases op <;> exact State.whenPassed_pass hc _
  | arith op => cases op <;> exact State.whenPassed_pass hc _

theorem exec_compareOp_shiftByPc (op : CompareOp) (rn rd : Reg) (sh : ShiftKind) (rm : Reg) :
    exec (op.instr (.rshift 15 sh rm) c rn rd) s = .refused (.unpredictable .shiftByPc) := by
  cases op <;> exact State.whenPassed_pass hc _

theorem exec_block_basePc (p u w : Bool) (list : BitVec 16) (list15 : BitVec 15) : ∀ i ∈ [Instr.ldm c p u w 15 list,
    .stm c p u w 15 list, .ldmUser c p u w 15 list15, .stmUser c p u w 15 list, .ldmRet c p u w 15 list15],
    exec i s = .refused (.unpredictable .blockBasePc) := by
  simp only [List.forall_mem_cons]
  refine ⟨?_, ?_, ?_, ?_, ?_, fun _ h => absurd h List.not_mem_nil⟩ <;> exact State.whenPassed_pass hc _

end OtherForms

/-- Settles O44, form by form. -/
theorem undefinedFormsRefused : Obligations.UndefinedFormsRefused := by
  unfold Obligations.UndefinedFormsRefused
  intro c s hc
  refine ⟨fun byte mk hmk => ⟨fun f o u rd => exec_wordTransfer_writebackToPc hmk hc o u rd,
      fun f amt sh u rn rd => exec_wordTransfer_offsetPc hmk hc amt sh u,
      fun f amt sh u rn rd => exec_wordTransfer_offsetIsBase hmk hc amt sh u,
      fun f o u rn rd => exec_wordTransfer_undefined hmk hc u rd⟩,
    fun mk hmk => ⟨fun p u w rn rd sbz rm => exec_halfTransfer_sbz hmk hc p u w rn rd rm, fun o u rn rd ho => ?_,
      fun p u w rn rd hpw hbase hrd => ⟨exec_halfTransfer_offsetPc hmk hc hpw u hbase hrd,
        fun hwb => exec_halfTransfer_offsetIsBase hmk hc hpw u hwb (hbase hwb) hrd⟩,
      fun o p u w rn rd => exec_halfTransfer_undefined hmk hc u rd⟩,
    fun p u i w rn rd hi lo => ⟨State.whenPassed_pass hc _, State.whenPassed_pass hc _⟩,
    fun rn rd sh rm => ⟨fun op sf => exec_writeOp_shiftByPc hc op sf rn rd sh rm,
      fun op => exec_compareOp_shiftByPc hc op rn rd sh rm⟩,
    fun p u w list list15 => exec_block_basePc hc p u w list list15⟩
  have hsbz : o.sbz = 0 := by rcases ho with ⟨imm8, rfl⟩ | ⟨rm, rfl⟩ <;> rfl
  exact ⟨exec_halfTransfer_postW hmk hc hsbz u rn rd,
    fun p w hpw hwb => exec_halfTransfer_writebackToPc hmk hc hpw hsbz u rd hwb⟩

end Sys2Proof.Machine
end

section
/-! SUPPORT. ARM branches, SWI and the undefined space (43 R700 to R721, 46 R1010, R1050): a branch offset as an exact number, the
state that B, BL and BX go to, and the exception that each instruction of those spaces takes. -/

namespace Sys2Proof.Machine

open Sys2Proof

/-! ### Branch offsets -/

/-- A signed offset field, shifted left, is its exact value times the power of two. -/
theorem signExtend_shiftLeft_eq_ofInt {n : Nat} (x : BitVec n) (k : Nat) :
    x.signExtend 32 <<< k = BitVec.ofInt 32 (x.toInt * 2 ^ k) := by
  have hpow : BitVec.twoPow 32 k = BitVec.ofInt 32 (2 ^ k) :=
    BitVec.eq_of_toNat_eq (BitVec.toNat_twoPow 32 k)
  rw [BitVec.shiftLeft_eq_mul_twoPow, BitVec.ofInt_mul, hpow, BitVec.signExtend]

/-- The offset of B and BL is four times the signed field (43 R700). -/
theorem armBranchOffset_eq_ofInt (imm24 : BitVec 24) : armBranchOffset imm24 = BitVec.ofInt 32 (imm24.toInt * 4) :=
  signExtend_shiftLeft_eq_ofInt imm24 2

/-! ### B, BL and BX (43 R700 to R702) -/

section Passed

variable {c : Cond} {s : State} (hc : Cond.passes c s.cpsr = true)
include hc

/-- Where B goes (43 R700). -/
theorem exec_b (imm24 : BitVec 24) : exec (.b c imm24) s =
    .next (s.branchArm (s.pc + 8 + BitVec.ofInt 32 (imm24.toInt * 4))) := by
  rw [← armBranchOffset_eq_ofInt]
  exact State.whenPassed_pass hc _

/-- BL sets R14, then goes where B goes (43 R701). -/
theorem exec_bl (imm24 : BitVec 24) : exec (.bl c imm24) s =
    .next ((s.setReg 14 (s.pc + 4)).branchArm (s.pc + 8 + BitVec.ofInt 32 (imm24.toInt * 4))) := by
  rw [← armBranchOffset_eq_ofInt]
  exact State.whenPassed_pass hc _

/-- BX exchanges the instruction state (43 R702). -/
theorem exec_bx (rm : Reg) : exec (.bx c rm) s = .next (s.exchange (s.reg 8 rm)) := State.whenPassed_pass hc _

end Passed

/-- Settles O49: B and BX by the state they go to, BL by its one register write. -/
theorem armBranches : Obligations.ArmBranches := by
  unfold Obligations.ArmBranches
  intro c imm24 rm s hc target
  exact ⟨exec_b hc imm24,
    ⟨_, exec_bl hc imm24, rfl, reg_setReg s 14 (by decide) _ _ s.cpsr rfl 8, frameRegs_setReg s 14 _ _⟩, exec_bx hc rm⟩

/-! ### The exceptions (43 R710, R720; 46 R1010, R1050) -/

/-- An instruction that enters SoftwareInterrupt took that exception (60 R1201). -/
theorem tookSoftwareInterrupt {i : Instr} {s : State} {link : Word}
    (h : exec i s = .next (s.takeException .softwareInterrupt link)) :
    ∃ t, exec i s = .next t ∧ TookException s t .svc false 0x08 link :=
  ⟨_, h, tookException s .softwareInterrupt link⟩

/-- An instruction that enters Undefined took that exception (60 R1201). -/
theorem tookUndefined {i : Instr} {s : State} {link : Word} (h : exec i s = .next (s.takeException .undefined link)) :
    ∃ t, exec i s = .next t ∧ TookException s t .und false 0x04 link :=
  ⟨_, h, tookException s .undefined link⟩

/-- The ARM forms of the undefined and coprocessor spaces are the Undefined exception alone, their condition passed
(43 R720). -/
theorem State.undefinedArm_pass {s : State} {c : Cond} (hc : Cond.passes c s.cpsr = true) :
    s.undefinedArm c = .next (s.takeException .undefined (s.pc + 4)) := State.whenPassed_pass hc _

/-- Settles O50, form by form: SWI by its condition, each undefined form by the exception that all of them share. -/
theorem exceptionInstructions : Obligations.ExceptionInstructions := by
  unfold Obligations.ExceptionInstructions
  intro i c s hc
  refine ⟨?swi, ?undefinedArm, ?swiThumb, ?undefinedThumb⟩
  case swi =>
    rintro ⟨imm24, rfl⟩
    exact tookSoftwareInterrupt (State.whenPassed_pass hc _)
  case undefinedArm =>
    intro hform
    have hexec : exec i s = s.undefinedArm c := by
      rcases hform with ⟨body, rfl⟩ | ⟨body, rfl⟩ | ⟨hi, lo, rfl⟩ | ⟨p, u, n, w, l, rn, crd, cp, off, rfl⟩ |
        ⟨o1, crn, crd, cp, o2, crm, rfl⟩ | ⟨o1, l, crn, rd, cp, o2, crm, rfl⟩ <;> rfl
    exact tookUndefined (hexec.trans (State.undefinedArm_pass hc))
  case swiThumb =>
    rintro ⟨value8, rfl⟩
    exact tookSoftwareInterrupt rfl
  case undefinedThumb =>
    intro hform
    have hexec : exec i s = s.undefinedThumb := by rcases hform with ⟨body, rfl⟩ | ⟨body, rfl⟩ | ⟨body, rfl⟩ <;> rfl
    exact tookUndefined hexec

end Sys2Proof.Machine
end

section
/-! SUPPORT. Thumb formats T1 to T5 (44 R800 to R843): the ends that write a low register, the flags alone or any register, and
the instructions that each end belongs to. -/

namespace Sys2Proof.Machine

open Sys2Proof

/-! ### Results in a low register (44 R800 to R807, R809, R810, R820 to R827, R829, R832, R834, R835) -/

/-- The end of a T1 to T4 instruction that writes Rd: the pc, Rd, the CPSR and the frame (44 R811). -/
theorem State.thumbWrite_spec (s : State) (rd : LoReg) (o : AluOut) :
    ∃ t, s.thumbWrite rd o = .next t ∧ t.pc = s.pc + 2 ∧ t.reg 4 (lo rd) = o.value ∧ t.cpsr = s.cpsr.withFlags o ∧
      SameControl s t ∧ FrameFlags [physReg s.cpsr.mode (lo rd)] s t :=
  ⟨_, rfl, rfl, reg_setReg s _ (lo_ne_pc rd) _ _ _ (Cpsr.withFlags_mode _ _) 4, rfl, ⟨rfl, rfl, rfl, rfl⟩,
    frameFlags_setReg s _ _ _ _⟩

/-- A Thumb addition or subtraction writes what the adder computes for its operation and operands. -/
theorem exec_thumbArith {i : ThumbArith} {s : State} {rd : LoReg} {op : ArithOp} {a b : Word}
    (h : i.parts s = (rd, op, a, b)) : exec i.instr s = s.thumbWrite rd (op.out a b s.cpsr.c) := by
  cases i <;> cases h <;> rfl

/-- A Thumb move, logical instruction or shift writes its result and carry, and keeps V. -/
theorem exec_thumbLogic {i : ThumbLogic} {s : State} {rd : LoReg} {out : ShiftOut} (h : i.parts s = (rd, out)) :
    exec i.instr s = s.thumbWrite rd (logical s.cpsr out.value out.carry) := by
  cases i <;> cases h <;> rfl

/-- Settles O51, by what the adder computes and what an instruction with a low Rd writes. -/
theorem thumbArithmetic : Obligations.ThumbArithmetic := by
  unfold Obligations.ThumbArithmetic
  intro i s
  rcases hparts : i.parts s with ⟨rd, op, a, b⟩
  obtain ⟨hvalue, hflags⟩ := op.out_spec s.cpsr a b s.cpsr.c
  obtain ⟨t, hnext, hpc, hreg, hcpsr, hcontrol, hframe⟩ := s.thumbWrite_spec rd (op.out a b s.cpsr.c)
  exact ⟨t, (exec_thumbArith hparts).trans hnext, hpc, hreg.trans hvalue, hcpsr ▸ hflags, hcontrol, hframe⟩

/-- Settles O52, by what an instruction with a low Rd writes. -/
theorem thumbLogicAndShifts : Obligations.ThumbLogicAndShifts := by
  unfold Obligations.ThumbLogicAndShifts
  intro i s
  rcases hparts : i.parts s with ⟨rd, out⟩
  obtain ⟨t, hnext, hpc, hreg, hcpsr, hcontrol, hframe⟩ := s.thumbWrite_spec rd (logical s.cpsr out.value out.carry)
  exact ⟨t, (exec_thumbLogic hparts).trans hnext, hpc, hreg, hcpsr ▸ logicFlags_withFlags _ _ _, hcontrol, hframe⟩

/-! ### Comparisons (44 R808, R828, R830, R831, R841) -/

/-- The end of a T3 to T5 comparison: the pc, the CPSR and the frame (44 R811, R841). -/
theorem State.thumbFlags_spec (s : State) (o : AluOut) :
    ∃ t, s.thumbFlags o = .next t ∧ t.pc = s.pc + 2 ∧ t.cpsr = s.cpsr.withFlags o ∧ SameControl s t ∧ FrameFlags [] s t :=
  ⟨_, rfl, rfl, rfl, ⟨rfl, rfl, rfl, rfl⟩, frameFlags_setCpsr s _ 2⟩

/-- Settles O53: each comparison has the end that sets the flags alone, and the flags of its difference, sum or AND. -/
theorem thumbCompares : Obligations.ThumbCompares := by
  unfold Obligations.ThumbCompares
  intro rs rd imm8 d m s a b i flags hform
  have hout : ∃ o, exec i s = s.thumbFlags o ∧ flags (s.cpsr.withFlags o) := by
    have hsub := fun x y => (ArithOp.sub.out_spec s.cpsr x y s.cpsr.c).2
    simp only [List.mem_cons, Prod.mk.injEq, List.not_mem_nil, or_false] at hform
    rcases hform with ⟨rfl, rfl⟩ | ⟨rfl, rfl⟩ | ⟨rfl, rfl⟩ | ⟨rfl, rfl⟩ | ⟨rfl, rfl⟩
    · exact ⟨_, rfl, hsub a (imm8.setWidth 32)⟩
    · exact ⟨_, rfl, hsub a b⟩
    · exact ⟨_, rfl, hsub (s.reg 4 d) (s.reg 4 m)⟩
    · exact ⟨_, rfl, (ArithOp.add.out_spec s.cpsr a b s.cpsr.c).2⟩
    · exact ⟨_, rfl, logicFlags_withFlags _ _ _⟩
  obtain ⟨o, hexec, hflags⟩ := hout
  obtain ⟨t, hnext, hpc, hcpsr, hcontrol, hframe⟩ := s.thumbFlags_spec o
  exact ⟨t, hexec.trans hnext, hpc, hcpsr ▸ hflags, hcontrol, hframe⟩

/-! ### The high registers (44 R840, R842, R843) -/

/-- T5 ADD and MOV into R15 branch, with bit 0 cleared, and stay in Thumb state (44 R840, R842). -/
theorem State.hiWrite_pc (s : State) (v : Word) : s.hiWrite 15 v = .next (s.branchThumb v) := if_pos rfl

/-- T5 ADD and MOV into another register: the pc, Rd and the frame (44 R840, R842). -/
theorem State.hiWrite_reg (s : State) {d : Reg} (h : d ≠ 15) (v : Word) :
    ∃ t, s.hiWrite d v = .next t ∧ t.pc = s.pc + 2 ∧ t.reg 4 d = v ∧ FrameRegs [physReg s.cpsr.mode d] s t :=
  ⟨_, if_neg h, rfl, reg_setReg s d h v _ s.cpsr rfl 4, frameRegs_setReg s d v _⟩

/-- Settles O54: ADD and MOV by the end they share, BX by the state it goes to, the BLX space by its refusal. -/
theorem thumbHiRegisters : Obligations.ThumbHiRegisters := by
  unfold Obligations.ThumbHiRegisters
  intro d m low s v
  refine ⟨fun i r hform => ?_, rfl, rfl⟩
  have hexec : exec i s = s.hiWrite d r := by
    simp only [List.mem_cons, Prod.mk.injEq, List.not_mem_nil, or_false] at hform
    rcases hform with ⟨rfl, rfl⟩ | ⟨rfl, rfl⟩ <;> rfl
  rw [hexec]
  refine ⟨?_, fun hd => s.hiWrite_reg hd r⟩
  rintro rfl
  exact s.hiWrite_pc r

end Sys2Proof.Machine
end

section
/-! SUPPORT. Thumb formats T6 to T15 (45 R900 to R933): the ends that the loads, the stores and the address instructions have, and
the Thumb block transfers as ARM's: PUSH below the base, the others from the base up, all with writeback. -/

namespace Sys2Proof.Machine

open Sys2Proof

/-! ### Registers -/

/-- A register other than R15 reads the same in both instruction states (10_state R110). -/
theorem State.reg_eq_reg (s : State) {r : Reg} (h : r ≠ 15) (m n : Word) : s.reg m r = s.reg n r :=
  (s.reg_of_ne m h).trans (s.reg_of_ne n h).symm

/-- The end of a Thumb instruction that writes one register and no flag: the pc, the register and the frame. -/
theorem State.setReg_advance_spec (s : State) {d : Reg} (h : d ≠ 15) (v : Word) :
    let t := (s.setReg d v).advance 2
    t.pc = s.pc + 2 ∧ t.reg 4 d = v ∧ FrameRegs [physReg s.cpsr.mode d] s t :=
  ⟨rfl, reg_setReg s d h v _ s.cpsr rfl 4, frameRegs_setReg s d v _⟩

/-! ### Addresses on the pc and SP (45 R920 to R923) -/

/-- Settles O57, form by form, by what a write to one register leaves. -/
theorem thumbAddresses : Obligations.ThumbAddresses := by
  unfold Obligations.ThumbAddresses
  intro rd word8 sword7 s i d v hform
  obtain ⟨hexec, hd⟩ : exec i s = .next ((s.setReg d v).advance 2) ∧ d ≠ 15 := by
    simp only [List.mem_cons, Prod.mk.injEq, List.not_mem_nil, or_false, ← shl2] at hform
    rcases hform with ⟨rfl, rfl, rfl⟩ | ⟨rfl, rfl, rfl⟩ | ⟨rfl, rfl, rfl⟩ | ⟨rfl, rfl, rfl⟩
    · exact ⟨rfl, lo_ne_pc rd⟩
    · exact ⟨rfl, lo_ne_pc rd⟩
    · exact ⟨rfl, by decide⟩
    · exact ⟨rfl, by decide⟩
  exact ⟨_, hexec, s.setReg_advance_spec hd v⟩

/-! ### Addresses of T9 to T11 (30 R341) -/

theorem State.immAddr_byte (s : State) (rb : LoReg) (offset5 : BitVec 5) :
    s.immAddr rb offset5 0 = s.reg 4 (lo rb) + offset5.setWidth 32 := by
  rw [State.immAddr, BitVec.shiftLeft_zero, State.loReg]

theorem State.immAddr_half (s : State) (rb : LoReg) (offset5 : BitVec 5) :
    s.immAddr rb offset5 1 = s.reg 4 (lo rb) + offset5.setWidth 32 * 2 := by
  rw [State.immAddr, shl1, State.loReg]

theorem State.immAddr_word (s : State) (rb : LoReg) (offset5 : BitVec 5) :
    s.immAddr rb offset5 2 = s.reg 4 (lo rb) + offset5.setWidth 32 * 4 := by
  rw [State.immAddr, shl2, State.loReg]

theorem State.spAddr_eq (s : State) (word8 : BitVec 8) : s.spAddr word8 = s.reg 4 13 + word8.setWidth 32 * 4 := by
  rw [State.spAddr, word8Offset, shl2]

/-! ### Loads (45 R900, R903, R904, R906 to R908, R911, R913, R915, R917) -/

/-- A load of a word at a multiple of four rotates nothing (20 R215). -/
theorem loadValue_word_aligned (s : State) {a : Word} (h : a.toNat % 4 = 0) : s.loadValue .word a = s.memRead .data a .word := by
  have hlow : a % 4 = 0 := BitVec.eq_of_toNat_eq h
  rw [loadValue_word, h, hlow]
  exact (rotateRight_zero _).trans (congrArg (s.memRead .data · .word) (BitVec.sub_zero a))

/-- A word address plus a multiple of four is a multiple of four. -/
theorem align4_add_mul_four_mod (a x : Word) : ((a &&& 0xFFFFFFFC) + x * 4).toNat % 4 = 0 := by
  rw [BitVec.toNat_add, BitVec.toNat_mul, align4_toNat, show (4 : Word).toNat = 4 from rfl]
  omega

/-- A Thumb load writes the loaded value of its address to Rd, the PC-relative one too, whose address is aligned. -/
theorem exec_thumbLoad {i : ThumbLoad} {s : State} {rd : LoReg} {k : LoadKind} {a : Word} (h : i.parts s = (rd, k, a)) :
    exec i.instr s = s.thumbLoad k rd a := by
  cases i with
  | ldrPc rd word8 =>
    cases h
    rw [State.thumbLoad, loadValue_word_aligned s (align4_add_mul_four_mod _ _), ← shl2]
    rfl
  | ldrReg | ldrbReg | ldsb | ldrhReg | ldsh => cases h; rfl
  | ldrbImm offset5 rb rd => cases h; exact congrArg (s.thumbLoad .byte rd) (s.immAddr_byte rb offset5)
  | ldrhImm offset5 rb rd => cases h; exact congrArg (s.thumbLoad .half rd) (s.immAddr_half rb offset5)
  | ldrImm offset5 rb rd => cases h; exact congrArg (s.thumbLoad .word rd) (s.immAddr_word rb offset5)
  | ldrSp rd word8 => cases h; exact congrArg (s.thumbLoad .word rd) (s.spAddr_eq word8)

/-- Settles O55, by what a write to one register leaves. -/
theorem thumbLoads : Obligations.ThumbLoads := by
  unfold Obligations.ThumbLoads
  intro i s
  rcases hparts : i.parts s with ⟨rd, k, a⟩
  exact ⟨_, exec_thumbLoad hparts, s.setReg_advance_spec (lo_ne_pc rd) _⟩

/-! ### Stores (45 R901, R902, R905, R910, R912, R914, R916) -/

/-- A Thumb store stores Rd at an address that aligns down to the one of the statement. -/
theorem exec_thumbStore {i : ThumbStore} {s : State} {rd : LoReg} {w : Width} {a : Word} (h : i.parts s = (rd, w, a)) :
    ∃ b, w.align b = a ∧ exec i.instr s = s.thumbStore w rd b := by
  cases i with
  | strReg | strbReg | strhReg => cases h; exact ⟨_, rfl, rfl⟩
  | strbImm offset5 rb rd => cases h; exact ⟨_, s.immAddr_byte rb offset5, rfl⟩
  | strhImm offset5 rb rd => cases h; exact ⟨_, congrArg Width.half.align (s.immAddr_half rb offset5), rfl⟩
  | strImm offset5 rb rd => cases h; exact ⟨_, congrArg Width.word.align (s.immAddr_word rb offset5), rfl⟩
  | strSp rd word8 => cases h; exact ⟨_, congrArg Width.word.align (s.spAddr_eq word8), rfl⟩

/-- Everything a Thumb store can do (20 R217, 10_state R126). -/
theorem State.thumbStore_spec (s : State) (w : Width) (rd : LoReg) (b : Word) :
    (s.refusesWrite (w.align b) w = true → s.thumbStore w rd b = .refused .unmodelledDevice) ∧
    (s.refusesWrite (w.align b) w = false → ∃ t, s.thumbStore w rd b = .next t ∧ t.pc = s.pc + 2 ∧
      Wrote s t (w.align b) w (s.reg 4 (lo rd)) ∧ FrameStore [] (storePlaces s.romLen w (w.align b)) s t) := by
  refine ⟨fun h => State.store_refused h _ _, fun h => ⟨_, State.store_accepted h _ _, by simp, ?_⟩⟩
  exact frameStore_of _ w _ (by simp) (fun q _ => by simp) (by simp) ⟨rfl, rfl, rfl⟩ (by simp [SameOutside])

/-- Settles O56, by everything a Thumb store can do. -/
theorem thumbStores : Obligations.ThumbStores := by
  unfold Obligations.ThumbStores
  intro i s
  rcases hparts : i.parts s with ⟨rd, w, a⟩
  obtain ⟨b, rfl, hexec⟩ := exec_thumbStore hparts
  rw [hexec]
  exact s.thumbStore_spec w rd b

/-! ### The lists of T14 and T15 (45 R929) -/

/-- The list of sixteen that a list of eight stands for is empty where that is. -/
theorem setWidth_eq_zero_iff (rlist : BitVec 8) : rlist.setWidth 16 = (0 : BitVec 16) ↔ rlist = 0 := by
  rw [← BitVec.toNat_inj, ← BitVec.toNat_inj, BitVec.toNat_setWidth_of_le (by decide)]
  rfl

/-- The list of PUSH or POP is empty exactly where it names no low register and R = 0. -/
theorem list_with_bit_eq_zero (r : Bool) (rlist : BitVec 8) {m : BitVec 16} (hm : m ≠ 0) :
    rlist.setWidth 16 ||| (if r then m else 0) = 0 ↔ r = false ∧ rlist = 0 := by
  have hbit : (if r then m else 0) = 0 ↔ r = false := by
    cases r with
    | false => exact iff_of_true rfl rfl
    | true => exact iff_of_false hm Bool.false_ne_true.symm
  exact BitVec.or_eq_zero_iff.trans ((and_congr (setWidth_eq_zero_iff rlist) hbit).trans and_comm)

/-- A low register is in the list of sixteen exactly where it is in the list of eight. -/
theorem getLsbD_lo (rlist : BitVec 8) (q : LoReg) : (rlist.setWidth 16).getLsbD (lo q).toNat = rlist.getLsbD q.toNat := by
  have hq : (lo q).toNat = q.toNat := BitVec.toNat_setWidth_of_le (by decide)
  rw [BitVec.getLsbD_setWidth, hq, decide_eq_true (by have := q.isLt; omega), Bool.true_and]

theorem getLsbD_popList_sp (r : Bool) (rlist : BitVec 8) : (popList r rlist).getLsbD 13 = false := by
  cases r <;> simp [popList]

theorem getLsbD_popList_pc (r : Bool) (rlist : BitVec 8) : (popList r rlist).getLsbD 15 = r := by
  cases r <;> simp [popList]

theorem listSize_eq (list : BitVec 16) : listSize list = BitVec.ofNat 32 (4 * listCount list) := by
  rw [listSize, regsOf_length]

/-! ### Block stores -/

/-- The slots of a Thumb block transfer are those of the ARM one (42 R630). -/
theorem State.slots_eq_blockSlots (s : State) (p u : Bool) {rn : Reg} (hn : rn ≠ 15) {list : BitVec 16} (hl : list ≠ 0) :
    slots (regsOf list) (blockStart p u (s.reg 4 rn) (listSize list)) = s.blockSlots p u rn list := by
  rw [State.blockSlots, State.blockBase, s.reg_eq_reg hn 8 4, blockRegs_ne hl, blockSize_ne hl, listSize_eq]

/-- Everything a Thumb block store can do: refused whole, or the words written, the base set and nothing else changed. -/
theorem State.storeWords_setReg_spec (s : State) (ws : List (Word × Word)) {rn : Reg} (hn : rn ≠ 15) (v : Word) :
    let done := s.storeWords ws fun s1 => .next ((s1.setReg rn v).advance 2)
    (Accepted s (alignWords ws) → ∃ t, done = .next t ∧ t.pc = s.pc + 2 ∧ WroteAll s t (alignWords ws) ∧ t.reg 4 rn = v ∧
      FrameStore [physReg s.cpsr.mode rn] (wordPlaces s.romLen (alignWords ws)) s t) ∧
    (¬ Accepted s (alignWords ws) → done = .refused .unmodelledDevice) := by
  intro done
  refine ⟨fun h => ⟨_, State.storeWords_of_accepted h _, ?_⟩, fun h => State.storeWords_of_not_accepted h _⟩
  obtain ⟨-, hpc, -, -, -⟩ := writeAll_frame s (alignWords ws)
  obtain ⟨-, hwrote, -, hframe⟩ := writeAll_spec s (alignWords_aligned ws) true hn v
  exact ⟨congrArg (· + 2) hpc, hwrote, reg_setReg _ rn hn v _ _ rfl 4, hframe⟩

/-! ### Block loads -/

/-- The registers after a Thumb block load are those after the LDM that moves up with writeback (42 R630, R632). -/
theorem State.ldmRegs_up (s : State) {rn : Reg} (hn : rn ≠ 15) {list : BitVec 16} (hl : list ≠ 0) :
    s.ldmRegs false true true rn list = (s.loadSlots s s.cpsr.mode (slots (regsOf list) (s.reg 4 rn))).ldmWriteback true rn
      (regsOf list) (s.reg 4 rn + listSize list) := by
  rw [State.ldmRegs, ← s.slots_eq_blockSlots false true hn hl, State.blockWb, State.blockBase, s.reg_eq_reg hn 8 4,
    blockRegs_ne hl, blockSize_ne hl, listSize_eq]
  rfl

/-- What that LDM leaves, its pc set: the listed registers, the base and the frame. -/
theorem State.ldmRegs_up_spec (s : State) {rn : Reg} (hn : rn ≠ 15) {list : BitVec 16} (hl : list ≠ 0) (a : Word) :
    let t := (s.ldmRegs false true true rn list).setPc a
    (∀ r : Reg, list.getLsbD r.toNat = true → r ≠ 15 →
      t.reg 4 r = s.memRead .data (slotOf false true (s.reg 4 rn) list r) .word) ∧
    (list.getLsbD rn.toNat = false → t.reg 4 rn = s.reg 4 rn + BitVec.ofNat 32 (4 * listCount list)) ∧
    FrameRegs (physReg s.cpsr.mode rn :: listRegs s.cpsr.mode list) s t := by
  intro t
  obtain ⟨hloaded, hbase, hregs, ht⟩ := ldmRegs_spec s false true true rn list hn hl
  rw [s.reg_eq_reg hn 8 4] at hloaded hbase
  have hmode : t.cpsr.mode = s.cpsr.mode := congrArg (·.cpsr.mode) ht
  have hreg {r : Reg} (hr : r ≠ 15) : t.reg 4 r = (s.ldmRegs false true true rn list).peek (physReg s.cpsr.mode r) := by
    rw [State.reg_of_ne _ _ hr, hmode]
    rfl
  refine ⟨fun r hr hr15 => (hreg hr15).trans (hloaded r hr hr15), fun h => (hreg hn).trans (hbase rfl h),
    frameRegs_setPc (fun q hq => hregs q fun h => hq ?_) ht a⟩
  exact (List.perm_append_singleton _ _).subset h

/-- The loads of a block leave the pc, so the advance that ends them is from the address of the instruction. -/
theorem State.ldmRegs_advance (s : State) (p u w : Bool) {rn : Reg} (hn : rn ≠ 15) {list : BitVec 16} (hl : list ≠ 0) (n : Word) :
    (s.ldmRegs p u w rn list).advance n = (s.ldmRegs p u w rn list).setPc (s.pc + n) := by
  obtain ⟨-, -, -, ht⟩ := ldmRegs_spec s p u w rn list hn hl
  have hpc : (s.ldmRegs p u w rn list).pc = s.pc := by rw [ht]
  rw [State.advance, hpc]

/-! ### PUSH and POP (45 R930, R931) -/

/-- PUSH stores where the STM below SP with writeback does, its registers read in Thumb state. -/
theorem exec_tPush (s : State) {r : Bool} {rlist : BitVec 8} {list : BitVec 16} (hlist : pushList r rlist = list) (hl : list ≠ 0) :
    exec (.tPush r rlist) s = s.storeWords ((s.blockSlots true false 13 list).map fun x => (x.2, s.reg 4 x.1)) fun s1 =>
      .next ((s1.setReg 13 (s.reg 4 13 - BitVec.ofNat 32 (4 * listCount list))).advance 2) := by
  subst hlist
  rw [← s.slots_eq_blockSlots true false (by decide) hl, ← listSize_eq]
  exact refuseIf_not (beq_false_of_ne hl) _ _

/-- POP is the LDM from SP up with writeback, whose list never names SP; R = 1 branches to the word of R15's slot. -/
theorem exec_tPop (s : State) {r : Bool} {rlist : BitVec 8} {list : BitVec 16} (hlist : popList r rlist = list) (hl : list ≠ 0) :
    exec (.tPop r rlist) s = .next ((s.ldmRegs false true true 13 list).setPc (if r then
      s.memRead .data (slotOf false true (s.reg 4 13) list 15) .word &&& 0xFFFFFFFE else s.pc + 2)) := by
  subst hlist
  have hsp : (regsOf (popList r rlist)).contains 13 = false := by
    rw [← Bool.not_eq_true, List.contains_iff_mem, mem_regsOf, Bool.not_eq_true]
    exact getLsbD_popList_sp r rlist
  have hregs : s.popRegs (popList r rlist) = s.ldmRegs false true true 13 (popList r rlist) := by
    rw [s.ldmRegs_up (by decide) hl, State.ldmWriteback, hsp]
    rfl
  have hslots : slots (regsOf (popList r rlist)) (s.reg 4 13) = s.blockSlots false true 13 (popList r rlist) :=
    s.slots_eq_blockSlots false true (by decide) hl
  refine (refuseIf_not (beq_false_of_ne hl) _ _).trans ?_
  rw [hslots, hregs, s.blockSlots_ne false true 13 hl, loadedPc_spec, getLsbD_popList_pc]
  cases r with
  | false => exact congrArg Host.Outcome.next (s.ldmRegs_advance false true true (rn := 13) (by decide) hl 2)
  | true => rfl

/-- Settles O58: PUSH by everything a Thumb block store can do, POP by what the LDM it is leaves. -/
theorem thumbStack : Obligations.ThumbStack := by
  unfold Obligations.ThumbStack
  intro r rlist s push ws pop slot
  have hpush : push = 0 ↔ r = false ∧ rlist = 0 := list_with_bit_eq_zero r rlist (by decide)
  have hpop : pop = 0 ↔ r = false ∧ rlist = 0 := list_with_bit_eq_zero r rlist (by decide)
  refine ⟨fun hr h0 => ⟨refuseIf_of (beq_iff_eq.2 (hpush.2 ⟨hr, h0⟩)) _ _, refuseIf_of (beq_iff_eq.2 (hpop.2 ⟨hr, h0⟩)) _ _⟩,
    fun hlist => ?_⟩
  have hl : push ≠ 0 := fun h => hlist (hpush.1 h).1 (hpush.1 h).2
  have hl' : pop ≠ 0 := fun h => hlist (hpop.1 h).1 (hpop.1 h).2
  have hwords : alignWords ((s.blockSlots true false 13 push).map fun x => (x.2, s.reg 4 x.1)) = ws :=
    s.alignWords_blockSlots true false 13 hl (s.reg 4)
  obtain ⟨hloaded, hsp, hframe⟩ := s.ldmRegs_up_spec (rn := 13) (by decide) hl' (if r then
    s.memRead .data (slot 15) .word &&& 0xFFFFFFFE else s.pc + 2)
  rw [exec_tPush s rfl hl, ← hwords]
  refine and_assoc.1 ⟨s.storeWords_setReg_spec _ (by decide) _, _, exec_tPop s rfl hl', fun q hq => hloaded (lo q) ?_ (lo_ne_pc q),
    rfl, hsp (getLsbD_popList_sp r rlist), hframe⟩
  rw [BitVec.getLsbD_or, getLsbD_lo, hq, Bool.true_or]

/-! ### STMIA and LDMIA (45 R932, R933) -/

/-- STMIA with a list that is not empty, its slots and values those of the STM from the base up with writeback. -/
theorem exec_tStmia (s : State) (rb : LoReg) {rlist : BitVec 8} {list : BitVec 16} (hlist : loList rlist = list) (hl : list ≠ 0) :
    exec (.tStmia rb rlist) s = s.storeWords ((s.blockSlots false true (lo rb) list).map fun x => (x.2, s.stmValue true (lo rb)
        (regsOf list) (s.reg 4 (lo rb) + BitVec.ofNat 32 (4 * listCount list)) x.1)) fun s1 =>
      .next ((s1.setReg (lo rb) (s.reg 4 (lo rb) + BitVec.ofNat 32 (4 * listCount list))).advance 2) := by
  subst hlist
  have hne : rlist ≠ 0 := (setWidth_eq_zero_iff rlist).not.1 hl
  rw [← s.slots_eq_blockSlots false true (lo_ne_pc rb) hl, ← listSize_eq]
  exact refuseIf_not (beq_false_of_ne hne) _ _

/-- The words STMIA stores in the terms of the statement: its list names low registers only. -/
theorem alignWords_tStmia (s : State) (rb : LoReg) {rlist : BitVec 8} (hl : rlist.setWidth 16 ≠ (0 : BitVec 16)) (back : Word) :
    alignWords ((s.blockSlots false true (lo rb) (rlist.setWidth 16)).map fun x =>
        (x.2, s.stmValue true (lo rb) (regsOf (rlist.setWidth 16)) back x.1)) =
      blockWords (slotOf false true (s.reg 4 (lo rb)) (rlist.setWidth 16))
        (fun r => if r = lo rb ∧ rankIn (rlist.setWidth 16) r ≠ 0 then back else s.reg 4 r) (rlist.setWidth 16) := by
  rw [s.alignWords_blockSlots false true (lo rb) hl, s.reg_eq_reg (lo_ne_pc rb) 8 4]
  refine blockWords_congr _ fun r hr => ?_
  have hr15 : r ≠ 15 := by
    rintro rfl
    simp at hr
  rw [s.stmValue_eq true (lo_ne_pc rb) back hr, if_neg hr15, s.reg_eq_reg hr15 8 4]
  simp only [true_and]

/-- LDMIA with a list that is not empty is the LDM from the base up with writeback, but for its length. -/
theorem exec_tLdmia (s : State) (rb : LoReg) {rlist : BitVec 8} {list : BitVec 16} (hlist : loList rlist = list) (hl : list ≠ 0) :
    exec (.tLdmia rb rlist) s = .next ((s.ldmRegs false true true (lo rb) list).setPc (s.pc + 2)) := by
  subst hlist
  have hne : rlist ≠ 0 := (setWidth_eq_zero_iff rlist).not.1 hl
  rw [← s.ldmRegs_advance false true true (lo_ne_pc rb) hl, s.ldmRegs_up (lo_ne_pc rb) hl]
  exact refuseIf_not (beq_false_of_ne hne) _ _

/-- Settles O59: STMIA by everything a Thumb block store can do, LDMIA by what the LDM it is leaves. -/
theorem thumbBlocks : Obligations.ThumbBlocks := by
  unfold Obligations.ThumbBlocks
  intro rb rlist s list b back ws
  refine ⟨fun h => ⟨refuseIf_of (beq_iff_eq.2 h) _ _, refuseIf_of (beq_iff_eq.2 h) _ _⟩, fun h => ?_⟩
  have hl : list ≠ 0 := (setWidth_eq_zero_iff rlist).not.2 h
  have hwords : alignWords ((s.blockSlots false true (lo rb) list).map fun x =>
      (x.2, s.stmValue true (lo rb) (regsOf list) back x.1)) = ws := alignWords_tStmia s rb hl back
  obtain ⟨hloaded, hbase, hframe⟩ := s.ldmRegs_up_spec (lo_ne_pc rb) hl (s.pc + 2)
  rw [exec_tStmia s rb rfl hl, ← hwords]
  exact and_assoc.1 ⟨s.storeWords_setReg_spec _ (lo_ne_pc rb) _, _, exec_tLdmia s rb rfl hl, rfl,
    fun q hq => hloaded (lo q) ((getLsbD_lo rlist q).trans hq) (lo_ne_pc q), fun hb => hbase ((getLsbD_lo rlist rb).trans hb), hframe⟩

end Sys2Proof.Machine
end

section
/-! SUPPORT. Thumb branches (46 R1000, R1020, R1040, R1041): the signed offset in exact arithmetic, then each form by where it goes
and the one register it writes. -/

namespace Sys2Proof.Machine

open Sys2Proof

/-- The offset of the branches is twice the signed field (46 R1000, R1020). -/
theorem thumbBranchOffset_eq_ofInt {n : Nat} (x : BitVec n) : x.signExtend 32 <<< 1 = BitVec.ofInt 32 (x.toInt * 2) :=
  signExtend_shiftLeft_eq_ofInt x 1

/-- The offset of the first half of BL is 4096 times the signed field (46 R1040). -/
theorem blHighOffset_eq_ofInt {n : Nat} (x : BitVec n) : x.signExtend 32 <<< 12 = BitVec.ofInt 32 (x.toInt * 4096) :=
  signExtend_shiftLeft_eq_ofInt x 12

/-- Where a conditional branch that passes goes (46 R1000). -/
theorem exec_tBcond_pass {c : Cond} {s : State} (hc : Cond.passes c s.cpsr = true) (soffset8 : BitVec 8) :
    exec (.tBcond c soffset8) s = .next (s.branchThumb (s.pc + 4 + BitVec.ofInt 32 (soffset8.toInt * 2))) := by
  rw [← thumbBranchOffset_eq_ofInt]
  exact if_pos hc

/-- A conditional branch that fails is the sequential advance alone (46 R1000). -/
theorem exec_tBcond_fail {c : Cond} {s : State} (hc : Cond.passes c s.cpsr = false) (soffset8 : BitVec 8) :
    exec (.tBcond c soffset8) s = .next (s.advance 2) := if_neg (ne_true_of_eq_false hc)

/-- Where B goes (46 R1020). -/
theorem exec_tB (offset11 : BitVec 11) (s : State) :
    exec (.tB offset11) s = .next (s.branchThumb (s.pc + 4 + BitVec.ofInt 32 (offset11.toInt * 2))) := by
  rw [← thumbBranchOffset_eq_ofInt]
  rfl

/-- The first half of BL is one register write and the sequential advance (46 R1040). -/
theorem exec_tBlHi (offset11 : BitVec 11) (s : State) : exec (.tBlHi offset11) s =
    .next ((s.setReg 14 (s.pc + 4 + BitVec.ofInt 32 (offset11.toInt * 4096))).advance 2) := by
  rw [← blHighOffset_eq_ofInt]
  rfl

/-- The second half of BL is one register write and a branch from what R14 held before it (46 R1041). -/
theorem exec_tBlLo (offset11 : BitVec 11) (s : State) : exec (.tBlLo offset11) s =
    .next ((s.setReg 14 ((s.pc + 2) ||| 1)).branchThumb (s.reg 4 14 + offset11.setWidth 32 * 2)) := by
  rw [← shl1]
  rfl

/-- Settles O60: the branches by the state they go to, the halves of BL by the one register each writes. -/
theorem thumbBranches : Obligations.ThumbBranches := by
  unfold Obligations.ThumbBranches
  intro c soffset8 offset11 s
  refine ⟨fun hc => exec_tBcond_pass hc soffset8, fun hc => exec_tBcond_fail hc soffset8, exec_tB offset11 s, ?firstHalf,
    ?secondHalf⟩
  case firstHalf => exact ⟨_, exec_tBlHi offset11 s, s.setReg_advance_spec (by decide) _⟩
  case secondHalf =>
    exact ⟨_, exec_tBlLo offset11 s, rfl, reg_setReg s 14 (by decide) _ _ s.cpsr rfl 4, frameRegs_setReg s 14 _ _⟩

end Sys2Proof.Machine
end

section
/-! SUPPORT. Privilege and isolation (60_exceptions R1215, R1216, R1246; 20_memory R206, R207): what each shape of an instruction's
outcome keeps of the control bits, and that no store reaches the boot code, the cartridge or unmapped addresses. -/

namespace Sys2Proof.Machine

open Sys2Proof

/-! ### Control bits (10_state R111, 60 R1215, R1216) -/

/-- In User mode an instruction keeps mode, masks and SPSRs, or is an exception: a return is refused there for want of an SPSR, and
MSR writes the flags only (41 R521). -/
theorem Outcome.user {i : Instr} {s t : State} (h : Outcome i s t) (husr : s.cpsr.mode = .usr) :
    (t.cpsr.mode = .usr ∧ t.cpsr.i = s.cpsr.i ∧ t.cpsr.f = s.cpsr.f ∧ t.spsr = s.spsr) ∨
      ∃ link, t = s.takeException .undefined link ∨ t = s.takeException .softwareInterrupt link := by
  have same : SameControl s t → t.spsr = s.spsr →
      t.cpsr.mode = .usr ∧ t.cpsr.i = s.cpsr.i ∧ t.cpsr.f = s.cpsr.f ∧ t.spsr = s.spsr :=
    fun ⟨hmode, hi, hf, _⟩ hspsr => ⟨hmode.trans husr, hi, hf, hspsr⟩
  cases h with
  | kept hkept => exact .inl (same hkept.control hkept.spsr)
  | stored _ hstored => exact .inl (same hstored.control hstored.spsr)
  | exchanged v => exact .inl ⟨husr, rfl, rfl, rfl⟩
  | took kind link _ hkind =>
    rcases hkind with rfl | rfl
    · exact .inr ⟨link, .inl rfl⟩
    · exact .inr ⟨link, .inr rfl⟩
  | returned u k c v _ _ hspsr => rw [husr] at hspsr; cases hspsr
  | psr _ hpsr =>
    obtain ⟨hcontrol, hspsr⟩ := hpsr.user husr
    exact .inl (same hcontrol hspsr)

/-- Settles O10: by the shape of the instruction's outcome. -/
theorem userModeLeavesByException : Obligations.UserModeLeavesByException := by
  unfold Obligations.UserModeLeavesByException
  exact fun i s t husr hexec => (exec_outcome i s t hexec).user husr

/-- Outside the four classes an instruction's outcome has a shape that keeps the control bits. -/
theorem Outcome.sameControl {i : Instr} {s t : State} (h : Outcome i s t) (hexchanges : i.exchanges = false)
    (hpsr : i.writesPsr = false) (htraps : i.traps = false) (hrestores : i.restores = false) :
    SameControl s t ∧ t.spsr = s.spsr := by
  cases h with
  | kept hkept => exact ⟨hkept.control, hkept.spsr⟩
  | stored _ hstored => exact ⟨hstored.control, hstored.spsr⟩
  | exchanged v h => rw [hexchanges] at h; cases h
  | took kind link h => rw [htraps] at h; cases h
  | returned u k c v h => rw [hrestores] at h; cases h
  | psr h => rw [hpsr] at h; cases h

/-- Settles O11: by the shape of the instruction's outcome. -/
theorem controlBitsKept : Obligations.ControlBitsKept := by
  unfold Obligations.ControlBitsKept
  exact fun i s t hexchanges hpsr htraps hrestores hexec =>
    (exec_outcome i s t hexec).sameControl hexchanges hpsr htraps hrestores

/-! ### Stores and the regions that ignore them (20 R204, R206, R207) -/

/-- Every byte of a region that takes no write reads as before. -/
def SameReadOnly (s t : State) : Prop := ∀ acc a, (decodeAddr s.romLen a).1.ReadOnly → t.readByte acc a = s.readByte acc a

theorem SameReadOnly.trans {s t u : State} (h : SameReadOnly s t) (h' : SameReadOnly t u) (hlen : t.romLen = s.romLen) :
    SameReadOnly s u :=
  fun acc a ha => (h' acc a (hlen ▸ ha)).trans (h acc a ha)

theorem SameMemory.sameReadOnly {s t : State} (h : SameMemory s t) : SameReadOnly s t := fun acc a _ => h.2 acc a

/-- A byte stored goes to another place, or is ignored. -/
theorem sameReadOnly_writePlain (s : State) (b : Word) (x : Byte) : SameReadOnly s (s.writePlain b x) := by
  intro acc a ha
  by_cases hplace : decodeAddr s.romLen a = decodeAddr s.romLen b
  · rw [writePlain_readOnly s (hplace ▸ ha)]
  · exact readByte_writePlain s acc b a x hplace

/-- The places of a byte store lie in one region. -/
theorem storePlaces_byte_region {n : Nat} {b : Word} {p : Region × Nat} (h : p ∈ storePlaces n .byte b) :
    p.1 = (decodeAddr n b).1 := by
  have pair : ∀ {r : Region} {o o' : Nat}, p ∈ [(r, o), (r, o')] → p.1 = r := by
    intro r o o' h
    rcases List.mem_pair.1 h with rfl | rfl <;> rfl
  simp only [storePlaces] at h
  split at h
  · rename_i hpal; rw [hpal, pair h]
  · rename_i hvram; rw [hvram, pair h]
  · rw [List.mem_singleton.1 h]

theorem sameReadOnly_writeByte (s : State) (b : Word) (x : Byte) : SameReadOnly s (s.writeByte b x) := by
  intro acc a ha
  by_cases hplace : decodeAddr s.romLen a ∈ storePlaces s.romLen .byte b
  · rw [writeByte_readOnly s (storePlaces_byte_region hplace ▸ ha)]
  · exact readByte_writeByte s acc b a x hplace

theorem sameReadOnly_memWrite (s : State) (b : Word) (w : Width) (v : Word) : SameReadOnly s (s.memWrite b w v) := by
  have next : ∀ {t : State} (c : Word) (x : Byte), t.romLen = s.romLen → SameReadOnly s t → SameReadOnly s (t.writePlain c x) :=
    fun c x hlen h => h.trans (sameReadOnly_writePlain _ c x) hlen
  have hlow := sameReadOnly_writePlain s b (getByte v 0)
  cases w with
  | byte => exact sameReadOnly_writeByte s b _
  | half => exact next _ _ (by simp) hlow
  | word => exact next _ _ (by simp) (next _ _ (by simp) (next _ _ (by simp) hlow))

theorem sameReadOnly_writeWords (ws : List (Word × Word)) : ∀ s : State, SameReadOnly s (s.writeWords ws) := by
  induction ws with
  | nil => exact fun s acc a _ => rfl
  | cons x ws ih => exact fun s => (sameReadOnly_memWrite s _ .word x.2).trans (ih _) (by simp)

/-! ### The stores, form by form -/

/-- A conditional instruction that is not refused keeps memory or has its effect. -/
theorem SameReadOnly.ofPassed {s t : State} {c : Cond} {k : Result} (h : s.whenPassed c k = .next t)
    (hk : k = .next t → SameReadOnly s t) : SameReadOnly s t := by
  rcases State.whenPassed_next h with rfl | h
  · exact fun acc a _ => rfl
  · exact hk h

/-- A store followed by what keeps memory. -/
theorem SameReadOnly.ofStore {s t : State} {w : Width} {a v : Word} {k : State → Result} (h : s.store w a v k = .next t)
    (hk : ∀ u, k u = .next t → SameMemory u t) : SameReadOnly s t :=
  (sameReadOnly_memWrite s _ w v).trans (hk _ (State.store_next h).2).sameReadOnly (by simp)

/-- A block store followed by what keeps memory. -/
theorem SameReadOnly.ofStoreWords {s t : State} {ws : List (Word × Word)} {k : State → Result} (h : s.storeWords ws k = .next t)
    (hk : ∀ u, k u = .next t → SameMemory u t) : SameReadOnly s t :=
  (sameReadOnly_writeWords ws s).trans (hk _ (State.storeWords_next h)).sameReadOnly (by simp)

/-- The registers and the pc are no part of memory. -/
theorem sameMemory_ofNext {u u' t : State} (h : (.next u' : Result) = .next t)
    (hu : u' = { u with regs := u'.regs, pc := u'.pc }) : SameMemory u t := by
  injection h with h
  subst h
  rw [hu]
  exact sameMemory_of rfl rfl rfl rfl

theorem SameReadOnly.ofStoreReg {s t : State} {w : Width} {ix : Index} {u : Bool} {rn rd : Reg} {offset : Word}
    (h : s.storeReg w ix u rn rd offset = .next t) : SameReadOnly s t :=
  .ofStore h fun _ h => sameMemory_ofNext h (by cases ix <;> rfl)

theorem SameReadOnly.ofStoreImm {s t : State} {c : Cond} {w : Width} {ix : Index} {u : Bool} {rn rd : Reg} {imm12 : BitVec 12}
    (h : s.storeImm c w ix u rn rd imm12 = .next t) : SameReadOnly s t :=
  .ofPassed h fun h => .ofStoreReg (refuseIf_next (refuseIf_next h).2).2

theorem SameReadOnly.ofStoreShift {s t : State} {c : Cond} {w : Width} {ix : Index} {u : Bool} {rn rd : Reg} {amt : BitVec 5}
    {sh : ShiftKind} {rm : Reg} (h : s.storeShift c w ix u rn rd amt sh rm = .next t) : SameReadOnly s t :=
  .ofPassed h fun h => .ofStoreReg (refuseIf_next4 h)

theorem SameReadOnly.ofSwap {s t : State} {c : Cond} {k : LoadKind} {w : Width} {rn rd rm : Reg}
    (h : s.swap c k w rn rd rm = .next t) : SameReadOnly s t :=
  .ofPassed h fun h => .ofStore (refuseIf_next h).2 fun _ h => sameMemory_ofNext h rfl

theorem SameReadOnly.ofThumbStore {s t : State} {w : Width} {rd : LoReg} {a : Word} (h : s.thumbStore w rd a = .next t) :
    SameReadOnly s t :=
  .ofStore h fun _ h => sameMemory_ofNext h rfl

/-- No store reaches a region that takes no write. -/
theorem sameReadOnly_exec_store {i : Instr} {s t : State} (hi : i.stores = true) (h : exec i s = .next t) : SameReadOnly s t := by
  cases i with
  | strImmPre | strImmPost | strtImm | strbImmPre | strbImmPost | strbtImm => exact .ofStoreImm h
  | strRegPre | strRegPost | strtReg | strbRegPre | strbRegPost | strbtReg => exact .ofStoreShift h
  | strhImm => exact .ofPassed h fun h => .ofStoreReg (refuseIf_next (refuseIf_next (refuseIf_next h).2).2).2
  | strhReg => exact .ofPassed h fun h => .ofStoreReg (refuseIf_next6 h)
  | swp | swpb => exact .ofSwap h
  | stm c p u w =>
    refine .ofPassed h fun h => .ofStoreWords (refuseIf_next h).2 fun _ h => sameMemory_ofNext h ?_
    cases w <;> rfl
  | stmUser => exact .ofPassed h fun h => .ofStoreWords (refuseIf_next4 h) fun _ h => sameMemory_ofNext h rfl
  | tStrReg | tStrbReg | tStrhReg | tStrImm | tStrbImm | tStrhImm | tStrSp => exact .ofThumbStore h
  | tPush | tStmia => exact .ofStoreWords (refuseIf_next h).2 fun _ h => sameMemory_ofNext h rfl
  | _ => exact Bool.noConfusion hi

/-- Below EWRAM and from the cartridge's base on no address takes a write (20 R203). -/
theorem decodeAddr_readOnly (n : Nat) {a : Word} (h : a.toNat < 0x02000000 ∨ 0x08000000 ≤ a.toNat) :
    (decodeAddr n a).1.ReadOnly := by
  rw [decodeAddr_nat]
  split
  case h_2 | h_3 | h_4 | h_5 | h_6 | h_7 => omega
  case h_14 => simp [Region.ReadOnly]
  all_goals split <;> simp [Region.ReadOnly]

/-- Settles O13: what lies outside by the shape of the outcome; the boot code, the cartridge and the unmapped addresses because
only a store writes and no store reaches them. -/
theorem outsideUntouched : Obligations.OutsideUntouched := by
  unfold Obligations.OutsideUntouched
  intro i s t hexec
  refine ⟨(exec_outcome i s t hexec).sameOutside, fun acc a ha => ?_⟩
  cases hstores : i.stores with
  | false => exact (onlyStoresWrite i s t hstores hexec).1.2 acc a
  | true => exact sameReadOnly_exec_store hstores hexec acc a (decodeAddr_readOnly s.romLen ha)

end Sys2Proof.Machine
end

section
/-! SUPPORT. The tick (60_exceptions R1200 to R1213, R1230, R1231, R1242, R1270): the halt test, interrupt sampling, the exception
table, the end of a tick, and several ticks. -/

namespace Sys2Proof.Machine

open Sys2Proof

/-! ### The halt test (60 R1230) -/

/-- The halt test leaves a machine running that runs, or whose halt an enabled request ends. -/
theorem State.wake_halt_iff (s : State) : s.wake.halt = .running ↔ s.halt = .running ∨
    (s.halt = .halt ∧ s.io.requests &&& 0x3FFF ≠ 0) ∨ (s.halt = .stop ∧ s.io.requests &&& 0x3080 ≠ 0) := by
  unfold State.wake
  cases hhalt : s.halt with
  | running => simp [hhalt]
  | halt | stop => dsimp only; split <;> simp_all

theorem State.wake_eq (s : State) : s.wake = { s with halt := s.wake.halt } := by
  rcases s.wake_cases with e | e <;> rw [e]

/-- A machine that the halt test leaves halted is as it was. -/
theorem State.wake_halted {s : State} (h : s.wake.halt ≠ .running) : s.wake = s := by
  rcases s.wake_cases with e | e
  · exact e
  · exact absurd (congrArg State.halt e) h

/-- What a tick does with a machine that stays halted. -/
theorem step_halted {s : State} (h : s.wake.halt ≠ .running) : step s = .next s.checkBreakpoint := by
  rw [step, if_neg h, State.wake_halted h]

/-- What a tick does with a machine that the halt test leaves running. -/
theorem step_running {s : State} (h : s.wake.halt = .running) : step s = runTick s.wake.sampleInterrupts := if_pos h

/-- The breakpoint check raises the stopped flag (60 R1242). -/
theorem State.checkBreakpoint_eq (s : State) :
    s.checkBreakpoint = { s with debugger := { s.debugger with stopped := s.debugger.stopped || s.atBreakpoint } } := by
  unfold State.checkBreakpoint
  cases s.atBreakpoint <;> simp

theorem State.atBreakpoint_iff (s : State) : s.atBreakpoint = true ↔
    s.debugger.enabled = true ∧ s.pc ∈ if s.cpsr.t then s.debugger.thumbBps else s.debugger.armBps := by
  unfold State.atBreakpoint
  cases s.cpsr.t <;> simp

/-- Settles O5: the two masks by their bits, and a tick of a machine that stays halted as the breakpoint check alone. -/
theorem haltedTick : Obligations.HaltedTick := by
  unfold Obligations.HaltedTick
  intro s
  refine ⟨?_, s.wake_eq, fun h => ⟨_, (step_halted h).trans (by rw [State.checkBreakpoint_eq]), ?_⟩⟩
  · rw [s.wake_halt_iff, requests_irq, requests_stop]
  · rw [Bool.or_eq_true, s.atBreakpoint_iff]

/-! ### Exceptions and interrupt sampling (60 R1200, R1201, R1211, R1213) -/

/-- Settles O7: what taking an exception leaves, row by row of the table. -/
theorem exceptionTable : Obligations.ExceptionTable := by
  unfold Obligations.ExceptionTable
  exact fun s link => ⟨tookException s .reset link, tookException s .dataAbort link, tookException s .fiq link,
    tookException s .irq link, tookException s .prefetchAbort link, tookException s .undefined link,
    tookException s .softwareInterrupt link⟩

/-- The IRQ line, request by request (60 R1211). -/
theorem State.irqLine_iff (s : State) : s.irqLine = true ↔
    s.io.ime = true ∧ ∃ n : Fin 14, s.io.ieReg.getLsbD n = true ∧ s.io.ifReg.getLsbD n = true := by
  rw [State.irqLine, Bool.and_eq_true, bne_iff_ne, requests_irq]

theorem State.sampleInterrupts_fiq {s : State} (hline : s.fiqLine = true) (hmask : s.cpsr.f = false) :
    s.sampleInterrupts = s.takeException .fiq (s.pc + 4) := by
  rw [State.sampleInterrupts, hline, hmask]
  rfl

/-- FIQ comes before IRQ (60 R1213). -/
theorem State.sampleInterrupts_irq {s : State} (hfiq : ¬ (s.fiqLine = true ∧ s.cpsr.f = false)) (hline : s.irqLine = true)
    (hmask : s.cpsr.i = false) : s.sampleInterrupts = s.takeException .irq (s.pc + 4) := by
  rw [State.sampleInterrupts, if_neg (by simpa using hfiq), hline, hmask]
  rfl

/-- Settles O6: interrupt sampling after the halt test, which keeps all that sampling reads. -/
theorem interruptSampling : Obligations.InterruptSampling := by
  unfold Obligations.InterruptSampling
  intro s hrun
  have hirq : s.wake.irqLine = true ↔ _ := s.wake.irqLine_iff
  simp only [State.wake_io] at hirq
  refine ⟨_, step_running hrun, fun ⟨hline, hmask⟩ => ?_, fun ⟨hfiq, hmask, hirqs⟩ => ?_, fun ⟨hfiq, hnoIrq⟩ => ?_⟩
  · rw [State.sampleInterrupts_fiq (by simpa using hline) (by simpa using hmask), State.wake_pc]
    exact tookException s.wake .fiq (s.pc + 4)
  · rw [State.sampleInterrupts_irq (by simpa using hfiq) (hirq.2 hirqs) (by simpa using hmask), State.wake_pc]
    exact tookException s.wake .irq (s.pc + 4)
  · refine State.sampleInterrupts_none (fun hline => ?_) fun hline => ?_
    · simpa using fun hmask => hfiq ⟨by simpa using hline, hmask⟩
    · simpa using fun hmask => hnoIrq ⟨hmask, hirq.1 hline⟩

/-! ### The instruction of a tick (60 R1270) -/

/-- The halt test does not touch what is fetched. -/
theorem State.fetch_wake (s : State) : s.wake.fetch = s.fetch := by
  have hmem : SameMemory s s.wake := sameMemory_of s.wake_mem s.wake_io s.wake_romLen s.wake_draws
  rw [State.fetch, State.fetch, s.wake_cpsr, s.wake_pc, hmem.memRead, hmem.memRead]

/-- A tick in which no interrupt is taken. -/
theorem step_uninterrupted {s : State} (hrun : s.wake.halt = .running) (hfiq : s.fiqLine = true → s.cpsr.f = true)
    (hirq : s.irqLine = true → s.cpsr.i = true) : step s = runTick s.wake := by
  have hnone : s.wake.sampleInterrupts = s.wake :=
    State.sampleInterrupts_none (by simpa using hfiq) (by simpa [State.irqLine] using hirq)
  rw [step_running hrun, hnone]

theorem runTick_next {s t : State} (h : exec (decode s.fetch) s = .next t) : runTick s = .next (t.retire s.pc) := by
  rw [runTick, h]

theorem runTick_refused {s : State} {r : Refusal} (h : exec (decode s.fetch) s = .refused r) : runTick s = .refused r := by
  rw [runTick, h]

/-- Settles O4: the bytes at pc fix the fetched instruction, and the end of the tick is what the statement says beside it. -/
theorem stepRunsDecoded : Obligations.StepRunsDecoded := by
  unfold Obligations.StepRunsDecoded
  intro s i hrun hfiq hirq hbytes
  have hdecode : decode s.wake.fetch = i := by
    rw [State.decodeBytes_fetch] at hbytes
    injection hbytes with h
    injection h with h
    rw [State.fetch_wake, h]
  rw [step_uninterrupted hrun hfiq hirq]
  refine ⟨fun t ht => ?_, fun r hr => runTick_refused (hdecode ▸ hr)⟩
  rw [runTick_next (hdecode ▸ ht), State.wake_pc, State.retire_eq]
  rfl

/-! ### Several ticks (60 R1231) -/

/-- A second breakpoint check finds the flag as the first left it. -/
theorem State.checkBreakpoint_checkBreakpoint (s : State) : s.checkBreakpoint.checkBreakpoint = s.checkBreakpoint := by
  have h : s.checkBreakpoint.atBreakpoint = s.atBreakpoint := by rw [State.checkBreakpoint_eq]; rfl
  rw [State.checkBreakpoint_eq, h, s.checkBreakpoint_eq, Bool.or_assoc, Bool.or_self]

/-- Every tick ends with the breakpoint check. -/
theorem checkBreakpoint_of_step {s t : State} (h : step s = .next t) : t.checkBreakpoint = t := by
  rcases step_cases h with ⟨_, rfl⟩ | ⟨_, u, _, rfl⟩
  · exact State.checkBreakpoint_checkBreakpoint _
  · exact State.checkBreakpoint_checkBreakpoint _

/-- A machine that stays halted, its breakpoint checked, does not change by ticks. -/
theorem ticks_halted {s : State} (hhalt : s.wake.halt ≠ .running) (hcheck : s.checkBreakpoint = s) (n : Nat) :
    ticks n s = .next s := by
  induction n with
  | zero => rfl
  | succ n ih => rw [ticks, step_halted hhalt, hcheck]; exact ih

/-- Settles O22: by induction on n; where tick_multiple ends early, the ticks left change nothing. -/
theorem tickMultipleIsTicks : Obligations.TickMultipleIsTicks := by
  unfold Obligations.TickMultipleIsTicks
  intro n
  induction n with
  | zero => exact fun s t h _ => h
  | succ n ih =>
    intro s t h hend
    rw [tickMultiple] at h
    rw [ticks]
    cases hstep : step s with
    | fault f => cases f
    | refused r => rw [hstep] at h; cases h
    | next u =>
      simp only [hstep] at h ⊢
      split at h
      · exact ih u t h hend
      · rename_i hhalted
        obtain rfl : u = t := by injection h
        exact ticks_halted (fun hwake => hhalted (hend hwake)) (checkBreakpoint_of_step hstep) n

end Sys2Proof.Machine
end

section
/-! SUPPORT. Reset and boot (70 R1300 to R1302; 10_state R133, R134; 20_memory R231): the contents of memory after reset(), and the
invariant at power-on. -/

namespace Sys2Proof.Machine

open Sys2Proof

/-! ### The invariant at power-on (R1300, 10_state R105) -/

/-- Power-on leaves the pc at 0, in ARM state, and no history. -/
theorem inv_powerOnWith (p : Params) (bios rom : Memory) (romLen epoch : Nat)
    (hmem : (powerOnWith p bios rom romLen epoch).mem.wf = true) : (powerOnWith p bios rom romLen epoch).Inv := by
  refine ⟨hmem, ?_, ?_⟩ <;> unfold powerOnWith <;> split
  · exact State.pcAligned_of (v := 0) rfl
  · exact State.pcAligned_of (v := 0) rfl
  · exact Nat.zero_le _
  · exact Nat.zero_le _

/-- Settles O9: memory is in canonical form by how power-on joins it from BIOS, RAM and cartridge. -/
theorem invariantAtReset : Obligations.InvariantAtReset := by
  unfold Obligations.InvariantAtReset
  exact ⟨⟨Memory.wf_nil, State.pcAligned_of (v := 0) rfl, Nat.zero_le _⟩,
    fun p bios epoch => inv_powerOnWith _ _ _ _ _ (wf_construct p bios epoch),
    fun s hmem => inv_powerOnWith _ _ _ _ _ (wf_resetOp s hmem)⟩

/-! ### Memory after reset() (R1300, 20 R231) -/

/-- The cells of the BIOS, which reset() keeps. -/
def Memory.biosCells (m : Memory) : Memory := m.filter fun c => decide (c.1 < 0x4000)

/-- The cells of the cartridge, which reset() keeps. -/
def Memory.romCells (m : Memory) : Memory := m.filter fun c => decide (0x08000000 ≤ c.1)

theorem Memory.read_biosCells (m : Memory) (k : Nat) : m.biosCells.read k = if k < 0x4000 then m.read k else 0 := by
  simpa [biosCells] using m.read_filter (fun x => decide (x < 0x4000)) k

theorem Memory.read_romCells (m : Memory) (k : Nat) : m.romCells.read k = if 0x08000000 ≤ k then m.read k else 0 := by
  simpa [romCells] using m.read_filter (fun x => decide (0x08000000 ≤ x)) k

theorem Memory.not_mem_biosCells (m : Memory) {k : Nat} (h : 0x4000 ≤ k) : k ∉ m.biosCells.map Prod.fst :=
  m.not_mem_filter (fun x => decide (x < 0x4000)) k (decide_eq_false (Nat.not_lt.2 h))

theorem Memory.not_mem_romCells (m : Memory) {k : Nat} (h : k < 0x08000000) : k ∉ m.romCells.map Prod.fst :=
  m.not_mem_filter (fun x => decide (0x08000000 ≤ x)) k (decide_eq_false (Nat.not_le.2 h))

/-- The cells of memory after reset(): RAM stands between the BIOS and the cartridge, and is empty under
RESET_REG_POLICY = zero. -/
theorem State.resetOp_mem (s : State) : ∃ ram : Memory, s.resetOp.mem = s.mem.biosCells ++ ram ++ s.mem.romCells ∧
    (∀ k, k < 0x02000000 ∨ 0x08000000 ≤ k → k ∉ ram.map Prod.fst) ∧ (s.params.resetRegPolicy = .zero → ram = []) := by
  cases hpolicy : s.params.resetRegPolicy with
  | zero => exact ⟨[], by simp [State.resetOp, powerOnWith, hpolicy, Memory.biosCells, Memory.romCells], by simp, fun _ => rfl⟩
  | unspecified =>
    refine ⟨ramRanges.flatMap (freeCells s.draws), ?_, not_mem_ramCells s.draws, nofun⟩
    simp only [State.resetOp, powerOnWith, hpolicy]
    rfl

/-- BIOS and cartridge keep their cells. -/
theorem State.read_resetOp_kept (s : State) {k : Nat} (h : k < 0x4000 ∨ 0x08000000 ≤ k) :
    s.resetOp.mem.read k = s.mem.read k := by
  obtain ⟨ram, hmem, hram, -⟩ := s.resetOp_mem
  have hk : k ∉ ram.map Prod.fst := hram k (by omega)
  rw [hmem]
  rcases h with h | h
  · rw [Memory.read_append_left _ _ _ (s.mem.not_mem_romCells (by omega)), Memory.read_append_left _ _ _ hk,
      Memory.read_biosCells, if_pos h]
  · rw [List.append_assoc, Memory.read_append_right _ _ _ (s.mem.not_mem_biosCells (by omega)),
      Memory.read_append_right _ _ _ hk, Memory.read_romCells, if_pos h]

/-- Under RESET_REG_POLICY = zero no cell stands between the BIOS and the cartridge. -/
theorem State.read_resetOp_ram (s : State) (hpolicy : s.params.resetRegPolicy = .zero) {k : Nat} (hlow : 0x4000 ≤ k)
    (hhigh : k < 0x08000000) : s.resetOp.mem.read k = 0 := by
  obtain ⟨ram, hmem, -, hram⟩ := s.resetOp_mem
  rw [hmem, hram hpolicy, List.append_nil, Memory.read_append_left _ _ _ (s.mem.not_mem_romCells hhigh), Memory.read_biosCells,
    if_neg (Nat.not_lt.2 hlow)]

@[simp] theorem State.resetOp_romLen (s : State) : s.resetOp.romLen = s.romLen := by
  unfold State.resetOp powerOnWith; split <;> rfl

theorem State.readByte_resetOp_kept (s : State) (acc : Access) {a : Word}
    (h : (decodeAddr s.romLen a).1 = .rom ∨ (decodeAddr s.romLen a).1 = .bios) :
    s.resetOp.readByte acc a = s.readByte acc a := by
  obtain ⟨hbios, -⟩ := decodeAddr_key s.romLen a
  rw [State.readByte, State.readByte, s.resetOp_romLen]
  rcases hd : decodeAddr s.romLen a with ⟨r, o⟩
  rw [hd] at h hbios
  obtain rfl | rfl : r = .rom ∨ r = .bios := h
  · exact s.read_resetOp_kept (.inr (Nat.le_add_right _ o))
  · exact s.read_resetOp_kept (.inl (by simpa [Region.base] using hbios rfl))

theorem State.readByte_resetOp_ram (s : State) (hpolicy : s.params.resetRegPolicy = .zero) (acc : Access) {a : Word}
    (h : (decodeAddr s.romLen a).1 ∈ [.ewram, .iwram, .pal, .vram, .oam]) : s.resetOp.readByte acc a = 0 := by
  obtain ⟨-, hkey⟩ := decodeAddr_key s.romLen a
  rw [State.readByte, s.resetOp_romLen]
  rcases hd : decodeAddr s.romLen a with ⟨r, o⟩
  rw [hd] at h hkey
  simp only [List.mem_cons, List.not_mem_nil, or_false] at h
  obtain rfl | rfl | rfl | rfl | rfl := h <;>
    exact s.read_resetOp_ram hpolicy (Nat.le_add_right_of_le (by decide)) (hkey nofun nofun)

theorem Cpsr.word_reset : Cpsr.reset.word = 0xD3 := by decide

theorem zeroSpsr_word : ∀ k : Fin 5, (Vector.replicate 5 Psr.zero)[k].word = 0 := by decide

/-- The fields of power-on that RESET_REG_POLICY leaves alone (R1300, 10_state R127, R133, 60 R1247). -/
theorem State.resetOp_fields (s : State) : s.resetOp.cpsr = Cpsr.reset ∧ s.resetOp.pc = 0 ∧ s.resetOp.halt = .running ∧
    s.resetOp.io = Io.reset ∧ s.resetOp.debugger = Debugger.reset ∧ s.resetOp.host = HostSide.reset := by
  unfold State.resetOp powerOnWith
  split <;> exact ⟨rfl, rfl, rfl, rfl, rfl, rfl⟩

/-- Under RESET_REG_POLICY = zero the registers and the SPSRs are 0 (10_state R133). -/
theorem State.resetOp_zero (s : State) (hpolicy : s.params.resetRegPolicy = .zero) :
    s.resetOp.regs = Vector.replicate 30 0 ∧ s.resetOp.spsr = Vector.replicate 5 Psr.zero := by
  simp [State.resetOp, powerOnWith, hpolicy, State.powerOn]

/-- Settles O19: the fields of power-on, and the cells that reset() keeps and clears. -/
theorem resetValues : Obligations.ResetValues := by
  unfold Obligations.ResetValues
  intro s t
  obtain ⟨hcpsr, hpc, hhalt, hio, hdebugger, hhost⟩ := s.resetOp_fields
  refine ⟨(congrArg Cpsr.word hcpsr).trans Cpsr.word_reset, hpc, hhalt, hio, hdebugger, hhost, s.resetOp_romLen,
    fun acc a => s.readByte_resetOp_kept acc, fun hpolicy => ?_⟩
  obtain ⟨hregs, hspsr⟩ := s.resetOp_zero hpolicy
  refine ⟨fun p => ?_, fun k => ?_, fun acc a => s.readByte_resetOp_ram hpolicy acc⟩
  · exact (congrArg (·[p]) hregs).trans (Vector.getElem_replicate _)
  · exact (congrArg (·[k].word) hspsr).trans (zeroSpsr_word k)

/-! ### skip_bios() (R1302) -/

/-- System mode, every other bit 0 (10_state R134). -/
theorem skipBios_word : (⟨false, false, false, false, false, false, false, .sys⟩ : Cpsr).word = 0x1F := by decide

/-- The registers that skip_bios() leaves: R13_usr, R13_irq and R13_svc, and zeros. -/
theorem skipBios_regs : ∀ p : Fin 30,
    ((((Vector.replicate 30 (0 : Word)).set 13 0x03007F00).set 22 0x03007FA0).set 24 0x03007FE0)[p] =
      if p = 13 then 0x03007F00 else if p = 22 then 0x03007FA0 else if p = 24 then 0x03007FE0 else 0 := by decide

/-- Settles O20: the fields of the state that skip_bios() answers. -/
theorem skipBios : Obligations.SkipBios := by
  unfold Obligations.SkipBios
  intro s t
  exact ⟨skipBios_word, rfl, rfl, zeroSpsr_word, skipBios_regs,
    sameMemory_of rfl rfl rfl rfl, rfl, rfl, rfl, rfl⟩

end Sys2Proof.Machine
end

section
/-! SUPPORT. The frame (47_ppu_render R1103, R1155, R1161, R1162): where a pixel stands in the framebuffer, the colour expansion, and
which layer is in front. -/

namespace Sys2Proof.Machine

open Sys2Proof

/-! ### The framebuffer (R1162) -/

section
variable {α : Type} {f : Nat → List α} {c : Nat} (hlen : ∀ i, (f i).length = c)
include hlen

theorem length_flatMap_range (n : Nat) : ((List.range n).flatMap f).length = c * n := by
  simp [List.length_flatMap, hlen, Nat.mul_comm]

/-- Chunk i of equal chunks in a row. -/
theorem take_drop_flatMap_range {n i : Nat} (hi : i < n) : (((List.range n).flatMap f).drop (c * i)).take c = f i := by
  obtain ⟨m, rfl⟩ : ∃ m, n = i + 1 + m := Nat.exists_eq_add_of_le hi
  rw [List.range_add, List.range_succ, List.flatMap_append, List.flatMap_append, List.append_assoc,
    List.drop_left' (length_flatMap_range hlen i), List.flatMap_singleton, List.take_left' (hlen i)]

end

theorem State.renderRow_length (s : State) (y : Nat) : (s.renderRow y).length = 960 :=
  length_flatMap_range (f := fun x => (s.renderPixel x y).bytes) (c := 4) (fun _ => rfl) 240

theorem State.render_length (s : State) : s.render.length = 153600 := length_flatMap_range s.renderRow_length 160

/-- The four bytes at 4 (240 y + x) are those of pixel (x, y): pixel x of row y. -/
theorem State.render_pixel (s : State) {x y : Nat} (hx : x < 240) (hy : y < 160) :
    (s.render.drop (4 * (240 * y + x))).take 4 = (s.renderPixel x y).bytes := by
  have hrow : (s.render.drop (960 * y)).take 960 = s.renderRow y := take_drop_flatMap_range s.renderRow_length hy
  have hpixel : ((s.renderRow y).drop (4 * x)).take 4 = (s.renderPixel x y).bytes :=
    take_drop_flatMap_range (f := fun x => (s.renderPixel x y).bytes) (fun _ => rfl) hx
  have hat : 4 * (240 * y + x) = 960 * y + 4 * x := by omega
  rw [← hpixel, ← hrow, List.drop_take, List.take_take, List.drop_drop, hat, Nat.min_eq_left (by omega)]

/-! ### Colours (R1161) -/

theorem expand5_toNat : ∀ v : BitVec 5, (expand5 v).toNat = v.toNat * 8 + v.toNat / 4 := by decide

/-- A field of a word, as a number. -/
theorem toNat_extractLsb' {n : Nat} (x : BitVec n) (lo len : Nat) : (x.extractLsb' lo len).toNat = bitsOf x.toNat lo len := by
  rw [BitVec.extractLsb'_toNat, Nat.shiftRight_eq_div_pow, bitsOf]

/-- Settles O23: rows of equal length of pixels of equal length; the colour expansion by its five bits. -/
theorem framebufferLayout : Obligations.FramebufferLayout := by
  unfold Obligations.FramebufferLayout
  refine ⟨fun s => ⟨s.render_length, fun x y hx hy => s.render_pixel hx hy⟩, fun c => ?_⟩
  have channel : ∀ lo, (expand5 (c.extractLsb' lo 5)).toNat = c.toNat / 2 ^ lo % 32 * 8 + c.toNat / 2 ^ lo % 32 / 4 :=
    fun lo => by rw [expand5_toNat, toNat_extractLsb']; rfl
  exact ⟨(channel 0).trans (by rw [pow_zero, Nat.div_one]), channel 5, channel 10, rfl⟩

/-! ### Composition (R1103, R1155) -/

/-- The front layer is one of the layers. -/
theorem mem_of_frontLayer {layers : List (Nat × Fin 4 × Half)} : ∀ {l}, frontLayer layers = some l → l ∈ layers := by
  induction layers with
  | nil => exact fun h => nomatch h
  | cons head rest ih =>
    intro l h
    rw [frontLayer] at h
    cases hrest : frontLayer rest with
    | none => simp_all
    | some m =>
      rw [hrest] at h
      dsimp only at h
      split at h <;> obtain rfl := Option.some.inj h
      · exact List.mem_cons_self
      · exact List.mem_cons_of_mem _ (ih hrest)

/-- In a list by rising number the front layer is the one of least priority, of least number among equals. -/
theorem frontLayer_eq {layers : List (Nat × Fin 4 × Half)} (hrising : layers.Pairwise fun a b => a.2.1 < b.2.1)
    {l : Nat × Fin 4 × Half} (hl : l ∈ layers) (hleast : ∀ m ∈ layers, l.1 < m.1 ∨ (l.1 = m.1 ∧ l.2.1 ≤ m.2.1)) :
    frontLayer layers = some l := by
  induction layers with
  | nil => cases hl
  | cons head rest ih =>
    rw [List.pairwise_cons] at hrising
    obtain ⟨hhead, hrest⟩ := hrising
    rw [frontLayer]
    rcases List.mem_cons.1 hl with rfl | hl
    · cases hm : frontLayer rest with
      | none => rfl
      | some m =>
        have := hleast m (List.mem_cons_of_mem _ (mem_of_frontLayer hm))
        exact if_pos (by omega)
    · rw [ih hrest hl fun m hm => hleast m (List.mem_cons_of_mem _ hm)]
      have hnumber := hhead l hl
      have := hleast head List.mem_cons_self
      exact if_neg (by omega)

/-- The opaque enabled backgrounds, each with its priority, number and colour. -/
theorem State.mem_opaqueLayers (s : State) (mode x y : Nat) (l : Nat × Fin 4 × Half) : l ∈ s.opaqueLayers mode x y ↔
    s.io.bgEnabled l.2.1 = true ∧ s.layerPixel mode l.2.1 x y = some l.2.2 ∧ l.1 = s.io.bg[l.2.1].priority := by
  obtain ⟨priority, n, c⟩ := l
  have hall : ∀ m : Fin 4, m ∈ ([0, 1, 2, 3] : List (Fin 4)) := by decide
  simp only [State.opaqueLayers, List.mem_filterMap]
  constructor
  · rintro ⟨m, -, h⟩
    split at h
    · rename_i henabled
      obtain ⟨c', hc, h⟩ := Option.map_eq_some_iff.1 h
      cases h
      exact ⟨henabled, hc, rfl⟩
    · cases h
  · rintro ⟨henabled, hc, hpriority⟩
    exact ⟨n, hall n, by rw [if_pos henabled, hc, hpriority]; rfl⟩

theorem State.opaqueLayers_rising (s : State) (mode x y : Nat) :
    (s.opaqueLayers mode x y).Pairwise fun a b => a.2.1 < b.2.1 := by
  refine List.Pairwise.filterMap (R := (· < ·)) _ (fun n m hnm a ha b hb => ?_) (by decide)
  have number : ∀ {k : Fin 4} {l : Nat × Fin 4 × Half}, (if s.io.bgEnabled k then
      (s.layerPixel mode k x y).map fun c => (s.io.bg[k].priority, k, c) else none) = some l → l.2.1 = k := by
    intro k l h
    split at h
    · obtain ⟨c, -, rfl⟩ := Option.map_eq_some_iff.1 h; rfl
    · cases h
  rw [number ha, number hb]
  exact hnm

section
variable {s : State} {x y : Nat} (hblank : s.io.forcedBlank = false) (hmode : s.io.bgMode ≤ 5)
include hblank hmode

/-- A pixel of modes 0 to 5 where some enabled background is opaque. -/
theorem State.renderPixel_front {priority : Nat} {n : Fin 4} {c : Half}
    (hfront : frontLayer (s.opaqueLayers s.io.bgMode x y) = some (priority, n, c)) : s.renderPixel x y = colourOf c := by
  rw [State.renderPixel, hblank, if_neg (by decide), if_neg (Nat.not_le.2 (Nat.lt_succ_of_le hmode)), hfront]

/-- A pixel of modes 0 to 5 where none is. -/
theorem State.renderPixel_backdrop (hfront : frontLayer (s.opaqueLayers s.io.bgMode x y) = none) :
    s.renderPixel x y = colourOf (s.palette 0) := by
  rw [State.renderPixel, hblank, if_neg (by decide), if_neg (Nat.not_le.2 (Nat.lt_succ_of_le hmode)), hfront]

end

/-- Settles O24: the front layer of the opaque backgrounds, or none of them. -/
theorem composition : Obligations.Composition := by
  unfold Obligations.Composition
  intro s x y
  refine ⟨fun hblank => if_pos hblank, fun hblank hmode => ?_⟩
  refine ⟨fun n c henabled hc hleast => ?_, fun hnone => ?_⟩
  · have hl : (s.io.bg[n].priority, n, c) ∈ s.opaqueLayers s.io.bgMode x y := (s.mem_opaqueLayers _ x y _).2 ⟨henabled, hc, rfl⟩
    have hfront : frontLayer (s.opaqueLayers s.io.bgMode x y) = some (s.io.bg[n].priority, n, c) := by
      refine frontLayer_eq (s.opaqueLayers_rising _ x y) hl fun m hm => ?_
      obtain ⟨hon, hopaque, hpriority⟩ := (s.mem_opaqueLayers _ x y m).1 hm
      rw [hpriority]
      exact hleast m.2.1 hon (by rw [hopaque]; nofun)
    exact State.renderPixel_front hblank hmode hfront
  · have hempty : s.opaqueLayers s.io.bgMode x y = [] := by
      refine List.eq_nil_iff_forall_not_mem.2 fun l hl => ?_
      obtain ⟨henabled, hopaque, -⟩ := (s.mem_opaqueLayers _ x y l).1 hl
      rw [hnone _ henabled] at hopaque
      cases hopaque
    exact State.renderPixel_backdrop hblank hmode (by rw [hempty]; rfl)

end Sys2Proof.Machine
end

section
/-! SUPPORT. The layers (47_ppu_render R1102, R1120 to R1150): the fields of the registers, the bytes of VRAM and the palette in
exact arithmetic, then the pixel of each kind of layer. -/

namespace Sys2Proof.Machine

open Sys2Proof

/-! ### Fields -/

theorem getLsbD_iff_bitsOf {n : Nat} (x : BitVec n) (i : Nat) : x.getLsbD i = true ↔ bitsOf x.toNat i 1 = 1 := by
  rw [← BitVec.testBit_toNat, Nat.testBit_eq_decide_div_mod_eq, decide_eq_true_eq]
  rfl

theorem toNat_getLsbD {n : Nat} (x : BitVec n) (i : Nat) : (x.getLsbD i).toNat = bitsOf x.toNat i 1 := by
  have hbit := getLsbD_iff_bitsOf x i
  have hlt : bitsOf x.toNat i 1 < 2 := Nat.mod_lt _ (by decide)
  cases hx : x.getLsbD i with
  | true => exact (hbit.1 hx).symm
  | false =>
    have hne : ¬ bitsOf x.toNat i 1 = 1 := fun h => Bool.false_ne_true (hx.symm.trans (hbit.2 h))
    simp only [Bool.toNat_false]
    omega

theorem Bg.size_mod_two (g : Bg) : g.size % 2 = bitsOf g.cnt.toNat 14 1 := by
  rw [Bg.size, toNat_extractLsb', bitsOf, bitsOf]
  omega

theorem Bg.two_le_size (g : Bg) : 2 ≤ g.size ↔ bitsOf g.cnt.toNat 15 1 = 1 := by
  have hcnt := g.cnt.isLt
  rw [Bg.size, toNat_extractLsb', bitsOf, bitsOf]
  omega

theorem textWidth_size (g : Bg) : textWidth g.size = if bitsOf g.cnt.toNat 14 1 = 1 then 512 else 256 := by
  rw [textWidth, g.size_mod_two]

theorem textHeight_size (g : Bg) : textHeight g.size = if bitsOf g.cnt.toNat 15 1 = 1 then 512 else 256 :=
  if_congr g.two_le_size rfl rfl

/-- The screen pixel after mosaic (R1150). -/
theorem mosaicAt_eq (s : State) (g : Bg) (x y : Nat) :
    s.io.mosaicAt g x y = (mosaicCoord s g.cnt.toNat 0 x, mosaicCoord s g.cnt.toNat 4 y) := by
  rw [Io.mosaicAt, Bg.mosaic, mosaicCoord, mosaicCoord, if_congr (getLsbD_iff_bitsOf g.cnt 6) rfl rfl, toNat_extractLsb',
    toNat_extractLsb']
  split <;> rfl

/-! ### VRAM and the palette (R1123, R1160) -/

/-- A halfword that the PPU reads is the number its two bytes make. -/
theorem memRead_half_ppu (s : State) (base o : Nat) :
    (s.memRead .ppu (BitVec.ofNat 32 base + BitVec.ofNat 32 o) .half).setWidth 16 = ppuHalf s (base + o) := by
  apply BitVec.eq_of_toNat_eq
  rw [ppuHalf, BitVec.toNat_setWidth, BitVec.toNat_ofNat, memRead_half_toNat, ← BitVec.ofNat_add, BitVec.ofNat_add (x := base + o)]
  rfl

theorem State.palette_eq (s : State) (i : Nat) : s.palette i = ppuHalf s (0x05000000 + 2 * i) := memRead_half_ppu s _ _

theorem State.vram16_eq (s : State) (o : Nat) : s.vram16 o = ppuHalf s (0x06000000 + o) := memRead_half_ppu s _ _

theorem State.vram_eq (s : State) (o : Nat) : s.vram o = s.readByte .ppu (BitVec.ofNat 32 (0x06000000 + o)) := by
  apply BitVec.eq_of_toNat_eq
  rw [State.vram, BitVec.toNat_setWidth, memRead_byte_toNat, Nat.mod_eq_of_lt (BitVec.isLt _), BitVec.ofNat_add]
  rfl

theorem indexed8_eq (s : State) (i bank : Nat) : s.indexed8 i bank = paletteColour s bank i := by
  rw [State.indexed8, paletteColour, s.palette_eq]

/-- A VRAM byte of the tile modes (R1123). -/
theorem tileByte_toNat (s : State) (o : Nat) : (s.tileByte o).toNat = tileVram s o := by
  rw [State.tileByte, tileVram, s.vram_eq]
  split <;> rfl

/-- A halfword of the tile modes is its two bytes: an even offset and the next one lie on one side of the limit (R1123). -/
theorem tileHalf_toNat (s : State) {o : Nat} (heven : o % 2 = 0) :
    (s.tileHalf o).toNat = tileVram s o + 0x100 * tileVram s (o + 1) := by
  have hnext : 0x10000 ≤ o + 1 ↔ 0x10000 ≤ o := by omega
  rw [State.tileHalf, s.vram16_eq, tileVram, tileVram, if_congr hnext rfl rfl]
  split
  · rfl
  · have hlow := (s.readByte .ppu (BitVec.ofNat 32 (0x06000000 + o))).isLt
    have hhigh := (s.readByte .ppu (BitVec.ofNat 32 (0x06000000 + (o + 1)))).isLt
    rw [ppuHalf, BitVec.toNat_ofNat, Nat.add_assoc]
    exact Nat.mod_eq_of_lt (by omega)

/-! ### Text layers (R1120 to R1123) -/

/-- The map entry at its place (R1121). -/
theorem textEntry_toNat (s : State) (g : Bg) (tx ty : Nat) :
    let at0 := bitsOf g.cnt.toNat 8 5 * 0x800 + (tx / 256 + ty / 256 * (textWidth g.size / 256)) * 0x800 + ty % 256 / 8 * 64 +
      tx % 256 / 8 * 2
    (s.textEntry g tx ty).toNat = tileVram s at0 + 0x100 * tileVram s (at0 + 1) := by
  rw [State.textEntry, Bg.screenBase, toNat_extractLsb']
  exact tileHalf_toNat s (by omega)

/-- The pixel of a map entry e (R1122). -/
theorem textTile_eq (s : State) (g : Bg) (tx ty : Nat) :
    let e := (s.textEntry g tx ty).toNat
    let px := if bitsOf e 10 1 = 1 then 7 - tx % 8 else tx % 8
    let py := if bitsOf e 11 1 = 1 then 7 - ty % 8 else ty % 8
    let tiles := bitsOf g.cnt.toNat 2 2 * 0x4000
    s.textTile g tx ty =
      if bitsOf g.cnt.toNat 7 1 = 1 then paletteColour s 0 (tileVram s (tiles + bitsOf e 0 10 * 64 + py * 8 + px))
      else paletteColour s (16 * bitsOf e 12 4) (if px % 2 = 0 then
        bitsOf (tileVram s (tiles + bitsOf e 0 10 * 32 + py * 4 + px / 2)) 0 4
        else bitsOf (tileVram s (tiles + bitsOf e 0 10 * 32 + py * 4 + px / 2)) 4 4) := by
  simp only [State.textTile, Bg.colours256, Bg.charBase, getLsbD_iff_bitsOf, toNat_extractLsb', tileByte_toNat, indexed8_eq]

theorem textPixel_eq (s : State) (n : Fin 4) (x y : Nat) : s.textPixel s.io.bg[n] x y = textLayer s n x y := by
  simp only [State.textPixel, textTile_eq, textEntry_toNat, textWidth_size, textHeight_size, toNat_extractLsb']
  rfl

/-! ### Affine layers (R1130) -/

/-- The reference point is a signed number of 28 bits (R124). -/
theorem toInt_reference (ref : Word) : (ref.extractLsb' 0 28).toInt = Int.bmod ref.toNat (2 ^ 28) := by
  rw [← BitVec.setWidth_eq_extractLsb' (by decide)]
  exact BitVec.toInt_setWidth ref

theorem affineCoord_eq (ref : Word) (p q : Half) (x y : Nat) : affineCoord ref p q x y = affineMapCoord ref p q x y := by
  unfold affineCoord affineMapCoord
  rw [toInt_reference]

theorem affineTile_eq (s : State) (g : Bg) (size tx ty : Nat) : s.affineTile g size tx ty =
    paletteColour s 0 (tileVram s (bitsOf g.cnt.toNat 2 2 * 0x4000 +
      tileVram s (bitsOf g.cnt.toNat 8 5 * 0x800 + ty / 8 * (size / 8) + tx / 8) * 64 + ty % 8 * 8 + tx % 8)) := by
  simp only [State.affineTile, Bg.charBase, Bg.screenBase, toNat_extractLsb', tileByte_toNat, indexed8_eq]

theorem affinePixel_eq (s : State) (n : Fin 4) (f : Affine) (x y : Nat) :
    s.affinePixel s.io.bg[n] f x y = affineLayer s n f x y := by
  have hsize : 128 <<< s.io.bg[n].size = 128 * 2 ^ bitsOf s.io.bg[n].cnt.toNat 14 2 := by
    rw [Nat.shiftLeft_eq, Bg.size, toNat_extractLsb']
  have houtside : ∀ (size : Nat) (tx ty : Int) (pixel : Option Half),
      (if tx < 0 ∨ size ≤ tx ∨ ty < 0 ∨ size ≤ ty then none else pixel) =
        if 0 ≤ tx ∧ tx < size ∧ 0 ≤ ty ∧ ty < size then pixel else none := by
    intro size tx ty pixel
    rw [← ite_not]
    exact if_congr (by omega) rfl rfl
  simp only [State.affinePixel, affineLayer, hsize, affineCoord_eq, affineTile_eq, Bg.wrap, getLsbD_iff_bitsOf, houtside]

/-! ### The bitmap (R1140) -/

theorem bitmapPixel_eq (s : State) {mode : Nat} (hmode : mode = 3 ∨ mode = 4 ∨ mode = 5) (x y : Nat) :
    s.bitmapPixel mode x y = bitmapLayer s mode x y := by
  have hframe : s.io.frameSelect = bitsOf s.io.dispcnt.toNat 4 1 := toNat_getLsbD _ _
  rcases hmode with rfl | rfl | rfl <;>
    simp only [State.bitmapPixel, bitmapLayer, hframe, s.vram16_eq, s.vram_eq, indexed8_eq, ← Nat.add_assoc] <;> rfl

/-! ### The layers of the modes (R1102) -/

section
variable (s : State) (mode : Nat) (n : Fin 4) (x y : Nat)

theorem layerPixel_text (h : layerOf mode n = .text) : s.layerPixel mode n x y =
    textLayer s n (mosaicCoord s s.io.bg[n].cnt.toNat 0 x) (mosaicCoord s s.io.bg[n].cnt.toNat 4 y) := by
  simp only [State.layerPixel, h, mosaicAt_eq, textPixel_eq]

theorem layerPixel_affine (h : layerOf mode n = .affine) : s.layerPixel mode n x y = affineLayer s n (s.io.affineOf n)
    (mosaicCoord s s.io.bg[n].cnt.toNat 0 x) (mosaicCoord s s.io.bg[n].cnt.toNat 4 y) := by
  simp only [State.layerPixel, h, mosaicAt_eq, affinePixel_eq]

theorem layerPixel_bitmap (h : layerOf mode n = .bitmap) (hmode : mode = 3 ∨ mode = 4 ∨ mode = 5) : s.layerPixel mode n x y =
    bitmapLayer s mode (mosaicCoord s s.io.bg[n].cnt.toNat 0 x) (mosaicCoord s s.io.bg[n].cnt.toNat 4 y) := by
  simp only [State.layerPixel, h, mosaicAt_eq, bitmapPixel_eq s hmode]

theorem layerPixel_absent (h : layerOf mode n = .absent) : s.layerPixel mode n x y = none := by
  simp only [State.layerPixel, h]

end

/-- Settles O25: by the kind of layer that the background is in the mode. -/
theorem layerPixels : Obligations.LayerPixels := by
  unfold Obligations.LayerPixels
  intro s x y n mx my
  refine ⟨fun mode h => layerPixel_text s mode n x y ?_, fun mode ⟨hmode, hn⟩ => ?_, fun hn => ?_, fun mode ⟨hmode, hn⟩ => ?_,
    fun mode h => layerPixel_absent s mode n x y ?_⟩
  · rcases h with rfl | ⟨rfl, hn⟩
    · rfl
    · revert n; decide
  · subst hn
    exact layerPixel_affine s mode 2 x y (by rcases hmode with rfl | rfl <;> rfl)
  · subst hn
    exact layerPixel_affine s 2 3 x y rfl
  · subst hn
    exact layerPixel_bitmap s mode 2 x y (by rcases hmode with rfl | rfl | rfl <;> rfl) hmode
  · rcases h with ⟨rfl, hn⟩ | ⟨rfl, hn⟩ | ⟨rfl | rfl | rfl, hn⟩ <;> revert n <;> decide

end Sys2Proof.Machine
end
